-- ==== Sys2Proof/Word.lean ====
section
/-! DEFINITION. The word types of the BLE-ADV core (spec R8): unsigned bit vectors of the widths the spec uses. -/

namespace Sys2Proof

/-- `u8` of R8. -/
abbrev Byte := BitVec 8

/-- `u16` of R8. -/
abbrev U16 := BitVec 16

/-- `u32` of R8. -/
abbrev U32 := BitVec 32

/-- The 64-bit request word of R80. -/
abbrev U64 := BitVec 64

end Sys2Proof
end

