-- ==== Sys2Proof/Syntax.lean ====
section
/-! DEFINITION. The data types of R11, the request of R80, and `Instr`: one constructor per row of
spec/opcode_table.json (R82). An instruction of this hardware is a request whose `OP` byte is in the operation map;
its other fields are carried as presented, because the checks on them belong to the request itself (R83 steps 2 to 4)
and answer with a status. -/

namespace Sys2Proof

/-- The 17 Command kinds, in the order of the codes of R86. -/
inductive Kind where
  | noOp | pair | unpair | custom
  | lightOn | lightOff | lightDim | lightColorTemp | lightWhiteColor
  | lightSecondaryOn | lightSecondaryOff
  | fanOn | fanOff | fanSpeed | fanOnOffSpeed | fanDirection | fanOscillate
  deriving DecidableEq, Repr

/-- The `N_ARGS` = 5 argument bytes of a Command or a RealCommand (R7, decision D6). -/
structure Args where
  a0 : Byte
  a1 : Byte
  a2 : Byte
  a3 : Byte
  a4 : Byte
  deriving DecidableEq, Repr

/-- A `Command` (R11). -/
structure Command where
  kind : Kind
  cmd  : U16
  args : Args
  deriving DecidableEq, Repr

/-- A `ControllerParams` (R11, R21). -/
structure Params where
  id    : U32
  index : Byte
  tx    : Byte
  seed  : U16
  deriving DecidableEq, Repr

/-- A `RealCommand` (R11). -/
structure RealCommand where
  cmd  : U16
  args : Args
  deriving DecidableEq, Repr

/-- A `WireParam` (R11). `data` is `buf[0..len)`, so `len` is its length; the bytes `buf[len..31)` are no part of the
packet, are ignored on input and are 0 on output (R61), so they are not held. -/
structure WireParam where
  data     : List Byte
  flagsIdx : Byte
  dataIdx  : Byte
  duration : U16
  deriving DecidableEq, Repr

/-- The fields of a request other than `OP` (R80): `SEL`, `LEN`, `IMM` and the payload the host sent. -/
structure Fields where
  sel     : Byte
  len     : U16
  imm     : U32
  payload : List Byte
  deriving DecidableEq, Repr

/-- A request as presented on the request port: the 64-bit word and the payload bytes sent after it (R80). -/
structure Request where
  word    : U64
  payload : List Byte
  deriving DecidableEq, Repr

/-- The 35 operations of R82, in the order of the table. The letter is the group of R91. -/
inductive Instr where
  | pWhitenLfsr (r : Fields)
  | pWhitenTable (r : Fields)
  | pRevBits (r : Fields)
  | pRevBitsAll (r : Fields)
  | pRevBytes (r : Fields)
  | pCrcCcitt (r : Fields)
  | pCrcRefl (r : Fields)
  | pAesSign16 (r : Fields)
  | pPivotFix (r : Fields)
  | kIdentifier (r : Fields)
  | kIsSupported (r : Fields)
  | kTranslate (r : Fields)
  | kEncode (r : Fields)
  | kDecode (r : Fields)
  | gLookupId (r : Fields)
  | gLookupFv (r : Fields)
  | gCount (r : Fields)
  | gIdentify (r : Fields)
  | gDescribe (r : Fields)
  | qSetParams (r : Fields)
  | qGetParams (r : Fields)
  | qSetCodec (r : Fields)
  | qSetMintx (r : Fields)
  | qSetSeqdur (r : Fields)
  | qEnqueue (r : Fields)
  | qDequeueFront (r : Fields)
  | qPump (r : Fields)
  | qStatus (r : Fields)
  | sAddBatch (r : Fields)
  | sRemoveBatch (r : Fields)
  | sTick (r : Fields)
  | sStatus (r : Fields)
  | xFromRaw (r : Fields)
  | xInjectHex (r : Fields)
  | xCapture (r : Fields)
  deriving DecidableEq, Repr

end Sys2Proof
end

