-- ==== Sys2Proof/Config.lean ====
section
/-! DEFINITION. The implementation parameters of R7, R200, R230 and R260, as one structure `Config` that every function
of the model takes as an argument, and the free values of the seed source (R169, R442). The configuration is fixed for
a build and is not state (R36, R471). The build's own configuration is `Sys2Proof.Config.build`
(Sys2Proof/Machine/Build.lean): an arbitrary configuration that keeps the laws of Sys2Proof/Machine/Lawful.lean. -/

namespace Sys2Proof

/-- The two families of R301. -/
inductive Family where
  | fanlamp | zhijia
  deriving DecidableEq, Repr

/-- The layout families of R160. -/
inductive LayoutFamily where
  | flv1 | flv2 | zj0 | zj1 | zj2
  deriving DecidableEq, Repr

/-- `FLV1_REVERSAL` (R200): byte order of the region (R136), or the bits of each byte (R135). -/
inductive Reversal where
  | byteOrder | bitEach
  deriving DecidableEq, Repr

/-- The byte order of the multi-byte wire fields of a layout family, `WIRE_ORDER_f` (R65). -/
inductive ByteOrder where
  | little | big
  deriving DecidableEq, Repr

/-- `AD_v`, the advertisement wrapping of a codec (R96). -/
structure AdWrap where
  flagsPresent : Bool
  flagsValue   : Byte
  adType       : Byte
  deriving DecidableEq, Repr

/-- The parameters of one FanLamp v1 variant (R200). `header` is `PREFIX_u`; `crc2` is `some CRC2_INIT_u` exactly when
`CRC2_u` is true; `xor1` is `XOR1_u`. -/
structure Flv1Variant where
  header : List Byte
  supp   : Option Byte
  wlen   : Nat
  xor1   : Bool
  crc2   : Option U16
  outs   : RealCommand → Byte
  fix    : U16 → Args → Args
  check  : U16 → Args → Bool

/-- The semantic fields a Zhijia packet carries (R263): `args` has `ZJ_ARGS` bytes and `uuid` the low `ZJ_UUID_BYTES`
bytes of the id, low byte first (none for v2, R281). -/
structure ZjFields where
  cmd8  : Byte
  args  : List Byte
  uuid  : List Byte
  tx    : Byte
  index : Byte
  deriving DecidableEq, Repr

/-- The names of the semantic fields, for `PIVOT_FIELDS1` and `PIVOT_FIELDS2` (R260). -/
inductive ZjField where
  | cmd8 | args | uuid | tx | index
  deriving DecidableEq, Repr

/-- The source's closed tagged variant `CodecKind` (R160): a concrete codec of one (family, variant) with the variant's
parameters, or the aggregate of a family. `flv1 k u` is the k-th entry `u` of `FLV1_VARIANTS` (R301). -/
inductive CodecKind where
  | flv1 (k : Nat) (u : Flv1Variant)
  | flv2 (signed : Bool)
  | zj0
  | zj1
  | zj2
  | aggregate (fam : Family)

/-- A registry entry (R160). `fam`, `var`, `agg`, `lf` and `decodes` are functions of `kind`
(Sys2Proof/Machine/Codec.lean). `translate` is `TRANSLATE_v` (R162), of no effect for an aggregate. -/
structure Codec where
  kind      : CodecKind
  ident     : List Byte
  ad        : AdWrap
  translate : Command → Params → List RealCommand

/-- Every parameter of R7, R200, R230 and R260 to which the spec gives no single value. -/
structure Config where
  /-- `N_CTRL`. -/
  nCtrl : Nat
  /-- `FIFO_CAP`. -/
  fifoCap : Nat
  /-- `CQ_CAP`. -/
  cqCap : Nat
  /-- `MAX_PKTS`. -/
  maxPkts : Nat
  /-- `DEDUP_CAP`. -/
  dedupCap : Nat
  /-- `REG_LIST`, in registration order (R300); `REG_N` is its length. -/
  registry : List Codec
  /-- `MINTX_RESET`. -/
  mintxReset : U16
  /-- `CODEC_RESET[c]`. -/
  codecReset : Nat → Byte
  /-- `ID_RESET[c]`. -/
  idReset : Nat → U32
  /-- `XBOX` (R133). -/
  xbox : Fin 128 → Byte
  /-- `LFSR_KS(seed, n)[i]`, byte i of the keystream (R130): one stream per seed, so a shorter keystream is a prefix of
  a longer one. `Config.LfsrLawful` says that a 7-bit shift register gives it. -/
  lfsrKs : Byte → Nat → Byte
  /-- `WIRE_ORDER_f` (R65), per layout family; its default is little-endian. -/
  wireOrder : LayoutFamily → ByteOrder := fun _ => .little
  /-- `CEIL_f`. -/
  ceil : LayoutFamily → Nat
  /-- The ceiling of an aggregate that has no member, a value the spec does not state (R302 gives the least of the
  members' ceilings). -/
  emptyCeil : Family → Nat
  /-- `IDENT_PREFILTER` (R311). -/
  prefilter : Bool
  /-- `FLV1_VARIANTS` (R200). -/
  flv1Variants : List Flv1Variant
  /-- `FLV1_REVERSAL`. -/
  flv1Reversal : Reversal
  /-- `GROUP(id, index)`. -/
  group : U32 → Byte → U16
  /-- `GROUP_INV`. -/
  groupInv : U16 → Option (U32 × Byte)
  /-- The bits of the id and of the index that `GROUP` carries (`carried_id`, `carried_index` of R176; R209, OPEN). -/
  groupId : U32
  groupIndex : Byte
  /-- `SRC(seed)`. -/
  src : U16 → Byte
  /-- `R2(seed)`. -/
  r2 : U16 → Byte
  /-- `PAIR_OP`, "the FLV1 opcode of pairing" (R200). No law ties it to what an FLV1 codec's TRANSLATE gives the kind
  Pair: DESIGN CHOICE (log 28). -/
  pairOp : Byte
  /-- `FLV2_PREFIX_S` (R230). -/
  flv2PrefixS : List Byte
  /-- `TYPE_u` by signedness (R230). -/
  flv2Type : Bool → U16
  /-- `KEY_BASE`. -/
  keyBase : List Byte
  /-- `WH_START`. -/
  whStart : Nat
  /-- `WH_END`. -/
  whEnd : Nat
  /-- `ZJ_CRC_INIT` (R260). -/
  zjCrcInit : U16
  /-- `ZJ_UUID_BYTES`. -/
  zjUuidBytes : Nat
  /-- `ZJ_ARGS`. -/
  zjArgs : Nat
  /-- `ZJ0_MAC`. -/
  zj0Mac : List Byte
  /-- `ZJ1_ADDR`. -/
  zj1Addr : List Byte
  /-- `SPARE2`. -/
  spare2 : List Byte
  /-- `MIX0`. -/
  mix0 : ZjFields → List Byte
  /-- `UNMIX0`. -/
  unmix0 : List Byte → Option ZjFields
  /-- `MIX1`. -/
  mix1 : ZjFields → List Byte
  /-- `UNMIX1`. -/
  unmix1 : List Byte → Option ZjFields
  /-- `MIX2`. -/
  mix2 : ZjFields → List Byte
  /-- `UNMIX2`. -/
  unmix2 : List Byte → Option ZjFields
  /-- `PIVOT_FIELDS1`. -/
  pivotFields1 : List ZjField
  /-- `PIVOT_FIELDS2`. -/
  pivotFields2 : List ZjField
  /-- The positions in `MIX1`'s output of the key, of the pivot and of the duplicate byte pairs (R271, OPEN). -/
  keyPos1 : Nat
  pivotPos1 : Nat
  dupPairs1 : List (Nat × Nat)
  /-- The positions in `MIX2`'s output of the explicit pivot and of the redundant derived bytes (R281, OPEN). -/
  pivotPos2 : Nat
  derivedPos2 : List Nat

/-- The value of the n-th draw that the seed source was not given in advance (R169: "any u16, including 0", under no
law). A free value: nothing constrains it. -/
opaque Config.seedDraw : Nat → U16

end Sys2Proof
end

