-- ==== Sys2Proof/Machine/Bytes.lean ====
section
/-! DEFINITION. Byte strings (R9): indexing, slices, byte orders, and the byte-wise XOR with a keystream. Every access
moves one byte (R67), every multi-byte field is read and written byte by byte at a named offset (R66). -/

namespace Sys2Proof.Machine

/-- `b[i]` (R9); 0 past the end, where no rule reads. -/
def byteAt (b : List Byte) (i : Nat) : Byte := b.getD i 0

/-- `b[i..j)` (R9). -/
def slice (b : List Byte) (i j : Nat) : List Byte := (b.drop i).take (j - i)

/-- `b` after `b[i..j) <- r` (R9). -/
def splice (b : List Byte) (i j : Nat) (r : List Byte) : List Byte := b.take i ++ r ++ b.drop j

/-- `le16(v)` (R9). -/
def le16 (v : U16) : List Byte := [v.extractLsb' 0 8, v.extractLsb' 8 8]

/-- `le32(v)` (R9). -/
def le32 (v : U32) : List Byte :=
  [v.extractLsb' 0 8, v.extractLsb' 8 8, v.extractLsb' 16 8, v.extractLsb' 24 8]

/-- `rd16le(b, i)` (R9). -/
def rd16le (b : List Byte) (i : Nat) : U16 := byteAt b (i + 1) ++ byteAt b i

/-- `rd32le(b, i)` (R9). -/
def rd32le (b : List Byte) (i : Nat) : U32 :=
  byteAt b (i + 3) ++ byteAt b (i + 2) ++ byteAt b (i + 1) ++ byteAt b i

/-- A 16-bit wire field of layout family `f`, in the family's byte order `WIRE_ORDER_f` (R65). -/
def wire16 (C : Config) (f : LayoutFamily) (v : U16) : List Byte :=
  match C.wireOrder f with
  | .little => le16 v
  | .big => (le16 v).reverse

/-- A 32-bit wire field of layout family `f` (R65). -/
def wire32 (C : Config) (f : LayoutFamily) (v : U32) : List Byte :=
  match C.wireOrder f with
  | .little => le32 v
  | .big => (le32 v).reverse

/-- Reads the 16-bit wire field of family `f` at offset `i`. -/
def rdWire16 (C : Config) (f : LayoutFamily) (b : List Byte) (i : Nat) : U16 :=
  match C.wireOrder f with
  | .little => rd16le b i
  | .big => rd16le (slice b i (i + 2)).reverse 0

/-- Reads the 32-bit wire field of family `f` at offset `i`. -/
def rdWire32 (C : Config) (f : LayoutFamily) (b : List Byte) (i : Nat) : U32 :=
  match C.wireOrder f with
  | .little => rd32le b i
  | .big => rd32le (slice b i (i + 4)).reverse 0

/-- `b` XORed byte by byte with the stream `ks`, whose byte `i` meets the first byte of `b` (R9 `b XOR k`). -/
def xorStream (ks : Nat → Byte) : Nat → List Byte → List Byte
  | _, [] => []
  | i, b :: bs => (b ^^^ ks i) :: xorStream ks (i + 1) bs

/-- The XOR of every byte of a byte string. -/
def xorAll (b : List Byte) : Byte := b.foldl (· ^^^ ·) 0

/-- `zeros(n)`. -/
def zeros (n : Nat) : List Byte := List.replicate n 0

/-- The argument bytes as a byte string. -/
def argBytes (a : Args) : List Byte := [a.a0, a.a1, a.a2, a.a3, a.a4]

/-- The first five bytes of a byte string as arguments, zeros for the missing ones. -/
def argsOfBytes (b : List Byte) : Args :=
  ⟨byteAt b 0, byteAt b 1, byteAt b 2, byteAt b 3, byteAt b 4⟩

/-- The first three argument bytes, the others 0: what an FLV1 packet carries (R203). -/
def args3 (a : Args) : Args := ⟨a.a0, a.a1, a.a2, 0, 0⟩

/-- The number a byte string of at most four bytes denotes, low byte first (`zext_32(uuid)`, R266). -/
def u32OfBytes (b : List Byte) : U32 := rd32le b 0

end Sys2Proof.Machine
end

