-- ==== Sys2Proof/Machine/Primitive.lean ====
section
/-! DEFINITION. The bit-stream primitives (R130 to R142) as the pure functions the codecs call. The requests P.* that
reach them are in Sys2Proof/Machine/PrimitiveRequest.lean. -/

namespace Sys2Proof.Machine

/-- `whitenLFSR(buf, n, seed)` (R130): the buffer XORed with the keystream `LFSR_KS(seed, n)`. -/
def whitenLfsr (C : Config) (buf : List Byte) (seed : Byte) : List Byte := xorStream (C.lfsrKs seed) 0 buf

/-- The index into `XBOX` of R133 for position `i`; it is always below 128 (R62). -/
def tableIndex (seed : U16) (salt : Byte) (i : Nat) : Fin 128 :=
  ⟨(seed.toNat + i + 9) % 32 + salt.toNat % 4 * 32, by omega⟩

/-- The byte the table whitener XORs into position `i` (R133); of the seed only the low byte is XORed (decision D54). -/
def tableKs (C : Config) (seed : U16) (salt : Byte) (i : Nat) : Byte :=
  C.xbox (tableIndex seed salt i) ^^^ seed.extractLsb' 0 8

/-- `whitenTable(buf, n, seed, salt)` (R133). -/
def whitenTable (C : Config) (buf : List Byte) (seed : U16) (salt : Byte) : List Byte :=
  xorStream (tableKs C seed salt) 0 buf

/-- `reverseBits(x)` (R134): pairs, then pairs of bits, then nibbles are swapped. -/
def reverseBits (x : Byte) : Byte :=
  let x := ((x &&& 0x55) <<< 1) ||| ((x >>> 1) &&& 0x55)
  let x := ((x &&& 0x33) <<< 2) ||| ((x >>> 2) &&& 0x33)
  ((x &&& 0x0F) <<< 4) ||| ((x >>> 4) &&& 0x0F)

/-- `reverseBitsAll(buf, n)` (R135). -/
def reverseBitsAll (buf : List Byte) : List Byte := buf.map reverseBits

/-- `reverseBytes(buf, n)` (R136). -/
def reverseBytes (buf : List Byte) : List Byte := buf.reverse

/-- One bit of the CRC-16-CCITT generator (R137). -/
def ccittBit (c : U16) : U16 := if c.msb then (c <<< 1) ^^^ 0x1021 else c <<< 1

/-- One byte of the CRC-16-CCITT generator: it enters at the top of the register (R137). -/
def ccittByte (c : U16) (b : Byte) : U16 := ccittBit^[8] (c ^^^ (b.setWidth 16 <<< 8))

/-- `crc16_ccitt_like(buf, n, initial)` (R137). -/
def crc16Ccitt (buf : List Byte) (initial : U16) : U16 := buf.foldl ccittByte initial

/-- One bit of the CRC-16-reflected generator (R138). -/
def reflBit (c : U16) : U16 := if c.getLsbD 0 then (c >>> 1) ^^^ 0x8408 else c >>> 1

/-- One byte of the CRC-16-reflected generator: it enters at the bottom of the register (R138). -/
def reflByte (c : U16) (b : Byte) : U16 := reflBit^[8] (c ^^^ b.setWidth 16)

/-- `crc16_reflected(buf, n, initial)` (R138). -/
def crc16Refl (buf : List Byte) (initial : U16) : U16 := buf.foldl reflByte initial

/-- The effective key of the signature engine: bytes 0 to 2 overwritten with seed low, seed high and tx_count (R139). -/
def signKey (key : List Byte) (seed : U16) (tx : Byte) : List Byte := le16 seed ++ tx :: key.drop 3

/-- `aesSign16(key16, plaintext16, seed, tx_count)` (R139); the first 16 bits of the ciphertext are read little-endian
(R64), and 0 becomes 0xFFFF. -/
def aesSign16 (key plain : List Byte) (seed : U16) (tx : Byte) : U16 :=
  let s := rd16le (aes128Encrypt (signKey key seed tx) plain) 0
  if s = 0 then 0xFFFF else s

/-- `pivotFix(x)` (R141), the idiom `x ^= (x & 1) - 1` with its unsigned wrap. -/
def pivotFix (x : Byte) : Byte := x ^^^ ((x &&& 1) - 1)

end Sys2Proof.Machine
end

