-- ==== Sys2Proof/Machine/Flv1.lean ====
section
/-! DEFINITION. The FanLamp v1 layout family FLV1 (R200 to R209): payload length, builder and checker. -/

namespace Sys2Proof.Machine

/-- What `DEC_lf` returns on success (R174). A field the layout does not carry is 0. -/
structure Decoded where
  rc    : RealCommand
  id    : U32
  index : Byte
  tx    : Byte
  seed  : U16
  deriving DecidableEq, Repr

/-- `H`, the header length (R201). -/
def flv1HeadLen (u : Flv1Variant) : Nat := u.header.length + u.supp.toList.length

/-- `PLEN_u` (R201). -/
def flv1Plen (u : Flv1Variant) : Nat := flv1HeadLen u + 14 + (if u.crc2.isSome then 2 else 0)

/-- `XOR1_u` as a byte (R200). -/
def flv1Xor1 (u : Flv1Variant) : Byte := if u.xor1 then 1 else 0

/-- `FLV1_REVERSAL` applied to the whitened region (R205). -/
def flv1Reverse (C : Config) (b : List Byte) : List Byte :=
  match C.flv1Reversal with
  | .byteOrder => reverseBytes b
  | .bitEach => reverseBitsAll b

/-- `F`, the twelve field bytes (R203, R205). -/
def flv1Fields (C : Config) (u : Flv1Variant) (rc : RealCommand) (id : U32) (index tx : Byte) (s : U16) :
    List Byte :=
  [rc.cmd.setWidth 8] ++ wire16 C .flv1 (C.group id index) ++ (argBytes (u.fix rc.cmd rc.args)).take 3 ++
    [tx, u.outs rc, C.src s ^^^ flv1Xor1 u, C.r2 s ^^^ flv1Xor1 u] ++ wire16 C .flv1 s

/-- The second CRC, over prefix and fields `P[0 .. H+12)`, when the variant has one (R205). -/
def flv1Crc2 (C : Config) (u : Flv1Variant) (covered : List Byte) : List Byte :=
  match u.crc2 with
  | some init => wire16 C .flv1 (crc16Ccitt covered init)
  | none => []

/-- The payload before the reversal and the whitening (R205). -/
def flv1Clear (C : Config) (u : Flv1Variant) (rc : RealCommand) (id : U32) (index tx : Byte) (s : U16) :
    List Byte :=
  let F := flv1Fields C u rc id index tx s
  let covered := u.header ++ u.supp.toList ++ F
  covered ++ wire16 C .flv1 (crc16Ccitt F (~~~s)) ++ flv1Crc2 C u covered

/-- `ENC_FLV1(u, rc, id, index, tx, s)` (R205); the whitened region is `P[B .. B + WLEN_u)` (R202), the LFSR seed is
0x6F (R206). -/
def encFlv1 (C : Config) (u : Flv1Variant) (rc : RealCommand) (id : U32) (index tx : Byte) (s : U16) :
    List Byte :=
  let P := flv1Clear C u rc id index tx s
  let B := u.header.length
  splice P B (B + u.wlen) (whitenLfsr C (flv1Reverse C (slice P B (B + u.wlen))) 0x6F)

/-- The payload with the whitening and the reversal of the region undone (R207). -/
def flv1Unwhiten (C : Config) (u : Flv1Variant) (P : List Byte) : List Byte :=
  let B := u.header.length
  splice P B (B + u.wlen) (flv1Reverse C (whitenLfsr C (slice P B (B + u.wlen)) 0x6F))

/-- The second CRC of a received packet agrees, or the variant has none (R207). -/
def flv1Crc2Ok (C : Config) (u : Flv1Variant) (Q : List Byte) (H : Nat) : Bool :=
  match u.crc2 with
  | some init => rdWire16 C .flv1 Q (H + 14) == crc16Ccitt (slice Q 0 (H + 12)) init
  | none => true

/-- The supplementary prefix byte of a received packet agrees, or the variant has none (R207). -/
def flv1SuppOk (u : Flv1Variant) (Q : List Byte) : Bool :=
  match u.supp with
  | some b => byteAt Q u.header.length == b
  | none => true

/-- `DEC_FLV1(u, P)` (R207); `none` is FAIL. The outs byte and the ceiling are not checked. -/
def decFlv1 (C : Config) (u : Flv1Variant) (P : List Byte) : Option Decoded :=
  if P.length ≠ flv1Plen u then none else
  if slice P 0 u.header.length ≠ u.header then none else
  let Q := flv1Unwhiten C u P
  if flv1SuppOk u Q = false then none else
  let H := flv1HeadLen u
  let F := slice Q H (H + 12)
  let s := rdWire16 C .flv1 F 10
  if rdWire16 C .flv1 Q (H + 12) ≠ crc16Ccitt F (~~~s) then none else
  if flv1Crc2Ok C u Q H = false then none else
  if byteAt F 8 ≠ C.src s ^^^ flv1Xor1 u ∨ byteAt F 9 ≠ C.r2 s ^^^ flv1Xor1 u then none else
  let a := argsOfBytes (slice F 3 6)
  let c : U16 := (byteAt F 0).setWidth 16
  if u.check c a = false then none else
  match C.groupInv (rdWire16 C .flv1 F 1) with
  | none => none
  | some (id, index) => some ⟨⟨c, a⟩, id, index, byteAt F 6, s⟩

end Sys2Proof.Machine
end

