-- ==== Sys2Proof/Machine/Flv2.lean ====
section
/-! DEFINITION. The FanLamp v2 layout family FLV2 (R230 to R239): builder and checker of the 25-byte payload. -/

namespace Sys2Proof.Machine

/-- `PREFIX_u` (R230): the unsigned variant's is the source's, the signed variant's is `FLV2_PREFIX_S`. -/
def flv2Prefix (C : Config) (signed : Bool) : List Byte :=
  if signed then C.flv2PrefixS else [0xF0, 0x08, 0x10, 0x80, 0x00]

/-- `CRC_START` and `CRC_END` (R230, 90 C2). -/
def flv2CrcStart : Nat := 2
def flv2CrcEnd : Nat := 23

/-- The CRC of a payload's bytes `[CRC_START, CRC_END)` from `~s` (R234). -/
def flv2Crc (P : List Byte) (s : U16) : U16 := crc16Ccitt (slice P flv2CrcStart flv2CrcEnd) (~~~s)

/-- The first 19 bytes: prefix, tx_count, type, id, group_index, command and args (R231, R232). -/
def flv2Head (C : Config) (signed : Bool) (rc : RealCommand) (id : U32) (index tx : Byte) : List Byte :=
  flv2Prefix C signed ++ [tx] ++ wire16 C .flv2 (C.flv2Type signed) ++ wire32 C .flv2 id ++ [index] ++
    wire16 C .flv2 rc.cmd ++ (argBytes rc.args).take 4

/-- The sign field (R233), computed over bytes `[1, 17)` before whitening. -/
def flv2Sign (C : Config) (signed : Bool) (P : List Byte) (s : U16) (tx : Byte) : U16 :=
  if signed then aesSign16 C.keyBase (slice P 1 17) s tx else 0

/-- The table whitening of the region `[WH_START, WH_END)` with the packet seed and salt 0 (R235); its own inverse. -/
def flv2Whiten (C : Config) (P : List Byte) (s : U16) : List Byte :=
  splice P C.whStart C.whEnd (whitenTable C (slice P C.whStart C.whEnd) s 0)

/-- `ENC_FLV2(u, rc, id, index, tx, s)` (R235): fields, sign, whitening, CRC. -/
def encFlv2 (C : Config) (signed : Bool) (rc : RealCommand) (id : U32) (index tx : Byte) (s : U16) : List Byte :=
  let head := flv2Head C signed rc id index tx
  let P := head ++ wire16 C .flv2 (flv2Sign C signed head s tx) ++ wire16 C .flv2 s ++ wire16 C .flv2 0
  let P := flv2Whiten C P s
  splice P 23 25 (wire16 C .flv2 (flv2Crc P s))

/-- `DEC_FLV2(u, P)` (R237); `none` is FAIL. -/
def decFlv2 (C : Config) (signed : Bool) (P : List Byte) : Option Decoded :=
  if P.length ≠ 25 then none else
  if slice P 0 5 ≠ flv2Prefix C signed then none else
  let s := rdWire16 C .flv2 P 21
  if rdWire16 C .flv2 P 23 ≠ flv2Crc P s then none else
  let Q := flv2Whiten C P s
  if rdWire16 C .flv2 Q 6 ≠ C.flv2Type signed then none else
  if rdWire16 C .flv2 Q 19 ≠ flv2Sign C signed Q s (byteAt Q 5) then none else
  some ⟨⟨rdWire16 C .flv2 Q 13, argsOfBytes (slice Q 15 19)⟩, rdWire32 C .flv2 Q 8, byteAt Q 12, byteAt Q 5, s⟩

end Sys2Proof.Machine
end

