-- ==== Sys2Proof/Machine/Zhijia.lean ====
section
/-! DEFINITION. The Zhijia layout families ZJ0, ZJ1 and ZJ2 (R260 to R285): builders and checkers over the configured
XOR chains `MIX` and `UNMIX`. Every table whitening has salt 0 (R260). -/

namespace Sys2Proof.Machine

/-- The bytes of one semantic field (R261). -/
def zjFieldBytes (f : ZjFields) : ZjField → List Byte
  | .cmd8 => [f.cmd8]
  | .args => f.args
  | .uuid => f.uuid
  | .tx => [f.tx]
  | .index => [f.index]

/-- Every byte of every semantic field (R271 (b)). -/
def zjBytes (f : ZjFields) : List Byte := f.cmd8 :: f.args ++ f.uuid ++ [f.tx, f.index]

/-- The pivot over a list of fields (R261). -/
def zjPivot (fields : List ZjField) (f : ZjFields) : Byte := pivotFix (xorAll (fields.flatMap (zjFieldBytes f)))

/-- The semantic fields of a v0 or v1 packet (R263, R264). The uuid is the low bytes of the id, lowest first, whatever
`WIRE_ORDER` of the family is: DESIGN CHOICE (log 30). -/
def zjFields (C : Config) (rc : RealCommand) (id : U32) (index tx : Byte) : ZjFields :=
  ⟨rc.cmd.setWidth 8, (argBytes rc.args).take C.zjArgs, (le32 id).take C.zjUuidBytes, tx, index⟩

/-- The semantic fields of a v2 packet: no uuid (R281). -/
def zj2Fields (C : Config) (rc : RealCommand) (index tx : Byte) : ZjFields :=
  ⟨rc.cmd.setWidth 8, (argBytes rc.args).take C.zjArgs, [], tx, index⟩

/-- The decoded fields as `DEC` returns them: `cmd8` zero-extended, `args ++ zeros`, the uuid as the id, seed 0 (R266). -/
def zjDecoded (f : ZjFields) : Decoded :=
  ⟨⟨f.cmd8.setWidth 16, argsOfBytes f.args⟩, u32OfBytes f.uuid, f.index, f.tx, 0⟩

/-- `ADDR0` (R262). -/
def zj0Addr (C : Config) : List Byte := reverseBitsAll (reverseBytes C.zj0Mac)

/-- `ENC_ZJ0` (R264). -/
def encZj0 (C : Config) (rc : RealCommand) (id : U32) (index tx : Byte) : List Byte :=
  let P := zj0Addr C ++ C.mix0 (zjFields C rc id index tx)
  let P := P ++ wire16 C .zj0 (crc16Refl (slice P 0 11) C.zjCrcInit)
  whitenTable C (whitenTable C P 0x7F 0) 0x37 0

/-- A v0 payload with its two whitenings undone (R265, R266). -/
def zj0Unwhiten (C : Config) (P : List Byte) : List Byte := whitenTable C (whitenTable C P 0x37 0) 0x7F 0

/-- A v1 payload with its whitening undone (R274). -/
def zj1Unwhiten (C : Config) (P : List Byte) : List Byte := whitenTable C P 0x37 0

/-- `DEC_ZJ0` (R266); `none` is FAIL. -/
def decZj0 (C : Config) (P : List Byte) : Option Decoded :=
  if P.length ≠ 13 then none else
  let Q := zj0Unwhiten C P
  if slice Q 0 3 ≠ zj0Addr C then none else
  if rdWire16 C .zj0 Q 11 ≠ crc16Refl (slice Q 0 11) C.zjCrcInit then none else
  (C.unmix0 (slice Q 3 11)).map zjDecoded

/-- `ENC_ZJ1` (R272). -/
def encZj1 (C : Config) (rc : RealCommand) (id : U32) (index tx : Byte) : List Byte :=
  let P := C.zj1Addr ++ C.mix1 (zjFields C rc id index tx)
  let P := P ++ wire16 C .zj1 (crc16Refl (slice P 0 21) C.zjCrcInit)
  whitenTable C P 0x37 0

/-- `DEC_ZJ1` (R274); `none` is FAIL. -/
def decZj1 (C : Config) (P : List Byte) : Option Decoded :=
  if P.length ≠ 23 then none else
  let Q := zj1Unwhiten C P
  if slice Q 0 4 ≠ C.zj1Addr then none else
  if rdWire16 C .zj1 Q 21 ≠ crc16Refl (slice Q 0 21) C.zjCrcInit then none else
  (C.unmix1 (slice Q 4 21)).map zjDecoded

/-- `ENC_ZJ2` (R282). -/
def encZj2 (C : Config) (rc : RealCommand) (index tx : Byte) : List Byte :=
  let P := C.mix2 (zj2Fields C rc index tx) ++ C.spare2
  let P := splice P 0 16 (whitenTable C (slice P 0 16) 0xD3 0)
  whitenTable C P 0x6F 0

/-- `DEC_ZJ2` (R284); `none` is FAIL. The spare bytes are not checked and the id is 0. -/
def decZj2 (C : Config) (P : List Byte) : Option Decoded :=
  if P.length ≠ 23 then none else
  let Q := whitenTable C P 0x6F 0
  let Q := splice Q 0 16 (whitenTable C (slice Q 0 16) 0xD3 0)
  (C.unmix2 (slice Q 0 16)).map fun f => { zjDecoded f with id := 0 }

end Sys2Proof.Machine
end

