-- ==== Sys2Proof/Machine/Descriptor.lean ====
section
/-! DEFINITION. The fields of a codec descriptor that its kind fixes (R160, R301), the members and the ceiling of an
aggregate (R300, R302), and the layout functions of a concrete codec (R173, R174). -/

namespace Sys2Proof.Machine

/-- The family code (R301). -/
def Family.code : Family → Byte
  | .fanlamp => 0
  | .zhijia => 1

/-- `fam` (R301). -/
def codecFam (v : Codec) : Family :=
  match v.kind with
  | .flv1 _ _ | .flv2 _ => .fanlamp
  | .zj0 | .zj1 | .zj2 => .zhijia
  | .aggregate f => f

/-- `var` (R301). -/
def codecVar (v : Codec) : Byte :=
  match v.kind with
  | .flv1 k _ => BitVec.ofNat 8 (0x10 + k)
  | .flv2 signed => if signed then 0x21 else 0x20
  | .zj0 => 0x00
  | .zj1 => 0x01
  | .zj2 => 0x02
  | .aggregate _ => 0xFF

/-- `agg` (R160). -/
def codecAgg (v : Codec) : Bool :=
  match v.kind with
  | .aggregate _ => true
  | _ => false

/-- `lf` of a concrete codec (R160); `none` for an aggregate (R301). -/
def codecLf (v : Codec) : Option LayoutFamily :=
  match v.kind with
  | .flv1 _ _ => some .flv1
  | .flv2 _ => some .flv2
  | .zj0 => some .zj0
  | .zj1 => some .zj1
  | .zj2 => some .zj2
  | .aggregate _ => none

/-- `decodes` (R160, 90 C4): true exactly for the concrete codecs. -/
def codecDecodes (v : Codec) : Bool := (codecLf v).isSome

/-- `PLEN_v` of a concrete codec (R201, R231, R262, R270, R280). -/
def codecPlen (v : Codec) : Nat :=
  match v.kind with
  | .flv1 _ u => flv1Plen u
  | .flv2 _ => 25
  | .zj0 => 13
  | .zj1 => 23
  | .zj2 => 23
  | .aggregate _ => 0

/-- The members of a family's aggregate: every concrete descriptor of the family, in registry order (R300 (c)). -/
def members (C : Config) (f : Family) : List Codec :=
  C.registry.filter fun u => !codecAgg u && decide (codecFam u = f)

/-- `CEIL(v)` (R302). -/
def ceilOf (C : Config) (v : Codec) : Nat :=
  match codecLf v with
  | some lf => C.ceil lf
  | none =>
    match (members C (codecFam v)).filterMap codecLf with
    | [] => C.emptyCeil (codecFam v)
    | lf :: rest => rest.foldl (fun m f => min m (C.ceil f)) (C.ceil lf)

/-- `ENC_lf(v)` (R173); the empty payload for an aggregate, which has no layout. -/
def encPayload (C : Config) (v : Codec) (rc : RealCommand) (id : U32) (index tx : Byte) (s : U16) : List Byte :=
  match v.kind with
  | .flv1 _ u => encFlv1 C u rc id index tx s
  | .flv2 signed => encFlv2 C signed rc id index tx s
  | .zj0 => encZj0 C rc id index tx
  | .zj1 => encZj1 C rc id index tx
  | .zj2 => encZj2 C rc index tx
  | .aggregate _ => []

/-- `DEC_lf(v)` (R174); an aggregate never decodes (R309). -/
def decPayload (C : Config) (v : Codec) (P : List Byte) : Option Decoded :=
  match v.kind with
  | .flv1 _ u => decFlv1 C u P
  | .flv2 signed => decFlv2 C signed P
  | .zj0 => decZj0 C P
  | .zj1 => decZj1 C P
  | .zj2 => decZj2 C P
  | .aggregate _ => none

/-- `fits(u, c)` (R163): the command field of FLV1 and Zhijia has 8 bits, that of FLV2 has 16. -/
def fits (u : Codec) (c : U16) : Bool :=
  match codecLf u with
  | some .flv2 => true
  | some _ => decide (c.toNat < 256)
  | none => false

/-- `SUBS(u, cmd, params)` of a concrete codec (R163, R166); a Custom Command bypasses the table. -/
def subs (u : Codec) (cmd : Command) (p : Params) : List RealCommand :=
  if cmd.kind = .custom then (if fits u cmd.cmd then [⟨cmd.cmd, cmd.args⟩] else [])
  else u.translate cmd p

end Sys2Proof.Machine
end

