-- ==== Sys2Proof/Machine/Lawful.lean ====
section
/-! DEFINITION. The laws the spec puts on a configuration. "A model must refuse at build time" a configuration that breaks
one (93 section 3): `Config.Lawful C` holds of exactly the configurations that are not refused, and
`Sys2Proof.Config.build` is one of them. Where the spec states a law in words without a formula ("several fields", "the
XOR mask for most fields", "masked by the pivot", "no single output byte is a plain key"), the formula here is the model's
reading (logs 5, 27 and 34). No law ties `PAIR_OP` to the translation of Pair, nor the ceiling of FLV2 to the scenario of
R239 (logs 28 and 29). -/

namespace Sys2Proof

/-- The XOR of the seven bits. -/
def parity7 (x : BitVec 7) : Bool := (List.range 7).foldl (fun p i => p ^^ x.getLsbD i) false

/-- A 7-bit linear-feedback shift register with what the spec leaves open of it (R130): the direction of the shift, the
tapped bits whose XOR is fed back and the bits it is fed into, the tapped bits whose XOR is the output bit, the load of
the seed, and the bit order of the output byte. DEDUCED (log 10). -/
structure Lfsr where
  left     : Bool
  taps     : BitVec 7
  into     : BitVec 7
  outTaps  : BitVec 7
  load     : Byte → BitVec 7
  msbFirst : Bool

/-- One shift of the register. -/
def Lfsr.next (g : Lfsr) (r : BitVec 7) : BitVec 7 :=
  (if g.left then r <<< 1 else r >>> 1) ^^^ (if parity7 (r &&& g.taps) then g.into else 0)

/-- The output bit of a register content. -/
def Lfsr.output (g : Lfsr) (r : BitVec 7) : Bool := parity7 (r &&& g.outTaps)

/-- The place in its byte of the `j`-th of eight successive output bits. -/
def Lfsr.place (g : Lfsr) (j : Nat) : Nat := if g.msbFirst then 7 - j else j

/-- R130: "Byte i of the keystream is 8 successive output bits of the register", a 7-bit shift register loaded from the
seed. -/
def Config.LfsrLawful (C : Config) : Prop :=
  ∃ g : Lfsr, ∀ (seed : Byte) (i j : Nat), j < 8 →
    (C.lfsrKs seed i).getLsbD (g.place j) = g.output (g.next^[8 * i + j] (g.load seed))

/-- The laws of one FanLamp v1 variant (R200, R202, R204). -/
structure Flv1Variant.Lawful (u : Flv1Variant) : Prop where
  /-- R200: "fixed prefix, 7 or 8 bytes". -/
  header_len : u.header.length = 7 ∨ u.header.length = 8
  /-- R200: "15 for one header variant, 16 for the other". -/
  wlen : u.wlen = 15 ∨ u.wlen = 16
  /-- R202. -/
  region : u.header.length + u.wlen ≤ Machine.flv1Plen u
  /-- R204 (a). -/
  check_fix : ∀ c a, u.check c (u.fix c a) = true
  /-- The check reads only the three argument bytes a packet carries. DEDUCED (log 6). -/
  check_carried : ∀ c a, u.check c (Machine.args3 a) = u.check c a
  /-- R204 (c): `FIX_u` changes at most one of the three carried bytes. -/
  fix_one : ∀ c a, (if (u.fix c a).a0 ≠ a.a0 then 1 else 0) + (if (u.fix c a).a1 ≠ a.a1 then 1 else 0) +
    (if (u.fix c a).a2 ≠ a.a2 then 1 else 0) ≤ 1

/-- Another variant has the header of variant `i`, which is `u`: its prefix and its supplementary byte (R204). -/
def Config.SharesHeader (C : Config) (i : Nat) (u : Flv1Variant) : Prop :=
  ∃ (j : Nat) (u' : Flv1Variant), C.flv1Variants[j]? = some u' ∧ i ≠ j ∧ u.header = u'.header ∧ u.supp = u'.supp

/-- The laws of one registry entry. -/
structure Codec.Lawful (C : Config) (v : Codec) : Prop where
  /-- R90: 1..32 ASCII bytes. -/
  ident_pos : 1 ≤ v.ident.length
  ident_len : v.ident.length ≤ 32
  ident_ascii : ∀ b ∈ v.ident, b.toNat < 128
  /-- R97. -/
  fits31 : Machine.codecAgg v = false →
    Machine.codecPlen v + 2 + (if v.ad.flagsPresent then 3 else 0) ≤ 31
  /-- R200, R301: the k-th FLV1 codec carries the k-th entry of `FLV1_VARIANTS`, and its code stays below the
  aggregate's. -/
  flv1_entry : ∀ k u, v.kind = .flv1 k u → C.flv1Variants[k]? = some u ∧ 0x10 + k < 0xFF
  /-- R162: a list of at most `MAX_PKTS` RealCommands. Which kinds may have more than one (b), and what an empty
  RealCommand would be (c), the spec does not say, and there is no law for either: DESIGN CHOICE (log 32). -/
  translate_len : Machine.codecAgg v = false → ∀ cmd p, (v.translate cmd p).length ≤ C.maxPkts
  /-- R164: whether a Command is supported does not depend on the params. -/
  translate_empty : Machine.codecAgg v = false →
    ∀ cmd p p', v.translate cmd p = [] ↔ v.translate cmd p' = []
  /-- R203 ("rc.cmd < 256 (fits, ...)"), decision D14: each RealCommand that `SUBS` can return fits the command field.
  DEDUCED (log 6). -/
  subs_fit : Machine.codecAgg v = false →
    ∀ cmd p, ∀ rc ∈ Machine.subs v cmd p, Machine.fits v rc.cmd = true
  /-- R162 (d). -/
  translate_flv2u : v.kind = .flv2 false → ∀ cmd p, cmd.kind = .lightOn ∨ cmd.kind = .lightDim →
    (v.translate cmd p).length = 1
  /-- R176: `FIX_u` keeps the carried arguments of every RealCommand that `SUBS` takes from the table, where it takes none
  for a Custom Command (R163; log 16). -/
  translate_keeps : ∀ k u, v.kind = .flv1 k u → ∀ cmd p, cmd.kind ≠ .custom → ∀ rc ∈ v.translate cmd p,
    Machine.args3 (u.fix rc.cmd rc.args) = Machine.args3 rc.args

/-- The semantic fields of a v0 or v1 packet have the configured widths (R263). -/
def Config.ZjWf (C : Config) (f : ZjFields) : Prop := f.args.length = C.zjArgs ∧ f.uuid.length = C.zjUuidBytes

/-- The semantic fields of a v2 packet: no uuid (R281). -/
def Config.Zj2Wf (C : Config) (f : ZjFields) : Prop := f.args.length = C.zjArgs ∧ f.uuid = []

/-- One byte of a XOR chain under a pivot (R271, R281): a constant, XORed with a fixed choice of field bytes and, where
it is masked, with the pivot. -/
structure MixByte where
  const  : Byte
  taps   : List Nat
  masked : Bool

/-- The byte for the field bytes `b` and the pivot `p`. -/
def MixByte.value (m : MixByte) (p : Byte) (b : List Byte) : Byte :=
  m.const ^^^ Machine.xorAll (m.taps.map (Machine.byteAt b)) ^^^ (if m.masked then p else 0)

/-- The positions of a field's bytes among the field bytes `zjBytes` of a v0 or v1 packet. -/
def Config.fieldPositions (C : Config) : ZjField → List Nat
  | .cmd8 => [0]
  | .args => List.range' 1 C.zjArgs
  | .uuid => List.range' (1 + C.zjArgs) C.zjUuidBytes
  | .tx => [1 + C.zjArgs + C.zjUuidBytes]
  | .index => [2 + C.zjArgs + C.zjUuidBytes]

/-- The semantic fields that have a byte in a v0 or v1 packet: `args` has none where `ZJ_ARGS` is 0. -/
def Config.carriedFields (C : Config) : List ZjField :=
  if C.zjArgs = 0 then [.cmd8, .uuid, .tx, .index] else [.cmd8, .args, .uuid, .tx, .index]

/-- R271 (c): the pivot is "used as the XOR mask for most fields". `MIX1` is a XOR chain, and of more than half of the
carried fields every byte is masked: wherever it stands in the output, but for the key and its copies, it stands under the
pivot, and each such byte has an output byte of its own, `place`, in which it does. DEDUCED (log 5). -/
def Config.Mix1Masked (C : Config) : Prop :=
  ∃ (rows : Nat → MixByte) (fs : List ZjField) (place : Nat → Nat),
    (∀ i, i < 17 → (rows i).taps.Nodup ∧ ∀ f, C.ZjWf f →
      Machine.byteAt (C.mix1 f) i = (rows i).value (Machine.zjPivot C.pivotFields1 f) (Machine.zjBytes f)) ∧
    fs.Nodup ∧ fs ⊆ C.carriedFields ∧ C.carriedFields.length < 2 * fs.length ∧
    ∀ k ∈ fs.flatMap C.fieldPositions,
      (∀ i, i < 17 → k ∈ (rows i).taps → rows i = rows C.keyPos1 ∨ (rows i).masked = true) ∧
      (place k < 17 ∧ k ∈ (rows (place k)).taps ∧ (rows (place k)).masked = true) ∧
      ∀ k' ∈ fs.flatMap C.fieldPositions, place k = place k' → k = k'

/-- R281 (c): "the other bytes are masked by the pivot": every byte of `MIX2` but the pivot itself is a XOR chain under
the pivot. DEDUCED (log 5). -/
def Config.Mix2Masked (C : Config) : Prop :=
  ∃ rows : Nat → MixByte, ∀ i, i < 16 → i ≠ C.pivotPos2 → (rows i).masked = true ∧
    ∀ f, C.Zj2Wf f → Machine.byteAt (C.mix2 f) i =
      (rows i).value (Machine.zjPivot C.pivotFields2 f) (Machine.zjBytes f)

/-- The semantic fields that have a byte in a v2 packet, which has no uuid (R281). -/
def Config.carriedFields2 (C : Config) : List ZjField := C.carriedFields.filter fun g => g != .uuid

/-- R261: a pivot is the XOR of "several semantic fields". The model takes several as two or more different ones, each
with a byte in the packet: DEDUCED (log 5). -/
def severalFields (carried fs : List ZjField) : Prop := fs.Nodup ∧ fs ⊆ carried ∧ 2 ≤ fs.length

/-- The number of field bytes of a v0 or v1 packet. -/
def Config.fieldCount (C : Config) : Nat := 3 + C.zjArgs + C.zjUuidBytes

/-- Output byte `j` of `MIX0` is the field byte at position `p` masked by output byte `key`; with no key, that field byte
in clear. -/
def Config.Masks (C : Config) (key : Option Nat) (j p : Nat) : Prop :=
  ∀ f, C.ZjWf f → Machine.byteAt (C.mix0 f) j =
    Machine.byteAt (Machine.zjBytes f) p ^^^ (match key with
      | some k => Machine.byteAt (C.mix0 f) k
      | none => 0)

/-- R263: "every byte is XORed against a rotating combination of neighbors. No single output byte is a plain key": an
output byte is the whole mask of a field byte in at most two output bytes, its neighbours, and at most two output bytes
are a field byte in clear; and no output byte, as the key, opens all the fields that are not in clear. DEDUCED (log
27). -/
def Config.Mix0NoKey (C : Config) : Prop :=
  (∀ key : Option Nat, (∀ k, key = some k → k < 8) → ∀ js : List Nat, js.Nodup →
    (∀ j ∈ js, j < 8 ∧ ∃ p, p < C.fieldCount ∧ C.Masks key j p) → js.length ≤ 2) ∧
  ∀ k, k < 8 → ∃ p, p < C.fieldCount ∧ ∀ j, j < 8 → ¬ C.Masks none j p ∧ ¬ C.Masks (some k) j p

/-- Two byte strings agree at the `n` first positions but those in `skip`. -/
def AgreeBut (n : Nat) (skip : List Nat) (a b : List Byte) : Prop :=
  ∀ i, i < n → i ∉ skip → Machine.byteAt a i = Machine.byteAt b i

/-- R281 (d): the bytes at `derivedPos2` are the "redundant derived" ones. They are redundant: what `UNMIX2` recovers does
not depend on them. And they are all of them: of the other bytes none can be left out, since without it the rest of them
does not determine the fields. DEDUCED (log 34). -/
def Config.Derived2 (C : Config) : Prop :=
  (∀ (b b' : List Byte) (f f' : ZjFields), AgreeBut 16 C.derivedPos2 b b' → C.unmix2 b = some f →
    C.unmix2 b' = some f' → f = f') ∧
  ∀ i, i < 16 → i ∉ C.derivedPos2 → ∃ f g, C.Zj2Wf f ∧ C.Zj2Wf g ∧ f ≠ g ∧
    AgreeBut 16 (i :: C.derivedPos2) (C.mix2 f) (C.mix2 g)

/-- The laws of the Zhijia parameters (R260, R261, R263, R271, R281). -/
structure Config.ZjLawful (C : Config) : Prop where
  uuid_pos : 1 ≤ C.zjUuidBytes
  uuid_le : C.zjUuidBytes ≤ 4
  args_le : C.zjArgs ≤ 5
  mac_len : C.zj0Mac.length = 3
  addr_len : C.zj1Addr.length = 4
  spare_len : C.spare2.length = 7
  /-- R263. -/
  mix0_len : ∀ f, C.ZjWf f → (C.mix0 f).length = 8
  unmix0_mix0 : ∀ f, C.ZjWf f → C.unmix0 (C.mix0 f) = some f
  unmix0_wf : ∀ b f, C.unmix0 b = some f → C.ZjWf f
  /-- R261. -/
  several1 : severalFields C.carriedFields C.pivotFields1
  several2 : severalFields C.carriedFields2 C.pivotFields2
  /-- R263: "Each output byte is a XOR of field bytes and of other output bytes", so each is the XOR of a fixed choice
  of field bytes (log 25). -/
  mix0_chain : ∃ taps : List (List Nat), ∀ f, C.ZjWf f →
    C.mix0 f = taps.map fun t => Machine.xorAll (t.map (Machine.byteAt (Machine.zjBytes f)))
  /-- R263. -/
  mix0_no_key : C.Mix0NoKey
  /-- R271. -/
  mix1_len : ∀ f, C.ZjWf f → (C.mix1 f).length = 17
  unmix1_mix1 : ∀ f, C.ZjWf f → C.unmix1 (C.mix1 f) = some f
  unmix1_wf : ∀ b f, C.unmix1 b = some f → C.ZjWf f
  key_pos : C.keyPos1 < 17
  mix1_key : ∀ f, C.ZjWf f → Machine.byteAt (C.mix1 f) C.keyPos1 = Machine.xorAll (Machine.zjBytes f)
  pivot1_pos : C.pivotPos1 < 17
  mix1_pivot : ∀ f, C.ZjWf f → Machine.byteAt (C.mix1 f) C.pivotPos1 = Machine.zjPivot C.pivotFields1 f
  /-- R271 (c). -/
  mix1_masked : C.Mix1Masked
  /-- R271 (d): "duplicate byte pairs", of which the spec gives no number; one is enough: DESIGN CHOICE (log 33). -/
  dup_some : C.dupPairs1 ≠ []
  dup_pos : ∀ q ∈ C.dupPairs1, q.1 < 17 ∧ q.2 < 17 ∧ q.1 ≠ q.2
  /-- R271 (d). -/
  unmix1_checks : ∀ b f, C.unmix1 b = some f →
    (∀ q ∈ C.dupPairs1, Machine.byteAt b q.1 = Machine.byteAt b q.2) ∧
    Machine.byteAt b C.keyPos1 = Machine.xorAll (Machine.zjBytes f) ∧
    (Machine.byteAt b C.pivotPos1).getLsbD 0 = true
  /-- R281. -/
  mix2_len : ∀ f, C.Zj2Wf f → (C.mix2 f).length = 16
  unmix2_mix2 : ∀ f, C.Zj2Wf f → C.unmix2 (C.mix2 f) = some f
  unmix2_wf : ∀ b f, C.unmix2 b = some f → C.Zj2Wf f
  pivot2_pos : C.pivotPos2 < 16
  mix2_pivot : ∀ f, C.Zj2Wf f → Machine.byteAt (C.mix2 f) C.pivotPos2 = Machine.zjPivot C.pivotFields2 f
  /-- R281 (c). -/
  mix2_masked : C.Mix2Masked
  derived_some : C.derivedPos2 ≠ []
  derived_pos : ∀ i ∈ C.derivedPos2, i < 16
  /-- R281 (d). -/
  derived2 : C.Derived2
  /-- R281 (d). -/
  unmix2_checks : ∀ b f, C.unmix2 b = some f →
    (∀ i ∈ C.derivedPos2, Machine.byteAt b i = Machine.byteAt (C.mix2 f) i) ∧
    (Machine.byteAt b C.pivotPos2).getLsbD 0 = true

/-- `P` is the source's FanLamp v1 pair packet as far as the spec gives it (R208, R285, R314): it begins with the nine
bytes, every Zhijia codec rejects it, and exactly one registered FLV1 codec, one whose prefix is the first eight bytes,
decodes it, with no difference when it is re-encoded. -/
def Config.PairPacket (C : Config) (P : List Byte) : Prop :=
  P.length ≤ 31 ∧
  P.take 9 = [0xAA, 0x98, 0x43, 0xAF, 0x0B, 0x46, 0x46, 0x46, 0x28] ∧
  (∀ v ∈ C.registry, Machine.codecFam v = .zhijia → Machine.decPayload C v P = none) ∧
  ∃ (n : Nat) (v : Codec) (k : Nat) (u : Flv1Variant) (d : Machine.Decoded),
    C.registry[n]? = some v ∧ v.kind = .flv1 k u ∧ u.header = P.take 8 ∧
    Machine.decPayload C v P = some d ∧ Machine.encPayload C v d.rc d.id d.index d.tx d.seed = P ∧
    ∀ (m : Nat) (v' : Codec), C.registry[m]? = some v' → Machine.codecLf v' = some .flv1 → m ≠ n →
      Machine.decPayload C v' P = none

/-- R285: "For v0 and v1, the address check ... is where that rejection happens". The first bytes of the source's pair
packet, un-whitened, are not the address of a registered Zhijia v0 or v1 codec. The whitening is byte by byte, so this
says it of every packet with these bytes. That it is said whatever the packet's length is DEDUCED (log 21). -/
def Config.PairAddress (C : Config) : Prop :=
  ∀ v ∈ C.registry, (v.kind = .zj0 → Machine.zj0Unwhiten C [0xAA, 0x98, 0x43] ≠ Machine.zj0Addr C) ∧
    (v.kind = .zj1 → Machine.zj1Unwhiten C [0xAA, 0x98, 0x43, 0xAF] ≠ C.zj1Addr)

/-- The laws of a configuration. -/
structure Config.Lawful (C : Config) : Prop where
  /-- R7. -/
  nCtrl_pos : 1 ≤ C.nCtrl
  nCtrl_le : C.nCtrl ≤ 255
  fifoCap_pos : 1 ≤ C.fifoCap
  /-- The opening of 47_scheduler.md: "at most 65535". -/
  fifoCap_le : C.fifoCap ≤ 65535
  cqCap_pos : 1 ≤ C.cqCap
  /-- The opening of 46_command_queue.md: "at most 255". -/
  cqCap_le : C.cqCap ≤ 255
  maxPkts_pos : 1 ≤ C.maxPkts
  maxPkts_le : C.maxPkts ≤ C.fifoCap
  /-- R89: a WP list has 0..255 records. DEDUCED (log 6). -/
  maxPkts_count : C.maxPkts ≤ 255
  dedupCap_pos : 1 ≤ C.dedupCap
  /-- R300. -/
  registry_pos : 1 ≤ C.registry.length
  registry_le : C.registry.length ≤ 20
  /-- R24, R7. -/
  mintxReset_ge : 100 ≤ C.mintxReset.toNat
  mintxReset_le : C.mintxReset.toNat ≤ 500
  /-- R23. -/
  codecReset_lt : ∀ c, c < C.nCtrl → (C.codecReset c).toNat < C.registry.length
  /-- R7: 1..256, whatever tx_count bytes the scenario of R239 shows: DESIGN CHOICE (log 29). -/
  ceil_pos : ∀ f, 1 ≤ C.ceil f
  ceil_le : ∀ f, C.ceil f ≤ 256
  emptyCeil_pos : ∀ f, 1 ≤ C.emptyCeil f
  emptyCeil_le : ∀ f, C.emptyCeil f ≤ 256
  /-- R300 (a), (b). -/
  fv_nodup : (C.registry.map fun v => (Machine.codecFam v, Machine.codecVar v)).Nodup
  /-- R161, R300 (d). -/
  ident_nodup : (C.registry.map Codec.ident).Nodup
  codec_lawful : ∀ v ∈ C.registry, v.Lawful C
  /-- R300 (e): `b u` bounds the number of RealCommands `SUBS(u, ..)` can return. -/
  aggregate_len : ∀ v ∈ C.registry, Machine.codecAgg v = true → ∃ b : Codec → Nat,
    (∀ u ∈ Machine.members C (Machine.codecFam v), ∀ cmd p, (Machine.subs u cmd p).length ≤ b u) ∧
    ((Machine.members C (Machine.codecFam v)).map b).sum ≤ C.maxPkts
  /-- R200: "at least 2 entries". -/
  flv1_two : 2 ≤ C.flv1Variants.length
  flv1_lawful : ∀ u ∈ C.flv1Variants, u.Lawful
  /-- R200, 90 C7: "15 for one header variant, 16 for the other": the family has two headers, which differ in their
  whitening length. The header is the prefix with the supplementary byte: DEDUCED (log 26). -/
  flv1_wlen : ∀ u ∈ C.flv1Variants, ∀ u' ∈ C.flv1Variants,
    (u.wlen = u'.wlen ↔ (u.header, u.supp) = (u'.header, u'.supp))
  flv1_wlen15 : ∃ u ∈ C.flv1Variants, u.wlen = 15
  flv1_wlen16 : ∃ u ∈ C.flv1Variants, u.wlen = 16
  /-- R204 (b), of the opcode `PAIR_OP`; what TRANSLATE gives Pair need not be it: DESIGN CHOICE (log 28). -/
  flv1_apart : ∀ (i j : Nat) (u u' : Flv1Variant), C.flv1Variants[i]? = some u → C.flv1Variants[j]? = some u' →
    i ≠ j → u.header = u'.header → u.supp = u'.supp →
    ∀ a, u'.check (C.pairOp.setWidth 16) (u.fix (C.pairOp.setWidth 16) a) = false
  /-- R176: `FIX_u` keeps the carried arguments of every opcode that fits. Where R204 (a) and (b) contradict that, they
  win: of `PAIR_OP` in a variant that shares its header, with arguments that its check refuses (log 16). -/
  flv1_keeps : ∀ (i : Nat) (u : Flv1Variant), C.flv1Variants[i]? = some u → ∀ (c : U16) (a : Args), c.toNat < 256 →
    ¬ C.SharesHeader i u ∨ c ≠ C.pairOp.setWidth 16 ∨ u.check c a = true →
    Machine.args3 (u.fix c a) = Machine.args3 a
  /-- R200: `GROUP_INV` is a partial inverse of `GROUP`. -/
  group_inv : ∀ g id index, C.groupInv g = some (id, index) → C.group id index = g
  /-- R176, R209: of a group field it gives the bits of the id and of the index that the field carries, the others 0
  (log 26). -/
  group_carried : ∀ id index,
    C.groupInv (C.group id index) = some (id &&& C.groupId, index &&& C.groupIndex)
  /-- R230. -/
  flv2PrefixS_len : C.flv2PrefixS.length = 5
  /-- R314: "which must differ from it". -/
  flv2PrefixS_ne : C.flv2PrefixS ≠ [0xAA, 0x98, 0x43, 0xAF, 0x0B]
  /-- R208, R285, R314: the source's pair packet, whose remaining bytes the spec does not give. -/
  pair_packet : ∃ P, C.PairPacket P
  /-- R285. -/
  pair_address : C.PairAddress
  /-- R130. -/
  lfsr : C.LfsrLawful
  keyBase_len : C.keyBase.length = 16
  /-- R230, R236. -/
  wh_start : 6 ≤ C.whStart
  wh_order : C.whStart ≤ C.whEnd
  wh_end : C.whEnd ≤ 21
  zj : C.ZjLawful

/-- What a build accepts: a configuration that keeps the laws, with the byte order of the wire fields at its default:
"The spec takes little-endian for every family" (R65; log 18). -/
structure BuildConfig where
  config : Config
  lawful : config.Lawful
  little : ∀ f, config.wireOrder f = .little

end Sys2Proof
end

