-- ==== Sys2Proof/Machine/Instance.lean ====
section
/-! DEFINITION. The test instance TI of 95_test_vectors.md section 0. It is NOT the hardware's configuration: it is the
witness that a lawful configuration exists, and the configuration of the spec's test vectors in
Sys2Proof/Tests/Slice0.lean. No statement about the machine rests on a value of it. -/

namespace Sys2Proof.Machine.TI

/-- Eight shifts of the candidate register of R131, from bit `j`: the keystream byte and the register after it. -/
def lfsrShift : Nat → Nat → Byte → Byte → Byte × Byte
  | 0, _, r, k => (k, r)
  | n + 1, j, r, k =>
    let r := r <<< 1
    if r.msb then lfsrShift n (j + 1) ((r ^^^ 0x11) &&& 0x7F) (k ||| (1 <<< j))
    else lfsrShift n (j + 1) (r &&& 0x7F) k

/-- Byte `i` of the candidate keystream from register `r`. -/
def lfsrFrom : Nat → Byte → Byte
  | 0, r => (lfsrShift 8 0 r 0).1
  | i + 1, r => lfsrFrom i (lfsrShift 8 0 r 0).2

/-- The candidate `LFSR_KS` of R131. -/
def lfsrKs (seed : Byte) (i : Nat) : Byte := lfsrFrom i (seed &&& 0x7F)

/-- TI's opcodes. -/
def opcodes : Kind → List U16
  | .noOp => []
  | .pair => [0x28]
  | .unpair => [0x45]
  | .custom => []
  | .lightOn => [0x10]
  | .lightOff => [0x11]
  | .lightSecondaryOn => [0x12]
  | .lightSecondaryOff => [0x13]
  | .lightDim => [0x21]
  | .lightColorTemp => [0x22]
  | .lightWhiteColor => [0x23]
  | .fanOn => [0x30]
  | .fanOff => [0x31]
  | .fanSpeed => [0x32]
  | .fanOnOffSpeed => [0x30, 0x32]
  | .fanDirection => [0x33]
  | .fanOscillate => []

/-- TI's `TRANSLATE_v`, the same for every codec. -/
def translate (cmd : Command) (_ : Params) : List RealCommand := (opcodes cmd.kind).map fun o => ⟨o, cmd.args⟩

/-- FLV1 variant 0x10. -/
def flv1a : Flv1Variant where
  header := [0xAA, 0x98, 0x43, 0xAF, 0x0B, 0x46, 0x46, 0x46]
  supp := none
  wlen := 16
  xor1 := false
  crc2 := some 0xFFFF
  outs := fun _ => 0
  fix := fun _ a => a
  check := fun _ _ => true

/-- FLV1 variant 0x11. -/
def flv1b : Flv1Variant where
  header := [0xAA, 0x98, 0x43, 0xAF, 0x0B, 0x46, 0x47]
  supp := some 0x00
  wlen := 15
  xor1 := true
  crc2 := none
  outs := fun _ => 0
  fix := fun _ a => a
  check := fun _ _ => true

/-- `AD_v` of every TI codec. -/
def ad : AdWrap := ⟨true, 0x06, 0xFF⟩

/-- A TI registry entry. -/
def entry (kind : CodecKind) (ident : List Byte) : Codec := ⟨kind, ident, ad, translate⟩

/-- TI's `REG_LIST`, with the ASCII bytes of the identifiers `fanlamp_v1a` to `zhijia_all`. -/
def registry : List Codec :=
  [entry (.flv1 0 flv1a) [0x66, 0x61, 0x6E, 0x6C, 0x61, 0x6D, 0x70, 0x5F, 0x76, 0x31, 0x61],
   entry (.flv1 1 flv1b) [0x66, 0x61, 0x6E, 0x6C, 0x61, 0x6D, 0x70, 0x5F, 0x76, 0x31, 0x62],
   entry (.flv2 false) [0x66, 0x61, 0x6E, 0x6C, 0x61, 0x6D, 0x70, 0x5F, 0x76, 0x32],
   entry (.flv2 true) [0x66, 0x61, 0x6E, 0x6C, 0x61, 0x6D, 0x70, 0x5F, 0x76, 0x32, 0x73],
   entry (.aggregate .fanlamp) [0x66, 0x61, 0x6E, 0x6C, 0x61, 0x6D, 0x70, 0x5F, 0x61, 0x6C, 0x6C],
   entry .zj0 [0x7A, 0x68, 0x69, 0x6A, 0x69, 0x61, 0x5F, 0x76, 0x30],
   entry .zj1 [0x7A, 0x68, 0x69, 0x6A, 0x69, 0x61, 0x5F, 0x76, 0x31],
   entry .zj2 [0x7A, 0x68, 0x69, 0x6A, 0x69, 0x61, 0x5F, 0x76, 0x32],
   entry (.aggregate .zhijia) [0x7A, 0x68, 0x69, 0x6A, 0x69, 0x61, 0x5F, 0x61, 0x6C, 0x6C]]

/-- TI's field list of v0 and v1. -/
def fieldsOf : List Byte → Option ZjFields
  | [c, a0, a1, a2, u0, u1, t, i] => some ⟨c, [a0, a1, a2], [u0, u1], t, i⟩
  | _ => none

/-- TI's field list of v2. -/
def fields2Of : List Byte → Option ZjFields
  | [c, a0, a1, a2, t, i] => some ⟨c, [a0, a1, a2], [], t, i⟩
  | _ => none

/-- `o[i] = f[i] ^ o[i-1]`. -/
def chain : Byte → List Byte → List Byte
  | _, [] => []
  | p, b :: bs => (b ^^^ p) :: chain (b ^^^ p) bs

/-- The inverse of `chain`. -/
def unchain : Byte → List Byte → List Byte
  | _, [] => []
  | p, o :: os => (o ^^^ p) :: unchain o os

/-- Every byte XORed with the pivot. -/
def mask (p : Byte) (b : List Byte) : List Byte := b.map (· ^^^ p)

/-- PIVOT_FIELDS of TI: cmd, tx, index. -/
def pivotFields : List ZjField := [.cmd8, .tx, .index]

/-- TI's `MIX1`. -/
def mix1 (f : ZjFields) : List Byte :=
  let p := zjPivot pivotFields f
  let m := mask p (zjBytes f)
  xorAll (zjBytes f) :: p :: m ++ m.take 7

/-- TI's `UNMIX1`: the fields under the pivot, if they mix to the same bytes. -/
def unmix1 (b : List Byte) : Option ZjFields :=
  match fieldsOf (mask (byteAt b 1) (slice b 2 10)) with
  | some f => if mix1 f = b then some f else none
  | none => none

/-- TI's `MIX2`. -/
def mix2 (f : ZjFields) : List Byte :=
  let p := zjPivot pivotFields f
  let m := mask p (zjBytes f)
  p :: m ++ m ++ [p, p, p]

/-- TI's `UNMIX2`: the fields under the pivot, if they mix to the same bytes. -/
def unmix2 (b : List Byte) : Option ZjFields :=
  match fields2Of (mask (byteAt b 0) (slice b 1 7)) with
  | some f => if mix2 f = b then some f else none
  | none => none

/-- The test instance (95 section 0). -/
def config : Config where
  nCtrl := 2
  fifoCap := 16
  cqCap := 4
  maxPkts := 8
  dedupCap := 2
  registry := registry
  mintxReset := 100
  codecReset := fun _ => 2
  idReset := fun _ => 0
  xbox := fun i => BitVec.ofNat 8 i.val
  lfsrKs := lfsrKs
  ceil := fun
    | .zj2 => 16
    | _ => 256
  emptyCeil := fun _ => 256
  prefilter := false
  flv1Variants := [flv1a, flv1b]
  flv1Reversal := .byteOrder
  group := fun id _ => id.extractLsb' 0 16
  groupInv := fun g => some (g.setWidth 32, 0)
  groupId := 0xFFFF
  groupIndex := 0
  src := fun s => s.extractLsb' 0 8
  r2 := fun s => s.extractLsb' 8 8
  pairOp := 0x28
  flv2PrefixS := [0xF0, 0x08, 0x10, 0x80, 0x01]
  flv2Type := fun _ => 0x0100
  keyBase := [0, 1, 2, 3, 4, 5, 6, 7, 8, 9, 10, 11, 12, 13, 14, 15]
  whStart := 8
  whEnd := 19
  zjCrcInit := 0
  zjUuidBytes := 2
  zjArgs := 3
  zj0Mac := [0x19, 0x01, 0x10]
  zj1Addr := [0x11, 0x22, 0x33, 0x44]
  spare2 := zeros 7
  mix0 := fun f => chain 0 (zjBytes f)
  unmix0 := fun b => fieldsOf (unchain 0 b)
  mix1 := mix1
  unmix1 := unmix1
  mix2 := mix2
  unmix2 := unmix2
  pivotFields1 := pivotFields
  pivotFields2 := pivotFields
  keyPos1 := 0
  pivotPos1 := 1
  dupPairs1 := [(2, 10), (3, 11), (4, 12), (5, 13), (6, 14), (7, 15), (8, 16)]
  pivotPos2 := 0
  derivedPos2 := [7, 8, 9, 10, 11, 12, 13, 14, 15]

end Sys2Proof.Machine.TI
end

