-- ==== Sys2Proof/Machine/Build.lean ====
section
/-! DEFINITION. `Config.build`, the configuration of the build: an arbitrary lawful one (R7: "the model must take it as an
argument"; R36, R471: fixed when the core is built) whose wire fields have the default byte order of R65. `Config.select`
is opaque, so nothing can be proved of the build's configuration but what holds of every such configuration. The test
instance TI only shows that there is one. -/

namespace Sys2Proof

namespace Machine.TI

theorem unchain_chain (b : List Byte) : ∀ p, unchain p (chain p b) = b := by
  induction b with
  | nil => intro p; rfl
  | cons x xs ih =>
    intro p
    simp [chain, unchain, ih]

theorem mask_mask (p : Byte) (b : List Byte) : mask p (mask p b) = b := by
  simp [mask, Function.comp_def]

/-- The fields of v0 and v1 written out under TI's widths. -/
theorem wf_cases (f : ZjFields) (h : config.ZjWf f) :
    ∃ c a0 a1 a2 u0 u1 t i, f = ⟨c, [a0, a1, a2], [u0, u1], t, i⟩ := by
  obtain ⟨c, args, uuid, t, i⟩ := f
  obtain ⟨ha, hu⟩ := h
  match args, uuid, ha, hu with
  | [a0, a1, a2], [u0, u1], _, _ => exact ⟨c, a0, a1, a2, u0, u1, t, i, rfl⟩

/-- The fields of v2 written out under TI's widths. -/
theorem wf2_cases (f : ZjFields) (h : config.Zj2Wf f) :
    ∃ c a0 a1 a2 t i, f = ⟨c, [a0, a1, a2], [], t, i⟩ := by
  obtain ⟨c, args, uuid, t, i⟩ := f
  obtain ⟨ha, hu⟩ := h
  match args, uuid, ha, hu with
  | [a0, a1, a2], [], _, _ => exact ⟨c, a0, a1, a2, t, i, rfl⟩

theorem fieldsOf_wf {b : List Byte} {f : ZjFields} (h : fieldsOf b = some f) : config.ZjWf f := by
  unfold fieldsOf at h
  split at h
  · cases h; exact ⟨rfl, rfl⟩
  · cases h

theorem fields2Of_wf {b : List Byte} {f : ZjFields} (h : fields2Of b = some f) : config.Zj2Wf f := by
  unfold fields2Of at h
  split at h
  · cases h; exact ⟨rfl, rfl⟩
  · cases h

theorem unmix1_eq {b : List Byte} {f : ZjFields} (h : unmix1 b = some f) : config.ZjWf f ∧ mix1 f = b := by
  unfold unmix1 at h
  split at h
  · rename_i g hg
    split at h
    · cases h; exact ⟨fieldsOf_wf hg, by assumption⟩
    · cases h
  · cases h

theorem unmix2_eq {b : List Byte} {f : ZjFields} (h : unmix2 b = some f) : config.Zj2Wf f ∧ mix2 f = b := by
  unfold unmix2 at h
  split at h
  · rename_i g hg
    split at h
    · cases h; exact ⟨fields2Of_wf hg, by assumption⟩
    · cases h
  · cases h

theorem unmix1_mix1 (f : ZjFields) (h : config.ZjWf f) : unmix1 (mix1 f) = some f := by
  obtain ⟨c, a0, a1, a2, u0, u1, t, i, rfl⟩ := wf_cases f h
  have hs : ∀ g : ZjFields, (zjBytes g).length = 8 →
      mask (byteAt (mix1 g) 1) (slice (mix1 g) 2 10) = zjBytes g := by
    intro g hg
    have : slice (mix1 g) 2 10 = mask (zjPivot pivotFields g) (zjBytes g) := by
      simp [slice, mix1, mask, hg]
    rw [this]
    exact mask_mask _ _
  unfold unmix1
  rw [hs _ rfl]
  simp [zjBytes, fieldsOf]

theorem unmix2_mix2 (f : ZjFields) (h : config.Zj2Wf f) : unmix2 (mix2 f) = some f := by
  obtain ⟨c, a0, a1, a2, t, i, rfl⟩ := wf2_cases f h
  have hs : ∀ g : ZjFields, (zjBytes g).length = 6 →
      mask (byteAt (mix2 g) 0) (slice (mix2 g) 1 7) = zjBytes g := by
    intro g hg
    have : slice (mix2 g) 1 7 = mask (zjPivot pivotFields g) (zjBytes g) := by
      simp [slice, mix2, mask, hg]
    rw [this]
    exact mask_mask _ _
  unfold unmix2
  rw [hs _ rfl]
  simp [zjBytes, fields2Of]

/-- A pivot is always odd (R261). -/
theorem pivotFix_odd : ∀ x : Byte, (pivotFix x).getLsbD 0 = true := by decide

/-- TI's keystream register: the candidate of R131, loaded with the low seven bits of the seed. -/
def lfsr : Lfsr := ⟨true, 0x40, 0x11, 0x40, fun s => s.setWidth 7, false⟩

/-- Eight shifts of the candidate give the eight output bits of the register and leave its content after them. -/
theorem lfsrShift_eq : ∀ r : BitVec 7,
    (lfsrShift 8 0 (r.setWidth 8) 0).2 = (lfsr.next^[8] r).setWidth 8 ∧
    ∀ j : Fin 8, (lfsrShift 8 0 (r.setWidth 8) 0).1.getLsbD j = lfsr.output (lfsr.next^[j.val] r) := by
  decide +kernel

theorem lfsrFrom_bit (i j : Nat) (hj : j < 8) : ∀ r : BitVec 7,
    (lfsrFrom i (r.setWidth 8)).getLsbD j = lfsr.output (lfsr.next^[8 * i + j] r) := by
  induction i with
  | zero =>
    intro r
    have := (lfsrShift_eq r).2 ⟨j, hj⟩
    simpa [lfsrFrom] using this
  | succ i ih =>
    intro r
    rw [lfsrFrom, (lfsrShift_eq r).1, ih, ← Function.iterate_add_apply, show 8 * i + j + 8 = 8 * (i + 1) + j by omega]

theorem seed_low : ∀ s : Byte, s &&& 0x7F = (s.setWidth 7).setWidth 8 := by decide

theorem lfsr_lawful : config.LfsrLawful := by
  refine ⟨lfsr, fun s i j hj => ?_⟩
  show (lfsrFrom i (s &&& 0x7F)).getLsbD j = _
  rw [seed_low]
  exact lfsrFrom_bit i j hj _

/-- The field byte at `k` under the pivot. -/
def maskedAt (k : Nat) : MixByte := ⟨0, [k], true⟩

/-- A byte that is the pivot itself. -/
def pivotRow : MixByte := ⟨0, [], true⟩

/-- The rows of TI's `MIX1`: the key, the pivot, the fields under the pivot, and seven of them again. -/
def mix1Row (i : Nat) : MixByte :=
  if i = 0 then ⟨0, List.range 8, false⟩ else if i = 1 then pivotRow
  else if i ≤ 9 then maskedAt (i - 2) else maskedAt (i - 10)

theorem mix1_masked : config.Mix1Masked := by
  refine ⟨mix1Row, [.cmd8, .args, .uuid, .tx, .index], fun k => k + 2, fun i hi => ⟨?_, fun f h => ?_⟩,
    by decide, by decide, by decide, ?_⟩
  · interval_cases i <;> decide
  · obtain ⟨c, a0, a1, a2, u0, u1, t, x, rfl⟩ := wf_cases f h
    show byteAt (mix1 _) i = _
    interval_cases i <;>
      simp [mix1, mix1Row, MixByte.value, maskedAt, pivotRow, mask, zjBytes, xorAll, byteAt, List.range, List.range.loop] <;>
      rfl
  · have hk : ∀ k ∈ [ZjField.cmd8, .args, .uuid, .tx, .index].flatMap config.fieldPositions, k < 8 := by decide
    intro k hk'
    have hk8 := hk k hk'
    have hrow : mix1Row (k + 2) = maskedAt k := by
      unfold mix1Row
      rw [if_neg (by omega), if_neg (by omega), if_pos (by omega), Nat.add_sub_cancel]
    refine ⟨fun i hi ht => ?_, ⟨show k + 2 < 17 by omega, ?_, ?_⟩, fun k' _ h => Nat.add_right_cancel h⟩
    · by_cases h0 : i = 0
      · exact .inl (by rw [h0]; rfl)
      · refine .inr ?_
        unfold mix1Row
        split_ifs <;> rfl
    · show k ∈ (mix1Row (k + 2)).taps
      rw [hrow]
      exact List.mem_singleton_self k
    · show (mix1Row (k + 2)).masked = true
      rw [hrow]
      rfl

/-- The fields whose byte at position `q` is 1 and whose other bytes are 0. -/
def unitFields (q : Nat) : ZjFields :=
  let b : Nat → Byte := fun i => if i = q then 1 else 0
  ⟨b 0, [b 1, b 2, b 3], [b 4, b 5], b 6, b 7⟩

theorem unitFields_wf (q : Nat) : config.ZjWf (unitFields q) := ⟨rfl, rfl⟩

/-- An output byte of TI's `MIX0` is no field byte in clear, but for the first. -/
theorem mix0_clear : ∀ j p : Fin 8, (j = 0 ∧ p = 0) ∨ ∃ q : Fin 8,
    byteAt (config.mix0 (unitFields q)) j ≠ byteAt (zjBytes (unitFields q)) p := by
  decide +kernel

/-- Output byte `k` of TI's `MIX0` masks a field byte only in its neighbours: field byte `k` in the one before it, and
field byte `k + 1` in the one after it. -/
theorem mix0_masked : ∀ k j p : Fin 8, (j.val + 1 = k.val ∧ p = k) ∨ (j.val = k.val + 1 ∧ p = j) ∨ ∃ q : Fin 8,
    byteAt (config.mix0 (unitFields q)) j ≠
      byteAt (zjBytes (unitFields q)) p ^^^ byteAt (config.mix0 (unitFields q)) k := by
  decide +kernel

theorem clear_only {j p : Nat} (hj : j < 8) (hp : p < 8) (h : config.Masks none j p) : j = 0 ∧ p = 0 := by
  rcases mix0_clear ⟨j, hj⟩ ⟨p, hp⟩ with e | ⟨q, hq⟩
  · exact ⟨congrArg Fin.val e.1, congrArg Fin.val e.2⟩
  · exact absurd ((h _ (unitFields_wf q)).trans BitVec.xor_zero) hq

theorem masked_only {k j p : Nat} (hk : k < 8) (hj : j < 8) (hp : p < 8) (h : config.Masks (some k) j p) :
    (j + 1 = k ∧ p = k) ∨ (j = k + 1 ∧ p = j) := by
  rcases mix0_masked ⟨k, hk⟩ ⟨j, hj⟩ ⟨p, hp⟩ with e | e | ⟨q, hq⟩
  · exact .inl ⟨e.1, congrArg Fin.val e.2⟩
  · exact .inr ⟨e.1, congrArg Fin.val e.2⟩
  · exact absurd (h _ (unitFields_wf q)) hq

theorem mix0_no_key : config.Mix0NoKey := by
  refine ⟨fun key hkey js hnd hjs => ?_, fun k hk => ?_⟩
  · have le (l : List Nat) (hl : l.length ≤ 2) (h : ∀ j ∈ js, j ∈ l) : js.length ≤ 2 :=
      (hnd.subperm h).length_le.trans hl
    cases key with
    | none =>
      refine le [0] (by decide) fun j hj => ?_
      obtain ⟨hj8, p, hp, h⟩ := hjs j hj
      simpa using (clear_only hj8 hp h).1
    | some k =>
      refine le [k - 1, k + 1] (le_refl _) fun j hj => ?_
      obtain ⟨hj8, p, hp, h⟩ := hjs j hj
      have := masked_only (hkey k rfl) hj8 hp h
      simp only [List.mem_cons, List.not_mem_nil, or_false]
      omega
  · obtain ⟨p, hp, h0, h1, h2⟩ : ∃ p, p < 8 ∧ p ≠ 0 ∧ p ≠ k ∧ p ≠ k + 1 := by
      by_cases h : k ≤ 3
      · exact ⟨6, by omega⟩
      · exact ⟨2, by omega⟩
    refine ⟨p, hp, fun j hj => ⟨fun h => h0 (clear_only hj hp h).2, fun h => ?_⟩⟩
    have := masked_only hk hj hp h
    omega

theorem mix2_masked : config.Mix2Masked := by
  refine ⟨fun i => if i ≤ 6 then maskedAt (i - 1) else if i ≤ 12 then maskedAt (i - 7) else pivotRow,
    fun i hi hp => ⟨by dsimp only; split_ifs <;> rfl, fun f h => ?_⟩⟩
  obtain ⟨c, a0, a1, a2, t, x, rfl⟩ := wf2_cases f h
  show byteAt (mix2 _) i = _
  have hp : 1 ≤ i := Nat.pos_of_ne_zero hp
  interval_cases i <;>
    simp [mix2, MixByte.value, maskedAt, pivotRow, mask, zjBytes, xorAll, byteAt] <;> rfl

/-- TI's copies of the masked fields and of the pivot are derived; its pivot and first copy give the fields. -/
theorem derived2 : config.Derived2 := by
  refine ⟨fun b b' f f' hb h h' => ?_, fun i hi hn => ?_⟩
  · obtain ⟨hw, rfl⟩ := unmix2_eq h
    obtain ⟨hw', rfl⟩ := unmix2_eq h'
    obtain ⟨c, a0, a1, a2, t, x, rfl⟩ := wf2_cases f hw
    obtain ⟨c', a0', a1', a2', t', x', rfl⟩ := wf2_cases f' hw'
    have same (i : Nat) (hi : i < 7) := hb i (by omega) (by
      simp only [config, List.mem_cons, List.not_mem_nil, or_false]; omega)
    have hp := same 0 (by decide)
    have out (p p' y y' : Byte) (e : p = p') (h : y ^^^ p = y' ^^^ p') : y = y' := by
      subst e; exact BitVec.xor_left_inj p |>.mp h
    simp only [ZjFields.mk.injEq, List.cons.injEq, and_true, true_and]
    exact ⟨out _ _ _ _ hp (same 1 (by decide)), ⟨out _ _ _ _ hp (same 2 (by decide)),
      out _ _ _ _ hp (same 3 (by decide)), out _ _ _ _ hp (same 4 (by decide))⟩,
      out _ _ _ _ hp (same 5 (by decide)), out _ _ _ _ hp (same 6 (by decide))⟩
  · have hi : i < 7 := by
      by_contra h
      apply hn
      simp only [config, List.mem_cons, List.not_mem_nil, or_false]
      omega
    let zero : ZjFields := ⟨0, [0, 0, 0], [], 0, 0⟩
    have pick (f g : ZjFields) (hf : config.Zj2Wf f) (hg : config.Zj2Wf g) (hne : f ≠ g)
        (h : ∀ j : Fin 16, j.val ≠ i → j.val ∉ config.derivedPos2 → byteAt (mix2 f) j = byteAt (mix2 g) j) :
        ∃ f g, config.Zj2Wf f ∧ config.Zj2Wf g ∧ f ≠ g ∧
          AgreeBut 16 (i :: config.derivedPos2) (config.mix2 f) (config.mix2 g) :=
      ⟨f, g, hf, hg, hne, fun j hj hm => h ⟨j, hj⟩ (fun e => hm (e ▸ List.mem_cons_self ..))
        fun hd => hm (List.mem_cons_of_mem _ hd)⟩
    interval_cases i
    · exact pick ⟨1, [1, 1, 1], [], 1, 1⟩ ⟨3, [3, 3, 3], [], 3, 3⟩ ⟨rfl, rfl⟩ ⟨rfl, rfl⟩ (by decide) (by decide +kernel)
    · exact pick zero { zero with cmd8 := 0xFF } ⟨rfl, rfl⟩ ⟨rfl, rfl⟩ (by decide) (by decide +kernel)
    · exact pick zero { zero with args := [1, 0, 0] } ⟨rfl, rfl⟩ ⟨rfl, rfl⟩ (by decide) (by decide +kernel)
    · exact pick zero { zero with args := [0, 1, 0] } ⟨rfl, rfl⟩ ⟨rfl, rfl⟩ (by decide) (by decide +kernel)
    · exact pick zero { zero with args := [0, 0, 1] } ⟨rfl, rfl⟩ ⟨rfl, rfl⟩ (by decide) (by decide +kernel)
    · exact pick zero { zero with tx := 0xFF } ⟨rfl, rfl⟩ ⟨rfl, rfl⟩ (by decide) (by decide +kernel)
    · exact pick zero { zero with index := 0xFF } ⟨rfl, rfl⟩ ⟨rfl, rfl⟩ (by decide) (by decide +kernel)

theorem zj_lawful : config.ZjLawful where
  several1 := ⟨by decide, by decide, by decide⟩
  several2 := ⟨by decide, by decide, by decide⟩
  mix0_no_key := mix0_no_key
  mix1_masked := mix1_masked
  mix2_masked := mix2_masked
  uuid_pos := by decide
  uuid_le := by decide
  args_le := by decide
  mac_len := rfl
  addr_len := rfl
  spare_len := rfl
  mix0_len f h := by
    obtain ⟨c, a0, a1, a2, u0, u1, t, i, rfl⟩ := wf_cases f h
    rfl
  unmix0_mix0 f h := by
    obtain ⟨c, a0, a1, a2, u0, u1, t, i, rfl⟩ := wf_cases f h
    exact congrArg fieldsOf (unchain_chain [c, a0, a1, a2, u0, u1, t, i] 0)
  unmix0_wf b f h := fieldsOf_wf h
  mix0_chain := by
    refine ⟨[[0], [0, 1], [0, 1, 2], [0, 1, 2, 3], [0, 1, 2, 3, 4], [0, 1, 2, 3, 4, 5], [0, 1, 2, 3, 4, 5, 6],
      [0, 1, 2, 3, 4, 5, 6, 7]], fun f h => ?_⟩
    obtain ⟨c, a0, a1, a2, u0, u1, t, i, rfl⟩ := wf_cases f h
    simp [config, chain, zjBytes, xorAll, byteAt, BitVec.xor_comm]
  mix1_len f h := by
    obtain ⟨c, a0, a1, a2, u0, u1, t, i, rfl⟩ := wf_cases f h
    rfl
  unmix1_mix1 := unmix1_mix1
  unmix1_wf b f h := (unmix1_eq h).1
  key_pos := by decide
  mix1_key f h := rfl
  pivot1_pos := by decide
  mix1_pivot f h := rfl
  dup_some := by decide
  dup_pos := by decide
  unmix1_checks b f h := by
    obtain ⟨hw, rfl⟩ := unmix1_eq h
    obtain ⟨c, a0, a1, a2, u0, u1, t, i, rfl⟩ := wf_cases f hw
    refine ⟨?_, rfl, pivotFix_odd _⟩
    intro q hq
    simp only [config, List.mem_cons, List.not_mem_nil, or_false] at hq
    rcases hq with rfl | rfl | rfl | rfl | rfl | rfl | rfl <;> rfl
  mix2_len f h := by
    obtain ⟨c, a0, a1, a2, t, i, rfl⟩ := wf2_cases f h
    rfl
  unmix2_mix2 := unmix2_mix2
  unmix2_wf b f h := (unmix2_eq h).1
  pivot2_pos := by decide
  mix2_pivot f h := rfl
  derived_some := by decide
  derived_pos := by decide
  derived2 := derived2
  unmix2_checks b f h := by
    obtain ⟨hw, rfl⟩ := unmix2_eq h
    exact ⟨fun i _ => rfl, pivotFix_odd _⟩

theorem flv1a_lawful : flv1a.Lawful where
  header_len := by decide
  wlen := by decide
  region := by decide
  check_fix _ _ := rfl
  check_carried _ _ := rfl
  fix_one _ _ := by simp [flv1a]

theorem flv1b_lawful : flv1b.Lawful where
  header_len := by decide
  wlen := by decide
  region := by decide
  check_fix _ _ := rfl
  check_carried _ _ := rfl
  fix_one _ _ := by simp [flv1b]

theorem opcodes_lt (k : Kind) : ∀ o ∈ opcodes k, o.toNat < 256 := by cases k <;> simp [opcodes]

/-- TI's opcodes fit eight bits, so they fit every command field. -/
theorem opcodes_fit (v : Codec) (h : codecAgg v = false) (k : Kind) (o : U16) (ho : o ∈ opcodes k) :
    fits v o = true := by
  have hlt := opcodes_lt k o ho
  obtain ⟨kind, _, _, _⟩ := v
  cases kind <;> first | rfl | exact decide_eq_true hlt | cases h

theorem opcodes_len (k : Kind) : (opcodes k).length ≤ 2 := by cases k <;> decide

theorem translate_len_le (cmd : Command) (p : Params) : (translate cmd p).length ≤ 2 := by
  simpa [translate] using opcodes_len cmd.kind

/-- TI's `FIX` is the identity in both variants. -/
theorem fix_id (k : Nat) (u : Flv1Variant) (h : config.flv1Variants[k]? = some u) : u.fix = fun _ a => a := by
  have := List.mem_of_getElem? h
  simp only [config, List.mem_cons, List.not_mem_nil, or_false] at this
  rcases this with rfl | rfl <;> rfl

theorem entry_lawful (kind : CodecKind) (ident : List Byte)
    (hpos : 1 ≤ ident.length) (hlen : ident.length ≤ 32) (hascii : ∀ b ∈ ident, b.toNat < 128)
    (hfit : codecAgg (entry kind ident) = false → codecPlen (entry kind ident) ≤ 26)
    (hflv1 : ∀ k u, kind = .flv1 k u → config.flv1Variants[k]? = some u ∧ 0x10 + k < 0xFF) :
    (entry kind ident).Lawful config where
  ident_pos := hpos
  ident_len := hlen
  ident_ascii := hascii
  fits31 h := by
    have := hfit h
    show codecPlen (entry kind ident) + 2 + 3 ≤ 31
    omega
  flv1_entry := hflv1
  translate_len _ cmd p := le_trans (translate_len_le cmd p) (by decide)
  translate_empty _ cmd p p' := Iff.rfl
  subs_fit h cmd p rc hrc := by
    unfold subs at hrc
    split_ifs at hrc with hc hf
    · cases List.mem_singleton.mp hrc
      exact hf
    · cases hrc
    · obtain ⟨o, ho, rfl⟩ := List.mem_map.mp hrc
      exact opcodes_fit _ h _ o ho
  translate_keeps k u h _ _ _ _ _ := by
    rw [fix_id k u (hflv1 k u h).1]
  translate_flv2u _ cmd p h := by
    rcases h with h | h <;> simp [entry, translate, h, opcodes]

theorem registry_lawful : ∀ v ∈ config.registry, v.Lawful config := by
  simp only [config, registry, List.forall_mem_cons, List.not_mem_nil, false_implies, implies_true, and_true]
  refine ⟨?_, ?_, ?_, ?_, ?_, ?_, ?_, ?_, ?_⟩ <;>
    refine entry_lawful _ _ (by decide) (by decide) (by decide) (by decide) ?_
  · rintro k u h; cases h; exact ⟨rfl, by decide⟩
  · rintro k u h; cases h; exact ⟨rfl, by decide⟩
  all_goals (rintro k u h; cases h)

/-- A TI packet with the source's nine bytes: var 0x10, command 0x28, id 0x1234, tx_count 1, seed 0x0081. -/
def pairPacket : List Byte :=
  [0xAA, 0x98, 0x43, 0xAF, 0x0B, 0x46, 0x46, 0x46, 0x28, 0xD7, 0x6B, 0x20, 0xD0, 0x1F, 0x53, 0xB2] ++
  [0xD8, 0xBB, 0x98, 0x08, 0x24, 0xD9, 0x0F, 0xD4]

theorem pairPacket_decodes : decFlv1 config flv1a pairPacket = some ⟨⟨0x28, ⟨0, 0, 0, 0, 0⟩⟩, 0x1234, 0, 1, 0x81⟩ := by
  decide +kernel

theorem pairPacket_encodes :
    encFlv1 config flv1a ⟨0x28, ⟨0, 0, 0, 0, 0⟩⟩ 0x1234 0 1 0x81 = pairPacket := by
  decide +kernel

theorem pairPacket_pairs : config.PairPacket pairPacket := by
  refine ⟨by decide, by decide, ?_, 0, _, 0, flv1a, _, rfl, rfl, rfl, pairPacket_decodes, pairPacket_encodes, ?_⟩
  · simp only [config, registry, List.forall_mem_cons, List.not_mem_nil, false_implies, implies_true, and_true]
    refine ⟨?_, ?_, ?_, ?_, ?_, ?_, ?_, ?_, ?_⟩ <;> intro h <;> first | (cases h; done) | rfl
  · intro m v h hlf hm
    match m, h with
    | 0, _ => exact absurd rfl hm
    | 1, h => cases h; rfl
    | 2, h => cases h; cases hlf
    | 3, h => cases h; cases hlf
    | 4, h => cases h; cases hlf
    | 5, h => cases h; cases hlf
    | 6, h => cases h; cases hlf
    | 7, h => cases h; cases hlf
    | 8, h => cases h; cases hlf

theorem lawful : config.Lawful where
  nCtrl_pos := by decide
  nCtrl_le := by decide
  fifoCap_pos := by decide
  fifoCap_le := by decide
  cqCap_pos := by decide
  cqCap_le := by decide
  maxPkts_pos := by decide
  maxPkts_le := by decide
  maxPkts_count := by decide
  dedupCap_pos := by decide
  registry_pos := by decide
  registry_le := by decide
  mintxReset_ge := by decide
  mintxReset_le := by decide
  codecReset_lt _ _ := (by decide : 2 < 9)
  ceil_pos f := by cases f <;> decide
  ceil_le f := by cases f <;> decide
  emptyCeil_pos _ := (by decide : 1 ≤ 256)
  emptyCeil_le _ := (by decide : 256 ≤ 256)
  fv_nodup := by decide
  ident_nodup := by decide
  codec_lawful := registry_lawful
  aggregate_len v _ _ := by
    refine ⟨fun _ => 2, fun u hu cmd p => ?_, ?_⟩
    · have hr : u ∈ config.registry := (List.mem_filter.mp hu).1
      have ht : u.translate = translate := by
        simp only [config, registry, List.mem_cons, List.not_mem_nil, or_false] at hr
        rcases hr with rfl | rfl | rfl | rfl | rfl | rfl | rfl | rfl | rfl <;> rfl
      unfold subs
      rw [ht]
      split_ifs
      · exact (by decide : 1 ≤ 2)
      · exact Nat.zero_le 2
      · exact translate_len_le cmd p
    · have : (members config (codecFam v)).length ≤ 4 := by
        cases codecFam v <;> decide
      simp only [List.map_const', List.sum_replicate, smul_eq_mul]
      show _ ≤ 8
      omega
  flv1_two := by decide
  flv1_lawful := by
    simp only [config, List.forall_mem_cons, List.not_mem_nil, false_implies, implies_true, and_true]
    exact ⟨flv1a_lawful, flv1b_lawful⟩
  flv1_keeps i u h _ _ _ _ := by rw [fix_id i u h]
  flv1_apart i j u u' hi hj hne hh _ a := by
    exfalso
    have key : ∀ (n : Nat) (w : Flv1Variant), config.flv1Variants[n]? = some w →
        (n = 0 ∧ w.header.length = 8) ∨ (n = 1 ∧ w.header.length = 7) := by
      intro n w hw
      match n, hw with
      | 0, hw => cases hw; exact .inl ⟨rfl, rfl⟩
      | 1, hw => cases hw; exact .inr ⟨rfl, rfl⟩
    have h1 := key i u hi
    have h2 := key j u' hj
    rw [hh] at h1
    omega
  group_inv g id index h := by
    cases h
    show BitVec.extractLsb' 0 16 (BitVec.setWidth 32 g) = g
    ext k hk
    simp [hk]
    omega
  group_carried id index := by
    show some (BitVec.setWidth 32 (id.extractLsb' 0 16), (0 : Byte)) = some (id &&& 0xFFFF, index &&& 0)
    have h : BitVec.setWidth 32 (id.extractLsb' 0 16) = id &&& 0xFFFF := by
      apply BitVec.eq_of_toNat_eq
      rw [BitVec.toNat_and, show (0xFFFF : U32).toNat = 2 ^ 16 - 1 from rfl, Nat.and_two_pow_sub_one_eq_mod]
      simp
      omega
    rw [h]
    simp
  lfsr := lfsr_lawful
  flv1_wlen := by decide
  flv1_wlen15 := ⟨flv1b, by simp [config], rfl⟩
  flv1_wlen16 := ⟨flv1a, by simp [config], rfl⟩
  flv2PrefixS_len := rfl
  flv2PrefixS_ne := by decide
  pair_packet := ⟨pairPacket, pairPacket_pairs⟩
  pair_address _ _ := ⟨fun _ => by decide +kernel, fun _ => by decide +kernel⟩
  keyBase_len := rfl
  wh_start := by decide
  wh_order := by decide
  wh_end := by decide
  zj := zj_lawful

/-- TI with its laws. -/
def buildConfig : BuildConfig := ⟨config, lawful, fun _ => rfl⟩

end Machine.TI

/-- The build's choice among the configurations a build accepts: unknown. The class argument only says that there is
one. -/
opaque Config.select [Inhabited BuildConfig] : BuildConfig

/-- The build's configuration with its laws. -/
def Config.lawfulBuild : BuildConfig := @Config.select ⟨Machine.TI.buildConfig⟩

/-- The build's configuration (R36). -/
def Config.build : Config := Config.lawfulBuild.config

/-- The build's configuration keeps every law. -/
theorem Config.build_lawful : Config.build.Lawful := Config.lawfulBuild.lawful

/-- The build's wire fields are little-endian, the default of `WIRE_ORDER_f` (R65). -/
theorem Config.build_little (f : LayoutFamily) : Config.build.wireOrder f = .little := Config.lawfulBuild.little f

end Sys2Proof
end

