-- ==== Sys2Proof/Machine/State.lean ====
section
/-! DEFINITION. The state of the machine: every element of R35 under its own name, and the model's own fields for what
stands at the core's boundary (the requests presented on the request port, the responses given, the radio events
emitted, the seed source). All of it is plain data. -/

namespace Sys2Proof.Machine

/-- The status codes of R430; no other code exists ("10..255 reserved, never returned"). -/
inductive Status where
  | ok | unsupported | decodeFail | unidentified | empty | notFound | fallback | duplicate | illegal | range
  deriving DecidableEq, Repr

/-- A response (R81). -/
structure Response where
  status : Status
  res    : U32
  out    : List Byte
  deriving DecidableEq, Repr

/-- An event to the radio sink (R444). -/
inductive RadioEvent where
  | start (bytes : List Byte)
  | stop
  deriving DecidableEq, Repr

/-- An entry of a command queue (R26). -/
structure QueueEntry where
  kind : Kind
  wps  : List WireParam
  deriving DecidableEq, Repr

/-- `S.ctl[c]` (R21 to R27). -/
structure Controller where
  params      : Params
  codec       : Byte
  mintx       : U16
  seqdur      : U16
  queue       : List QueueEntry
  activeValid : Bool
  activeToken : U32
  deriving DecidableEq, Repr

/-- A `PendingAdvertisement` (R11, R31). -/
structure Pending where
  wp            : WireParam
  token         : U32
  processedOnce : Bool
  toBeRemoved   : Bool
  deriving DecidableEq, Repr

/-- `S.sched.mode` (R28). -/
inductive Mode where
  | idle | broadcasting
  deriving DecidableEq, Repr

/-- `S.sched` (R28 to R32). -/
structure Scheduler where
  mode      : Mode
  curToken  : U32
  deadline  : U32
  fifo      : List Pending
  nextToken : U32
  deriving DecidableEq, Repr

/-- An entry of `S.cap.dedup` (R34). -/
structure DedupEntry where
  bytes  : List Byte
  expiry : U32
  deriving DecidableEq, Repr

/-- The seed source (R5, R442), the model's own field: `given` are draws supplied in advance and not yet taken, `drawn`
counts the draws taken. A draw past the given ones is the free value `Config.seedDraw drawn`. -/
structure SeedSource where
  given : List U16
  drawn : Nat
  deriving DecidableEq, Repr

/-- The state. `ctl`, `sched` and `dedup` are the spec's (R35). `seeds`, `port`, `responses` and `events` are the model's
own fields: the seed source, the requests the host has presented and the core has not yet performed (R70: in order, one
at a time), every response given (R81), and every radio event emitted since reset (R33 (b)). -/
structure State where
  ctl       : List Controller
  sched     : Scheduler
  dedup     : List DedupEntry
  seeds     : SeedSource
  port      : List Request
  responses : List Response
  events    : List RadioEvent
  deriving DecidableEq, Repr

/-- The reasons a step can stop with a fault: none. "The core has no trap entry" (R436); every outcome of a request is a
status in its response, and the next request proceeds as usual. Safe: no step can claim a fault. -/
inductive Fault where
  deriving DecidableEq, Repr

/-- The reasons a step can be refused. -/
inductive Refusal where
  /-- Raised by `exec` for an instruction that has no meaning yet; no arm raises it. Safe: the machine stops. -/
  | notModelled (mnemonic : String)
  deriving DecidableEq, Repr

/-- `S.ctl[c]` after reset (R470). -/
def resetController (C : Config) (c : Nat) : Controller where
  params := ⟨C.idReset c, 0, 0, 0⟩
  codec := C.codecReset c
  mintx := C.mintxReset
  seqdur := 0
  queue := []
  activeValid := false
  activeToken := 0

/-- `S.sched` after reset (R470). -/
def resetScheduler : Scheduler where
  mode := .idle
  curToken := 0
  deadline := 0
  fifo := []
  nextToken := 1

/-- The state after reset under a configuration (R470): it emits no event, draws no seed and gives no response, and no
request is presented yet (R472). -/
def resetState (C : Config) : State where
  ctl := (List.range C.nCtrl).map (resetController C)
  sched := resetScheduler
  dedup := []
  seeds := ⟨[], 0⟩
  port := []
  responses := []
  events := []

/-- The machine right after reset (R470). -/
def State.reset : State := resetState Config.build

end Sys2Proof.Machine
end

