-- ==== Sys2Proof/Machine/Flags.lean ====
section
/-! DEFINITION. The core has no flags register. What it reports of a request is the status code (R430) and the bit fields
of `RES` (R304, R310, R342, R377, R447). -/

namespace Sys2Proof.Machine

/-- The code of a status (R430). -/
def statusCode : Status → Byte
  | .ok => 0
  | .unsupported => 1
  | .decodeFail => 2
  | .unidentified => 3
  | .empty => 4
  | .notFound => 5
  | .fallback => 6
  | .duplicate => 7
  | .illegal => 8
  | .range => 9

/-- A bool as a bit of `RES`. -/
def bit32 (b : Bool) : U32 := if b then 1 else 0

/-- `RES` of G.DESCRIBE: `fam | var << 8 | agg << 16 | decodes << 17` (R304). -/
def describeRes (v : Codec) : U32 :=
  (Family.code (codecFam v)).setWidth 32 ||| ((codecVar v).setWidth 32 <<< 8) ||| (bit32 (codecAgg v) <<< 16) |||
    (bit32 (codecDecodes v) <<< 17)

/-- `RES` of G.IDENTIFY: `v | m << 8`, `m` the mismatch bit (R310, R312, R447). -/
def identifyRes (v : Nat) (mismatch : Bool) : U32 := BitVec.ofNat 32 v ||| (bit32 mismatch <<< 8)

/-- `RES` of Q.STATUS: `codec | len(queue) << 8 | active_valid << 16` (R342). -/
def queueStatusRes (k : Controller) : U32 :=
  k.codec.setWidth 32 ||| (BitVec.ofNat 32 k.queue.length <<< 8) ||| (bit32 k.activeValid <<< 16)

/-- `RES` of S.STATUS: the mode in bit 0, the FIFO length in bits 31..16 (R377). -/
def schedStatusRes (d : Scheduler) : U32 :=
  bit32 (decide (d.mode = .broadcasting)) ||| (BitVec.ofNat 32 d.fifo.length <<< 16)

end Sys2Proof.Machine
end

