-- ==== Sys2Proof/Machine/Ops.lean ====
section
/-! DEFINITION. The operations every request shares: the request port, the response, raising a status, the seed source,
the controller registers, and the batch operations of the scheduler. The core has no addressed memory (R60), no trap
entry and no trap return (R436, R437): raising a status (`raise`, R10) is the one shared failure, and it writes nothing
but the response (R434). -/

namespace Sys2Proof.Machine

/-- What a request's rule gives when it runs to its end: the state it leaves and the response (R10 `reply`). -/
structure Reply where
  state  : State
  status : Status := .ok
  res    : U32 := 0
  out    : List Byte := []

/-- Gives a response (R81: "exactly one response" to every request). -/
def State.answer (s : State) (rsp : Response) : State := { s with responses := s.responses ++ [rsp] }

/-- `raise <STATUS>` (R10, R431, R432): the request ends, nothing is written, `RES` is 0 and `OUT` is empty. -/
def State.raise (s : State) (st : Status) : State := s.answer ⟨st, 0, []⟩

/-- The state after a request: of a rule that raised a status, the state before it with that status as the response;
of a rule that ran, the state it left with its reply. -/
def conclude (s : State) : Except Status Reply → State
  | .error st => s.raise st
  | .ok rep => rep.state.answer ⟨rep.status, rep.res, rep.out⟩

/-- A request always completes with a response (R81, R436). -/
def perform (s : State) (rule : Except Status Reply) : Host.Outcome State Fault Refusal := .next (conclude s rule)

/-- Raises `st` unless `p` holds. -/
def require (p : Prop) [Decidable p] (st : Status) : Except Status Unit := if p then .ok () else .error st

/-- The value, or `st` raised where there is none. -/
def orRaise {α : Type} (o : Option α) (st : Status) : Except Status α :=
  match o with
  | some a => .ok a
  | none => .error st

/-- The next request on the port, and the state without it (R70: in order, one at a time). -/
def fetch (s : State) : Option (Request × State) :=
  match s.port with
  | [] => none
  | q :: rest => some (q, { s with port := rest })

/-- The host presents a request that the core performs next. -/
def present (s : State) (q : Request) : State := { s with port := q :: s.port }

/-- `draw_seed()` (R10, R169): the next given draw, or a free value where none was given. -/
def SeedSource.draw (d : SeedSource) : U16 × SeedSource :=
  match d.given with
  | x :: rest => (x, ⟨rest, d.drawn + 1⟩)
  | [] => (Config.seedDraw d.drawn, ⟨[], d.drawn + 1⟩)

/-- `S.ctl[c]`; RANGE where there is no such controller (R432: `N_CTRL` controllers exist from reset on). -/
def controllerAt (s : State) (c : Byte) : Except Status Controller := orRaise s.ctl[c.toNat]? .range

/-- `S.ctl[c] <- k`. -/
def State.setController (s : State) (c : Byte) (k : Controller) : State := { s with ctl := s.ctl.set c.toNat k }

/-- Registry entry `v`; RANGE where `v ≥ REG_N` (R432). -/
def codecAt (C : Config) (v : Byte) : Except Status Codec := orRaise C.registry[v.toNat]? .range

/-- The token after `t`; never 0 (R370, R32). -/
def tokenAfter (t : U32) : U32 := if t = 0xFFFFFFFF then 1 else t + 1

/-- A packet as it enters the FIFO (R370). -/
def pendingOf (t : U32) (w : WireParam) : Pending := ⟨w, t, false, false⟩

/-- `ADD_BATCH(wps)` (R370): the scheduler after it; the token it returns is the `nextToken` before it. -/
def addBatch (d : Scheduler) (wps : List WireParam) : Scheduler :=
  { d with nextToken := tokenAfter d.nextToken, fifo := d.fifo ++ wps.map (pendingOf d.nextToken) }

/-- Marks one entry if it holds the token (R372). -/
def markRemoved (t : U32) (e : Pending) : Pending := if e.token = t then { e with toBeRemoved := true } else e

/-- `REMOVE_BATCH(t)` (R372). -/
def removeBatch (d : Scheduler) (t : U32) : Scheduler := { d with fifo := d.fifo.map (markRemoved t) }

end Sys2Proof.Machine
end

