-- ==== Sys2Proof/Machine/Operands.lean ====
section
/-! DEFINITION. The operands of a request: the records of R84 to R89 read and written byte by byte, the operand use of
every operation (R82), and checks 2 and 3 of R83. -/

namespace Sys2Proof.Machine

/-- The kinds in the order of their codes (R86). -/
def kindTable : List Kind :=
  [.noOp, .pair, .unpair, .custom, .lightOn, .lightOff, .lightDim, .lightColorTemp, .lightWhiteColor] ++
  [.lightSecondaryOn, .lightSecondaryOff, .fanOn, .fanOff, .fanSpeed, .fanOnOffSpeed, .fanDirection, .fanOscillate]

/-- The code of a kind (R86). -/
def kindCode : Kind → Byte
  | .noOp => 0
  | .pair => 1
  | .unpair => 2
  | .custom => 3
  | .lightOn => 4
  | .lightOff => 5
  | .lightDim => 6
  | .lightColorTemp => 7
  | .lightWhiteColor => 8
  | .lightSecondaryOn => 9
  | .lightSecondaryOff => 10
  | .fanOn => 11
  | .fanOff => 12
  | .fanSpeed => 13
  | .fanOnOffSpeed => 14
  | .fanDirection => 15
  | .fanOscillate => 16

/-- The kind of a code; none for 17..255, which is ill-formed (R84, R86). -/
def kindOf (b : Byte) : Option Kind := kindTable[b.toNat]?

/-- The CMD record at offset `i` (R84); none where it is ill-formed. The `cmd` field of a kind other than Custom is
ignored. -/
def readCmd (b : List Byte) (i : Nat) : Option Command :=
  match kindOf (byteAt b i) with
  | none => none
  | some k => some ⟨k, if k = .custom then rd16le b (i + 1) else 0, argsOfBytes (slice b (i + 3) (i + 8))⟩

/-- A CMD record (R84). -/
def writeCmd (c : Command) : List Byte := kindCode c.kind :: le16 c.cmd ++ argBytes c.args

/-- The PARAMS record at offset `i` (R85); every value is well-formed. -/
def readParams (b : List Byte) (i : Nat) : Params :=
  ⟨rd32le b i, byteAt b (i + 4), byteAt b (i + 5), rd16le b (i + 6)⟩

/-- A PARAMS record (R85). -/
def writeParams (p : Params) : List Byte := le32 p.id ++ [p.index, p.tx] ++ le16 p.seed

/-- A REALCMD record (R87). -/
def writeRealCmd (c : RealCommand) : List Byte := le16 c.cmd ++ argBytes c.args

/-- A list of REALCMD records: a count byte, then the records (R87). -/
def writeRealCmds (l : List RealCommand) : List Byte := BitVec.ofNat 8 l.length :: l.flatMap writeRealCmd

/-- A sub-field index of a WP record is absent (0xFF) or below `len` (R88). -/
def indexOk (x : Byte) (len : Nat) : Bool := x == 0xFF || decide (x.toNat < len)

/-- The WP record of 36 bytes that begins the string (R88); none where it is ill-formed. The bytes past `len` are
ignored. -/
def readWp (b : List Byte) : Option WireParam :=
  let len := (byteAt b 0).toNat
  if len ≤ 31 ∧ indexOk (byteAt b 1) len ∧ indexOk (byteAt b 2) len then
    some ⟨slice b 5 (5 + len), byteAt b 1, byteAt b 2, rd16le b 3⟩
  else none

/-- A WP record (R88); the bytes past `len` are 0. -/
def writeWp (w : WireParam) : List Byte :=
  BitVec.ofNat 8 w.data.length :: w.flagsIdx :: w.dataIdx :: le16 w.duration ++ w.data ++ zeros (31 - w.data.length)

/-- `n` WP records that fill the string exactly. -/
def readWps : Nat → List Byte → Option (List WireParam)
  | 0, b => if b = [] then some [] else none
  | n + 1, b =>
    if b.length < 36 then none
    else
      match readWp b, readWps n (b.drop 36) with
      | some w, some ws => some (w :: ws)
      | _, _ => none

/-- A WP list: a count byte, then that many WP records (R89). -/
def readWpList : List Byte → Option (List WireParam)
  | [] => none
  | n :: b => readWps n.toNat b

/-- A WP list (R89). -/
def writeWpList (ws : List WireParam) : List Byte := BitVec.ofNat 8 ws.length :: ws.flatMap writeWp

/-- The payload an operation takes (R82, column LEN and payload). -/
inductive PayloadForm where
  | bytes (lo hi : Nat)
  | cmd
  | params
  | cmdParams
  | wp
  | wpList
  deriving DecidableEq, Repr

/-- The operand use of an operation (R82): `selZero` where `SEL` must be zero, the number of low bits of `IMM` that are
used (the others must be zero), and the payload. -/
structure Shape where
  selZero : Bool
  immBits : Nat
  payload : PayloadForm
  deriving DecidableEq, Repr

/-- The table of R82. -/
def shapeOf : Instr → Shape
  | .pWhitenLfsr _ => ⟨true, 8, .bytes 0 31⟩
  | .pWhitenTable _ => ⟨false, 8, .bytes 0 31⟩
  | .pRevBits _ => ⟨true, 8, .bytes 0 0⟩
  | .pRevBitsAll _ => ⟨true, 0, .bytes 0 31⟩
  | .pRevBytes _ => ⟨true, 0, .bytes 0 31⟩
  | .pCrcCcitt _ => ⟨true, 16, .bytes 0 31⟩
  | .pCrcRefl _ => ⟨true, 16, .bytes 0 31⟩
  | .pAesSign16 _ => ⟨false, 16, .bytes 32 32⟩
  | .pPivotFix _ => ⟨true, 8, .bytes 0 0⟩
  | .kIdentifier _ => ⟨false, 0, .bytes 0 0⟩
  | .kIsSupported _ => ⟨false, 0, .cmd⟩
  | .kTranslate _ => ⟨false, 0, .cmdParams⟩
  | .kEncode _ => ⟨false, 0, .cmdParams⟩
  | .kDecode _ => ⟨false, 0, .wp⟩
  | .gLookupId _ => ⟨true, 0, .bytes 1 32⟩
  | .gLookupFv _ => ⟨true, 16, .bytes 0 0⟩
  | .gCount _ => ⟨true, 0, .bytes 0 0⟩
  | .gIdentify _ => ⟨true, 0, .wp⟩
  | .gDescribe _ => ⟨false, 0, .bytes 0 0⟩
  | .qSetParams _ => ⟨false, 0, .params⟩
  | .qGetParams _ => ⟨false, 0, .bytes 0 0⟩
  | .qSetCodec _ => ⟨false, 8, .bytes 0 0⟩
  | .qSetMintx _ => ⟨false, 16, .bytes 0 0⟩
  | .qSetSeqdur _ => ⟨false, 16, .bytes 0 0⟩
  | .qEnqueue _ => ⟨false, 0, .cmd⟩
  | .qDequeueFront _ => ⟨false, 0, .bytes 0 0⟩
  | .qPump _ => ⟨false, 0, .bytes 0 0⟩
  | .qStatus _ => ⟨false, 0, .bytes 0 0⟩
  | .sAddBatch _ => ⟨true, 0, .wpList⟩
  | .sRemoveBatch _ => ⟨true, 32, .bytes 0 0⟩
  | .sTick _ => ⟨true, 32, .bytes 0 0⟩
  | .sStatus _ => ⟨true, 0, .bytes 0 0⟩
  | .xFromRaw _ => ⟨true, 0, .bytes 1 31⟩
  | .xInjectHex _ => ⟨true, 0, .bytes 0 65535⟩
  | .xCapture _ => ⟨false, 32, .bytes 1 31⟩

/-- The fields of a request. -/
def fieldsOf : Instr → Fields
  | .pWhitenLfsr r | .pWhitenTable r | .pRevBits r | .pRevBitsAll r | .pRevBytes r | .pCrcCcitt r | .pCrcRefl r
  | .pAesSign16 r | .pPivotFix r | .kIdentifier r | .kIsSupported r | .kTranslate r | .kEncode r | .kDecode r
  | .gLookupId r | .gLookupFv r | .gCount r | .gIdentify r | .gDescribe r | .qSetParams r | .qGetParams r
  | .qSetCodec r | .qSetMintx r | .qSetSeqdur r | .qEnqueue r | .qDequeueFront r | .qPump r | .qStatus r
  | .sAddBatch r | .sRemoveBatch r | .sTick r | .sStatus r | .xFromRaw r | .xInjectHex r | .xCapture r => r

/-- The length and the records of a payload are what the operation accepts (R83, check 3). -/
def payloadOk (f : PayloadForm) (b : List Byte) : Bool :=
  match f with
  | .bytes lo hi => decide (lo ≤ b.length) && decide (b.length ≤ hi)
  | .cmd => decide (b.length = 8) && (readCmd b 0).isSome
  | .params => decide (b.length = 8)
  | .cmdParams => decide (b.length = 16) && (readCmd b 0).isSome
  | .wp => decide (b.length = 36) && (readWp b).isSome
  | .wpList => (readWpList b).isSome

/-- The must-be-zero fields are zero, and `LEN` equals the payload length the host sent (R83, check 2). -/
def fieldsOk (h : Shape) (r : Fields) : Bool :=
  (!h.selZero || r.sel == 0) && decide (r.imm.toNat < 2 ^ h.immBits) && decide (r.len.toNat = r.payload.length)

/-- Checks 2 and 3 of R83. -/
def wellFormed (i : Instr) : Bool :=
  fieldsOk (shapeOf i) (fieldsOf i) && payloadOk (shapeOf i).payload (fieldsOf i).payload

/-- ILLEGAL unless the request passes checks 2 and 3 of R83 (R431). -/
def checkRequest (i : Instr) : Except Status Unit := require (wellFormed i = true) .illegal

/-- `IMM[7:0]`. -/
def immByte (r : Fields) : Byte := r.imm.extractLsb' 0 8

/-- `IMM[15:8]`. -/
def immByte1 (r : Fields) : Byte := r.imm.extractLsb' 8 8

/-- `IMM[15:0]`. -/
def immHalf (r : Fields) : U16 := r.imm.extractLsb' 0 16

end Sys2Proof.Machine
end

