-- ==== Sys2Proof/WellFormed.lean ====
section
/-! DEFINITION. Well-formed instructions: a request that passes checks 2 and 3 of R83 (the fields that must be zero, the
payload length, the records). Any other request of the same operation is still an instruction: it gets status ILLEGAL
(R431). -/

namespace Sys2Proof

/-- The instruction passes the decoding checks that do not depend on the state (R83, checks 2 and 3). -/
abbrev Instr.WellFormed (i : Instr) : Prop := Machine.wellFormed i = true

end Sys2Proof
end

