-- ==== Sys2Proof/Decode.lean ====
section
/-! DEFINITION. Decoding a request into an instruction and encoding an instruction as a request (R80, R82, R91 to R93).
The operation is selected by `OP` alone (the table's mask is 0xFF); the other fields are taken from the word, and the
payload is what the host sent. A request is the 8-byte word, least significant byte first, then the payload (R80). -/

namespace Sys2Proof

/-- Why a byte string is no instruction. -/
inductive DecodeError where
  /-- `OP` is not in the operation map (R92): the core answers ILLEGAL (R431). -/
  | illegalOp (op : Byte)
  /-- Fewer than the 8 bytes of a request word: no request has been presented yet (R80, R93). -/
  | truncated
  deriving DecidableEq, Repr

/-- The operation map (R82): the instruction of an `OP`, and none for the illegal values of R92. -/
def operationOf (op : Byte) : Option (Fields → Instr) :=
  match op.toNat with
  | 0x01 => some .pWhitenLfsr
  | 0x02 => some .pWhitenTable
  | 0x03 => some .pRevBits
  | 0x04 => some .pRevBitsAll
  | 0x05 => some .pRevBytes
  | 0x06 => some .pCrcCcitt
  | 0x07 => some .pCrcRefl
  | 0x08 => some .pAesSign16
  | 0x09 => some .pPivotFix
  | 0x10 => some .kIdentifier
  | 0x11 => some .kIsSupported
  | 0x12 => some .kTranslate
  | 0x13 => some .kEncode
  | 0x14 => some .kDecode
  | 0x20 => some .gLookupId
  | 0x21 => some .gLookupFv
  | 0x22 => some .gCount
  | 0x23 => some .gIdentify
  | 0x24 => some .gDescribe
  | 0x30 => some .qSetParams
  | 0x31 => some .qGetParams
  | 0x32 => some .qSetCodec
  | 0x33 => some .qSetMintx
  | 0x34 => some .qSetSeqdur
  | 0x35 => some .qEnqueue
  | 0x36 => some .qDequeueFront
  | 0x37 => some .qPump
  | 0x38 => some .qStatus
  | 0x40 => some .sAddBatch
  | 0x41 => some .sRemoveBatch
  | 0x42 => some .sTick
  | 0x43 => some .sStatus
  | 0x50 => some .xFromRaw
  | 0x51 => some .xInjectHex
  | 0x52 => some .xCapture
  | _ => none

/-- The fields of a request other than `OP` (R80). -/
def fieldsOfRequest (q : Request) : Fields :=
  ⟨q.word.extractLsb' 8 8, q.word.extractLsb' 16 16, q.word.extractLsb' 32 32, q.payload⟩

/-- Check 1 of R83: the instruction of a presented request. -/
def decode (q : Request) : Except DecodeError Instr :=
  match operationOf (q.word.extractLsb' 0 8) with
  | some mk => .ok (mk (fieldsOfRequest q))
  | none => .error (.illegalOp (q.word.extractLsb' 0 8))

/-- The 8 bytes of a request word, least significant first (R80). -/
def wordBytes (w : U64) : List Byte :=
  [w.extractLsb' 0 8, w.extractLsb' 8 8, w.extractLsb' 16 8, w.extractLsb' 24 8] ++
  [w.extractLsb' 32 8, w.extractLsb' 40 8, w.extractLsb' 48 8, w.extractLsb' 56 8]

/-- The bytes of a request (R93). -/
def requestBytes (q : Request) : List Byte := wordBytes q.word ++ q.payload

/-- The request a byte string carries: its first 8 bytes are the word, the rest the payload sent (R80). -/
def requestOfBytes : List Byte → Option Request
  | b0 :: b1 :: b2 :: b3 :: b4 :: b5 :: b6 :: b7 :: payload =>
    some ⟨b7 ++ b6 ++ b5 ++ b4 ++ b3 ++ b2 ++ b1 ++ b0, payload⟩
  | _ => none

/-- Decoding any byte string. -/
def decodeBytes (b : List Byte) : Except DecodeError Instr :=
  match requestOfBytes b with
  | some q => decode q
  | none => .error .truncated

/-- The `OP` of an instruction (R82). -/
def opcodeOf : Instr → Byte
  | .pWhitenLfsr _ => 0x01
  | .pWhitenTable _ => 0x02
  | .pRevBits _ => 0x03
  | .pRevBitsAll _ => 0x04
  | .pRevBytes _ => 0x05
  | .pCrcCcitt _ => 0x06
  | .pCrcRefl _ => 0x07
  | .pAesSign16 _ => 0x08
  | .pPivotFix _ => 0x09
  | .kIdentifier _ => 0x10
  | .kIsSupported _ => 0x11
  | .kTranslate _ => 0x12
  | .kEncode _ => 0x13
  | .kDecode _ => 0x14
  | .gLookupId _ => 0x20
  | .gLookupFv _ => 0x21
  | .gCount _ => 0x22
  | .gIdentify _ => 0x23
  | .gDescribe _ => 0x24
  | .qSetParams _ => 0x30
  | .qGetParams _ => 0x31
  | .qSetCodec _ => 0x32
  | .qSetMintx _ => 0x33
  | .qSetSeqdur _ => 0x34
  | .qEnqueue _ => 0x35
  | .qDequeueFront _ => 0x36
  | .qPump _ => 0x37
  | .qStatus _ => 0x38
  | .sAddBatch _ => 0x40
  | .sRemoveBatch _ => 0x41
  | .sTick _ => 0x42
  | .sStatus _ => 0x43
  | .xFromRaw _ => 0x50
  | .xInjectHex _ => 0x51
  | .xCapture _ => 0x52

/-- The request word of R80: `OP` in bits 7:0, `SEL` 15:8, `LEN` 31:16, `IMM` 63:32. -/
def wordOf (op : Byte) (r : Fields) : U64 := r.imm ++ r.len ++ r.sel ++ op

/-- The request of an instruction. -/
def encode (i : Instr) : Request := ⟨wordOf (opcodeOf i) (Machine.fieldsOf i), (Machine.fieldsOf i).payload⟩

/-- The bytes of an instruction's request. -/
def encodeBytes (i : Instr) : List Byte := requestBytes (encode i)

/-- The request whose bits are the low `nbits` bits of `w`, bit 0 the least significant bit of the word's first byte:
the word is bits 63:0, and byte `k` of the payload of `LEN` bytes stands in bits `64 + 8k` and up; every bit above
`nbits` is 0. -/
def tableRequest (nbits w : Nat) : Request :=
  let v := w % 2 ^ nbits
  let word := BitVec.ofNat 64 v
  ⟨word, (List.range (word.extractLsb' 16 16).toNat).map fun k => BitVec.ofNat 8 (v >>> (64 + 8 * k))⟩

/-- The instruction the decoder reads from a row's word: the request's bytes in the order the port takes them. -/
def decodeTableWord (nbits w : Nat) : Option Instr :=
  match decodeBytes (requestBytes (tableRequest nbits w)) with
  | .ok i => some i
  | .error _ => none

end Sys2Proof
end

