-- ==== Sys2Proof/Machine/Codec.lean ====
section
/-! DEFINITION. The common contract of the packet codecs (R160 to R177): translate, isSupported, encode, decode, the
advertisement around a payload (R96, R98), the aggregate's encode (R308), and the requests K.*. -/

namespace Sys2Proof.Machine

/-- The concrete codecs a codec stands for: itself, or an aggregate's members (R300, R307). -/
def concretes (C : Config) (v : Codec) : List Codec := if codecAgg v then members C (codecFam v) else [v]

/-- The list K.TRANSLATE returns (R163, R307): of an aggregate, the members' lists in registry order. -/
def translation (C : Config) (v : Codec) (cmd : Command) (p : Params) : List RealCommand :=
  (concretes C v).flatMap fun u => subs u cmd p

/-- `isSupported_v(cmd)` with the params P0 (R164): of an aggregate, that of some member. -/
def isSupported (C : Config) (v : Codec) (cmd : Command) (p0 : Params) : Bool :=
  (concretes C v).any fun u => !(subs u cmd p0).isEmpty

/-- `WRAP(AD_v, P)` (R96); the duration is 0 until the command queue sets it. -/
def wrap (a : AdWrap) (P : List Byte) : WireParam :=
  let body := BitVec.ofNat 8 (P.length + 1) :: a.adType :: P
  if a.flagsPresent then ⟨[0x02, 0x01, a.flagsValue] ++ body, 0, 3, 0⟩ else ⟨body, 0xFF, 0, 0⟩

/-- `PAYLOAD(w)` (R98): the payload and the type byte; none where there is no payload. -/
def payloadOf (w : WireParam) : Option (List Byte × Option Byte) :=
  if w.dataIdx = 0xFF then some (w.data, none)
  else
    let i := w.dataIdx.toNat
    if w.data.length ≤ i + 1 then none
    else
      let L := (byteAt w.data i).toNat
      if L = 0 ∨ w.data.length < i + 1 + L then none
      else some (slice w.data (i + 2) (i + 1 + L), some (byteAt w.data (i + 1)))

/-- `tx_count mod n` (R171). -/
def txMod (tx : Byte) (n : Nat) : Byte := BitVec.ofNat 8 (tx.toNat % n)

/-- `(tx_count + k) mod n` (R170 with k = 1, R308). -/
def txAdvance (tx : Byte) (k n : Nat) : Byte := BitVec.ofNat 8 ((tx.toNat + k) % n)

/-- The layout carries a seed field (R168). -/
def carriesSeed (v : Codec) : Bool :=
  match codecLf v with
  | some .flv1 | some .flv2 => true
  | _ => false

/-- The seed of one packet and the seed source after it (R168). -/
def packetSeed (v : Codec) (p : Params) (d : SeedSource) : U16 × SeedSource :=
  if carriesSeed v then (if p.seed ≠ 0 then (p.seed, d) else d.draw) else (0, d)

/-- The loop of `ENCODE1` over the RealCommands (R172): tx_count advances before each packet and the packet carries the
advanced value (R170). -/
def encodeEach (C : Config) (v : Codec) : Params → SeedSource → List RealCommand →
    Params × List WireParam × SeedSource
  | p, d, [] => (p, [], d)
  | p, d, rc :: rest =>
    let tx := txAdvance p.tx 1 (ceilOf C v)
    let (s, d') := packetSeed v p d
    let w := wrap v.ad (encPayload C v rc p.id p.index tx s)
    let (p', ws, d'') := encodeEach C v { p with tx := tx } d' rest
    (p', w :: ws, d'')

/-- `ENCODE1(v, cmd, p)` of a concrete codec (R172); none is UNSUPPORTED, with the params unchanged and no packet. -/
def encode1 (C : Config) (v : Codec) (cmd : Command) (p : Params) (d : SeedSource) :
    Option (Params × List WireParam × SeedSource) :=
  match subs v cmd p with
  | [] => none
  | l => some (encodeEach C v { p with tx := txMod p.tx (ceilOf C v) } d l)

/-- The loop of `AGG_ENCODE` (R308): every member starts from the same params; the packets of those that support the
Command are concatenated, and `k` is the longest member list. -/
def encodeMembers (C : Config) (cmd : Command) (p : Params) : SeedSource → List Codec →
    Nat × List WireParam × SeedSource
  | d, [] => (0, [], d)
  | d, u :: rest =>
    match encode1 C u cmd p d with
    | none => encodeMembers C cmd p d rest
    | some (_, ws, d') =>
      let (k, ws', d'') := encodeMembers C cmd p d' rest
      (max ws.length k, ws ++ ws', d'')

/-- `AGG_ENCODE(v, cmd, params)` (R308); none is UNSUPPORTED. -/
def aggEncode (C : Config) (v : Codec) (cmd : Command) (p : Params) (d : SeedSource) :
    Option (Params × List WireParam × SeedSource) :=
  let us := members C (codecFam v)
  if us.any (fun u => !(subs u cmd p).isEmpty) then
    let (k, ws, d') := encodeMembers C cmd p d us
    some ({ p with tx := txAdvance (txMod p.tx (ceilOf C v)) k (ceilOf C v) }, ws, d')
  else none

/-- The encode of any codec (R172, R332). -/
def encodeCmd (C : Config) (v : Codec) (cmd : Command) (p : Params) (d : SeedSource) :
    Option (Params × List WireParam × SeedSource) :=
  if codecAgg v then aggEncode C v cmd p d else encode1 C v cmd p d

/-- The Command a decode yields: kind Custom with the opcode (R175). -/
def customOf (rc : RealCommand) : Command := ⟨.custom, rc.cmd, rc.args⟩

/-- `CMD(cmd) ++ PARAMS` of a decoded packet (R175, R310). -/
def decodedOut (d : Decoded) : List Byte := writeCmd (customOf d.rc) ++ writeParams ⟨d.id, d.index, d.tx, d.seed⟩

/-- The decode of a WireParam with a concrete codec (R175); none is DECODE_FAIL, whatever the reason (R177). -/
def decodeWith (C : Config) (v : Codec) (w : WireParam) : Option Decoded :=
  match payloadOf w with
  | none => none
  | some (P, _) => if P.length = codecPlen v then decPayload C v P else none

/-- K.IDENTIFIER (R161). -/
def ruleIdentifier (C : Config) (r : Fields) (s : State) : Except Status Reply := do
  checkRequest (.kIdentifier r)
  let v ← codecAt C r.sel
  .ok { state := s, out := v.ident }

/-- K.IS_SUPPORTED (R165); P0 is all zeros. -/
def ruleIsSupported (C : Config) (r : Fields) (s : State) : Except Status Reply := do
  checkRequest (.kIsSupported r)
  let cmd ← orRaise (readCmd r.payload 0) .illegal
  let v ← codecAt C r.sel
  .ok { state := s, res := bit32 (isSupported C v cmd ⟨0, 0, 0, 0⟩) }

/-- K.TRANSLATE (R163). -/
def ruleTranslate (C : Config) (r : Fields) (s : State) : Except Status Reply := do
  checkRequest (.kTranslate r)
  let cmd ← orRaise (readCmd r.payload 0) .illegal
  let v ← codecAt C r.sel
  let l := translation C v cmd (readParams r.payload 8)
  .ok { state := s, res := BitVec.ofNat 32 l.length, out := writeRealCmds l }

/-- K.ENCODE (R172): the updated params are returned, not stored; an unsupported Command replies UNSUPPORTED with the
params unchanged and an empty list (R167). -/
def ruleEncode (C : Config) (r : Fields) (s : State) : Except Status Reply := do
  checkRequest (.kEncode r)
  let cmd ← orRaise (readCmd r.payload 0) .illegal
  let v ← codecAt C r.sel
  let p := readParams r.payload 8
  match encodeCmd C v cmd p s.seeds with
  | none => .ok { state := s, status := .unsupported, out := writeParams p ++ writeWpList [] }
  | some (p', ws, d) =>
    .ok { state := { s with seeds := d }, res := BitVec.ofNat 32 ws.length, out := writeParams p' ++ writeWpList ws }

/-- K.DECODE (R175). -/
def ruleDecode (C : Config) (r : Fields) (s : State) : Except Status Reply := do
  checkRequest (.kDecode r)
  let w ← orRaise (readWp r.payload) .illegal
  let v ← codecAt C r.sel
  require (codecDecodes v = true) .unsupported
  let d ← orRaise (decodeWith C v w) .decodeFail
  .ok { state := s, out := decodedOut d }

/-- K.IDENTIFIER. -/
def execIdentifier (r : Fields) (s : State) : Host.Outcome State Fault Refusal :=
  perform s (ruleIdentifier Config.build r s)

/-- K.IS_SUPPORTED. -/
def execIsSupported (r : Fields) (s : State) : Host.Outcome State Fault Refusal :=
  perform s (ruleIsSupported Config.build r s)

/-- K.TRANSLATE. -/
def execTranslate (r : Fields) (s : State) : Host.Outcome State Fault Refusal :=
  perform s (ruleTranslate Config.build r s)

/-- K.ENCODE. -/
def execEncode (r : Fields) (s : State) : Host.Outcome State Fault Refusal :=
  perform s (ruleEncode Config.build r s)

/-- K.DECODE. -/
def execDecode (r : Fields) (s : State) : Host.Outcome State Fault Refusal :=
  perform s (ruleDecode Config.build r s)

end Sys2Proof.Machine
end

