-- ==== Sys2Proof/Machine/Registry.lean ====
section
/-! DEFINITION. The codec registry (R300 to R314): the lookups, the descriptor query and identification, and the requests
G.*. No request writes state (R313). -/

namespace Sys2Proof.Machine

/-- The index of the first codec that satisfies `f`, counting from `i`: the linear scans of R305 and R306. -/
def findCodec (f : Codec → Bool) : Nat → List Codec → Option Nat
  | _, [] => none
  | i, v :: rest => if f v then some i else findCodec f (i + 1) rest

/-- A codec is passed over by identify (R310, R311): an aggregate, or, with the pre-filter on and a type byte named, a
codec of another AD type, or one of another payload length. -/
def identifySkips (C : Config) (v : Codec) (P : List Byte) (t : Option Byte) : Bool :=
  !codecDecodes v || (C.prefilter && t.any (fun b => b != v.ad.adType)) || decide (P.length ≠ codecPlen v)

/-- The rebuilt payload differs from the received one (R312): the layout function is called directly, so no seed is
drawn and tx_count does not advance. -/
def reencodeDiffers (C : Config) (v : Codec) (d : Decoded) (P : List Byte) : Bool :=
  decide (encPayload C v d.rc d.id d.index d.tx d.seed ≠ P)

/-- The loop of G.IDENTIFY (R310) over the registry from index `i`: the first codec whose decode succeeds, its decoded
fields and the mismatch bit. -/
def identifyFrom (C : Config) (P : List Byte) (t : Option Byte) : Nat → List Codec → Option (Nat × Decoded × Bool)
  | _, [] => none
  | i, v :: rest =>
    if identifySkips C v P t then identifyFrom C P t (i + 1) rest
    else
      match decPayload C v P with
      | some d => some (i, d, reencodeDiffers C v d P)
      | none => identifyFrom C P t (i + 1) rest

/-- Identification of a WireParam (R310); none is UNIDENTIFIED. -/
def identify (C : Config) (w : WireParam) : Option (Nat × Decoded × Bool) :=
  match payloadOf w with
  | none => none
  | some (P, t) => identifyFrom C P t 0 C.registry

/-- The reply of an identification, from the state `s` the request leaves (R310, R405). -/
def identifyReply (C : Config) (w : WireParam) (s : State) : Reply :=
  match identify C w with
  | none => { state := s, status := .unidentified }
  | some (v, d, m) => { state := s, res := identifyRes v m, out := decodedOut d }

/-- G.LOOKUP_ID (R305); an unknown identifier gives FALLBACK with index 0. -/
def ruleLookupId (C : Config) (r : Fields) (s : State) : Except Status Reply := do
  checkRequest (.gLookupId r)
  match findCodec (fun v => v.ident == r.payload) 0 C.registry with
  | some v => .ok { state := s, res := BitVec.ofNat 32 v }
  | none => .ok { state := s, status := .fallback }

/-- G.LOOKUP_FV (R306). -/
def ruleLookupFv (C : Config) (r : Fields) (s : State) : Except Status Reply := do
  checkRequest (.gLookupFv r)
  let v ← orRaise (findCodec (fun v => Family.code (codecFam v) == immByte r && codecVar v == immByte1 r) 0 C.registry)
    .notFound
  .ok { state := s, res := BitVec.ofNat 32 v }

/-- G.COUNT (R303). -/
def ruleCount (C : Config) (r : Fields) (s : State) : Except Status Reply := do
  checkRequest (.gCount r)
  .ok { state := s, res := BitVec.ofNat 32 C.registry.length }

/-- G.IDENTIFY (R310). -/
def ruleIdentify (C : Config) (r : Fields) (s : State) : Except Status Reply := do
  checkRequest (.gIdentify r)
  let w ← orRaise (readWp r.payload) .illegal
  .ok (identifyReply C w s)

/-- G.DESCRIBE (R304). -/
def ruleDescribe (C : Config) (r : Fields) (s : State) : Except Status Reply := do
  checkRequest (.gDescribe r)
  let v ← codecAt C r.sel
  .ok { state := s, res := describeRes v }

/-- G.LOOKUP_ID. -/
def execLookupId (r : Fields) (s : State) : Host.Outcome State Fault Refusal :=
  perform s (ruleLookupId Config.build r s)

/-- G.LOOKUP_FV. -/
def execLookupFv (r : Fields) (s : State) : Host.Outcome State Fault Refusal :=
  perform s (ruleLookupFv Config.build r s)

/-- G.COUNT. -/
def execCount (r : Fields) (s : State) : Host.Outcome State Fault Refusal :=
  perform s (ruleCount Config.build r s)

/-- G.IDENTIFY. -/
def execIdentify (r : Fields) (s : State) : Host.Outcome State Fault Refusal :=
  perform s (ruleIdentify Config.build r s)

/-- G.DESCRIBE. -/
def execDescribe (r : Fields) (s : State) : Host.Outcome State Fault Refusal :=
  perform s (ruleDescribe Config.build r s)

end Sys2Proof.Machine
end

