-- ==== Sys2Proof/Machine/Capture.lean ====
section
/-! DEFINITION. Capture, raw-hex inject and capture deduplication (R400 to R406), and the requests X.*. -/

namespace Sys2Proof.Machine

/-- `t` is in `DATA_TYPES` (R400): the AD type of some registered codec. -/
def isDataType (C : Config) (t : Byte) : Bool := C.registry.any fun v => v.ad.adType == t

/-- The loop of `SCAN` (R401) from offset `i`, with the indices found so far. Every element read is at least two bytes
long, so `fuel` elements suffice for a string of `fuel` bytes. -/
def scanFrom (C : Config) (raw : List Byte) : Nat → Nat → Byte → Byte → Byte × Byte
  | 0, _, fi, di => (fi, di)
  | fuel + 1, i, fi, di =>
    if raw.length ≤ i then (fi, di)
    else
      let L := (byteAt raw i).toNat
      if L = 0 ∨ raw.length < i + 1 + L then (fi, di)
      else
        let t := byteAt raw (i + 1)
        scanFrom C raw fuel (i + 1 + L)
          (if t = 0x01 ∧ fi = 0xFF then BitVec.ofNat 8 i else fi)
          (if isDataType C t = true ∧ di = 0xFF then BitVec.ofNat 8 i else di)

/-- `SCAN(raw)` (R401): the flags index and the data index. -/
def scan (C : Config) (raw : List Byte) : Byte × Byte := scanFrom C raw raw.length 0 0xFF 0xFF

/-- `FROM_RAW(raw)` (R402), also the WireParam of R403. -/
def fromRaw (C : Config) (raw : List Byte) : WireParam := ⟨raw, (scan C raw).1, (scan C raw).2, 0⟩

/-- Trailing spaces removed. -/
def dropTrailingSpaces (t : List Byte) : List Byte := (t.reverse.dropWhile (· == 0x20)).reverse

/-- What stands before the last `(`; none where there is none (R403). -/
def beforeLastParen (t : List Byte) : Option (List Byte) :=
  match t.reverse.dropWhile (· != 0x28) with
  | [] => none
  | _ :: before => some before.reverse

/-- The trailing comment is cut when the text ends with `)` and holds a `(` (R403). -/
def dropComment (t : List Byte) : List Byte :=
  if t.getLast? = some 0x29 then
    match beforeLastParen t with
    | some b => dropTrailingSpaces b
    | none => t
  else t

/-- One leading "0x" or "0X" is dropped (R403). -/
def dropHexMark (t : List Byte) : List Byte :=
  if t.take 2 = [0x30, 0x78] ∨ t.take 2 = [0x30, 0x58] then t.drop 2 else t

/-- The value of a hex digit. -/
def hexVal (b : Byte) : Option Byte :=
  if 0x30 ≤ b.toNat ∧ b.toNat ≤ 0x39 then some (b - 0x30)
  else if 0x41 ≤ b.toNat ∧ b.toNat ≤ 0x46 then some (b - 0x37)
  else if 0x61 ≤ b.toNat ∧ b.toNat ≤ 0x66 then some (b - 0x57)
  else none

/-- The values of the longest prefix of hex digits (R403). -/
def hexPrefix : List Byte → List Byte
  | [] => []
  | b :: bs =>
    match hexVal b with
    | some v => v :: hexPrefix bs
    | none => []

/-- Digits paired into bytes; an odd last digit gets a zero low nibble (R403). -/
def hexPairs : List Byte → List Byte
  | hi :: lo :: rest => ((hi <<< 4) ||| lo) :: hexPairs rest
  | [hi] => [hi <<< 4]
  | [] => []

/-- `HEXPARSE(s)` (R403). -/
def hexParse (t : List Byte) : List Byte :=
  let t := dropHexMark (dropComment (dropTrailingSpaces (t.dropWhile (· == 0x20))))
  hexPairs ((hexPrefix (t.filter fun b => b != 0x2E && b != 0x20)).take 62)

/-- The live entries at time `now` (R404, R405). -/
def liveEntries (now : U32) (l : List DedupEntry) : List DedupEntry := l.filter fun e => decide (now < e.expiry)

/-- The dedup list with a packet recorded; when it is full the oldest entry goes (R405). -/
def recordCapture (C : Config) (l : List DedupEntry) (e : DedupEntry) : List DedupEntry :=
  (if l.length = C.dedupCap then l.drop 1 else l) ++ [e]

/-- X.FROM_RAW (R402). -/
def ruleFromRaw (C : Config) (r : Fields) (s : State) : Except Status Reply := do
  checkRequest (.xFromRaw r)
  .ok { state := s, out := writeWp (fromRaw C r.payload) }

/-- X.INJECT_HEX (R403). -/
def ruleInjectHex (C : Config) (r : Fields) (s : State) : Except Status Reply := do
  checkRequest (.xInjectHex r)
  .ok { state := s, out := writeWp (fromRaw C (hexParse r.payload)) }

/-- X.CAPTURE (R405): the expiry in seconds is `SEL`, `now` is `IMM`. A live repeat is DUPLICATE, and the list loses its
expired entries; another packet is recorded, whether or not it then identifies as anything. -/
def ruleCapture (C : Config) (r : Fields) (s : State) : Except Status Reply := do
  checkRequest (.xCapture r)
  let live := liveEntries r.imm s.dedup
  if live.any (fun e => e.bytes == r.payload) then
    .ok { state := { s with dedup := live }, status := .duplicate }
  else
    .ok (identifyReply C (fromRaw C r.payload)
      { s with dedup := recordCapture C live ⟨r.payload, r.imm + 1000 * r.sel.setWidth 32⟩ })

/-- X.FROM_RAW. -/
def execFromRaw (r : Fields) (s : State) : Host.Outcome State Fault Refusal :=
  perform s (ruleFromRaw Config.build r s)

/-- X.INJECT_HEX. -/
def execInjectHex (r : Fields) (s : State) : Host.Outcome State Fault Refusal :=
  perform s (ruleInjectHex Config.build r s)

/-- X.CAPTURE. -/
def execCapture (r : Fields) (s : State) : Host.Outcome State Fault Refusal :=
  perform s (ruleCapture Config.build r s)

end Sys2Proof.Machine
end

