-- ==== Sys2Proof/Machine/PrimitiveRequest.lean ====
section
/-! DEFINITION. The requests P.* (R130 to R142): each returns what its primitive computes and writes no state. -/

namespace Sys2Proof.Machine

/-- P.WHITEN_LFSR (R130). -/
def ruleWhitenLfsr (C : Config) (r : Fields) (s : State) : Except Status Reply := do
  checkRequest (.pWhitenLfsr r)
  .ok { state := s, out := whitenLfsr C r.payload (immByte r) }

/-- P.WHITEN_TABLE (R133); the salt is `SEL`. -/
def ruleWhitenTable (C : Config) (r : Fields) (s : State) : Except Status Reply := do
  checkRequest (.pWhitenTable r)
  .ok { state := s, out := whitenTable C r.payload ((immByte r).setWidth 16) r.sel }

/-- P.REV_BITS (R134). -/
def ruleRevBits (r : Fields) (s : State) : Except Status Reply := do
  checkRequest (.pRevBits r)
  .ok { state := s, res := (reverseBits (immByte r)).setWidth 32 }

/-- P.REV_BITS_ALL (R135). -/
def ruleRevBitsAll (r : Fields) (s : State) : Except Status Reply := do
  checkRequest (.pRevBitsAll r)
  .ok { state := s, out := reverseBitsAll r.payload }

/-- P.REV_BYTES (R136). -/
def ruleRevBytes (r : Fields) (s : State) : Except Status Reply := do
  checkRequest (.pRevBytes r)
  .ok { state := s, out := reverseBytes r.payload }

/-- P.CRC_CCITT (R137). -/
def ruleCrcCcitt (r : Fields) (s : State) : Except Status Reply := do
  checkRequest (.pCrcCcitt r)
  .ok { state := s, res := (crc16Ccitt r.payload (immHalf r)).setWidth 32 }

/-- P.CRC_REFL (R138). -/
def ruleCrcRefl (r : Fields) (s : State) : Except Status Reply := do
  checkRequest (.pCrcRefl r)
  .ok { state := s, res := (crc16Refl r.payload (immHalf r)).setWidth 32 }

/-- P.AES_SIGN16 (R139); the payload is `key16 ++ plaintext16`, tx_count is `SEL`. -/
def ruleAesSign16 (r : Fields) (s : State) : Except Status Reply := do
  checkRequest (.pAesSign16 r)
  .ok { state := s, res := (aesSign16 (slice r.payload 0 16) (slice r.payload 16 32) (immHalf r) r.sel).setWidth 32 }

/-- P.PIVOT_FIX (R141). -/
def rulePivotFix (r : Fields) (s : State) : Except Status Reply := do
  checkRequest (.pPivotFix r)
  .ok { state := s, res := (pivotFix (immByte r)).setWidth 32 }

/-- P.WHITEN_LFSR. -/
def execWhitenLfsr (r : Fields) (s : State) : Host.Outcome State Fault Refusal :=
  perform s (ruleWhitenLfsr Config.build r s)

/-- P.WHITEN_TABLE. -/
def execWhitenTable (r : Fields) (s : State) : Host.Outcome State Fault Refusal :=
  perform s (ruleWhitenTable Config.build r s)

/-- P.REV_BITS. -/
def execRevBits (r : Fields) (s : State) : Host.Outcome State Fault Refusal := perform s (ruleRevBits r s)

/-- P.REV_BITS_ALL. -/
def execRevBitsAll (r : Fields) (s : State) : Host.Outcome State Fault Refusal := perform s (ruleRevBitsAll r s)

/-- P.REV_BYTES. -/
def execRevBytes (r : Fields) (s : State) : Host.Outcome State Fault Refusal := perform s (ruleRevBytes r s)

/-- P.CRC_CCITT. -/
def execCrcCcitt (r : Fields) (s : State) : Host.Outcome State Fault Refusal := perform s (ruleCrcCcitt r s)

/-- P.CRC_REFL. -/
def execCrcRefl (r : Fields) (s : State) : Host.Outcome State Fault Refusal := perform s (ruleCrcRefl r s)

/-- P.AES_SIGN16. -/
def execAesSign16 (r : Fields) (s : State) : Host.Outcome State Fault Refusal := perform s (ruleAesSign16 r s)

/-- P.PIVOT_FIX. -/
def execPivotFix (r : Fields) (s : State) : Host.Outcome State Fault Refusal := perform s (rulePivotFix r s)

end Sys2Proof.Machine
end

