-- ==== Sys2Proof/Machine/Queue.lean ====
section
/-! DEFINITION. The command queues and controller registers (R330 to R344), and the requests Q.*. -/

namespace Sys2Proof.Machine

/-- An entry of this kind may stand beside another of its kind (R333). -/
def coexists (k : Kind) : Bool := k == .custom || k == .fanOnOffSpeed

/-- Eviction by kind (R332, R333): the order of what remains is kept. -/
def evictKind (k : Kind) (q : List QueueEntry) : List QueueEntry :=
  if coexists k then q else q.filter fun e => e.kind != k

/-- `DUR(c)` (R335). -/
def onAirDuration (k : Controller) : U16 := if k.seqdur ≠ 0 ∧ k.seqdur < k.mintx then k.seqdur else k.mintx

/-- The packets of a new entry, each with the on-air duration (R332). -/
def timed (dur : U16) (ws : List WireParam) : List WireParam := ws.map fun w => { w with duration := dur }

/-- Q.SET_PARAMS (R330). -/
def ruleSetParams (C : Config) (r : Fields) (s : State) : Except Status Reply := do
  checkRequest (.qSetParams r)
  let k ← controllerAt s r.sel
  let v ← codecAt C k.codec
  let p := readParams r.payload 0
  require (p.tx.toNat < ceilOf C v) .range
  .ok { state := s.setController r.sel { k with params := p } }

/-- Q.GET_PARAMS (R331). -/
def ruleGetParams (r : Fields) (s : State) : Except Status Reply := do
  checkRequest (.qGetParams r)
  let k ← controllerAt s r.sel
  .ok { state := s, out := writeParams k.params }

/-- Q.SET_CODEC (R339): tx_count is reduced modulo the new codec's ceiling. -/
def ruleSetCodec (C : Config) (r : Fields) (s : State) : Except Status Reply := do
  checkRequest (.qSetCodec r)
  let k ← controllerAt s r.sel
  let v ← codecAt C (immByte r)
  .ok { state := s.setController r.sel
          { k with codec := immByte r, params := { k.params with tx := txMod k.params.tx (ceilOf C v) } } }

/-- Q.SET_MINTX (R340): a value outside 100..500 is refused, not clamped. -/
def ruleSetMintx (r : Fields) (s : State) : Except Status Reply := do
  checkRequest (.qSetMintx r)
  let k ← controllerAt s r.sel
  require (100 ≤ (immHalf r).toNat ∧ (immHalf r).toNat ≤ 500) .range
  .ok { state := s.setController r.sel { k with mintx := immHalf r } }

/-- Q.SET_SEQDUR (R341). -/
def ruleSetSeqdur (r : Fields) (s : State) : Except Status Reply := do
  checkRequest (.qSetSeqdur r)
  let k ← controllerAt s r.sel
  .ok { state := s.setController r.sel { k with seqdur := immHalf r } }

/-- Q.ENQUEUE (R332): supported, then evicted, then room, then encoded and pushed. -/
def ruleEnqueue (C : Config) (r : Fields) (s : State) : Except Status Reply := do
  checkRequest (.qEnqueue r)
  let cmd ← orRaise (readCmd r.payload 0) .illegal
  let k ← controllerAt s r.sel
  let v ← codecAt C k.codec
  require (isSupported C v cmd k.params = true) .unsupported
  let q := evictKind cmd.kind k.queue
  require (q.length < C.cqCap) .range
  let (p, ws, d) ← orRaise (encodeCmd C v cmd k.params s.seeds) .unsupported
  .ok { state := { s.setController r.sel
          { k with params := p, queue := q ++ [⟨cmd.kind, timed (onAirDuration k) ws⟩] } with seeds := d } }

/-- Q.DEQUEUE_FRONT (R336): the packets go to the host, not to the scheduler. -/
def ruleDequeueFront (r : Fields) (s : State) : Except Status Reply := do
  checkRequest (.qDequeueFront r)
  let k ← controllerAt s r.sel
  match k.queue with
  | [] => .error .empty
  | e :: rest =>
    .ok { state := s.setController r.sel { k with queue := rest }, out := kindCode e.kind :: writeWpList e.wps }

/-- The scheduler after the controller's previous batch, if it has one, is marked for removal (R337). -/
def supersede (k : Controller) (d : Scheduler) : Scheduler :=
  if k.activeValid then removeBatch d k.activeToken else d

/-- Q.PUMP (R337). -/
def rulePump (C : Config) (r : Fields) (s : State) : Except Status Reply := do
  checkRequest (.qPump r)
  let k ← controllerAt s r.sel
  match k.queue with
  | [] => .error .empty
  | e :: rest =>
    require (s.sched.fifo.length + e.wps.length ≤ C.fifoCap) .range
    let t := s.sched.nextToken
    .ok { state := { s.setController r.sel { k with queue := rest, activeValid := true, activeToken := t } with
            sched := addBatch (supersede k s.sched) e.wps }
          res := t }

/-- Q.STATUS (R342). -/
def ruleQueueStatus (r : Fields) (s : State) : Except Status Reply := do
  checkRequest (.qStatus r)
  let k ← controllerAt s r.sel
  .ok { state := s, res := queueStatusRes k, out := le16 k.mintx ++ le16 k.seqdur ++ le32 k.activeToken }

/-- Q.SET_PARAMS. -/
def execSetParams (r : Fields) (s : State) : Host.Outcome State Fault Refusal :=
  perform s (ruleSetParams Config.build r s)

/-- Q.GET_PARAMS. -/
def execGetParams (r : Fields) (s : State) : Host.Outcome State Fault Refusal := perform s (ruleGetParams r s)

/-- Q.SET_CODEC. -/
def execSetCodec (r : Fields) (s : State) : Host.Outcome State Fault Refusal :=
  perform s (ruleSetCodec Config.build r s)

/-- Q.SET_MINTX. -/
def execSetMintx (r : Fields) (s : State) : Host.Outcome State Fault Refusal := perform s (ruleSetMintx r s)

/-- Q.SET_SEQDUR. -/
def execSetSeqdur (r : Fields) (s : State) : Host.Outcome State Fault Refusal := perform s (ruleSetSeqdur r s)

/-- Q.ENQUEUE. -/
def execEnqueue (r : Fields) (s : State) : Host.Outcome State Fault Refusal :=
  perform s (ruleEnqueue Config.build r s)

/-- Q.DEQUEUE_FRONT. -/
def execDequeueFront (r : Fields) (s : State) : Host.Outcome State Fault Refusal := perform s (ruleDequeueFront r s)

/-- Q.PUMP. -/
def execPump (r : Fields) (s : State) : Host.Outcome State Fault Refusal := perform s (rulePump Config.build r s)

/-- Q.STATUS. -/
def execQueueStatus (r : Fields) (s : State) : Host.Outcome State Fault Refusal := perform s (ruleQueueStatus r s)

end Sys2Proof.Machine
end

