-- ==== Sys2Proof/Machine/Scheduler.lean ====
section
/-! DEFINITION. The single-flight advertisement scheduler (R370 to R385), and the requests S.*. -/

namespace Sys2Proof.Machine

/-- A front entry that IDLE evicts (R375): put on air at least once, and marked for removal. -/
def finished (e : Pending) : Bool := e.processedOnce && e.toBeRemoved

/-- The IDLE branch of the tick (R375, R376): evict, then start the front entry. The deadline is `now + duration` on 32
bits (R378). -/
def tickIdle (now : U32) (d : Scheduler) : Scheduler × List RadioEvent :=
  match d.fifo.dropWhile finished with
  | [] => ({ d with fifo := [] }, [])
  | e :: rest =>
    ({ d with
        fifo := { e with processedOnce := true } :: rest
        mode := .broadcasting
        curToken := e.token
        deadline := now + e.wp.duration.setWidth 32 }, [.start e.wp.data])

/-- The BROADCASTING branch of the tick (R375): past the deadline (an unsigned, strict comparison), with other traffic
or a removal waiting, stop, and pop or rotate the front entry. -/
def tickBroadcasting (now : U32) (d : Scheduler) : Scheduler × List RadioEvent :=
  match d.fifo with
  | [] => (d, [])
  | e :: rest =>
    if d.deadline < now ∧ (rest ≠ [] ∨ e.toBeRemoved = true) then
      ({ d with mode := .idle, fifo := if e.toBeRemoved then rest else rest ++ [e] }, [.stop])
    else (d, [])

/-- One branch of the state machine per tick (R375, R379). -/
def tick (now : U32) (d : Scheduler) : Scheduler × List RadioEvent :=
  match d.mode with
  | .idle => tickIdle now d
  | .broadcasting => tickBroadcasting now d

/-- The 17 bytes of S.STATUS (R377). -/
def schedStatusOut (d : Scheduler) : List Byte :=
  le32 d.curToken ++ le32 d.deadline ++ le32 d.nextToken ++
    (match d.fifo with
     | [] => le32 0 ++ [0]
     | f :: _ => le32 f.token ++ [(if f.processedOnce then 1 else 0) ||| (if f.toBeRemoved then 2 else 0)])

/-- S.ADD_BATCH (R371): a full FIFO refuses the whole batch. -/
def ruleAddBatch (C : Config) (r : Fields) (s : State) : Except Status Reply := do
  checkRequest (.sAddBatch r)
  let ws ← orRaise (readWpList r.payload) .illegal
  require (s.sched.fifo.length + ws.length ≤ C.fifoCap) .range
  .ok { state := { s with sched := addBatch s.sched ws }, res := s.sched.nextToken }

/-- S.REMOVE_BATCH (R372). -/
def ruleRemoveBatch (r : Fields) (s : State) : Except Status Reply := do
  checkRequest (.sRemoveBatch r)
  .ok { state := { s with sched := removeBatch s.sched r.imm } }

/-- S.TICK (R375); `now` is `IMM`. -/
def ruleTick (r : Fields) (s : State) : Except Status Reply := do
  checkRequest (.sTick r)
  let (d, ev) := tick r.imm s.sched
  .ok { state := { s with sched := d, events := s.events ++ ev } }

/-- S.STATUS (R377). -/
def ruleSchedStatus (r : Fields) (s : State) : Except Status Reply := do
  checkRequest (.sStatus r)
  .ok { state := s, res := schedStatusRes s.sched, out := schedStatusOut s.sched }

/-- S.ADD_BATCH. -/
def execAddBatch (r : Fields) (s : State) : Host.Outcome State Fault Refusal :=
  perform s (ruleAddBatch Config.build r s)

/-- S.REMOVE_BATCH. -/
def execRemoveBatch (r : Fields) (s : State) : Host.Outcome State Fault Refusal := perform s (ruleRemoveBatch r s)

/-- S.TICK. -/
def execTick (r : Fields) (s : State) : Host.Outcome State Fault Refusal := perform s (ruleTick r s)

/-- S.STATUS. -/
def execSchedStatus (r : Fields) (s : State) : Host.Outcome State Fault Refusal := perform s (ruleSchedStatus r s)

end Sys2Proof.Machine
end

