-- ==== Sys2Proof/Machine/Dispatch.lean ====
section
/-! DEFINITION. One arm per operation of R82. -/

namespace Sys2Proof.Machine

def exec (i : Instr) (s : State) : Host.Outcome State Fault Refusal :=
  match i with
  | .pWhitenLfsr r => Sys2Proof.Machine.execWhitenLfsr r s
  | .pWhitenTable r => Sys2Proof.Machine.execWhitenTable r s
  | .pRevBits r => Sys2Proof.Machine.execRevBits r s
  | .pRevBitsAll r => Sys2Proof.Machine.execRevBitsAll r s
  | .pRevBytes r => Sys2Proof.Machine.execRevBytes r s
  | .pCrcCcitt r => Sys2Proof.Machine.execCrcCcitt r s
  | .pCrcRefl r => Sys2Proof.Machine.execCrcRefl r s
  | .pAesSign16 r => Sys2Proof.Machine.execAesSign16 r s
  | .pPivotFix r => Sys2Proof.Machine.execPivotFix r s
  | .kIdentifier r => Sys2Proof.Machine.execIdentifier r s
  | .kIsSupported r => Sys2Proof.Machine.execIsSupported r s
  | .kTranslate r => Sys2Proof.Machine.execTranslate r s
  | .kEncode r => Sys2Proof.Machine.execEncode r s
  | .kDecode r => Sys2Proof.Machine.execDecode r s
  | .gLookupId r => Sys2Proof.Machine.execLookupId r s
  | .gLookupFv r => Sys2Proof.Machine.execLookupFv r s
  | .gCount r => Sys2Proof.Machine.execCount r s
  | .gIdentify r => Sys2Proof.Machine.execIdentify r s
  | .gDescribe r => Sys2Proof.Machine.execDescribe r s
  | .qSetParams r => Sys2Proof.Machine.execSetParams r s
  | .qGetParams r => Sys2Proof.Machine.execGetParams r s
  | .qSetCodec r => Sys2Proof.Machine.execSetCodec r s
  | .qSetMintx r => Sys2Proof.Machine.execSetMintx r s
  | .qSetSeqdur r => Sys2Proof.Machine.execSetSeqdur r s
  | .qEnqueue r => Sys2Proof.Machine.execEnqueue r s
  | .qDequeueFront r => Sys2Proof.Machine.execDequeueFront r s
  | .qPump r => Sys2Proof.Machine.execPump r s
  | .qStatus r => Sys2Proof.Machine.execQueueStatus r s
  | .sAddBatch r => Sys2Proof.Machine.execAddBatch r s
  | .sRemoveBatch r => Sys2Proof.Machine.execRemoveBatch r s
  | .sTick r => Sys2Proof.Machine.execTick r s
  | .sStatus r => Sys2Proof.Machine.execSchedStatus r s
  | .xFromRaw r => Sys2Proof.Machine.execFromRaw r s
  | .xInjectHex r => Sys2Proof.Machine.execInjectHex r s
  | .xCapture r => Sys2Proof.Machine.execCapture r s

end Sys2Proof.Machine
end

