-- ==== Sys2Proof/Machine/Step.lean ====
section
/-! DEFINITION. One step of the machine: the core performs the next request on its port (R6, R70). With no request
presented it holds its state (R449). A request whose `OP` is not in the map gets status ILLEGAL and writes nothing (R83
check 1, R92). -/

namespace Sys2Proof.Machine

/-- One step. -/
def step (s : State) : Host.Outcome State Fault Refusal :=
  match fetch s with
  | none => .next s
  | some (q, s') =>
    match decode q with
    | .ok i => exec i s'
    | .error _ => .next (s'.raise .illegal)

/-- `s` with the request of a row's word presented, so that the next step performs it. -/
def State.withFetchWord (s : State) (nbits w : Nat) : State := present s (tableRequest nbits w)

end Sys2Proof.Machine
end

