-- ==== Sys2Proof/Machine/Pseudo.lean ====
section
/-! DEFINITION. The pseudo-requests of R95 as the sequences of whole requests they expand to, each of which reports its
own status (R437), and the abstract form of the textual syntax of R94. They are the host's; no step runs one. -/

namespace Sys2Proof.Machine

/-- The state after one request is performed; a request never stops the machine (R436). -/
def after (i : Instr) (s : State) : State :=
  match exec i s with
  | .next t => t
  | _ => s

/-- The state after a sequence of requests, in order (R70). -/
def afterAll : List Instr → State → State
  | [], s => s
  | i :: rest, s => afterAll rest (after i s)

/-- The status of the last response given. -/
def lastStatus (s : State) : Option Status := s.responses.getLast?.map Response.status

/-- `Q.PUMP ctl=c`. -/
def pumpOf (c : Byte) : Instr := .qPump ⟨c, 0, 0, []⟩

/-- `S.TICK now=t`. -/
def tickOf (now : U32) : Instr := .sTick ⟨0, 0, now, []⟩

/-- `Q.ENQUEUE ctl=c payload=CMD{..}`. -/
def enqueueOf (c : Byte) (cmd : Command) : Instr := .qEnqueue ⟨c, 8, 0, writeCmd cmd⟩

/-- `Q.SEND` (R95): the enqueue, then, if that returned OK, the pump. -/
def qSend (c : Byte) (cmd : Command) (s : State) : State :=
  let s' := after (enqueueOf c cmd) s
  if lastStatus s' = some .ok then after (pumpOf c) s' else s'

/-- The requests of `SYS.STEP now=t` for `n` controllers (R95, R338): each controller's pump in order, then the tick. -/
def sysStepRequests (n : Nat) (now : U32) : List Instr :=
  (List.range n).map (fun c => pumpOf (BitVec.ofNat 8 c)) ++ [tickOf now]

/-- `SYS.STEP now=t`, the per-tick driver (R338); a status other than OK of a pump does not stop it. -/
def sysStep (now : U32) (s : State) : State := afterAll (sysStepRequests s.ctl.length now) s

/-- `K.DECODE codec=v payload=WP`. -/
def decodeOf (v : Byte) (w : WireParam) : Instr := .kDecode ⟨v, 36, 0, writeWp w⟩

/-- The packets of a K.ENCODE response: the WP list after the 8-byte PARAMS record (R89). -/
def encodedPackets (s : State) : List WireParam :=
  match s.responses.getLast? with
  | none => []
  | some rsp => ((readWpList (rsp.out.drop 8)).getD [])

/-- `K.ROUNDTRIP` (R95): the encode, then the decode of each WP returned, in order. -/
def kRoundtrip (v : Byte) (cmd : Command) (p : Params) (s : State) : State :=
  let s' := after (.kEncode ⟨v, 16, 0, writeCmd cmd ++ writeParams p⟩) s
  afterAll ((encodedPackets s').map (decodeOf v)) s'

/-- A part of a payload in the textual syntax of R94: hex bytes or a record literal. -/
inductive TextPart where
  | bytes (b : List Byte)
  | cmd (c : Command)
  | params (p : Params)
  | wp (w : WireParam)
  deriving DecidableEq, Repr

/-- A request in the textual syntax of R94: the mnemonic, the `name=value` pairs of numbers, and the payload. -/
structure TextRequest where
  mnemonic : String
  operands : List (String × Nat)
  payload  : List TextPart
  deriving DecidableEq, Repr

/-- A field of the request word under its textual name: its lowest bit and its width. -/
structure TextField where
  name  : String
  low   : Nat
  width : Nat
  deriving DecidableEq, Repr

/-- A name for `SEL`, bits 15..8 of the word (R80). -/
def TextField.sel (name : String) : TextField := ⟨name, 8, 8⟩

/-- A name for `IMM`, bits 63..32 of the word (R80): bits that R82 says are 0 can be written, and are then ILLEGAL (95
V-P-1, `seed=0x16F`). -/
def TextField.imm (name : String) : TextField := ⟨name, 32, 32⟩

/-- An operation of R82 in the textual syntax: its mnemonic, its `OP` and the names of its fields besides `sel` and `imm`. -/
structure TextRow where
  mnemonic : String
  op       : Byte
  fields   : List TextField
  deriving DecidableEq, Repr

/-- The textual form of the rows of R82. The names are those of R94 and R82; `family` and `variant` share `IMM`. -/
def textTable : List TextRow :=
  [⟨"P.WHITEN_LFSR", 0x01, [.imm "seed"]⟩, ⟨"P.WHITEN_TABLE", 0x02, [.sel "salt", .imm "seed"]⟩,
   ⟨"P.REV_BITS", 0x03, [.imm "byte"]⟩, ⟨"P.REV_BITS_ALL", 0x04, []⟩, ⟨"P.REV_BYTES", 0x05, []⟩,
   ⟨"P.CRC_CCITT", 0x06, [.imm "init"]⟩, ⟨"P.CRC_REFL", 0x07, [.imm "init"]⟩,
   ⟨"P.AES_SIGN16", 0x08, [.sel "tx_count", .imm "seed"]⟩, ⟨"P.PIVOT_FIX", 0x09, [.imm "x"]⟩] ++
  [⟨"K.IDENTIFIER", 0x10, [.sel "codec"]⟩, ⟨"K.IS_SUPPORTED", 0x11, [.sel "codec"]⟩,
   ⟨"K.TRANSLATE", 0x12, [.sel "codec"]⟩, ⟨"K.ENCODE", 0x13, [.sel "codec"]⟩, ⟨"K.DECODE", 0x14, [.sel "codec"]⟩] ++
  [⟨"G.LOOKUP_ID", 0x20, []⟩, ⟨"G.LOOKUP_FV", 0x21, [⟨"family", 32, 8⟩, ⟨"variant", 40, 8⟩]⟩, ⟨"G.COUNT", 0x22, []⟩,
   ⟨"G.IDENTIFY", 0x23, []⟩, ⟨"G.DESCRIBE", 0x24, [.sel "codec"]⟩] ++
  [⟨"Q.SET_PARAMS", 0x30, [.sel "ctl"]⟩, ⟨"Q.GET_PARAMS", 0x31, [.sel "ctl"]⟩,
   ⟨"Q.SET_CODEC", 0x32, [.sel "ctl", .imm "codec"]⟩, ⟨"Q.SET_MINTX", 0x33, [.sel "ctl", .imm "ms"]⟩,
   ⟨"Q.SET_SEQDUR", 0x34, [.sel "ctl", .imm "ms"]⟩, ⟨"Q.ENQUEUE", 0x35, [.sel "ctl"]⟩,
   ⟨"Q.DEQUEUE_FRONT", 0x36, [.sel "ctl"]⟩, ⟨"Q.PUMP", 0x37, [.sel "ctl"]⟩, ⟨"Q.STATUS", 0x38, [.sel "ctl"]⟩] ++
  [⟨"S.ADD_BATCH", 0x40, []⟩, ⟨"S.REMOVE_BATCH", 0x41, [.imm "token"]⟩, ⟨"S.TICK", 0x42, [.imm "now"]⟩,
   ⟨"S.STATUS", 0x43, []⟩] ++
  [⟨"X.FROM_RAW", 0x50, []⟩, ⟨"X.INJECT_HEX", 0x51, []⟩, ⟨"X.CAPTURE", 0x52, [.sel "expiry", .imm "now"]⟩]

/-- The bytes of a part of a payload. -/
def textPartBytes : TextPart → List Byte
  | .bytes b => b
  | .cmd c => writeCmd c
  | .params p => writeParams p
  | .wp w => writeWp w

/-- The field an operand names in a row, with its value; none where the row has no such name or the value does not fit. -/
def placeOperand (row : TextRow) (o : String × Nat) : Option (TextField × Nat) :=
  match (TextField.sel "sel" :: .imm "imm" :: row.fields).find? fun f => f.name == o.1 with
  | some f => if o.2 < 2 ^ f.width then some (f, o.2) else none
  | none => none

/-- Two fields have no bit in common. -/
abbrev TextField.Apart (a b : TextField) : Prop := a.low + a.width ≤ b.low ∨ b.low + b.width ≤ a.low

/-- "The encoding is the request word of rule R80 with those fields" (R94), and 0 in the fields not named. A text to which
R94 gives no request has none: an unknown mnemonic or operand name, a value that does not fit its field, two operands for
one bit of the word (a repeated one among them), a payload longer than `LEN` can say. DESIGN CHOICE (log 31). -/
def assemble (t : TextRequest) : Option Request :=
  match textTable.find? fun row => row.mnemonic == t.mnemonic with
  | none => none
  | some row =>
    let b := t.payload.flatMap textPartBytes
    match t.operands.mapM (placeOperand row) with
    | none => none
    | some ps =>
      if b.length < 65536 ∧ (ps.map Prod.fst).Pairwise TextField.Apart then
        some ⟨BitVec.ofNat 64 (row.op.toNat + b.length * 2 ^ 16 + (ps.map fun p => p.2 * 2 ^ p.1.low).sum), b⟩
      else none

end Sys2Proof.Machine
end

