-- ==== Sys2Proof/Machine/Rules.lean ====
section
/-! DEFINITION. The rule of every request under any configuration, so that a statement can speak of every lawful
configuration (R7: a model takes the parameters as an argument) and not only of the build's. `exec` is `execUnder` at the
build's (Sys2Proof/Laws/Rules.lean proves it). -/

namespace Sys2Proof.Machine

/-- The rule of a request, under the configuration `C`. -/
def ruleOf (C : Config) (i : Instr) (s : State) : Except Status Reply :=
  match i with
  | .pWhitenLfsr r => ruleWhitenLfsr C r s
  | .pWhitenTable r => ruleWhitenTable C r s
  | .pRevBits r => ruleRevBits r s
  | .pRevBitsAll r => ruleRevBitsAll r s
  | .pRevBytes r => ruleRevBytes r s
  | .pCrcCcitt r => ruleCrcCcitt r s
  | .pCrcRefl r => ruleCrcRefl r s
  | .pAesSign16 r => ruleAesSign16 r s
  | .pPivotFix r => rulePivotFix r s
  | .kIdentifier r => ruleIdentifier C r s
  | .kIsSupported r => ruleIsSupported C r s
  | .kTranslate r => ruleTranslate C r s
  | .kEncode r => ruleEncode C r s
  | .kDecode r => ruleDecode C r s
  | .gLookupId r => ruleLookupId C r s
  | .gLookupFv r => ruleLookupFv C r s
  | .gCount r => ruleCount C r s
  | .gIdentify r => ruleIdentify C r s
  | .gDescribe r => ruleDescribe C r s
  | .qSetParams r => ruleSetParams C r s
  | .qGetParams r => ruleGetParams r s
  | .qSetCodec r => ruleSetCodec C r s
  | .qSetMintx r => ruleSetMintx r s
  | .qSetSeqdur r => ruleSetSeqdur r s
  | .qEnqueue r => ruleEnqueue C r s
  | .qDequeueFront r => ruleDequeueFront r s
  | .qPump r => rulePump C r s
  | .qStatus r => ruleQueueStatus r s
  | .sAddBatch r => ruleAddBatch C r s
  | .sRemoveBatch r => ruleRemoveBatch r s
  | .sTick r => ruleTick r s
  | .sStatus r => ruleSchedStatus r s
  | .xFromRaw r => ruleFromRaw C r s
  | .xInjectHex r => ruleInjectHex C r s
  | .xCapture r => ruleCapture C r s

/-- A request performed under the configuration `C`. -/
def execUnder (C : Config) (i : Instr) (s : State) : Host.Outcome State Fault Refusal := perform s (ruleOf C i s)

end Sys2Proof.Machine
end

