-- ==== Sys2Proof/Safety.lean ====
section
/-! DEFINITION. What a good state is: the invariants of R22 to R34, and the single-flight property of the radio events
(R33, R382), stated under any configuration; and the vocabulary of the statements: the controller a request names, what
breaks the encoding of a request, the kind codes and the codes of the codecs, written out from the spec's tables, what a
decode accepts, the packets an encode gives said position by position, what a packet carries, the elements of an
advertisement, hex text. -/

namespace Sys2Proof.Machine

/-- The radio events alternate, RADIO_START first (R33 (b)): read from the first event on, `onAir` says whether a
RADIO_START is still without its RADIO_STOP. -/
def alternates : Bool → List RadioEvent → Bool
  | _, [] => true
  | onAir, .start _ :: rest => !onAir && alternates true rest
  | onAir, .stop :: rest => onAir && alternates false rest

/-- The number of RADIO_START events. -/
def startCount (l : List RadioEvent) : Nat := l.countP fun e => match e with | .start _ => true | .stop => false

/-- The number of RADIO_STOP events. -/
def stopCount (l : List RadioEvent) : Nat := l.countP fun e => match e with | .start _ => false | .stop => true

/-- One when the radio is on air (R374). -/
def onAirCount (m : Mode) : Nat := if m = .broadcasting then 1 else 0

/-- R33 (b), R382: the events alternate, and the excess of starts is one exactly when the mode is BROADCASTING. -/
def SingleFlight (s : State) : Prop :=
  alternates false s.events = true ∧ startCount s.events = stopCount s.events + onAirCount s.sched.mode

/-- R33 (a): in BROADCASTING the front entry is the one on air. -/
def FrontOnAir (d : Scheduler) : Prop :=
  d.mode = .broadcasting → ∃ e rest, d.fifo = e :: rest ∧ e.token = d.curToken ∧ e.processedOnce = true

/-- What a WireParam the core holds satisfies: at most 31 bytes (R61, R33 (c)), and each sub-field index is absent or
below the length (R88). -/
def WireOk (w : WireParam) : Prop :=
  w.data.length ≤ 31 ∧ indexOk w.flagsIdx w.data.length = true ∧ indexOk w.dataIdx w.data.length = true

/-- The invariant of the scheduler (R30, R32, R33). -/
structure SchedulerOk (C : Config) (d : Scheduler) : Prop where
  front : FrontOnAir d
  fifo_len : d.fifo.length ≤ C.fifoCap
  wires : ∀ e ∈ d.fifo, WireOk e.wp
  token : d.nextToken ≠ 0

/-- What a command-queue entry satisfies (R26). -/
structure EntryOk (C : Config) (e : QueueEntry) : Prop where
  pos : 1 ≤ e.wps.length
  len : e.wps.length ≤ C.maxPkts
  wires : ∀ w ∈ e.wps, WireOk w

/-- The invariant of a controller (R22 to R26). -/
structure ControllerOk (C : Config) (k : Controller) : Prop where
  codec : ∃ v, C.registry[k.codec.toNat]? = some v ∧ k.params.tx.toNat < ceilOf C v
  mintx_ge : 100 ≤ k.mintx.toNat
  mintx_le : k.mintx.toNat ≤ 500
  queue_len : k.queue.length ≤ C.cqCap
  entries : ∀ e ∈ k.queue, EntryOk C e

/-- The invariant of the capture state (R34). -/
structure CaptureOk (C : Config) (l : List DedupEntry) : Prop where
  len : l.length ≤ C.dedupCap
  bytes : ∀ e ∈ l, 1 ≤ e.bytes.length ∧ e.bytes.length ≤ 31

/-- A good state: every element of R35 within its bounds, and the radio in single flight. -/
structure Good (C : Config) (s : State) : Prop where
  ctl_len : s.ctl.length = C.nCtrl
  ctl : ∀ k ∈ s.ctl, ControllerOk C k
  sched : SchedulerOk C s.sched
  dedup : CaptureOk C s.dedup
  radio : SingleFlight s

/-- The controller a Q.* request names (R82, "ctl"); none for the other requests. -/
def controllerOf : Instr → Option Byte
  | .qSetParams r | .qGetParams r | .qSetCodec r | .qSetMintx r | .qSetSeqdur r | .qEnqueue r | .qDequeueFront r
  | .qPump r | .qStatus r => some r.sel
  | _ => none

/-- The codec a K.* request or a G.DESCRIBE names (R82, "codec"); none for the other requests. -/
def codecOf : Instr → Option Byte
  | .kIdentifier r | .kIsSupported r | .kTranslate r | .kEncode r | .kDecode r | .gDescribe r => some r.sel
  | _ => none

/-- The request is a primitive, P.* (R91). -/
def isPrimitive : Instr → Bool
  | .pWhitenLfsr _ | .pWhitenTable _ | .pRevBits _ | .pRevBitsAll _ | .pRevBytes _ | .pCrcCcitt _ | .pCrcRefl _
  | .pAesSign16 _ | .pPivotFix _ => true
  | _ => false

/-- The requests that only read: every P.*, K.* but K.ENCODE, every G.*, Q.GET_PARAMS, Q.STATUS, S.STATUS, X.FROM_RAW
and X.INJECT_HEX (R68, R313). -/
def onlyReads : Instr → Bool
  | .pWhitenLfsr _ | .pWhitenTable _ | .pRevBits _ | .pRevBitsAll _ | .pRevBytes _ | .pCrcCcitt _ | .pCrcRefl _
  | .pAesSign16 _ | .pPivotFix _ | .kIdentifier _ | .kIsSupported _ | .kTranslate _ | .kDecode _ | .gLookupId _
  | .gLookupFv _ | .gCount _ | .gIdentify _ | .gDescribe _ | .qGetParams _ | .qStatus _ | .sStatus _ | .xFromRaw _
  | .xInjectHex _ => true
  | _ => false

/-- The request is S.TICK. -/
def isTick : Instr → Bool
  | .sTick _ => true
  | _ => false

/-- The request is X.CAPTURE. -/
def isCapture : Instr → Bool
  | .xCapture _ => true
  | _ => false

/-! ### The encoding of a request, from the table of R82 -/

/-- The operations whose `SEL` must be 0. -/
def selZeroOps : List Nat :=
  [0x01, 0x03, 0x04, 0x05, 0x06, 0x07, 0x09, 0x20, 0x21, 0x22, 0x23, 0x40, 0x41, 0x42, 0x43, 0x50, 0x51]

/-- The number of low bits of `IMM` an operation uses; the others must be 0. -/
def immBitsUsed (op : Nat) : Nat :=
  if op ∈ [0x41, 0x42, 0x52] then 32
  else if op ∈ [0x06, 0x07, 0x08, 0x21, 0x33, 0x34] then 16
  else if op ∈ [0x01, 0x02, 0x03, 0x09, 0x32] then 8
  else 0

/-- R83 check 2: a must-be-zero field is not zero, or `LEN` differs from the payload sent. -/
def FieldBroken (op : Nat) (r : Fields) : Prop :=
  (op ∈ selZeroOps ∧ r.sel ≠ 0) ∨ 2 ^ immBitsUsed op ≤ r.imm.toNat ∨ r.len.toNat ≠ r.payload.length

/-- R83 check 3: a length the operation does not accept. -/
def LengthBroken (op : Nat) (b : List Byte) : Prop :=
  (op ∈ [0x03, 0x09, 0x10, 0x21, 0x22, 0x24, 0x31, 0x32, 0x33, 0x34, 0x36, 0x37, 0x38, 0x41, 0x42, 0x43] ∧
    b.length ≠ 0) ∨
  (op ∈ [0x01, 0x02, 0x04, 0x05, 0x06, 0x07] ∧ 31 < b.length) ∨
  (op ∈ [0x11, 0x30, 0x35] ∧ b.length ≠ 8) ∨ (op ∈ [0x12, 0x13] ∧ b.length ≠ 16) ∨
  (op = 0x08 ∧ b.length ≠ 32) ∨ (op ∈ [0x14, 0x23] ∧ b.length ≠ 36) ∨
  (op = 0x20 ∧ (b.length = 0 ∨ 32 < b.length)) ∨ (op ∈ [0x50, 0x52] ∧ (b.length = 0 ∨ 31 < b.length)) ∨
  (op = 0x51 ∧ 65535 < b.length) ∨ (op = 0x40 ∧ b.length ≠ 1 + 36 * (byteAt b 0).toNat)

/-- R88: a WP record with `len` above 31, or with an index that is neither 0xFF nor below `len`. -/
def WpBroken (b : List Byte) : Prop :=
  31 < (byteAt b 0).toNat ∨ (byteAt b 1 ≠ 0xFF ∧ (byteAt b 0).toNat ≤ (byteAt b 1).toNat) ∨
  (byteAt b 2 ≠ 0xFF ∧ (byteAt b 0).toNat ≤ (byteAt b 2).toNat)

/-- R83 check 3: an ill-formed record: a kind code above 16 (R84), a WP record, or a record of a WP list (R89). -/
def RecordBroken (op : Nat) (b : List Byte) : Prop :=
  (op ∈ [0x11, 0x12, 0x13, 0x35] ∧ 16 < (byteAt b 0).toNat) ∨ (op ∈ [0x14, 0x23] ∧ WpBroken b) ∨
  (op = 0x40 ∧ ∃ k, k < (byteAt b 0).toNat ∧ WpBroken (b.drop (1 + 36 * k)))

/-- R431: the request breaks the encoding. -/
def BreaksEncoding (i : Instr) : Prop :=
  FieldBroken (opcodeOf i).toNat (fieldsOf i) ∨ LengthBroken (opcodeOf i).toNat (fieldsOf i).payload ∨
  RecordBroken (opcodeOf i).toNat (fieldsOf i).payload

/-! ### Records -/

/-- The kind codes, from the table of R86. -/
def kindCodes : List (Kind × Nat) :=
  [(.noOp, 0), (.pair, 1), (.unpair, 2), (.custom, 3), (.lightOn, 4), (.lightOff, 5), (.lightDim, 6),
   (.lightColorTemp, 7), (.lightWhiteColor, 8), (.lightSecondaryOn, 9), (.lightSecondaryOff, 10), (.fanOn, 11),
   (.fanOff, 12), (.fanSpeed, 13), (.fanOnOffSpeed, 14), (.fanDirection, 15), (.fanOscillate, 16)]

/-- A list of REALCMD records, byte by byte (R87). -/
def realCmdBytes (l : List RealCommand) : List Byte :=
  BitVec.ofNat 8 l.length :: l.flatMap fun c =>
    [c.cmd.extractLsb' 0 8, c.cmd.extractLsb' 8 8, c.args.a0, c.args.a1, c.args.a2, c.args.a3, c.args.a4]

/-! ### Codecs and layouts -/

/-- The family code and the variant code, from the table of R301. -/
def codesOf : CodecKind → Nat × Nat
  | .flv1 k _ => (0, 0x10 + k)
  | .flv2 false => (0, 0x20)
  | .flv2 true => (0, 0x21)
  | .aggregate .fanlamp => (0, 0xFF)
  | .zj0 => (1, 0x00)
  | .zj1 => (1, 0x01)
  | .zj2 => (1, 0x02)
  | .aggregate .zhijia => (1, 0xFF)

/-- R163: an opcode fits the command field of a concrete codec: 16 bits for FLV2, 8 bits for FLV1 and Zhijia. -/
def FitsField (v : Codec) (c : U16) : Prop := (∃ signed, v.kind = .flv2 signed) ∨ c.toNat < 256

/-- R65: how the bytes of a multi-byte wire field of layout family `f` stand, by its `WIRE_ORDER_f`. -/
def FieldOrder (C : Config) (f : LayoutFamily) : Prop :=
  ∀ (x : U16) (y : U32),
    (C.wireOrder f = .little → wire16 C f x = [x.extractLsb' 0 8, x.extractLsb' 8 8] ∧
      wire32 C f y = [y.extractLsb' 0 8, y.extractLsb' 8 8, y.extractLsb' 16 8, y.extractLsb' 24 8]) ∧
    (C.wireOrder f = .big → wire16 C f x = [x.extractLsb' 8 8, x.extractLsb' 0 8] ∧
      wire32 C f y = [y.extractLsb' 24 8, y.extractLsb' 16 8, y.extractLsb' 8 8, y.extractLsb' 0 8])

/-- R133 with salt 0: the byte the table whitener XORs into position `i`. -/
def tableByte (C : Config) (seed : Byte) (i : Nat) : Byte :=
  C.xbox ⟨(seed.toNat + i + 9) % 32, by omega⟩ ^^^ seed

/-! ### What a decode accepts -/

/-- A FanLamp v1 payload that R207 accepts, and what it decodes to. `Q` is the payload with the whitening and the reversal
of the region undone. The outs byte is not checked. -/
def Flv1Accepts (C : Config) (u : Flv1Variant) (P : List Byte) (d : Decoded) : Prop :=
  let B := u.header.length
  let H := B + if u.supp = none then 0 else 1
  let flip : Byte := if u.xor1 then 1 else 0
  P.length = H + 14 + (if u.crc2 = none then 0 else 2) ∧ slice P 0 B = u.header ∧
  ∃ Q : List Byte, Q.length = P.length ∧ (∀ i, i < B ∨ B + u.wlen ≤ i → byteAt Q i = byteAt P i) ∧
    (∀ j, j < u.wlen → match C.flv1Reversal with
      | .byteOrder => byteAt Q (B + u.wlen - 1 - j) = byteAt P (B + j) ^^^ C.lfsrKs 0x6F j
      | .bitEach => byteAt Q (B + j) = (byteAt P (B + j) ^^^ C.lfsrKs 0x6F j).reverse) ∧
    (∀ b, u.supp = some b → byteAt Q B = b) ∧
    slice Q (H + 12) (H + 14) = wire16 C .flv1 (crc16Ccitt (slice Q H (H + 12)) (~~~d.seed)) ∧
    (∀ init, u.crc2 = some init →
      slice Q (H + 14) (H + 16) = wire16 C .flv1 (crc16Ccitt (slice Q 0 (H + 12)) init)) ∧
    slice Q (H + 8) (H + 10) = [C.src d.seed ^^^ flip, C.r2 d.seed ^^^ flip] ∧ u.check d.rc.cmd d.rc.args = true ∧
    d.rc.cmd = (byteAt Q H).setWidth 16 ∧
    d.rc.args = ⟨byteAt Q (H + 3), byteAt Q (H + 4), byteAt Q (H + 5), 0, 0⟩ ∧ d.tx = byteAt Q (H + 6) ∧
    slice Q (H + 10) (H + 12) = wire16 C .flv1 d.seed ∧
    ∃ g, slice Q (H + 1) (H + 3) = wire16 C .flv1 g ∧ C.groupInv g = some (d.id, d.index)

/-- A FanLamp v2 payload that R237 accepts, and what it decodes to. `Q` is the payload up to the CRC with the table
whitening undone. -/
def Flv2Accepts (C : Config) (signed : Bool) (P : List Byte) (d : Decoded) : Prop :=
  P.length = 25 ∧ slice P 0 5 = (if signed then C.flv2PrefixS else [0xF0, 0x08, 0x10, 0x80, 0x00]) ∧
  slice P 21 23 = wire16 C .flv2 d.seed ∧ slice P 23 25 = wire16 C .flv2 (crc16Ccitt (slice P 2 23) (~~~d.seed)) ∧
  ∃ Q : List Byte, Q.length = 23 ∧
    (∀ i, i < 23 →
      (C.whStart ≤ i ∧ i < C.whEnd → byteAt Q i = byteAt P i ^^^ tableByte C (d.seed.extractLsb' 0 8) (i - C.whStart)) ∧
      (i < C.whStart ∨ C.whEnd ≤ i → byteAt Q i = byteAt P i)) ∧
    slice Q 6 8 = wire16 C .flv2 (C.flv2Type signed) ∧
    slice Q 19 21 = wire16 C .flv2 (if signed then aesSign16 C.keyBase (slice Q 1 17) d.seed d.tx else 0) ∧
    d.tx = byteAt Q 5 ∧ slice Q 8 12 = wire32 C .flv2 d.id ∧ d.index = byteAt Q 12 ∧
    slice Q 13 15 = wire16 C .flv2 d.rc.cmd ∧
    d.rc.args = ⟨byteAt Q 15, byteAt Q 16, byteAt Q 17, byteAt Q 18, 0⟩

/-- What the fields of a Zhijia packet decode to (R266, R274). -/
def fieldsDecoded (f : ZjFields) : Decoded :=
  ⟨⟨f.cmd8.setWidth 16, argsOfBytes f.args⟩, u32OfBytes f.uuid, f.index, f.tx, 0⟩

/-- A Zhijia v0 payload that R266 accepts, and what it decodes to. -/
def Zj0Accepts (C : Config) (P : List Byte) (d : Decoded) : Prop :=
  P.length = 13 ∧ ∃ Q : List Byte, Q.length = 13 ∧
    (∀ i, i < 13 → byteAt Q i = byteAt P i ^^^ tableByte C 0x37 i ^^^ tableByte C 0x7F i) ∧
    (∀ i, i < 3 → byteAt Q i = (byteAt C.zj0Mac (2 - i)).reverse) ∧
    slice Q 11 13 = wire16 C .zj0 (crc16Refl (slice Q 0 11) C.zjCrcInit) ∧
    ∃ f, C.unmix0 (slice Q 3 11) = some f ∧ d = fieldsDecoded f

/-- A Zhijia v1 payload that R274 accepts, and what it decodes to. The key byte, the duplicate pairs and the odd pivot
that R271 (d) asks for are written out. -/
def Zj1Accepts (C : Config) (P : List Byte) (d : Decoded) : Prop :=
  P.length = 23 ∧ ∃ Q : List Byte, Q.length = 23 ∧ (∀ i, i < 23 → byteAt Q i = byteAt P i ^^^ tableByte C 0x37 i) ∧
    slice Q 0 4 = C.zj1Addr ∧ slice Q 21 23 = wire16 C .zj1 (crc16Refl (slice Q 0 21) C.zjCrcInit) ∧
    (∀ q ∈ C.dupPairs1, byteAt Q (4 + q.1) = byteAt Q (4 + q.2)) ∧ (byteAt Q (4 + C.pivotPos1)).getLsbD 0 = true ∧
    ∃ f, C.unmix1 (slice Q 4 21) = some f ∧ byteAt Q (4 + C.keyPos1) = xorAll (zjBytes f) ∧ d = fieldsDecoded f

/-- A Zhijia v2 payload that R284 accepts, and what it decodes to: the spare bytes are not checked, and the id is 0. The
derived bytes and the odd pivot that R281 (d) asks for are written out. -/
def Zj2Accepts (C : Config) (P : List Byte) (d : Decoded) : Prop :=
  P.length = 23 ∧ ∃ Q : List Byte, Q.length = 16 ∧
    (∀ i, i < 16 → byteAt Q i = byteAt P i ^^^ tableByte C 0x6F i ^^^ tableByte C 0xD3 i) ∧
    (byteAt Q C.pivotPos2).getLsbD 0 = true ∧
    ∃ f, C.unmix2 Q = some f ∧ (∀ i ∈ C.derivedPos2, byteAt Q i = byteAt (C.mix2 f) i) ∧
      d = { fieldsDecoded f with id := 0 }

/-- The payloads a codec decodes, and to what; an aggregate decodes none (R309). -/
def Accepts (C : Config) (v : Codec) (P : List Byte) (d : Decoded) : Prop :=
  match v.kind with
  | .flv1 _ u => Flv1Accepts C u P d
  | .flv2 signed => Flv2Accepts C signed P d
  | .zj0 => Zj0Accepts C P d
  | .zj1 => Zj1Accepts C P d
  | .zj2 => Zj2Accepts C P d
  | .aggregate _ => False

/-! ### The elements of an advertisement (R401) -/

/-- A whole element stands at offset `i`: a length that is not 0, and as many bytes after it. -/
def ElementAt (raw : List Byte) (i : Nat) : Prop :=
  i < raw.length ∧ byteAt raw i ≠ 0 ∧ i + 1 + (byteAt raw i).toNat ≤ raw.length

/-- The offsets the walk of R401 comes to: 0, and from an element the offset after it. -/
inductive Visited (raw : List Byte) : Nat → Prop
  | start : Visited raw 0
  | next {i : Nat} : Visited raw i → ElementAt raw i → Visited raw (i + 1 + (byteAt raw i).toNat)

/-- The walk meets an element with a type in `types` at offset `i`. -/
def Meets (raw : List Byte) (types : Byte → Prop) (i : Nat) : Prop :=
  Visited raw i ∧ ElementAt raw i ∧ types (byteAt raw (i + 1))

/-- `x` is the offset of the first element with a type in `types` that the walk meets, and 0xFF where it meets none. -/
def FirstMet (raw : List Byte) (types : Byte → Prop) (x : Byte) : Prop :=
  (∀ i, Meets raw types i → (∀ j, j < i → ¬ Meets raw types j) → x.toNat = i) ∧
  ((∀ i, ¬ Meets raw types i) → x = 0xFF)

/-- The indices of a WireParam are those the walk of R401 finds in its bytes: of the first flags element, and of the
first element with the AD type of a registered codec (R400), each 0xFF exactly where there is none. -/
def Scanned (C : Config) (w : WireParam) : Prop :=
  FirstMet w.data (fun t => t = 0x01) w.flagsIdx ∧ (w.flagsIdx = 0xFF → ∀ i, ¬ Meets w.data (fun t => t = 0x01) i) ∧
  FirstMet w.data (fun t => ∃ v ∈ C.registry, v.ad.adType = t) w.dataIdx ∧
  (w.dataIdx = 0xFF → ∀ i, ¬ Meets w.data (fun t => ∃ v ∈ C.registry, v.ad.adType = t) i)

/-! ### Encodes -/

/-- The k-th seed drawn from `d` on (R169): the k-th given one, or a free value. -/
def SeedSource.drawAt (d : SeedSource) (k : Nat) : U16 := (d.given[k]?).getD (Config.seedDraw (d.drawn + k))

/-- The seed source after `n` draws. -/
def SeedSource.skip (d : SeedSource) (n : Nat) : SeedSource := ⟨d.given.drop n, d.drawn + n⟩

/-- An encode with codec `v` draws a seed for each packet (R168). -/
def drawsSeeds (v : Codec) (p : Params) : Bool := carriesSeed v && p.seed == 0

/-- The seed of packet `k` of an encode (R168). -/
def seedAt (v : Codec) (p : Params) (d : SeedSource) (k : Nat) : U16 :=
  if drawsSeeds v p then d.drawAt k else if carriesSeed v then p.seed else 0

/-- Packet `k` of an encode of a concrete codec (R170, R172): it carries tx_count `(tx + k + 1) mod CEIL`. -/
def packetAt (C : Config) (v : Codec) (p : Params) (d : SeedSource) (k : Nat) (rc : RealCommand) : WireParam :=
  wrap v.ad (encPayload C v rc p.id p.index (txAdvance p.tx (k + 1) (ceilOf C v)) (seedAt v p d k))

/-- The packets of an encode of a concrete codec, in list order (R172). -/
def packetsOf (C : Config) (cmd : Command) (p : Params) (d : SeedSource) (v : Codec) : List WireParam :=
  (subs v cmd p).mapIdx (packetAt C v p d)

/-- The seed source after an encode of a concrete codec. -/
def seedsAfter (cmd : Command) (p : Params) (d : SeedSource) (v : Codec) : SeedSource :=
  if drawsSeeds v p then d.skip (subs v cmd p).length else d

/-- The packets of an aggregate's encode over its members, in registry order, each starting from the same params (R308). -/
def memberPackets (C : Config) (cmd : Command) (p : Params) : SeedSource → List Codec → List WireParam
  | _, [] => []
  | d, u :: us => packetsOf C cmd p d u ++ memberPackets C cmd p (seedsAfter cmd p d u) us

/-- The seed source after an aggregate's encode: each member draws its own seeds, in member order (R308). -/
def memberSeeds (cmd : Command) (p : Params) : SeedSource → List Codec → SeedSource
  | d, [] => d
  | d, u :: us => memberSeeds cmd p (seedsAfter cmd p d u) us

/-- The length of the longest member list (R308). -/
def longestList (cmd : Command) (p : Params) (us : List Codec) : Nat :=
  us.foldr (fun u m => max (subs u cmd p).length m) 0

/-- The first `n` argument bytes, the others 0: what a Zhijia packet carries (R176, R263). -/
def carriedArgs (n : Nat) (a : Args) : Args := argsOfBytes ((argBytes a).take n)

/-- The low `n` bytes of an id, the others 0 (R176, R263). -/
def carriedId (n : Nat) (id : U32) : U32 := u32OfBytes ((le32 id).take n)

/-- The ASCII digit of a nibble, `0` to `9` then `A` to `F`. -/
def hexDigit (n : Byte) : Byte := if n.toNat < 10 then 0x30 + n else 0x37 + n

/-- A byte string as hex text, two digits a byte, high nibble first. -/
def hexText (b : List Byte) : List Byte := b.flatMap fun x : Byte => [hexDigit (x >>> 4), hexDigit (x &&& 0x0F)]

/-- `c` is the hex digit of value `n` (R403): `0` to `9`, `A` to `F` or `a` to `f`. -/
def HexDigit (c n : Byte) : Prop :=
  (0x30 ≤ c.toNat ∧ c.toNat ≤ 0x39 ∧ c.toNat = 0x30 + n.toNat) ∨
  (0x41 ≤ c.toNat ∧ c.toNat ≤ 0x46 ∧ c.toNat = 0x37 + n.toNat) ∨
  (0x61 ≤ c.toNat ∧ c.toNat ≤ 0x66 ∧ c.toNat = 0x57 + n.toNat)

/-- The text spells the digit values, with separators `.` and space anywhere (R403). -/
inductive Spells : List Byte → List Byte → Prop
  | done : Spells [] []
  | separator {c : Byte} {text ns : List Byte} : c = 0x2E ∨ c = 0x20 → Spells text ns → Spells (c :: text) ns
  | digit {c n : Byte} {text ns : List Byte} : HexDigit c n → Spells text ns → Spells (c :: text) (n :: ns)

end Sys2Proof.Machine
end

