-- ==== Sys2Proof/Certificates/Slice0/Obligations.lean ====
section
/-! DEFINITION. The statements for the provers. Each docstring names the rules of spec/ it formalises. A result written
`.next (s.answer rsp)` is a full frame: every field of the state but the response list is unchanged; a result written
over a record update leaves every field unchanged but those it names. `Config.build` is an arbitrary lawful configuration
(log 4) with the default byte order of R65 (log 18), so a statement about it holds of every such build. -/

open Sys2Proof Sys2Proof.Machine

/-! ## Encoding and the request port -/

/-- R80, R82: request bytes of each group, written out from the spec's table, decode to the request they stand for. -/
def Obligations.SampleRequestBytesDecode : Prop :=
  decodeBytes [0x06, 0x00, 0x03, 0x00, 0xCB, 0xED, 0x00, 0x00, 0x31, 0x32, 0x33] =
    .ok (.pCrcCcitt ⟨0, 3, 0xEDCB, [0x31, 0x32, 0x33]⟩) ∧
  decodeBytes [0x10, 0x06, 0x00, 0x00, 0x00, 0x00, 0x00, 0x00] = .ok (.kIdentifier ⟨6, 0, 0, []⟩) ∧
  decodeBytes [0x21, 0x00, 0x00, 0x00, 0x00, 0x20, 0x00, 0x00] = .ok (.gLookupFv ⟨0, 0, 0x2000, []⟩) ∧
  decodeBytes [0x33, 0x01, 0x00, 0x00, 0xC8, 0x00, 0x00, 0x00] = .ok (.qSetMintx ⟨1, 0, 200, []⟩) ∧
  decodeBytes [0x42, 0x00, 0x00, 0x00, 0xB0, 0x04, 0x00, 0x00] = .ok (.sTick ⟨0, 0, 1200, []⟩) ∧
  decodeBytes [0x52, 0x02, 0x02, 0x00, 0xE8, 0x03, 0x00, 0x00, 0xAA, 0xBB] = .ok (.xCapture ⟨2, 2, 1000, [0xAA, 0xBB]⟩)

/-- R80, R82, R93: decoding the bytes of any request gives the request back, with every field at every value. -/
def Obligations.EncodedRequestDecodesBack : Prop :=
  ∀ i : Instr, decodeBytes (encodeBytes i) = .ok i

/-- R80, R93: a byte string that decodes is the encoding of what it decodes to, so no bit of a request is dropped. -/
def Obligations.DecodedBytesEncodeBack : Prop :=
  ∀ (b : List Byte) (i : Instr), decodeBytes b = .ok i → encodeBytes i = b

/-- R63, R84 to R86, R88, R89: the bytes of the CMD, PARAMS and WP records and of the WP list, each multi-byte field
little-endian, with the kind codes of R86, and that they read back as what was written; the bytes of a WP record past its
`len` are written as 0 and ignored when read, and a kind code above 16 reads as no Command. The `cmd` of a Command that
is not Custom reads back as 0: R84 says only that it is ignored, and the 0 is the model's choice (log 11). -/
def Obligations.RecordsReadBack : Prop :=
  (∀ c : Command, readCmd (writeCmd c) 0 = some { c with cmd := if c.kind = .custom then c.cmd else 0 }) ∧
  (∀ (k : Kind) (n : Nat), (k, n) ∈ kindCodes → ∀ (x : U16) (a : Args),
    let b := [BitVec.ofNat 8 n, x.extractLsb' 0 8, x.extractLsb' 8 8, a.a0, a.a1, a.a2, a.a3, a.a4]
    writeCmd ⟨k, x, a⟩ = b ∧ readCmd b 0 = some ⟨k, if k = .custom then x else 0, a⟩) ∧
  (∀ k : Kind, ∃ n, (k, n) ∈ kindCodes) ∧ (∀ b : List Byte, 16 < (byteAt b 0).toNat → readCmd b 0 = none) ∧
  (∀ p : Params, writeParams p = [p.id.extractLsb' 0 8, p.id.extractLsb' 8 8, p.id.extractLsb' 16 8,
      p.id.extractLsb' 24 8, p.index, p.tx, p.seed.extractLsb' 0 8, p.seed.extractLsb' 8 8] ∧
    ∀ before after : List Byte, readParams (before ++ writeParams p ++ after) before.length = p) ∧
  (∀ w : WireParam, WireOk w → (writeWp w).length = 36 ∧ readWp (writeWp w) = some w ∧
    let head := [BitVec.ofNat 8 w.data.length, w.flagsIdx, w.dataIdx, w.duration.extractLsb' 0 8,
      w.duration.extractLsb' 8 8]
    writeWp w = head ++ w.data ++ List.replicate (31 - w.data.length) 0 ∧
    ∀ rest : List Byte, w.data.length + rest.length = 31 → readWp (head ++ w.data ++ rest) = some w) ∧
  (∀ ws : List WireParam, writeWpList ws = BitVec.ofNat 8 ws.length :: ws.flatMap writeWp) ∧
  (∀ ws : List WireParam, ws.length ≤ 255 → (∀ w ∈ ws, WireOk w) →
    (writeWpList ws).length = 1 + 36 * ws.length ∧ readWpList (writeWpList ws) = some ws)

/-- R70, R83 (check 1), R92, R449: with no request presented a step changes nothing; the bytes of the first request on
the port, when they decode, are performed as that instruction on the state without the request; an operation outside the
map answers ILLEGAL and writes nothing. -/
def Obligations.StepPerformsFirstRequest : Prop :=
  (∀ s : State, s.port = [] → step s = .next s) ∧
  (∀ (s : State) (q : Request) (rest : List Request) (i : Instr), s.port = q :: rest →
    decodeBytes (requestBytes q) = .ok i → step s = exec i { s with port := rest }) ∧
  (∀ (s : State) (q : Request) (rest : List Request), s.port = q :: rest →
    (∀ i, decodeBytes (requestBytes q) ≠ .ok i) →
    step s = .next (State.answer { s with port := rest } ⟨.illegal, 0, []⟩))

/-- The arm of every instruction performs the rule of its request under the build's configuration, so a statement about
`execUnder C` for every lawful `C` is one about `exec`. -/
def Obligations.ExecIsRuleUnderBuild : Prop :=
  ∀ (i : Instr) (s : State), exec i s = execUnder Config.build i s ∧ Config.build.Lawful

/-! ## Statuses -/

/-- R431, R92: each cause of ILLEGAL, and what it records: the status, `RES` 0 and `OUT` empty. An operation outside the
map; and, by the table of R82 written out operation by operation in `BreaksEncoding`, a nonzero must-be-zero field, a
`LEN` the operation does not accept or that differs from the payload, a kind code above 16, and a WP record, alone or in
a WP list, with `len` above 31 or with an index that is neither 0xFF nor below `len`. A request without a cause is
well-formed. -/
def Obligations.MalformedRequestsAnswerIllegal : Prop :=
  (∀ (s : State) (q : Request) (rest : List Request), s.port = q :: rest →
    (let op := (q.word.extractLsb' 0 8).toNat
     op = 0x00 ∨ (0x0A ≤ op ∧ op ≤ 0x0F) ∨ (0x15 ≤ op ∧ op ≤ 0x1F) ∨ (0x25 ≤ op ∧ op ≤ 0x2F) ∨
       (0x39 ≤ op ∧ op ≤ 0x3F) ∨ (0x44 ≤ op ∧ op ≤ 0x4F) ∨ 0x53 ≤ op) →
    step s = .next (State.answer { s with port := rest } ⟨.illegal, 0, []⟩)) ∧
  (∀ (i : Instr) (s : State), BreaksEncoding i → exec i s = .next (s.answer ⟨.illegal, 0, []⟩)) ∧
  (∀ i : Instr, ¬ BreaksEncoding i → i.WellFormed)

/-- R432: each cause of RANGE, and what it records: the status, `RES` 0 and `OUT` empty. A controller index not below
`N_CTRL`, for every Q.* request; a codec index not below `REG_N`, for K.*, G.DESCRIBE and Q.SET_CODEC; a tx_count not
below the ceiling; a minTxDuration outside 100..500; a full command queue; a FIFO that cannot take the batch. It holds
under every configuration. -/
def Obligations.OutOfRangeRequestsAnswerRange : Prop :=
  ∀ C : Config,
  (∀ (i : Instr) (s : State) (c : Byte), i.WellFormed → controllerOf i = some c → s.ctl.length ≤ c.toNat →
    execUnder C i s = .next (s.answer ⟨.range, 0, []⟩)) ∧
  (∀ (i : Instr) (s : State) (v : Byte), i.WellFormed → codecOf i = some v → C.registry.length ≤ v.toNat →
    execUnder C i s = .next (s.answer ⟨.range, 0, []⟩)) ∧
  (∀ (r : Fields) (s : State), (Instr.qSetCodec r).WellFormed → C.registry.length ≤ (r.imm.extractLsb' 0 8).toNat →
    execUnder C (.qSetCodec r) s = .next (s.answer ⟨.range, 0, []⟩)) ∧
  (∀ (r : Fields) (s : State) (k : Controller) (v : Codec), (Instr.qSetParams r).WellFormed →
    s.ctl[r.sel.toNat]? = some k → C.registry[k.codec.toNat]? = some v →
    ceilOf C v ≤ (readParams r.payload 0).tx.toNat →
    execUnder C (.qSetParams r) s = .next (s.answer ⟨.range, 0, []⟩)) ∧
  (∀ (r : Fields) (s : State), (Instr.qSetMintx r).WellFormed →
    (r.imm.extractLsb' 0 16).toNat < 100 ∨ 500 < (r.imm.extractLsb' 0 16).toNat →
    execUnder C (.qSetMintx r) s = .next (s.answer ⟨.range, 0, []⟩)) ∧
  (∀ (r : Fields) (s : State) (k : Controller) (v : Codec) (cmd : Command), (Instr.qEnqueue r).WellFormed →
    readCmd r.payload 0 = some cmd → s.ctl[r.sel.toNat]? = some k → C.registry[k.codec.toNat]? = some v →
    translation C v cmd k.params ≠ [] → C.cqCap ≤ (evictKind cmd.kind k.queue).length →
    execUnder C (.qEnqueue r) s = .next (s.answer ⟨.range, 0, []⟩)) ∧
  (∀ (r : Fields) (s : State) (k : Controller) (e : QueueEntry) (rest : List QueueEntry), (Instr.qPump r).WellFormed →
    s.ctl[r.sel.toNat]? = some k → k.queue = e :: rest → C.fifoCap < s.sched.fifo.length + e.wps.length →
    execUnder C (.qPump r) s = .next (s.answer ⟨.range, 0, []⟩)) ∧
  (∀ (r : Fields) (s : State) (ws : List WireParam), (Instr.sAddBatch r).WellFormed →
    readWpList r.payload = some ws → C.fifoCap < s.sched.fifo.length + ws.length →
    execUnder C (.sAddBatch r) s = .next (s.answer ⟨.range, 0, []⟩))

/-- R81, R436: every request, whatever its fields and whatever the state, gives a next state with exactly one more
response, and takes nothing from the request port. -/
def Obligations.EveryRequestAnswersOnce : Prop :=
  ∀ (i : Instr) (s : State), ∃ t rsp, exec i s = .next t ∧ t.responses = s.responses ++ [rsp] ∧ t.port = s.port ∧
    t.ctl.length = s.ctl.length

/-- R434: a request other than X.CAPTURE whose status is not OK leaves the state as it was but for the response; an
X.CAPTURE, whatever its status, writes nothing but the dedup list (R405, R406). That it writes the list also when it
answers UNIDENTIFIED is the model's choice, by R405 against R434 (log 14), and so is that it draws no seed, by R310 and
R312 against the words of R68 (log 15). -/
def Obligations.FailedRequestsWriteNothing : Prop :=
  ∀ (i : Instr) (s : State), ∃ t rsp, exec i s = .next t ∧ t.responses = s.responses ++ [rsp] ∧
    (isCapture i = false → rsp.status ≠ .ok → t = s.answer rsp) ∧
    (isCapture i = true → t = State.answer { s with dedup := t.dedup } rsp)

/-- R68, R313: the requests that only read leave the state as it was but for the response; K.ENCODE changes nothing
besides but the seed source. That G.IDENTIFY leaves the seed source alone is the model's choice, by R310 and R312 against
the words of R68 (log 15). -/
def Obligations.ReadingRequestsWriteNothing : Prop :=
  (∀ (i : Instr) (s : State), onlyReads i = true → ∃ rsp, exec i s = .next (s.answer rsp)) ∧
  (∀ (r : Fields) (s : State), ∃ rsp d, exec (.kEncode r) s = .next (State.answer { s with seeds := d } rsp))

/-! ## Reset and the invariants -/

/-- R470: what reset leaves in every element of the register map R35, for every controller, the scheduler and the capture
list, with no event and no response. That the count of draws is 0 is the model's choice of a reset value for its own field
(log 9), as R470's "draws no seed" is read; the model's other own fields are not spoken of. -/
def Obligations.ResetValues : Prop :=
  State.reset.ctl.length = Config.build.nCtrl ∧
  (∀ c, c < Config.build.nCtrl → State.reset.ctl[c]? =
    some ⟨⟨Config.build.idReset c, 0, 0, 0⟩, Config.build.codecReset c, Config.build.mintxReset, 0, [], false, 0⟩) ∧
  State.reset.sched = ⟨.idle, 0, 0, [], 1⟩ ∧ State.reset.dedup = [] ∧
  State.reset.events = [] ∧ State.reset.responses = [] ∧ State.reset.seeds.drawn = 0

/-- R33, R475: the reset state is good. -/
def Obligations.ResetIsGood : Prop := Good Config.build State.reset

/-- R22 to R26, R30, R32, R33, R34: every step keeps a state good: as many controllers as before, each with a registered
codec, a tx_count below its ceiling, a minTxDuration in 100..500 and a bounded queue of well-formed packets; a bounded
FIFO of well-formed packets whose front is on air in BROADCASTING, a next token that is not 0; a bounded dedup list; and
radio events in single flight. -/
def Obligations.StepKeepsStateGood : Prop :=
  ∀ s t : State, Good Config.build s → step s = .next t → Good Config.build t

/-- R382: after any sequence of requests from reset the events alternate, RADIO_START first, and at most one entry is on
air. (`StepKeepsStateGood` says it of one step from any good state.) -/
def Obligations.RadioEventsAlternate : Prop :=
  ∀ is : List Instr, let t := afterAll is State.reset
    alternates false t.events = true ∧ startCount t.events = stopCount t.events + onAirCount t.sched.mode

/-! ## Primitives -/

/-- R142: a primitive that passes the decoding checks returns OK, and writes nothing. -/
def Obligations.PrimitiveRequestsReturnOk : Prop :=
  ∀ (i : Instr) (s : State), isPrimitive i = true → i.WellFormed →
    ∃ res out, exec i s = .next (s.answer ⟨.ok, res, out⟩)

/-- R130, R133: P.WHITEN_LFSR XORs byte `i` with byte `i` of the keystream of the seed; P.WHITEN_TABLE XORs it with the
table entry `((seed + i + 9) mod 32) + (salt mod 4) * 32` and with the seed. -/
def Obligations.WhitenResults : Prop :=
  (∀ (r : Fields) (s : State), (Instr.pWhitenLfsr r).WellFormed →
    ∃ out, exec (.pWhitenLfsr r) s = .next (s.answer ⟨.ok, 0, out⟩) ∧ out.length = r.payload.length ∧
      ∀ i, i < r.payload.length →
        byteAt out i = byteAt r.payload i ^^^ Config.build.lfsrKs (r.imm.extractLsb' 0 8) i) ∧
  (∀ (r : Fields) (s : State), (Instr.pWhitenTable r).WellFormed →
    ∃ out, exec (.pWhitenTable r) s = .next (s.answer ⟨.ok, 0, out⟩) ∧ out.length = r.payload.length ∧
      ∀ i, i < r.payload.length → ∃ k : Fin 128,
        k.val = ((r.imm.extractLsb' 0 8).toNat + i + 9) % 32 + r.sel.toNat % 4 * 32 ∧
        byteAt out i = byteAt r.payload i ^^^ Config.build.xbox k ^^^ r.imm.extractLsb' 0 8)

/-- R130, R133: performing a whitening request again on what it returned gives the buffer back. -/
def Obligations.WhiteningUndoesItself : Prop :=
  (∀ (r : Fields) (s s' : State), (Instr.pWhitenLfsr r).WellFormed →
    ∃ out, exec (.pWhitenLfsr r) s = .next (s.answer ⟨.ok, 0, out⟩) ∧
      exec (.pWhitenLfsr { r with payload := out }) s' = .next (s'.answer ⟨.ok, 0, r.payload⟩)) ∧
  (∀ (r : Fields) (s s' : State), (Instr.pWhitenTable r).WellFormed →
    ∃ out, exec (.pWhitenTable r) s = .next (s.answer ⟨.ok, 0, out⟩) ∧
      exec (.pWhitenTable { r with payload := out }) s' = .next (s'.answer ⟨.ok, 0, r.payload⟩))

/-- R134, R135, R136: bit `k` of a reversed byte is bit `7 - k` of the operand; P.REV_BITS_ALL does so in every byte and
keeps the byte order; byte `i` of P.REV_BYTES's result is byte `n - 1 - i` of the buffer. -/
def Obligations.ReversalResults : Prop :=
  (∀ (r : Fields) (s : State), (Instr.pRevBits r).WellFormed →
    ∃ b : Byte, exec (.pRevBits r) s = .next (s.answer ⟨.ok, b.setWidth 32, []⟩) ∧
      ∀ k, k < 8 → b.getLsbD k = (r.imm.extractLsb' 0 8).getLsbD (7 - k)) ∧
  (∀ (r : Fields) (s : State), (Instr.pRevBitsAll r).WellFormed →
    ∃ out, exec (.pRevBitsAll r) s = .next (s.answer ⟨.ok, 0, out⟩) ∧ out.length = r.payload.length ∧
      ∀ i k, i < r.payload.length → k < 8 → (byteAt out i).getLsbD k = (byteAt r.payload i).getLsbD (7 - k)) ∧
  (∀ (r : Fields) (s : State), (Instr.pRevBytes r).WellFormed →
    ∃ out, exec (.pRevBytes r) s = .next (s.answer ⟨.ok, 0, out⟩) ∧ out.length = r.payload.length ∧
      ∀ i, i < r.payload.length → byteAt out i = byteAt r.payload (r.payload.length - 1 - i))

/-- R137, R138: the CRC requests return the register after the last byte. The register starts at `IMM[15:0]`; a byte
enters the CCITT register at its top and the reflected one at its bottom, and eight steps follow, each with the
generator's polynomial when the bit shifted out is 1. -/
def Obligations.CrcResults : Prop :=
  (∀ (r : Fields) (s : State), (Instr.pCrcCcitt r).WellFormed → exec (.pCrcCcitt r) s =
    .next (s.answer ⟨.ok, (crc16Ccitt r.payload (r.imm.extractLsb' 0 16)).setWidth 32, []⟩)) ∧
  (∀ (r : Fields) (s : State), (Instr.pCrcRefl r).WellFormed → exec (.pCrcRefl r) s =
    .next (s.answer ⟨.ok, (crc16Refl r.payload (r.imm.extractLsb' 0 16)).setWidth 32, []⟩)) ∧
  (∀ c : U16, crc16Ccitt [] c = c ∧ crc16Refl [] c = c) ∧
  (∀ (l : List Byte) (b : Byte) (c : U16),
    crc16Ccitt (l ++ [b]) c = ccittBit^[8] (crc16Ccitt l c ^^^ (b.setWidth 16 <<< 8)) ∧
    crc16Refl (l ++ [b]) c = reflBit^[8] (crc16Refl l c ^^^ b.setWidth 16)) ∧
  (∀ c : U16, ccittBit c = (if c &&& 0x8000 = 0 then c <<< 1 else (c <<< 1) ^^^ 0x1021) ∧
    reflBit c = (if c &&& 0x0001 = 0 then c >>> 1 else (c >>> 1) ^^^ 0x8408))

/-- R138: "reflected input and output": the reflected CRC is the bit reversal of the CCITT CRC of the bit-reversed bytes
from the bit-reversed initial value. -/
def Obligations.ReflectedCrcMirrorsCcitt : Prop :=
  ∀ (l : List Byte) (c : U16), crc16Refl l c = (crc16Ccitt (reverseBitsAll l) c.reverse).reverse

/-- R139: P.AES_SIGN16 encrypts the second 16 bytes under the first 16 with bytes 0 to 2 overwritten by seed low, seed
high and tx_count, returns the first two ciphertext bytes, low byte first, and 0xFFFF for 0; so the result is never 0,
and the first three key bytes sent do not matter. -/
def Obligations.AesSignatureResult : Prop :=
  (∀ (r : Fields) (s : State), (Instr.pAesSign16 r).WellFormed → ∃ sign : U16,
    exec (.pAesSign16 r) s = .next (s.answer ⟨.ok, sign.setWidth 32, []⟩) ∧ sign ≠ 0 ∧
    (let ct := aes128Encrypt ([r.imm.extractLsb' 0 8, r.imm.extractLsb' 8 8, r.sel] ++ slice r.payload 3 16)
        (slice r.payload 16 32)
     let v := (byteAt ct 0).setWidth 16 ||| ((byteAt ct 1).setWidth 16 <<< 8)
     (v ≠ 0 → sign = v) ∧ (v = 0 → sign = 0xFFFF))) ∧
  (∀ (r : Fields) (s : State) (x y z : Byte), (Instr.pAesSign16 r).WellFormed →
    exec (.pAesSign16 { r with payload := x :: y :: z :: r.payload.drop 3 }) s = exec (.pAesSign16 r) s)

/-- R141: P.PIVOT_FIX returns an odd operand as it is and an even one complemented, so its result is always odd. -/
def Obligations.PivotFixResult : Prop :=
  ∀ (r : Fields) (s : State), (Instr.pPivotFix r).WellFormed → ∃ b : Byte,
    exec (.pPivotFix r) s = .next (s.answer ⟨.ok, b.setWidth 32, []⟩) ∧ b.getLsbD 0 = true ∧
    ((r.imm.extractLsb' 0 8).getLsbD 0 = true → b = r.imm.extractLsb' 0 8) ∧
    ((r.imm.extractLsb' 0 8).getLsbD 0 = false → b = ~~~(r.imm.extractLsb' 0 8))

/-! ## Codecs -/

/-- R87, R161, R163, R166, R307: K.IDENTIFIER returns the codec's identifier; K.TRANSLATE returns the number of
RealCommands and the bytes of their list, a count and seven bytes each: of a concrete codec the one RealCommand of a
Custom Command whose opcode fits the command field (8 bits for FLV1 and Zhijia, 16 for FLV2) and none of one that does
not, else the table's list; of an aggregate, under every configuration, its members' lists in registry order. -/
def Obligations.IdentifierAndTranslateResults : Prop :=
  (∀ (r : Fields) (s : State) (v : Codec), (Instr.kIdentifier r).WellFormed →
    Config.build.registry[r.sel.toNat]? = some v →
    exec (.kIdentifier r) s = .next (s.answer ⟨.ok, 0, v.ident⟩)) ∧
  (∀ (r : Fields) (s : State) (v : Codec) (cmd : Command), (Instr.kTranslate r).WellFormed →
    Config.build.registry[r.sel.toNat]? = some v → codecAgg v = false → readCmd r.payload 0 = some cmd →
    let l := subs v cmd (readParams r.payload 8)
    exec (.kTranslate r) s = .next (s.answer ⟨.ok, BitVec.ofNat 32 l.length, realCmdBytes l⟩)) ∧
  (∀ (v : Codec) (cmd : Command) (p : Params), codecAgg v = false →
    (cmd.kind = .custom → FitsField v cmd.cmd → subs v cmd p = [⟨cmd.cmd, cmd.args⟩]) ∧
    (cmd.kind = .custom → ¬ FitsField v cmd.cmd → subs v cmd p = []) ∧
    (cmd.kind ≠ .custom → subs v cmd p = v.translate cmd p)) ∧
  (∀ (C : Config) (r : Fields) (s : State) (v : Codec) (cmd : Command), (Instr.kTranslate r).WellFormed →
    C.registry[r.sel.toNat]? = some v → codecAgg v = true → readCmd r.payload 0 = some cmd →
    let l := (members C (codecFam v)).flatMap fun u => subs u cmd (readParams r.payload 8)
    execUnder C (.kTranslate r) s = .next (s.answer ⟨.ok, BitVec.ofNat 32 l.length, realCmdBytes l⟩))

/-- R164, R165: K.IS_SUPPORTED returns 1 exactly when the Command has a RealCommand, whatever the params. -/
def Obligations.SupportMatchesTranslation : Prop :=
  ∀ (r : Fields) (s : State) (v : Codec) (cmd : Command), (Instr.kIsSupported r).WellFormed →
    Config.build.registry[r.sel.toNat]? = some v → readCmd r.payload 0 = some cmd →
    ∃ b : Bool, exec (.kIsSupported r) s = .next (s.answer ⟨.ok, if b then 1 else 0, []⟩) ∧
      ∀ p : Params, b = true ↔ translation Config.build v cmd p ≠ []

/-- R166, R168, R170, R172: K.ENCODE with a concrete codec that supports the Command returns the params with tx_count
advanced once per packet, and one packet per RealCommand: packet `k` wraps the layout of RealCommand `k` with tx_count
`(tx + k + 1) mod CEIL` and its seed. Only the seed source changes, and only when seeds are drawn. -/
def Obligations.EncodeConcreteResult : Prop :=
  ∀ (r : Fields) (s : State) (v : Codec) (cmd : Command), (Instr.kEncode r).WellFormed →
    Config.build.registry[r.sel.toNat]? = some v → codecAgg v = false → readCmd r.payload 0 = some cmd →
    let p := readParams r.payload 8
    let n := (subs v cmd p).length
    n ≠ 0 →
    exec (.kEncode r) s = .next (State.answer { s with seeds := seedsAfter cmd p s.seeds v }
      ⟨.ok, BitVec.ofNat 32 n, writeParams { p with tx := txAdvance p.tx n (ceilOf Config.build v) } ++
        writeWpList (packetsOf Config.build cmd p s.seeds v)⟩)

/-- R308: K.ENCODE with an aggregate that some member supports the Command of returns the packets of every member in
registry order, each member starting from the same params and drawing its own seeds; tx_count advances once per packet
of the longest member list, modulo the aggregate's ceiling. -/
def Obligations.EncodeAggregateResult : Prop :=
  ∀ C : Config, C.Lawful → ∀ (r : Fields) (s : State) (v : Codec) (cmd : Command), (Instr.kEncode r).WellFormed →
    C.registry[r.sel.toNat]? = some v → codecAgg v = true → readCmd r.payload 0 = some cmd →
    let p := readParams r.payload 8
    let us := members C (codecFam v)
    longestList cmd p us ≠ 0 →
    execUnder C (.kEncode r) s = .next (State.answer { s with seeds := memberSeeds cmd p s.seeds us }
      ⟨.ok, BitVec.ofNat 32 (memberPackets C cmd p s.seeds us).length,
        writeParams { p with tx := txAdvance p.tx (longestList cmd p us) (ceilOf C v) } ++
        writeWpList (memberPackets C cmd p s.seeds us)⟩)

/-- R167, R175, R177, R433, R435: what the codec requests refuse, with nothing written. K.ENCODE of an unsupported
Command answers UNSUPPORTED with the params unchanged and an empty list; K.DECODE answers UNSUPPORTED for a codec that
does not decode, before it looks at the packet; DECODE_FAIL when there is no payload, when its length is not the
codec's, and when the layout's checks fail. And R174, R207, R237, R266, R274, R284: those checks, layout by layout, in
`Accepts`: a payload decodes exactly when its prefix or address, its CRCs, its `src` and `r2` bytes, its type, its
signature and the self-checks of its mixing equal their recomputation, and it decodes to the fields it holds, which
K.DECODE then returns. That a Zhijia uuid is read lowest byte first in a big-endian family too is the model's choice
(log 30). -/
def Obligations.CodecRefusals : Prop :=
  ∀ C : Config,
  (∀ (r : Fields) (s : State) (v : Codec) (cmd : Command), (Instr.kEncode r).WellFormed →
    C.registry[r.sel.toNat]? = some v → readCmd r.payload 0 = some cmd →
    translation C v cmd (readParams r.payload 8) = [] →
    execUnder C (.kEncode r) s =
      .next (s.answer ⟨.unsupported, 0, writeParams (readParams r.payload 8) ++ [0]⟩)) ∧
  (∀ (r : Fields) (s : State) (v : Codec), (Instr.kDecode r).WellFormed → C.registry[r.sel.toNat]? = some v →
    codecDecodes v = false → execUnder C (.kDecode r) s = .next (s.answer ⟨.unsupported, 0, []⟩)) ∧
  (∀ (r : Fields) (s : State) (v : Codec) (w : WireParam), (Instr.kDecode r).WellFormed →
    C.registry[r.sel.toNat]? = some v → codecDecodes v = true → readWp r.payload = some w →
    (∀ P t, payloadOf w = some (P, t) → P.length ≠ codecPlen v ∨ decPayload C v P = none) →
    execUnder C (.kDecode r) s = .next (s.answer ⟨.decodeFail, 0, []⟩)) ∧
  (C.Lawful → ∀ v ∈ C.registry, ∀ (P : List Byte) (d : Decoded), decPayload C v P = some d ↔ Accepts C v P d) ∧
  (C.Lawful → ∀ (r : Fields) (s : State) (v : Codec) (w : WireParam) (P : List Byte) (t : Option Byte) (d : Decoded),
    (Instr.kDecode r).WellFormed → C.registry[r.sel.toNat]? = some v → readWp r.payload = some w →
    payloadOf w = some (P, t) → Accepts C v P d → execUnder C (.kDecode r) s = .next (s.answer
      ⟨.ok, 0, writeCmd ⟨.custom, d.rc.cmd, d.rc.args⟩ ++ writeParams ⟨d.id, d.index, d.tx, d.seed⟩⟩))

/-- R22, R61, R97, R162, R168, R171, R173, R334: an encode returns between 1 and `MAX_PKTS` packets, each with a buffer
of at most 31 bytes and sub-field indices inside it and duration 0, and params whose tx_count is below the codec's
ceiling and whose id, index and seed are unchanged; and a layout's payload has exactly the codec's length. R302: that
ceiling is its layout family's for a concrete codec, and the least of the members' for an aggregate that has a member.
R300 (c), R301: the members of a family's aggregate are the family's concrete codecs, in registry order. -/
def Obligations.EncodeResultBounds : Prop :=
  ∀ C : Config, C.Lawful → ∀ v ∈ C.registry,
  (∀ (cmd : Command) (p p' : Params) (d d' : SeedSource) (ws : List WireParam),
    encodeCmd C v cmd p d = some (p', ws, d') →
    1 ≤ ws.length ∧ ws.length ≤ C.maxPkts ∧ (∀ w ∈ ws, WireOk w ∧ w.duration = 0) ∧
    p'.tx.toNat < ceilOf C v ∧ p'.id = p.id ∧ p'.index = p.index ∧ p'.seed = p.seed) ∧
  (codecAgg v = false → ∀ (rc : RealCommand) (id : U32) (index tx : Byte) (x : U16),
    (encPayload C v rc id index tx x).length = codecPlen v) ∧
  (∀ k u, v.kind = .flv1 k u → ceilOf C v = C.ceil .flv1) ∧ (∀ signed, v.kind = .flv2 signed → ceilOf C v = C.ceil .flv2) ∧
  (v.kind = .zj0 → ceilOf C v = C.ceil .zj0) ∧ (v.kind = .zj1 → ceilOf C v = C.ceil .zj1) ∧
  (v.kind = .zj2 → ceilOf C v = C.ceil .zj2) ∧
  (codecAgg v = true ↔ ∃ f, v.kind = .aggregate f) ∧
  (∀ f, v.kind = .aggregate f → codecFam v = f ∧ (∀ u ∈ members C f, ceilOf C v ≤ ceilOf C u) ∧
    (members C f ≠ [] → ∃ u ∈ members C f, ceilOf C v = ceilOf C u)) ∧
  (∀ f, (members C f).Sublist C.registry ∧
    (v ∈ members C f ↔ (f = .fanlamp ∧ ((∃ k u, v.kind = .flv1 k u) ∨ ∃ signed, v.kind = .flv2 signed)) ∨
      (f = .zhijia ∧ (v.kind = .zj0 ∨ v.kind = .zj1 ∨ v.kind = .zj2))))

/-- R175, R176, R203, R204, R209: K.DECODE of a packet the build's FLV1 codec laid out returns it: the command, the
three carried argument bytes as FIX left them, tx_count and seed, and of the id and the index the bits the group field
carries, the others 0 (log 26); and those bits alone have the same group field. FIX leaves the three bytes as they were in
every RealCommand of the table for another kind than Custom, in every opcode but `PAIR_OP`, in a variant that shares its
header with no other, and where the check passes; what is left, a Custom `PAIR_OP` that the check refuses, R204 (a) and
(b) take from R176: the model's reading (log 16). -/
def Obligations.DecodeInvertsFlv1Encode : Prop :=
  ∀ (n : Byte) (v : Codec) (k : Nat) (u : Flv1Variant), Config.build.registry[n.toNat]? = some v → v.kind = .flv1 k u →
    ∀ (rc : RealCommand) (id : U32) (index tx : Byte) (x dur : U16) (s : State), rc.cmd.toNat < 256 →
    let id' := id &&& Config.build.groupId
    let index' := index &&& Config.build.groupIndex
    Config.build.group id' index' = Config.build.group id index ∧
      exec (decodeOf n { wrap v.ad (encPayload Config.build v rc id index tx x) with duration := dur }) s =
        .next (s.answer ⟨.ok, 0, writeCmd ⟨.custom, rc.cmd, args3 (u.fix rc.cmd rc.args)⟩ ++
          writeParams ⟨id', index', tx, x⟩⟩) ∧
      ((∃ cmd p, cmd.kind ≠ .custom ∧ rc ∈ v.translate cmd p) ∨ rc.cmd ≠ Config.build.pairOp.setWidth 16 ∨
        ¬ Config.build.SharesHeader k u ∨ u.check rc.cmd rc.args = true →
        args3 (u.fix rc.cmd rc.args) = args3 rc.args)

/-- R175, R176, R232, R237: K.DECODE of a packet an FLV2 codec laid out returns every field: the command, the first four
argument bytes, id, index, tx_count and seed. -/
def Obligations.DecodeInvertsFlv2Encode : Prop :=
  ∀ C : Config, C.Lawful → ∀ (n : Byte) (v : Codec) (signed : Bool), C.registry[n.toNat]? = some v →
    v.kind = .flv2 signed → ∀ (rc : RealCommand) (id : U32) (index tx : Byte) (x dur : U16) (s : State),
    execUnder C (decodeOf n { wrap v.ad (encPayload C v rc id index tx x) with duration := dur }) s =
      .next (s.answer ⟨.ok, 0, writeCmd ⟨.custom, rc.cmd, { rc.args with a4 := 0 }⟩ ++
        writeParams ⟨id, index, tx, x⟩⟩)

/-- R175, R176, R263, R266, R274, R284: K.DECODE of a packet a Zhijia codec laid out returns the command, the carried
argument bytes, tx_count and index, seed 0, and the carried bytes of the id (v0, v1) or id 0 (v2). -/
def Obligations.DecodeInvertsZhijiaEncode : Prop :=
  ∀ C : Config, C.Lawful → ∀ (n : Byte) (v : Codec), C.registry[n.toNat]? = some v →
    (v.kind = .zj0 ∨ v.kind = .zj1 ∨ v.kind = .zj2) →
    ∀ (rc : RealCommand) (id : U32) (index tx : Byte) (x dur : U16) (s : State), rc.cmd.toNat < 256 →
    execUnder C (decodeOf n { wrap v.ad (encPayload C v rc id index tx x) with duration := dur }) s =
      .next (s.answer ⟨.ok, 0, writeCmd ⟨.custom, rc.cmd, carriedArgs C.zjArgs rc.args⟩ ++
        writeParams ⟨if codecLf v = some .zj2 then 0 else carriedId C.zjUuidBytes id, index, tx, 0⟩⟩)

/-- R238: no payload decodes both as an unsigned and as a signed FanLamp v2 packet. -/
def Obligations.SignedAndUnsignedExclude : Prop :=
  ∀ (C : Config) (P : List Byte), decFlv2 C false P ≠ none → decFlv2 C true P = none

/-- R65, R231 to R236, R239: a FanLamp v2 payload has 25 bytes and begins with the prefix of its variant; tx_count stands
at offset 5, the seed at 21, and at 23 the CRC over the transmitted bytes `[2, 23)` from the complement of the seed. Its
first 23 bytes are the clear fields at their offsets, with the signature of the clear bytes `[1, 17)` in a signed packet
and 0 in an unsigned one, the table whitening over `[WH_START, WH_END)` from the seed applied. Multi-byte fields stand in
the family's byte order, which is little-endian in the build. -/
def Obligations.Flv2PacketFields : Prop :=
  Config.build.wireOrder .flv2 = .little ∧
  ∀ C : Config, C.Lawful → FieldOrder C .flv2 ∧
  ∀ (v : Codec) (signed : Bool) (rc : RealCommand) (id : U32) (index tx : Byte) (x : U16), v.kind = .flv2 signed →
    let P := encPayload C v rc id index tx x
    let header := if signed then C.flv2PrefixS else [0xF0, 0x08, 0x10, 0x80, 0x00]
    P.length = 25 ∧ slice P 0 5 = header ∧ byteAt P 5 = tx ∧ slice P 21 23 = wire16 C .flv2 x ∧
    slice P 23 25 = wire16 C .flv2 (crc16Ccitt (slice P 2 23) (~~~x)) ∧
    ∃ Q : List Byte, Q.length = 23 ∧ slice Q 0 5 = header ∧ byteAt Q 5 = tx ∧
      slice Q 6 8 = wire16 C .flv2 (C.flv2Type signed) ∧ slice Q 8 12 = wire32 C .flv2 id ∧ byteAt Q 12 = index ∧
      slice Q 13 15 = wire16 C .flv2 rc.cmd ∧ slice Q 15 19 = [rc.args.a0, rc.args.a1, rc.args.a2, rc.args.a3] ∧
      slice Q 19 21 = wire16 C .flv2 (if signed then aesSign16 C.keyBase (slice Q 1 17) x tx else 0) ∧
      slice Q 21 23 = wire16 C .flv2 x ∧
      ∀ i, i < 23 →
        (C.whStart ≤ i ∧ i < C.whEnd → byteAt P i = byteAt Q i ^^^ tableByte C (x.extractLsb' 0 8) (i - C.whStart)) ∧
        (i < C.whStart ∨ C.whEnd ≤ i → byteAt P i = byteAt Q i)

/-- R65, R201 to R203, R205, R206: a FanLamp v1 payload. The clear payload is the header (the prefix, then the
supplementary byte where the variant has one), the twelve field bytes at their offsets, CRC1 over them from the
complement of the seed, and CRC2 over header and fields where the variant has one. What is sent is that payload with the
region of `WLEN` bytes after the prefix reversed, by bytes or by the bits of each byte, and then whitened by the keystream
of seed 0x6F. Multi-byte fields stand in the family's byte order, which is little-endian in the build. -/
def Obligations.Flv1PacketFields : Prop :=
  Config.build.wireOrder .flv1 = .little ∧
  ∀ C : Config, C.Lawful → FieldOrder C .flv1 ∧
  ∀ (v : Codec) (k : Nat) (u : Flv1Variant) (rc : RealCommand) (id : U32) (index tx : Byte) (x : U16),
    v ∈ C.registry → v.kind = .flv1 k u →
    let P := encPayload C v rc id index tx x
    let B := u.header.length
    let H := B + if u.supp = none then 0 else 1
    let a := u.fix rc.cmd rc.args
    let flip : Byte := if u.xor1 then 1 else 0
    ∃ Q : List Byte, Q.length = H + 14 + (if u.crc2 = none then 0 else 2) ∧ P.length = Q.length ∧
      slice Q 0 B = u.header ∧ (∀ b, u.supp = some b → byteAt Q B = b) ∧
      byteAt Q H = rc.cmd.extractLsb' 0 8 ∧ slice Q (H + 1) (H + 3) = wire16 C .flv1 (C.group id index) ∧
      slice Q (H + 3) (H + 6) = [a.a0, a.a1, a.a2] ∧
      slice Q (H + 6) (H + 10) = [tx, u.outs rc, C.src x ^^^ flip, C.r2 x ^^^ flip] ∧
      slice Q (H + 10) (H + 12) = wire16 C .flv1 x ∧
      slice Q (H + 12) (H + 14) = wire16 C .flv1 (crc16Ccitt (slice Q H (H + 12)) (~~~x)) ∧
      (∀ init, u.crc2 = some init →
        slice Q (H + 14) (H + 16) = wire16 C .flv1 (crc16Ccitt (slice Q 0 (H + 12)) init)) ∧
      (∀ i, i < B ∨ B + u.wlen ≤ i → byteAt P i = byteAt Q i) ∧
      ∀ j, j < u.wlen → byteAt P (B + j) = C.lfsrKs 0x6F j ^^^
        (match C.flv1Reversal with
         | .byteOrder => byteAt Q (B + u.wlen - 1 - j)
         | .bitEach => (byteAt Q (B + j)).reverse)

/-- R65, R262 to R265, R270, R272, R280 to R283: the Zhijia payloads. In clear, v0 is the vendor MAC with its bytes and
the bits of each byte reversed, the eight bytes of `MIX0` and the CRC over both; v1 the address, the seventeen bytes of
`MIX1` and the CRC; v2 the sixteen bytes of `MIX2` and the spare bytes. What is sent is that under the table whitening of
seeds 0x7F and 0x37 (v0), 0x37 (v1), and 0x6F with 0xD3 over the first sixteen bytes (v2). The CRC stands in the family's
byte order, which is little-endian in the build. That `MIX` gets the uuid lowest byte first in a big-endian family too is
the model's choice (log 30). -/
def Obligations.ZhijiaPacketFields : Prop :=
  (∀ f, f = .zj0 ∨ f = .zj1 → Config.build.wireOrder f = .little) ∧
  ∀ C : Config, C.Lawful → FieldOrder C .zj0 ∧ FieldOrder C .zj1 ∧
  ∀ (v : Codec) (rc : RealCommand) (id : U32) (index tx : Byte) (x : U16),
    let P := encPayload C v rc id index tx x
    let f : ZjFields :=
      ⟨rc.cmd.extractLsb' 0 8, (argBytes rc.args).take C.zjArgs, (le32 id).take C.zjUuidBytes, tx, index⟩
    (v.kind = .zj0 → P.length = 13 ∧ ∃ Q : List Byte, Q.length = 13 ∧
      (∀ i, i < 3 → byteAt Q i = (byteAt C.zj0Mac (2 - i)).reverse) ∧ slice Q 3 11 = C.mix0 f ∧
      slice Q 11 13 = wire16 C .zj0 (crc16Refl (slice Q 0 11) C.zjCrcInit) ∧
      ∀ i, i < 13 → byteAt P i = byteAt Q i ^^^ tableByte C 0x7F i ^^^ tableByte C 0x37 i) ∧
    (v.kind = .zj1 → P.length = 23 ∧ ∃ Q : List Byte, Q.length = 23 ∧
      slice Q 0 4 = C.zj1Addr ∧ slice Q 4 21 = C.mix1 f ∧
      slice Q 21 23 = wire16 C .zj1 (crc16Refl (slice Q 0 21) C.zjCrcInit) ∧
      ∀ i, i < 23 → byteAt P i = byteAt Q i ^^^ tableByte C 0x37 i) ∧
    (v.kind = .zj2 → P.length = 23 ∧
      ∀ i, i < 23 → byteAt P i = byteAt (C.mix2 { f with uuid := [] } ++ C.spare2) i ^^^
        (if i < 16 then tableByte C 0xD3 i else 0) ^^^ tableByte C 0x6F i)

/-! ## Registry -/

/-- R303, R304: G.COUNT returns `REG_N`; G.DESCRIBE the family and variant codes of R301, the aggregate bit and, of every
codec but an aggregate, the decodes bit, and 0 in the bits above 17; an index that is not below `REG_N` is RANGE. Neither
writes anything. The aggregates' clause is said under every configuration, since a build may have none. -/
def Obligations.CountAndDescribeResults : Prop :=
  (∀ (r : Fields) (s : State), (Instr.gCount r).WellFormed →
    exec (.gCount r) s = .next (s.answer ⟨.ok, BitVec.ofNat 32 Config.build.registry.length, []⟩)) ∧
  (∀ (r : Fields) (s : State) (v : Codec), (Instr.gDescribe r).WellFormed →
    Config.build.registry[r.sel.toNat]? = some v → (∀ f, v.kind ≠ .aggregate f) →
    exec (.gDescribe r) s = .next (s.answer
      ⟨.ok, BitVec.ofNat 32 ((codesOf v.kind).1 + (codesOf v.kind).2 * 256 + 131072), []⟩)) ∧
  (∀ (C : Config) (r : Fields) (s : State) (v : Codec) (f : Family), (Instr.gDescribe r).WellFormed →
    C.registry[r.sel.toNat]? = some v → v.kind = .aggregate f →
    execUnder C (.gDescribe r) s = .next (s.answer
      ⟨.ok, BitVec.ofNat 32 ((codesOf v.kind).1 + (codesOf v.kind).2 * 256 + 65536), []⟩)) ∧
  (∀ (r : Fields) (s : State), (Instr.gDescribe r).WellFormed → Config.build.registry.length ≤ r.sel.toNat →
    exec (.gDescribe r) s = .next (s.answer ⟨.range, 0, []⟩))

/-- R161, R305: G.LOOKUP_ID with the identifier of the codec at index `n` returns OK and `n`; with an identifier no
codec has, FALLBACK and index 0. -/
def Obligations.LookupByIdentifierResult : Prop :=
  (∀ (r : Fields) (s : State) (n : Nat) (v : Codec), (Instr.gLookupId r).WellFormed →
    Config.build.registry[n]? = some v → r.payload = v.ident →
    exec (.gLookupId r) s = .next (s.answer ⟨.ok, BitVec.ofNat 32 n, []⟩)) ∧
  (∀ (r : Fields) (s : State), (Instr.gLookupId r).WellFormed → (∀ v ∈ Config.build.registry, v.ident ≠ r.payload) →
    exec (.gLookupId r) s = .next (s.answer ⟨.fallback, 0, []⟩))

/-- R300, R301, R306: G.LOOKUP_FV with the family and variant codes of R301 of the codec at index `n` returns OK and `n`;
with a pair no codec has, NOT_FOUND. -/
def Obligations.LookupByFamilyVariantResult : Prop :=
  (∀ (r : Fields) (s : State) (n : Nat) (v : Codec), (Instr.gLookupFv r).WellFormed →
    Config.build.registry[n]? = some v →
    ((r.imm.extractLsb' 0 8).toNat, (r.imm.extractLsb' 8 8).toNat) = codesOf v.kind →
    exec (.gLookupFv r) s = .next (s.answer ⟨.ok, BitVec.ofNat 32 n, []⟩)) ∧
  (∀ (r : Fields) (s : State), (Instr.gLookupFv r).WellFormed →
    (∀ v ∈ Config.build.registry,
      ((r.imm.extractLsb' 0 8).toNat, (r.imm.extractLsb' 8 8).toNat) ≠ codesOf v.kind) →
    exec (.gLookupFv r) s = .next (s.answer ⟨.notFound, 0, []⟩))

/-- R310, R311, R312, R313: G.IDENTIFY answers with the first codec that is tried and whose decode succeeds: its index,
the mismatch bit 8 set exactly when the rebuilt payload differs, and the decoded fields; UNIDENTIFIED when there is no
payload or no codec decodes it. A codec is tried when it decodes, has the payload's length and, with the pre-filter on
and a type byte named, has that AD type. That the first full decode decides is the spec's reading (90 C8); that no seed is
drawn is the model's choice, by R310 and R312 against the words of R68 (log 15). -/
def Obligations.IdentifyFirstMatch : Prop :=
  (∀ (r : Fields) (s : State) (w : WireParam) (P : List Byte) (t : Option Byte) (n : Nat) (v : Codec) (d : Decoded),
    (Instr.gIdentify r).WellFormed → readWp r.payload = some w → payloadOf w = some (P, t) →
    Config.build.registry[n]? = some v → identifySkips Config.build v P t = false →
    decPayload Config.build v P = some d →
    (∀ (m : Nat) (v' : Codec), m < n → Config.build.registry[m]? = some v' →
      identifySkips Config.build v' P t = true ∨ decPayload Config.build v' P = none) →
    exec (.gIdentify r) s = .next (s.answer ⟨.ok, BitVec.ofNat 32
      (n + if encPayload Config.build v d.rc d.id d.index d.tx d.seed = P then 0 else 256), decodedOut d⟩)) ∧
  (∀ (r : Fields) (s : State) (w : WireParam), (Instr.gIdentify r).WellFormed → readWp r.payload = some w →
    (∀ P t, payloadOf w = some (P, t) → ∀ v ∈ Config.build.registry,
      identifySkips Config.build v P t = true ∨ decPayload Config.build v P = none) →
    exec (.gIdentify r) s = .next (s.answer ⟨.unidentified, 0, []⟩)) ∧
  (∀ (v : Codec) (P : List Byte) (t : Option Byte), identifySkips Config.build v P t = false ↔
    codecDecodes v = true ∧ P.length = codecPlen v ∧
    (Config.build.prefilter = true → t = none ∨ t = some v.ad.adType))

/-- R285, R314: a packet that behaves as R314 says of the source's pair packet, as a WireParam with no data index,
identifies as an FLV1 codec with no mismatch reported. The spec gives nine bytes of that packet; `Config.PairPacket`, any
packet that begins with them and meets R314's conditions, is the model's reading of it (log 21). That no seed is drawn is
the model's choice, by R310 and R312 against the words of R68 (log 15). -/
def Obligations.PairPacketIdentifiesAsFlv1 : Prop :=
  ∀ (C : Config) (P : List Byte), C.Lawful → C.PairPacket P → ∀ s : State,
    ∃ (n : Nat) (v : Codec) (d : Decoded), C.registry[n]? = some v ∧ codecLf v = some .flv1 ∧
      decPayload C v P = some d ∧
      execUnder C (.gIdentify ⟨0, 36, 0, writeWp ⟨P, 0xFF, 0xFF, 0⟩⟩) s =
        .next (s.answer ⟨.ok, BitVec.ofNat 32 n, decodedOut d⟩)

/-! ## Command queues -/

/-- R330, R331: Q.SET_PARAMS with a tx_count below the ceiling writes the four params and nothing else, and Q.GET_PARAMS
then returns the record that was sent. -/
def Obligations.SetThenGetParams : Prop :=
  (∀ (c : Byte) (p : Params) (s : State) (k : Controller) (v : Codec), s.ctl[c.toNat]? = some k →
    Config.build.registry[k.codec.toNat]? = some v → p.tx.toNat < ceilOf Config.build v →
    let t := State.answer { s with ctl := s.ctl.set c.toNat { k with params := p } } ⟨.ok, 0, []⟩
    exec (.qSetParams ⟨c, 8, 0, writeParams p⟩) s = .next t ∧
    exec (.qGetParams ⟨c, 0, 0, []⟩) t = .next (t.answer ⟨.ok, 0, writeParams p⟩)) ∧
  (∀ (r : Fields) (s : State) (k : Controller), (Instr.qGetParams r).WellFormed → s.ctl[r.sel.toNat]? = some k →
    exec (.qGetParams r) s = .next (s.answer ⟨.ok, 0, writeParams k.params⟩))

/-- R339, R340, R341: Q.SET_CODEC writes the codec index and reduces tx_count modulo the new codec's ceiling;
Q.SET_MINTX writes a minTxDuration of 100 to 500; Q.SET_SEQDUR writes any sequenceDuration. Nothing else changes. -/
def Obligations.SetRegisterResults : Prop :=
  (∀ (r : Fields) (s : State) (k : Controller) (v : Codec), (Instr.qSetCodec r).WellFormed →
    s.ctl[r.sel.toNat]? = some k → Config.build.registry[(r.imm.extractLsb' 0 8).toNat]? = some v →
    let p := { k.params with tx := BitVec.ofNat 8 (k.params.tx.toNat % ceilOf Config.build v) }
    let k' := { k with codec := r.imm.extractLsb' 0 8, params := p }
    exec (.qSetCodec r) s = .next (State.answer { s with ctl := s.ctl.set r.sel.toNat k' } ⟨.ok, 0, []⟩)) ∧
  (∀ (r : Fields) (s : State) (k : Controller), (Instr.qSetMintx r).WellFormed → s.ctl[r.sel.toNat]? = some k →
    100 ≤ (r.imm.extractLsb' 0 16).toNat → (r.imm.extractLsb' 0 16).toNat ≤ 500 →
    let k' := { k with mintx := r.imm.extractLsb' 0 16 }
    exec (.qSetMintx r) s = .next (State.answer { s with ctl := s.ctl.set r.sel.toNat k' } ⟨.ok, 0, []⟩)) ∧
  (∀ (r : Fields) (s : State) (k : Controller), (Instr.qSetSeqdur r).WellFormed → s.ctl[r.sel.toNat]? = some k →
    let k' := { k with seqdur := r.imm.extractLsb' 0 16 }
    exec (.qSetSeqdur r) s = .next (State.answer { s with ctl := s.ctl.set r.sel.toNat k' } ⟨.ok, 0, []⟩))

/-- R342, R377: Q.STATUS returns the codec, the queue length and active_valid in `RES`, the durations and the active
token in `OUT`; S.STATUS the mode and the FIFO length, and cur_token, deadline, next_token, and of the front entry (0
without one) the token and the two flags. Neither writes anything. -/
def Obligations.StatusReads : Prop :=
  (∀ (r : Fields) (s : State) (k : Controller), (Instr.qStatus r).WellFormed → s.ctl[r.sel.toNat]? = some k →
    k.queue.length < 256 →
    exec (.qStatus r) s = .next (s.answer ⟨.ok, BitVec.ofNat 32
      (k.codec.toNat + k.queue.length * 256 + if k.activeValid then 65536 else 0),
      le16 k.mintx ++ le16 k.seqdur ++ le32 k.activeToken⟩)) ∧
  (∀ (r : Fields) (s : State), (Instr.sStatus r).WellFormed → s.sched.fifo.length < 65536 →
    ∃ token flags, exec (.sStatus r) s = .next (s.answer ⟨.ok, BitVec.ofNat 32
      ((if s.sched.mode = .broadcasting then 1 else 0) + s.sched.fifo.length * 65536),
      le32 s.sched.curToken ++ le32 s.sched.deadline ++ le32 s.sched.nextToken ++ le32 token ++ [flags]⟩) ∧
      (s.sched.fifo = [] → token = 0 ∧ flags = 0) ∧
      (∀ f rest, s.sched.fifo = f :: rest → token = f.token ∧ flags =
        BitVec.ofNat 8 ((if f.processedOnce then 1 else 0) + if f.toBeRemoved then 2 else 0)))

/-- R332, R333, R334, R335: Q.ENQUEUE of a supported Command, with room after the eviction, drops the queued entries of
the same kind (unless the kind is Custom or FanOnOffSpeed), appends the encode's packets under the controller's on-air
duration, and stores the params the encode returns, under every configuration; said of `exec` for a Custom Command, which
evicts nothing. An unsupported Command answers UNSUPPORTED and writes nothing. -/
def Obligations.EnqueueResult : Prop :=
  (∀ (C : Config) (r : Fields) (s : State) (cmd : Command) (k : Controller) (v : Codec) (p : Params)
    (ws : List WireParam) (d : SeedSource), C.Lawful → (Instr.qEnqueue r).WellFormed →
    readCmd r.payload 0 = some cmd → s.ctl[r.sel.toNat]? = some k → C.registry[k.codec.toNat]? = some v →
    encodeCmd C v cmd k.params s.seeds = some (p, ws, d) →
    let kept := if cmd.kind = .custom ∨ cmd.kind = .fanOnOffSpeed then k.queue
      else k.queue.filter fun e => decide (e.kind ≠ cmd.kind)
    let dur := if k.seqdur ≠ 0 ∧ k.seqdur.toNat < k.mintx.toNat then k.seqdur else k.mintx
    kept.length < C.cqCap →
    execUnder C (.qEnqueue r) s = .next (State.answer { s with
      ctl := s.ctl.set r.sel.toNat { k with
        params := p, queue := kept ++ [⟨cmd.kind, ws.map fun w => { w with duration := dur }⟩] }
      seeds := d } ⟨.ok, 0, []⟩)) ∧
  (∀ (r : Fields) (s : State) (cmd : Command) (k : Controller) (v : Codec) (p : Params) (ws : List WireParam)
    (d : SeedSource), (Instr.qEnqueue r).WellFormed → readCmd r.payload 0 = some cmd → cmd.kind = .custom →
    s.ctl[r.sel.toNat]? = some k → Config.build.registry[k.codec.toNat]? = some v →
    encodeCmd Config.build v cmd k.params s.seeds = some (p, ws, d) → k.queue.length < Config.build.cqCap →
    let dur := if k.seqdur ≠ 0 ∧ k.seqdur.toNat < k.mintx.toNat then k.seqdur else k.mintx
    exec (.qEnqueue r) s = .next (State.answer { s with
      ctl := s.ctl.set r.sel.toNat { k with
        params := p, queue := k.queue ++ [⟨.custom, ws.map fun w => { w with duration := dur }⟩] }
      seeds := d } ⟨.ok, 0, []⟩)) ∧
  (∀ (r : Fields) (s : State) (cmd : Command) (k : Controller) (v : Codec), (Instr.qEnqueue r).WellFormed →
    readCmd r.payload 0 = some cmd → s.ctl[r.sel.toNat]? = some k → Config.build.registry[k.codec.toNat]? = some v →
    translation Config.build v cmd k.params = [] →
    exec (.qEnqueue r) s = .next (s.answer ⟨.unsupported, 0, []⟩))

/-- R336: Q.DEQUEUE_FRONT pops the front entry and returns its kind code and its packets; it touches nothing else. On an
empty queue Q.DEQUEUE_FRONT and Q.PUMP answer EMPTY and write nothing (R337). -/
def Obligations.DequeueFrontResult : Prop :=
  (∀ (r : Fields) (s : State) (k : Controller) (e : QueueEntry) (rest : List QueueEntry),
    (Instr.qDequeueFront r).WellFormed → s.ctl[r.sel.toNat]? = some k → k.queue = e :: rest →
    exec (.qDequeueFront r) s = .next (State.answer { s with ctl := s.ctl.set r.sel.toNat { k with queue := rest } }
      ⟨.ok, 0, kindCode e.kind :: writeWpList e.wps⟩)) ∧
  (∀ (r : Fields) (s : State) (k : Controller), s.ctl[r.sel.toNat]? = some k → k.queue = [] →
    ((Instr.qDequeueFront r).WellFormed → exec (.qDequeueFront r) s = .next (s.answer ⟨.empty, 0, []⟩)) ∧
    ((Instr.qPump r).WellFormed → exec (.qPump r) s = .next (s.answer ⟨.empty, 0, []⟩)))

/-- R337, R370, R372: Q.PUMP with room in the FIFO pops the front entry, marks the packets of the controller's previous
batch, appends the new packets under the next token, remembers that token and returns it. -/
def Obligations.PumpResult : Prop :=
  ∀ (r : Fields) (s : State) (k : Controller) (e : QueueEntry) (rest : List QueueEntry), (Instr.qPump r).WellFormed →
    s.ctl[r.sel.toNat]? = some k → k.queue = e :: rest →
    s.sched.fifo.length + e.wps.length ≤ Config.build.fifoCap →
    let t := s.sched.nextToken
    exec (.qPump r) s = .next (State.answer { s with
      ctl := s.ctl.set r.sel.toNat { k with queue := rest, activeValid := true, activeToken := t }
      sched := { s.sched with
        nextToken := if t = 0xFFFFFFFF then 1 else t + 1
        fifo := (s.sched.fifo.map fun f =>
            if k.activeValid = true ∧ f.token = k.activeToken then { f with toBeRemoved := true } else f) ++
          e.wps.map fun w => ⟨w, t, false, false⟩ } } ⟨.ok, t, []⟩)

/-- R343: a Q.* request for controller `c` changes no other controller, not the capture list, the radio events or the
request port; and its response and what it does to its own controller, to the scheduler and to the seed source depend on
these three alone. -/
def Obligations.ControllersAreIndependent : Prop :=
  ∀ (i : Instr) (c : Byte), controllerOf i = some c →
    (∀ s t : State, exec i s = .next t → (∀ n, n ≠ c.toNat → t.ctl[n]? = s.ctl[n]?) ∧ t.ctl.length = s.ctl.length ∧
      t.dedup = s.dedup ∧ t.events = s.events ∧ t.port = s.port) ∧
    (∀ s s' t t' : State, s'.ctl[c.toNat]? = s.ctl[c.toNat]? → s'.sched = s.sched → s'.seeds = s.seeds →
      exec i s = .next t → exec i s' = .next t' →
      t'.ctl[c.toNat]? = t.ctl[c.toNat]? ∧ t'.sched = t.sched ∧ t'.seeds = t.seeds ∧
      ∃ rsp, t.responses = s.responses ++ [rsp] ∧ t'.responses = s'.responses ++ [rsp])

/-- R95, R337, R338: SYS.STEP performs Q.PUMP for the controllers 0 to `N_CTRL` - 1 in order and then S.TICK, whatever the
pumps answer. Each pump gives the front entry of its own controller's queue to the scheduler, answers EMPTY where there is
none, and answers RANGE and keeps the entry where the FIFO has no room; the step adds one response per controller and one
more, the last of which is the tick's OK. Q.SEND pumps only after an OK enqueue. -/
def Obligations.SystemStepPerformsEveryPart : Prop :=
  (∀ (s : State) (now : U32), sysStep now s = after (.sTick ⟨0, 0, now, []⟩)
    ((List.range s.ctl.length).foldl (fun t c => after (.qPump ⟨BitVec.ofNat 8 c, 0, 0, []⟩) t) s)) ∧
  (∀ (s : State) (c : Byte) (k : Controller), s.ctl[c.toNat]? = some k →
    (k.queue = [] → after (pumpOf c) s = s.answer ⟨.empty, 0, []⟩) ∧
    (∀ e rest, k.queue = e :: rest →
      (Config.build.fifoCap < s.sched.fifo.length + e.wps.length →
        after (pumpOf c) s = s.answer ⟨.range, 0, []⟩) ∧
      (s.sched.fifo.length + e.wps.length ≤ Config.build.fifoCap →
        let t := s.sched.nextToken
        after (pumpOf c) s = State.answer { s with
          ctl := s.ctl.set c.toNat { k with queue := rest, activeValid := true, activeToken := t }
          sched := { s.sched with
            nextToken := if t = 0xFFFFFFFF then 1 else t + 1
            fifo := (s.sched.fifo.map fun f =>
                if k.activeValid = true ∧ f.token = k.activeToken then { f with toBeRemoved := true } else f) ++
              e.wps.map fun w => ⟨w, t, false, false⟩ } } ⟨.ok, t, []⟩))) ∧
  (∀ (s : State) (now : U32), ∃ rs, rs.length = s.ctl.length ∧
    (sysStep now s).responses = s.responses ++ rs ++ [⟨.ok, 0, []⟩]) ∧
  (∀ (s : State) (c : Byte) (cmd : Command), ∃ rsp : Response,
    (after (enqueueOf c cmd) s).responses = s.responses ++ [rsp] ∧
    (rsp.status = .ok → qSend c cmd s = after (pumpOf c) (after (enqueueOf c cmd) s)) ∧
    (rsp.status ≠ .ok → qSend c cmd s = after (enqueueOf c cmd) s))

/-! ## Scheduler -/

/-- R370, R371: S.ADD_BATCH with room for the whole batch appends each packet at the back of the FIFO, with the next
token and both flags false, returns that token and advances it, skipping 0. -/
def Obligations.AddBatchResult : Prop :=
  ∀ (r : Fields) (s : State) (ws : List WireParam), (Instr.sAddBatch r).WellFormed →
    readWpList r.payload = some ws → s.sched.fifo.length + ws.length ≤ Config.build.fifoCap →
    let t := s.sched.nextToken
    exec (.sAddBatch r) s = .next (State.answer { s with sched := { s.sched with
      nextToken := if t = 0xFFFFFFFF then 1 else t + 1
      fifo := s.sched.fifo ++ ws.map fun w => ⟨w, t, false, false⟩ } } ⟨.ok, t, []⟩)

/-- R372, R373: S.REMOVE_BATCH sets the removal flag of every entry that holds the token and of no other, in place; no
entry leaves the FIFO, and no radio event is emitted. -/
def Obligations.RemoveBatchResult : Prop :=
  ∀ (r : Fields) (s : State), (Instr.sRemoveBatch r).WellFormed → ∃ fifo : List Pending,
    exec (.sRemoveBatch r) s = .next (State.answer { s with sched := { s.sched with fifo := fifo } } ⟨.ok, 0, []⟩) ∧
    fifo.length = s.sched.fifo.length ∧
    ∀ (n : Nat) (e : Pending), s.sched.fifo[n]? = some e →
      fifo[n]? = some { e with toBeRemoved := e.toBeRemoved || decide (e.token = r.imm) }

/-- R375, R376, R378: the tick, branch by branch. In IDLE the entries at the front that are processed and removed are
evicted, and the entry then at the front is started: RADIO_START with its bytes, processed_once set, its token and the
deadline `now + duration` recorded. In BROADCASTING, past the deadline and with another entry or a removal waiting, the
radio stops and the front entry is discarded or goes to the back; otherwise nothing changes. -/
def Obligations.TickResult : Prop :=
  (∀ (r : Fields) (s : State) (done : List Pending), (Instr.sTick r).WellFormed → s.sched.mode = .idle →
    s.sched.fifo = done → (∀ e ∈ done, e.processedOnce = true ∧ e.toBeRemoved = true) →
    exec (.sTick r) s = .next (State.answer { s with sched := { s.sched with fifo := [] } } ⟨.ok, 0, []⟩)) ∧
  (∀ (r : Fields) (s : State) (done : List Pending) (e : Pending) (rest : List Pending), (Instr.sTick r).WellFormed →
    s.sched.mode = .idle → s.sched.fifo = done ++ e :: rest →
    (∀ f ∈ done, f.processedOnce = true ∧ f.toBeRemoved = true) →
    (e.processedOnce = false ∨ e.toBeRemoved = false) →
    exec (.sTick r) s = .next (State.answer { s with
      sched := { s.sched with
        mode := .broadcasting, curToken := e.token, deadline := r.imm + e.wp.duration.setWidth 32
        fifo := { e with processedOnce := true } :: rest }
      events := s.events ++ [.start e.wp.data] } ⟨.ok, 0, []⟩)) ∧
  (∀ (r : Fields) (s : State) (e : Pending) (rest : List Pending), (Instr.sTick r).WellFormed →
    s.sched.mode = .broadcasting → s.sched.fifo = e :: rest →
    ((s.sched.deadline.toNat < r.imm.toNat ∧ (rest ≠ [] ∨ e.toBeRemoved = true)) →
      exec (.sTick r) s = .next (State.answer { s with
        sched := { s.sched with mode := .idle, fifo := if e.toBeRemoved then rest else rest ++ [e] }
        events := s.events ++ [.stop] } ⟨.ok, 0, []⟩)) ∧
    (¬ (s.sched.deadline.toNat < r.imm.toNat ∧ (rest ≠ [] ∨ e.toBeRemoved = true)) →
      exec (.sTick r) s = .next (s.answer ⟨.ok, 0, []⟩)))

/-- R374, R376, R383: only S.TICK changes the mode, the current token and the deadline, and only S.TICK emits a radio
event; every other request keeps the front of a FIFO that is not empty in place, with its packet, its token and its
processed_once flag. A tick emits at most one event. -/
def Obligations.OnlyTickMovesTheRadio : Prop :=
  (∀ (i : Instr) (s t : State), isTick i = false → exec i s = .next t →
    t.events = s.events ∧ t.sched.mode = s.sched.mode ∧ t.sched.curToken = s.sched.curToken ∧
    t.sched.deadline = s.sched.deadline ∧
    ∀ e rest, s.sched.fifo = e :: rest → ∃ e' rest', t.sched.fifo = e' :: rest' ∧ e'.wp = e.wp ∧
      e'.token = e.token ∧ e'.processedOnce = e.processedOnce) ∧
  (∀ (i : Instr) (s t : State), isTick i = true → exec i s = .next t →
    t.events = s.events ∨ (∃ b, t.events = s.events ++ [.start b]) ∨ t.events = s.events ++ [.stop])

/-- R379, R380, R383: while the deadline has not passed, and while the packet on air is the only entry and not removed,
no tick changes anything, whatever its time; the tick after a removal and past the deadline stops it and evicts it. -/
def Obligations.PacketStaysOnAir : Prop :=
  (∀ (s : State) (now : U32), s.sched.mode = .broadcasting → s.sched.fifo ≠ [] → now.toNat ≤ s.sched.deadline.toNat →
    exec (tickOf now) s = .next (s.answer ⟨.ok, 0, []⟩)) ∧
  (∀ (s : State) (e : Pending) (now : U32), s.sched.mode = .broadcasting → s.sched.fifo = [e] →
    e.toBeRemoved = false → exec (tickOf now) s = .next (s.answer ⟨.ok, 0, []⟩)) ∧
  (∀ (s : State) (e : Pending) (rest : List Pending) (now : U32), s.sched.mode = .broadcasting →
    s.sched.fifo = e :: rest → s.sched.deadline.toNat < now.toNat → (∀ f ∈ rest, f.token ≠ e.token) →
    let t := afterAll [.sRemoveBatch ⟨0, 0, e.token, []⟩, tickOf now] s
    t.sched.mode = .idle ∧ t.sched.fifo = rest ∧ t.events = s.events ++ [.stop])

/-- R379, R384: with three packets in the FIFO of an IDLE scheduler, none marked for removal, six ticks that pass each
deadline in turn broadcast the three in FIFO order, each followed by a stop, and leave the FIFO in the same order, so the
cycle repeats. -/
def Obligations.ThreePacketsCycle : Prop :=
  ∀ (s : State) (a b c : Pending) (t0 t1 t2 t3 t4 t5 : U32),
    s.sched.mode = .idle → s.sched.fifo = [a, b, c] →
    a.toBeRemoved = false → b.toBeRemoved = false → c.toBeRemoved = false →
    (t0 + a.wp.duration.setWidth 32).toNat < t1.toNat → (t2 + b.wp.duration.setWidth 32).toNat < t3.toNat →
    (t4 + c.wp.duration.setWidth 32).toNat < t5.toNat →
    let t := afterAll ([t0, t1, t2, t3, t4, t5].map tickOf) s
    t.events = s.events ++ [.start a.wp.data, .stop, .start b.wp.data, .stop, .start c.wp.data, .stop] ∧
    t.sched.mode = .idle ∧ t.sched.fifo = [{ a with processedOnce := true }, { b with processedOnce := true },
      { c with processedOnce := true }]

/-! ## Capture and inject -/

/-- R400, R401, R402: X.FROM_RAW returns the raw bytes as a WireParam of duration 0. The flags index is the offset of the
first element of type 0x01 that the walk of R401 meets, the data index that of the first element with the AD type of some
registered codec, and each is 0xFF exactly when the walk meets none. That an aggregate's AD type counts is the model's
reading (log 13). -/
def Obligations.FromRawResult : Prop :=
  ∀ (r : Fields) (s : State), (Instr.xFromRaw r).WellFormed → ∃ fi di : Byte,
    exec (.xFromRaw r) s = .next (s.answer ⟨.ok, 0, writeWp ⟨r.payload, fi, di, 0⟩⟩) ∧
    FirstMet r.payload (fun t => t = 0x01) fi ∧ (fi = 0xFF → ∀ i, ¬ Meets r.payload (fun t => t = 0x01) i) ∧
    FirstMet r.payload (fun t => ∃ v ∈ Config.build.registry, v.ad.adType = t) di ∧
    (di = 0xFF → ∀ i, ¬ Meets r.payload (fun t => ∃ v ∈ Config.build.registry, v.ad.adType = t) i)

/-- R96, R98, R401, R402: the wrapping an encode puts around a payload, and the extraction of a payload from a
WireParam, which undoes it. And where no codec's AD type is the flags type 0x01, X.FROM_RAW of the bytes an encode put
into a packet finds the sub-field indices the encode set, so a captured packet decodes as the encoded one does. -/
def Obligations.CapturedPacketMatchesEncoded : Prop :=
  (∀ (a : AdWrap) (P : List Byte), P.length ≤ 29 → ∃ n : Byte, n.toNat = P.length + 1 ∧
    (a.flagsPresent = true → wrap a P = ⟨[0x02, 0x01, a.flagsValue, n, a.adType] ++ P, 0, 3, 0⟩) ∧
    (a.flagsPresent = false → wrap a P = ⟨[n, a.adType] ++ P, 0xFF, 0, 0⟩) ∧
    payloadOf (wrap a P) = some (P, some a.adType)) ∧
  (∀ w : WireParam, (w.dataIdx = 0xFF → payloadOf w = some (w.data, none)) ∧
    (w.dataIdx ≠ 0xFF → let i := w.dataIdx.toNat
      let n := (byteAt w.data i).toNat
      (w.data.length ≤ i + 1 ∨ n = 0 ∨ w.data.length < i + 1 + n → payloadOf w = none) ∧
      (i + 1 < w.data.length → n ≠ 0 → i + 1 + n ≤ w.data.length →
        payloadOf w = some (slice w.data (i + 2) (i + 1 + n), some (byteAt w.data (i + 1)))))) ∧
  ∀ C : Config, C.Lawful → (∀ v ∈ C.registry, v.ad.adType ≠ 0x01) → ∀ v ∈ C.registry, codecAgg v = false →
    ∀ (rc : RealCommand) (id : U32) (index tx : Byte) (x : U16) (s : State),
    let w := wrap v.ad (encPayload C v rc id index tx x)
    execUnder C (.xFromRaw ⟨0, BitVec.ofNat 16 w.data.length, 0, w.data⟩) s = .next (s.answer ⟨.ok, 0, writeWp w⟩)

/-- R403: X.INJECT_HEX never fails on a text the request can carry: it answers OK with a well-formed WireParam of
duration 0 and the indices that SCAN finds in its bytes. What the bytes are: the text is leading spaces, at most one mark
`0x` or `0X`, hex digits of either case with `.` and space between them, whatever begins at the first other byte, and
perhaps a comment from the last `(` to a `)` that ends the text but for spaces; the first 62 digits make the bytes, two a
byte, the low nibble of an odd last one 0. And a byte string written as hex text gives itself. R400, R401: SCAN's data
types are the AD types of every registered codec, the aggregates among them, which is the model's reading (log 13). -/
def Obligations.InjectHexResult : Prop :=
  (∀ (r : Fields) (s : State), (Instr.xInjectHex r).WellFormed → ∃ w, WireOk w ∧ w.duration = 0 ∧
    Scanned Config.build w ∧ exec (.xInjectHex r) s = .next (s.answer ⟨.ok, 0, writeWp w⟩)) ∧
  (∀ (m n : Nat) (mark digits ns rest comment text : List Byte) (s : State),
    (mark = [] ∨ mark = [0x30, 0x78] ∨ mark = [0x30, 0x58]) → Spells digits ns →
    (∀ c l, rest = c :: l → (∀ x, ¬ HexDigit c x) ∧ c ≠ 0x2E ∧ c ≠ 0x20) →
    (mark = [] → ∀ l, digits.dropWhile (· == 0x20) = [0x30] → rest ≠ 0x78 :: l ∧ rest ≠ 0x58 :: l) →
    (comment = [] ∨ ∃ c, (∀ x ∈ c, x ≠ 0x28) ∧ comment = [0x28] ++ c ++ [0x29]) →
    (comment = [] → ∀ l k, rest = l ++ 0x29 :: List.replicate k 0x20 → 0x28 ∉ l) →
    text = List.replicate m 0x20 ++ mark ++ digits ++ rest ++ comment ++ List.replicate n 0x20 → text.length < 65536 →
    ∃ w, Scanned Config.build w ∧ w.duration = 0 ∧ w.data.length = (min ns.length 62 + 1) / 2 ∧
      (∀ i, i < w.data.length → byteAt w.data i = (byteAt ns (2 * i) <<< 4) ||| byteAt ns (2 * i + 1)) ∧
      exec (.xInjectHex ⟨0, BitVec.ofNat 16 text.length, 0, text⟩) s = .next (s.answer ⟨.ok, 0, writeWp w⟩)) ∧
  (∀ (b start comment text : List Byte) (s : State), b.length ≤ 31 →
    (start = [] ∨ start = [0x30, 0x78] ∨ start = [0x30, 0x58]) →
    (comment = [] ∨ ∃ c, (∀ x ∈ c, x ≠ 0x28) ∧ comment = [0x20, 0x28] ++ c ++ [0x29]) →
    text = start ++ hexText b ++ comment → text.length < 65536 → ∃ w, w.data = b ∧
    exec (.xInjectHex ⟨0, BitVec.ofNat 16 text.length, 0, text⟩) s = .next (s.answer ⟨.ok, 0, writeWp w⟩))

/-- R404, R405: X.CAPTURE drops the expired entries; a live repeat answers DUPLICATE and is not refreshed; any other
packet is recorded with the expiry `now + 1000 * SEL`, the oldest entry making room in a full list, and is answered as
G.IDENTIFY answers the WireParam of its bytes. That a packet answered UNIDENTIFIED is recorded is the model's choice, by
R405 against R434 (log 14), and so is that no seed is drawn, by R310 and R312 against the words of R68 (log 15). -/
def Obligations.CaptureResult : Prop :=
  ∀ (r : Fields) (s : State), (Instr.xCapture r).WellFormed →
    let live := s.dedup.filter fun e => decide (r.imm.toNat < e.expiry.toNat)
    ((∃ e ∈ live, e.bytes = r.payload) →
      exec (.xCapture r) s = .next (State.answer { s with dedup := live } ⟨.duplicate, 0, []⟩)) ∧
    ((∀ e ∈ live, e.bytes ≠ r.payload) → ∃ rsp fi di,
      exec (.xCapture r) s = .next (State.answer { s with dedup :=
        (if live.length = Config.build.dedupCap then live.tail else live) ++
          [⟨r.payload, BitVec.ofNat 32 (r.imm.toNat + 1000 * r.sel.toNat)⟩] } rsp) ∧
      exec (.xFromRaw ⟨0, r.len, 0, r.payload⟩) s = .next (s.answer ⟨.ok, 0, writeWp ⟨r.payload, fi, di, 0⟩⟩) ∧
      exec (.gIdentify ⟨0, 36, 0, writeWp ⟨r.payload, fi, di, 0⟩⟩) s = .next (s.answer rsp))

/-- R405: after an X.CAPTURE that was processed, the same bytes captured before its expiry are a DUPLICATE. Where the first
capture was answered UNIDENTIFIED that is the model's choice, by R405 against R434 (log 14). -/
def Obligations.RepeatedCaptureIsDuplicate : Prop :=
  ∀ (r : Fields) (s t : State) (now : U32), (Instr.xCapture r).WellFormed →
    (∀ e ∈ s.dedup, e.bytes ≠ r.payload) → exec (.xCapture r) s = .next t →
    r.imm.toNat + 1000 * r.sel.toNat < 2 ^ 32 → now.toNat < r.imm.toNat + 1000 * r.sel.toNat →
    ∃ u : State, exec (.xCapture { r with imm := now }) t = .next (u.answer ⟨.duplicate, 0, []⟩)
end

