-- ==== Sys2Proof/Laws/Bytes.lean ====
section
/-! SUPPORT. Byte strings: indexing, slices, byte orders, and the XOR with a keystream. -/

namespace Sys2Proof.Laws

open Sys2Proof.Machine

theorem byteAt_eq_getElem {b : List Byte} {i : Nat} (h : i < b.length) : byteAt b i = b[i] := by
  simp [byteAt, h]

/-- Two byte strings of one length with the same bytes are equal. -/
theorem ext_byteAt {a b : List Byte} (hl : a.length = b.length) (h : ∀ i, i < a.length → byteAt a i = byteAt b i) :
    a = b := by
  apply List.ext_getElem hl
  intro i h1 h2
  have := h i h1
  rwa [byteAt_eq_getElem h1, byteAt_eq_getElem h2] at this

@[simp] theorem byteAt_cons_zero (x : Byte) (b : List Byte) : byteAt (x :: b) 0 = x := rfl
@[simp] theorem byteAt_cons_succ (x : Byte) (b : List Byte) (i : Nat) : byteAt (x :: b) (i + 1) = byteAt b i := rfl

theorem byteAt_append_left {a : List Byte} (b : List Byte) {i : Nat} (h : i < a.length) :
    byteAt (a ++ b) i = byteAt a i := by
  simp [byteAt, List.getElem?_append_left h]

theorem byteAt_append_right {a : List Byte} (b : List Byte) {i : Nat} (h : a.length ≤ i) :
    byteAt (a ++ b) i = byteAt b (i - a.length) := by
  simp [byteAt, List.getElem?_append_right h]

/-! ## The keystream -/

@[simp] theorem xorStream_length (ks : Nat → Byte) (b : List Byte) (i : Nat) : (xorStream ks i b).length = b.length := by
  induction b generalizing i with
  | nil => rfl
  | cons x xs ih => simp [xorStream, ih]

/-- Byte `n` of the result is byte `n` of the buffer XORed with its keystream byte. -/
theorem xorStream_byteAt (ks : Nat → Byte) (b : List Byte) (i n : Nat) (h : n < b.length) :
    byteAt (xorStream ks i b) n = byteAt b n ^^^ ks (i + n) := by
  induction b generalizing i n with
  | nil => simp at h
  | cons x xs ih =>
    cases n with
    | zero => rfl
    | succ n =>
      simp only [xorStream, byteAt_cons_succ]
      rw [ih (i + 1) n (by simpa using h)]
      congr 2
      omega

/-- XORing twice with one keystream gives the buffer back (R130, R133). -/
@[simp] theorem xorStream_xorStream (ks : Nat → Byte) (b : List Byte) (i : Nat) :
    xorStream ks i (xorStream ks i b) = b := by
  induction b generalizing i with
  | nil => rfl
  | cons x xs ih => simp [xorStream, ih]

/-- Two keystreams may be applied in either order (R133, R265, R283). -/
theorem xorStream_comm (ks ks' : Nat → Byte) (b : List Byte) (i : Nat) :
    xorStream ks i (xorStream ks' i b) = xorStream ks' i (xorStream ks i b) := by
  induction b generalizing i with
  | nil => rfl
  | cons x xs ih =>
    simp only [xorStream, ih, List.cons.injEq, and_true]
    rw [BitVec.xor_assoc, BitVec.xor_comm (ks' i), ← BitVec.xor_assoc]

@[simp] theorem whitenLfsr_length (C : Config) (b : List Byte) (s : Byte) : (whitenLfsr C b s).length = b.length :=
  xorStream_length _ _ _
@[simp] theorem whitenLfsr_whitenLfsr (C : Config) (b : List Byte) (s : Byte) :
    whitenLfsr C (whitenLfsr C b s) s = b := xorStream_xorStream _ _ _
@[simp] theorem whitenTable_length (C : Config) (b : List Byte) (s : U16) (t : Byte) :
    (whitenTable C b s t).length = b.length := xorStream_length _ _ _
@[simp] theorem whitenTable_whitenTable (C : Config) (b : List Byte) (s : U16) (t : Byte) :
    whitenTable C (whitenTable C b s t) s t = b := xorStream_xorStream _ _ _

/-! ## Slices -/

theorem slice_length (b : List Byte) (i j : Nat) (h : j ≤ b.length) : (slice b i j).length = j - i := by
  simp [slice]; omega

theorem slice_byteAt (b : List Byte) (i j n : Nat) (h : n < j - i) : byteAt (slice b i j) n = byteAt b (i + n) := by
  simp [byteAt, slice, h]

theorem splice_length (b r : List Byte) (i j : Nat) (hij : i ≤ j) (hj : j ≤ b.length) (hr : r.length = j - i) :
    (splice b i j r).length = b.length := by
  simp [splice]; omega

/-- Reading back what was spliced in. -/
theorem slice_splice (b r : List Byte) (i j : Nat) (hij : i ≤ j) (hj : j ≤ b.length) (hr : r.length = j - i) :
    slice (splice b i j r) i j = r := by
  have hi : i ≤ b.length := le_trans hij hj
  simp [slice, splice, hi, hr]

/-- Bytes outside the spliced range stay. -/
theorem splice_byteAt (b r : List Byte) (i j n : Nat) (hij : i ≤ j) (hj : j ≤ b.length) (hr : r.length = j - i)
    (h : n < i ∨ j ≤ n) : byteAt (splice b i j r) n = byteAt b n := by
  have hi : i ≤ b.length := le_trans hij hj
  unfold splice
  rcases h with h | h
  · rw [List.append_assoc, byteAt_append_left _ (by simp; omega)]
    simp [byteAt, h]
  · rw [byteAt_append_right _ (by simp; omega)]
    simp [byteAt, hr]
    congr 2
    omega

/-- Splicing twice keeps the last. -/
theorem splice_splice (b r r' : List Byte) (i j : Nat) (hij : i ≤ j) (hj : j ≤ b.length) (hr : r.length = j - i) :
    splice (splice b i j r) i j r' = splice b i j r' := by
  have hi : i ≤ b.length := le_trans hij hj
  have h1 : (splice b i j r).take i = b.take i := by simp [splice, hi]
  have h2 : (splice b i j r).drop j = b.drop j := by
    unfold splice
    rw [List.drop_append_of_le_length (by simp; omega), List.drop_of_length_le (by simp; omega), List.nil_append]
  unfold splice at *
  rw [h1, h2]

/-- Splicing in what stands there changes nothing. -/
theorem splice_self (b : List Byte) (i j : Nat) (hij : i ≤ j) : splice b i j (slice b i j) = b := by
  have h : b.drop j = (b.drop i).drop (j - i) := by simp [List.drop_drop]; congr 1; omega
  simp only [splice, slice, h, List.append_assoc, List.take_append_drop]

/-! ## Byte orders -/

@[simp] theorem le16_length (v : U16) : (le16 v).length = 2 := rfl
@[simp] theorem le32_length (v : U32) : (le32 v).length = 4 := rfl

/-- The two bytes of a u16 put together again. -/
theorem extract16 (v : U16) : v.extractLsb' 8 8 ++ v.extractLsb' 0 8 = v := by
  apply BitVec.eq_of_getLsbD_eq
  intro i hi
  simp only [BitVec.getLsbD_append, BitVec.getLsbD_extractLsb']
  split
  · rename_i h; simp [h]
  · rw [show decide (i - 8 < 8) = true by simp; omega, Bool.true_and, show 8 + (i - 8) = i by omega]

/-- The four bytes of a u32 put together again. -/
theorem extract32 (v : U32) :
    v.extractLsb' 24 8 ++ v.extractLsb' 16 8 ++ v.extractLsb' 8 8 ++ v.extractLsb' 0 8 = v := by
  apply BitVec.eq_of_getLsbD_eq
  intro i hi
  simp only [BitVec.getLsbD_append, BitVec.getLsbD_extractLsb']
  split
  · rename_i h; simp [h]
  split
  · rw [show decide (i - 8 < 8) = true by simp; omega, Bool.true_and, show 8 + (i - 8) = i by omega]
  split
  · rw [show decide (i - 8 - 8 < 8) = true by simp; omega, Bool.true_and, show 16 + (i - 8 - 8) = i by omega]
  · rw [show decide (i - 8 - 8 - 8 < 8) = true by simp; omega, Bool.true_and,
      show 24 + (i - 8 - 8 - 8) = i by omega]

/-- `le16` read back, wherever it stands (R9). -/
@[simp] theorem rd16le_le16 (v : U16) (b : List Byte) : rd16le (le16 v ++ b) 0 = v := extract16 v

/-- `le32` read back, wherever it stands (R9). -/
@[simp] theorem rd32le_le32 (v : U32) (b : List Byte) : rd32le (le32 v ++ b) 0 = v := extract32 v

/-- Reading after a prefix is reading what follows it. -/
theorem rd16le_append (a b : List Byte) (i : Nat) (h : a.length ≤ i) :
    rd16le (a ++ b) i = rd16le b (i - a.length) := by
  unfold rd16le
  rw [byteAt_append_right _ (by omega), byteAt_append_right _ h]
  congr 2; omega

theorem rd32le_append (a b : List Byte) (i : Nat) (h : a.length ≤ i) :
    rd32le (a ++ b) i = rd32le b (i - a.length) := by
  unfold rd32le
  rw [byteAt_append_right _ (by omega), byteAt_append_right _ (by omega), byteAt_append_right _ (by omega),
    byteAt_append_right _ h, show i + 3 - a.length = i - a.length + 3 by omega,
    show i + 2 - a.length = i - a.length + 2 by omega, show i + 1 - a.length = i - a.length + 1 by omega]

/-! ## Wire fields: the byte order is the family's (R65) -/

@[simp] theorem wire16_length (C : Config) (f : LayoutFamily) (v : U16) : (wire16 C f v).length = 2 := by
  unfold wire16
  split <;> rfl

@[simp] theorem wire32_length (C : Config) (f : LayoutFamily) (v : U32) : (wire32 C f v).length = 4 := by
  unfold wire32
  split <;> rfl

/-- A 16-bit wire field reads back, wherever it stands, whatever the byte order. -/
theorem rdWire16_of_slice (C : Config) (f : LayoutFamily) (b : List Byte) (i : Nat) (v : U16)
    (h : slice b i (i + 2) = wire16 C f v) : rdWire16 C f b i = v := by
  unfold rdWire16 wire16 at *
  cases hC : C.wireOrder f <;> simp only [hC] at h ⊢
  · have h0 := slice_byteAt b i (i + 2) 0 (by omega)
    have h1 := slice_byteAt b i (i + 2) 1 (by omega)
    rw [h] at h0 h1
    unfold rd16le
    rw [← h1, show byteAt b i = byteAt b (i + 0) from rfl, ← h0]
    exact extract16 v
  · rw [h, List.reverse_reverse]
    exact extract16 v

/-- A 32-bit wire field reads back, wherever it stands, whatever the byte order. -/
theorem rdWire32_of_slice (C : Config) (f : LayoutFamily) (b : List Byte) (i : Nat) (v : U32)
    (h : slice b i (i + 4) = wire32 C f v) : rdWire32 C f b i = v := by
  unfold rdWire32 wire32 at *
  cases hC : C.wireOrder f <;> simp only [hC] at h ⊢
  · have h0 := slice_byteAt b i (i + 4) 0 (by omega)
    have h1 := slice_byteAt b i (i + 4) 1 (by omega)
    have h2 := slice_byteAt b i (i + 4) 2 (by omega)
    have h3 := slice_byteAt b i (i + 4) 3 (by omega)
    rw [h] at h0 h1 h2 h3
    unfold rd32le
    rw [← h1, ← h2, ← h3, show byteAt b i = byteAt b (i + 0) from rfl, ← h0]
    exact extract32 v
  · rw [h, List.reverse_reverse]
    exact extract32 v

/-- The slice after a prefix of known length. -/
theorem slice_append_mid (a b c : List Byte) {i j : Nat} (hi : i = a.length) (hj : j = i + b.length) :
    slice (a ++ (b ++ c)) i j = b := by
  subst hi hj
  simp [slice]

end Sys2Proof.Laws
end

