-- ==== Sys2Proof/Laws/State.lean ====
section
/-! SUPPORT. One lemma per field of the state for each update: giving a response, writing a controller, presenting a
request. -/

namespace Sys2Proof.Laws

open Sys2Proof.Machine

@[simp] theorem answer_ctl (s : State) (r : Response) : (s.answer r).ctl = s.ctl := rfl
@[simp] theorem answer_sched (s : State) (r : Response) : (s.answer r).sched = s.sched := rfl
@[simp] theorem answer_dedup (s : State) (r : Response) : (s.answer r).dedup = s.dedup := rfl
@[simp] theorem answer_seeds (s : State) (r : Response) : (s.answer r).seeds = s.seeds := rfl
@[simp] theorem answer_port (s : State) (r : Response) : (s.answer r).port = s.port := rfl
@[simp] theorem answer_events (s : State) (r : Response) : (s.answer r).events = s.events := rfl
@[simp] theorem answer_responses (s : State) (r : Response) : (s.answer r).responses = s.responses ++ [r] := rfl

/-- Raising a status is answering with it, `RES` 0 and `OUT` empty (R431, R432). -/
theorem raise_eq (s : State) (st : Status) : s.raise st = s.answer ⟨st, 0, []⟩ := rfl

@[simp] theorem setController_ctl (s : State) (c : Byte) (k : Controller) :
    (s.setController c k).ctl = s.ctl.set c.toNat k := rfl
@[simp] theorem setController_sched (s : State) (c : Byte) (k : Controller) :
    (s.setController c k).sched = s.sched := rfl
@[simp] theorem setController_dedup (s : State) (c : Byte) (k : Controller) :
    (s.setController c k).dedup = s.dedup := rfl
@[simp] theorem setController_seeds (s : State) (c : Byte) (k : Controller) :
    (s.setController c k).seeds = s.seeds := rfl
@[simp] theorem setController_port (s : State) (c : Byte) (k : Controller) : (s.setController c k).port = s.port := rfl
@[simp] theorem setController_events (s : State) (c : Byte) (k : Controller) :
    (s.setController c k).events = s.events := rfl
@[simp] theorem setController_responses (s : State) (c : Byte) (k : Controller) :
    (s.setController c k).responses = s.responses := rfl

@[simp] theorem present_ctl (s : State) (q : Request) : (present s q).ctl = s.ctl := rfl
@[simp] theorem present_sched (s : State) (q : Request) : (present s q).sched = s.sched := rfl
@[simp] theorem present_dedup (s : State) (q : Request) : (present s q).dedup = s.dedup := rfl
@[simp] theorem present_seeds (s : State) (q : Request) : (present s q).seeds = s.seeds := rfl
@[simp] theorem present_port (s : State) (q : Request) : (present s q).port = q :: s.port := rfl
@[simp] theorem present_events (s : State) (q : Request) : (present s q).events = s.events := rfl
@[simp] theorem present_responses (s : State) (q : Request) : (present s q).responses = s.responses := rfl

@[simp] theorem reset_sched : State.reset.sched = resetScheduler := rfl
@[simp] theorem reset_dedup : State.reset.dedup = [] := rfl
@[simp] theorem reset_port : State.reset.port = [] := rfl
@[simp] theorem reset_events : State.reset.events = [] := rfl
@[simp] theorem reset_responses : State.reset.responses = [] := rfl
@[simp] theorem reset_ctl_length : State.reset.ctl.length = Config.build.nCtrl := by simp [State.reset, resetState]

end Sys2Proof.Laws
end

