-- ==== Sys2Proof/Laws/Ops.lean ====
section
/-! SUPPORT. What each shared operation can do, said once: the checks of a request, the response, the request port, the
seed source, the controller and codec reads, the batch operations and the tick. -/

namespace Sys2Proof.Laws

open Sys2Proof.Machine

/-! ## The checks and the response -/

/-- A check passes exactly when its condition holds. -/
theorem require_ok {p : Prop} [Decidable p] (st : Status) (h : p) : require p st = .ok () := if_pos h

/-- A failed check raises its status. -/
theorem require_error {p : Prop} [Decidable p] (st : Status) (h : ¬ p) : require p st = .error st := if_neg h

@[simp] theorem orRaise_some {α : Type} (a : α) (st : Status) : orRaise (some a) st = .ok a := rfl
@[simp] theorem orRaise_none {α : Type} (st : Status) : orRaise (none : Option α) st = .error st := rfl

/-- What `orRaise` can answer. -/
theorem orRaise_eq_ok {α : Type} {o : Option α} {st : Status} {a : α} : orRaise o st = .ok a ↔ o = some a := by
  cases o <;> simp [orRaise]

@[simp] theorem ok_bind {α β : Type} (a : α) (f : α → Except Status β) : (Except.ok a >>= f) = f a := rfl
@[simp] theorem error_bind {α β : Type} (e : Status) (f : α → Except Status β) :
    ((Except.error e : Except Status α) >>= f) = .error e := rfl

/-- A sequence of checks ends well exactly when each does. -/
theorem bind_eq_ok {α β : Type} {x : Except Status α} {f : α → Except Status β} {b : β} :
    (x >>= f) = .ok b ↔ ∃ a, x = .ok a ∧ f a = .ok b := by
  cases x <;> simp

/-- A well-formed request passes checks 2 and 3 of R83. -/
theorem checkRequest_ok {i : Instr} (h : i.WellFormed) : checkRequest i = .ok () := if_pos h

/-- Any other request raises ILLEGAL. -/
theorem checkRequest_error {i : Instr} (h : ¬ i.WellFormed) : checkRequest i = .error .illegal := if_neg h

/-- What the check of a request can answer. -/
theorem checkRequest_eq_ok {i : Instr} {u : Unit} : checkRequest i = .ok u ↔ i.WellFormed := by
  constructor
  · intro h
    by_contra hn
    rw [checkRequest_error hn] at h
    cases h
  · exact checkRequest_ok

@[simp] theorem conclude_error (s : State) (st : Status) : conclude s (.error st) = s.answer ⟨st, 0, []⟩ := rfl
@[simp] theorem conclude_ok (s : State) (rep : Reply) :
    conclude s (.ok rep) = rep.state.answer ⟨rep.status, rep.res, rep.out⟩ := rfl

/-- A request always gives a next state (R81, R436). -/
theorem perform_eq (s : State) (x : Except Status Reply) : perform s x = .next (conclude s x) := rfl

/-! ## The request port, the seed source, controllers and codecs -/

theorem fetch_nil {s : State} (h : s.port = []) : fetch s = none := by simp [fetch, h]

theorem fetch_cons {s : State} {q : Request} {rest : List Request} (h : s.port = q :: rest) :
    fetch s = some (q, { s with port := rest }) := by simp [fetch, h]

/-- A draw takes the first given seed, or a free value, and moves on by one. -/
theorem draw_eq (d : SeedSource) : d.draw = (d.drawAt 0, d.skip 1) := by
  obtain ⟨g, n⟩ := d
  cases g <;> rfl

@[simp] theorem skip_zero (d : SeedSource) : d.skip 0 = d := rfl

@[simp] theorem skip_skip (d : SeedSource) (m n : Nat) : (d.skip m).skip n = d.skip (m + n) := by
  simp [SeedSource.skip, List.drop_drop, Nat.add_assoc]

@[simp] theorem skip_drawAt (d : SeedSource) (m n : Nat) : (d.skip m).drawAt n = d.drawAt (m + n) := by
  simp [SeedSource.skip, SeedSource.drawAt, Nat.add_assoc]

theorem controllerAt_some {s : State} {c : Byte} {k : Controller} (h : s.ctl[c.toNat]? = some k) :
    controllerAt s c = .ok k := by simp [controllerAt, h]

theorem controllerAt_none {s : State} {c : Byte} (h : s.ctl.length ≤ c.toNat) : controllerAt s c = .error .range := by
  simp [controllerAt, List.getElem?_eq_none h]

/-- What reading a controller can answer. -/
theorem controllerAt_eq_ok {s : State} {c : Byte} {k : Controller} :
    controllerAt s c = .ok k ↔ s.ctl[c.toNat]? = some k := orRaise_eq_ok

theorem codecAt_some {C : Config} {c : Byte} {v : Codec} (h : C.registry[c.toNat]? = some v) :
    codecAt C c = .ok v := by simp [codecAt, h]

theorem codecAt_none {C : Config} {c : Byte} (h : C.registry.length ≤ c.toNat) : codecAt C c = .error .range := by
  simp [codecAt, List.getElem?_eq_none h]

/-- What reading a codec can answer. -/
theorem codecAt_eq_ok {C : Config} {c : Byte} {v : Codec} : codecAt C c = .ok v ↔ C.registry[c.toNat]? = some v :=
  orRaise_eq_ok

/-! ## Batches -/

/-- The next token is never 0 (R32, R370). -/
theorem tokenAfter_ne_zero (t : U32) : tokenAfter t ≠ 0 := by
  unfold tokenAfter
  split
  · decide
  · intro h
    apply ‹¬ t = 0xFFFFFFFF›
    rw [← BitVec.add_sub_cancel t 1, h]
    rfl

@[simp] theorem addBatch_mode (d : Scheduler) (ws : List WireParam) : (addBatch d ws).mode = d.mode := rfl
@[simp] theorem addBatch_curToken (d : Scheduler) (ws : List WireParam) : (addBatch d ws).curToken = d.curToken := rfl
@[simp] theorem addBatch_deadline (d : Scheduler) (ws : List WireParam) : (addBatch d ws).deadline = d.deadline := rfl
@[simp] theorem addBatch_nextToken (d : Scheduler) (ws : List WireParam) :
    (addBatch d ws).nextToken = tokenAfter d.nextToken := rfl
@[simp] theorem addBatch_fifo (d : Scheduler) (ws : List WireParam) :
    (addBatch d ws).fifo = d.fifo ++ ws.map (pendingOf d.nextToken) := rfl

@[simp] theorem removeBatch_mode (d : Scheduler) (t : U32) : (removeBatch d t).mode = d.mode := rfl
@[simp] theorem removeBatch_curToken (d : Scheduler) (t : U32) : (removeBatch d t).curToken = d.curToken := rfl
@[simp] theorem removeBatch_deadline (d : Scheduler) (t : U32) : (removeBatch d t).deadline = d.deadline := rfl
@[simp] theorem removeBatch_nextToken (d : Scheduler) (t : U32) : (removeBatch d t).nextToken = d.nextToken := rfl
@[simp] theorem removeBatch_fifo (d : Scheduler) (t : U32) :
    (removeBatch d t).fifo = d.fifo.map (markRemoved t) := rfl

@[simp] theorem markRemoved_wp (t : U32) (e : Pending) : (markRemoved t e).wp = e.wp := by
  unfold markRemoved; split <;> rfl
@[simp] theorem markRemoved_token (t : U32) (e : Pending) : (markRemoved t e).token = e.token := by
  unfold markRemoved; split <;> rfl
@[simp] theorem markRemoved_processedOnce (t : U32) (e : Pending) :
    (markRemoved t e).processedOnce = e.processedOnce := by
  unfold markRemoved; split <;> rfl
@[simp] theorem markRemoved_toBeRemoved (t : U32) (e : Pending) :
    (markRemoved t e).toBeRemoved = (e.toBeRemoved || decide (e.token = t)) := by
  unfold markRemoved; split <;> simp_all

/-- `supersede` is one `removeBatch` or nothing (R337). -/
theorem supersede_cases (k : Controller) (d : Scheduler) :
    (k.activeValid = true ∧ supersede k d = removeBatch d k.activeToken) ∨
    (k.activeValid = false ∧ supersede k d = d) := by
  unfold supersede
  cases h : k.activeValid <;> simp

/-! ## The tick -/

/-- Everything a tick can do (R375): with nothing left after the eviction it stops there; it starts the front entry; in
BROADCASTING it stops the front entry, or does nothing. -/
theorem tick_cases (now : U32) (d : Scheduler) :
    (d.mode = .idle ∧ (∀ e ∈ d.fifo, finished e = true) ∧ tick now d = ({ d with fifo := [] }, [])) ∨
    (∃ done e rest, d.mode = .idle ∧ d.fifo = done ++ e :: rest ∧ (∀ f ∈ done, finished f = true) ∧
      finished e = false ∧
      tick now d = ({ d with fifo := { e with processedOnce := true } :: rest, mode := .broadcasting,
                             curToken := e.token, deadline := now + e.wp.duration.setWidth 32 },
                    [.start e.wp.data])) ∨
    (∃ e rest, d.mode = .broadcasting ∧ d.fifo = e :: rest ∧ d.deadline < now ∧ (rest ≠ [] ∨ e.toBeRemoved = true) ∧
      tick now d = ({ d with mode := .idle, fifo := if e.toBeRemoved then rest else rest ++ [e] }, [.stop])) ∨
    (d.mode = .broadcasting ∧
      (∀ e rest, d.fifo = e :: rest → ¬ (d.deadline < now ∧ (rest ≠ [] ∨ e.toBeRemoved = true))) ∧
      tick now d = (d, [])) := by
  unfold tick
  split
  · rename_i hm
    unfold tickIdle
    split
    · rename_i hd
      refine .inl ⟨hm, ?_, rfl⟩
      simpa [List.dropWhile_eq_nil_iff] using hd
    · rename_i e rest hd
      refine .inr (.inl ⟨d.fifo.takeWhile finished, e, rest, hm, ?_, ?_, ?_, rfl⟩)
      · rw [← hd, List.takeWhile_append_dropWhile]
      · intro f hf
        exact List.mem_takeWhile_imp hf
      · have := List.head_dropWhile_not finished (l := d.fifo) (by simp [hd])
        simpa [hd] using this
  · rename_i hm
    unfold tickBroadcasting
    split
    · rename_i hf
      exact .inr (.inr (.inr ⟨hm, by simp [hf], rfl⟩))
    · rename_i e rest hf
      split
      · rename_i hc
        exact .inr (.inr (.inl ⟨e, rest, hm, hf, hc.1, hc.2, rfl⟩))
      · rename_i hc
        refine .inr (.inr (.inr ⟨hm, ?_, rfl⟩))
        intro e' rest' h
        rw [hf] at h
        cases h
        exact hc

end Sys2Proof.Laws
end

