-- ==== Sys2Proof/Laws/Encode.lean ====
section
/-! SUPPORT. What an encode gives, position by position (R166 to R172, R308), the lengths of the payloads and of the
wrapped packets (R96, R97, R173), and the address check on the source's pair packet (R285). -/

namespace Sys2Proof.Laws

open Sys2Proof.Machine

/-! ## Lengths of translations -/

/-- A concrete codec translates to at most `MAX_PKTS` RealCommands (R162, R163). -/
theorem subs_length_le {C : Config} (h : C.Lawful) {v : Codec} (hv : v ∈ C.registry) (ha : codecAgg v = false)
    (cmd : Command) (p : Params) : (subs v cmd p).length ≤ C.maxPkts := by
  have := h.maxPkts_pos
  unfold subs
  split_ifs
  · exact this
  · exact Nat.zero_le _
  · exact (h.codec_lawful v hv).translate_len ha cmd p

/-- So does an aggregate (R300 (e), R307). -/
theorem translation_length_le {C : Config} (h : C.Lawful) {v : Codec} (hv : v ∈ C.registry) (cmd : Command)
    (p : Params) : (translation C v cmd p).length ≤ C.maxPkts := by
  unfold translation concretes
  split_ifs with ha
  · obtain ⟨b, hb, hsum⟩ := h.aggregate_len v hv ha
    rw [List.length_flatMap]
    exact (List.sum_le_sum fun u hu => hb u hu cmd p).trans hsum
  · simpa using subs_length_le h hv (Bool.eq_false_iff.mpr ha) cmd p

/-! ## Ceilings and tx_count -/

/-- Every codec's ceiling is at least 1 and at most 256 (R7, R302). -/
theorem ceilOf_bounds {C : Config} (h : C.Lawful) (v : Codec) : 1 ≤ ceilOf C v ∧ ceilOf C v ≤ 256 := by
  unfold ceilOf
  split
  · exact ⟨h.ceil_pos _, h.ceil_le _⟩
  · split
    · exact ⟨h.emptyCeil_pos _, h.emptyCeil_le _⟩
    · rename_i lf rest _
      suffices H : ∀ (l : List LayoutFamily) (m : Nat), 1 ≤ m ∧ m ≤ 256 →
          1 ≤ l.foldl (fun m f => min m (C.ceil f)) m ∧ l.foldl (fun m f => min m (C.ceil f)) m ≤ 256 from
        H rest _ ⟨h.ceil_pos _, h.ceil_le _⟩
      intro l
      induction l with
      | nil => intro m hm; exact hm
      | cons f fs ih =>
        intro m hm
        apply ih
        have := h.ceil_pos f
        show 1 ≤ min m (C.ceil f) ∧ min m (C.ceil f) ≤ 256
        omega

theorem txAdvance_toNat (tx : Byte) (k : Nat) {n : Nat} (h : 1 ≤ n ∧ n ≤ 256) :
    (txAdvance tx k n).toNat = (tx.toNat + k) % n := by
  have : (tx.toNat + k) % n < n := Nat.mod_lt _ h.1
  rw [txAdvance, BitVec.toNat_ofNat, Nat.mod_eq_of_lt]
  omega

theorem txMod_toNat (tx : Byte) {n : Nat} (h : 1 ≤ n ∧ n ≤ 256) : (txMod tx n).toNat = tx.toNat % n := by
  have : tx.toNat % n < n := Nat.mod_lt _ h.1
  rw [txMod, BitVec.toNat_ofNat, Nat.mod_eq_of_lt]
  omega

/-- Advancing twice is advancing once by the sum (R170). -/
theorem txAdvance_txAdvance (tx : Byte) (j k : Nat) {n : Nat} (h : 1 ≤ n ∧ n ≤ 256) :
    txAdvance (txAdvance tx j n) k n = txAdvance tx (j + k) n := by
  simp only [txAdvance]
  rw [show (BitVec.ofNat 8 ((tx.toNat + j) % n)).toNat = (tx.toNat + j) % n from txAdvance_toNat tx j h,
    Nat.mod_add_mod, Nat.add_assoc]

/-- Reducing before advancing changes nothing (R171). -/
theorem txAdvance_txMod (tx : Byte) (k : Nat) {n : Nat} (h : 1 ≤ n ∧ n ≤ 256) :
    txAdvance (txMod tx n) k n = txAdvance tx k n := by
  simp only [txAdvance]
  rw [txMod_toNat tx h, Nat.mod_add_mod]

/-- An advanced tx_count is below the ceiling (R171). -/
theorem txAdvance_lt (tx : Byte) (k : Nat) {n : Nat} (h : 1 ≤ n ∧ n ≤ 256) : (txAdvance tx k n).toNat < n := by
  rw [txAdvance_toNat tx k h]
  exact Nat.mod_lt _ h.1

/-! ## The packets of an encode -/

/-- The seed of the next packet, and the seed source after it (R168). -/
theorem packetSeed_eq (v : Codec) (p : Params) (d : SeedSource) :
    packetSeed v p d = (seedAt v p d 0, if drawsSeeds v p then d.skip 1 else d) := by
  unfold packetSeed seedAt drawsSeeds
  by_cases hc : carriesSeed v = true <;> by_cases hs : p.seed = 0#16 <;> simp [hc, hs, draw_eq]

/-- What the loop of `ENCODE1` gives (R172). -/
theorem encodeEach_eq (C : Config) (v : Codec) (hc : 1 ≤ ceilOf C v ∧ ceilOf C v ≤ 256) (l : List RealCommand) :
    ∀ (p : Params) (d : SeedSource), l ≠ [] →
    encodeEach C v p d l = ({ p with tx := txAdvance p.tx l.length (ceilOf C v) }, l.mapIdx (packetAt C v p d),
      if drawsSeeds v p then d.skip l.length else d) := by
  induction l with
  | nil => intro p d h; exact absurd rfl h
  | cons rc rest ih =>
    intro p d _
    simp only [encodeEach, packetSeed_eq]
    by_cases hr : rest = []
    · subst hr
      simp [encodeEach, packetAt]
    · rw [ih _ _ hr]
      simp only [List.mapIdx_cons, List.length_cons]
      refine Prod.ext ?_ (Prod.ext ?_ ?_)
      · simp only [txAdvance_txAdvance _ _ _ hc, Nat.add_comm 1]
      · simp only [List.cons.injEq]
        refine ⟨rfl, ?_⟩
        congr 1
        funext k x
        simp only [packetAt, txAdvance_txAdvance _ _ _ hc]
        have hs : seedAt v { p with tx := txAdvance p.tx 1 (ceilOf C v) } (if drawsSeeds v p then d.skip 1 else d) k =
            seedAt v p d (k + 1) := by
          unfold seedAt drawsSeeds
          by_cases h1 : carriesSeed v = true <;> by_cases h2 : p.seed = 0#16 <;> simp [h1, h2, Nat.add_comm 1]
        rw [hs, show 1 + (k + 1) = k + 1 + 1 by omega]
      · show (if drawsSeeds v p then (if drawsSeeds v p then d.skip 1 else d).skip rest.length
            else if drawsSeeds v p then d.skip 1 else d) = _
        cases drawsSeeds v p <;> simp [Nat.add_comm 1]

theorem encodeEach_tx (C : Config) (v : Codec) (hc : 1 ≤ ceilOf C v ∧ ceilOf C v ≤ 256) (p : Params) (d : SeedSource)
    (l : List RealCommand) :
    l.mapIdx (packetAt C v { p with tx := txMod p.tx (ceilOf C v) } d) = l.mapIdx (packetAt C v p d) := by
  congr 1
  funext k x
  simp only [packetAt, txAdvance_txMod _ _ hc]
  rfl

/-- What `ENCODE1` gives a Command that has a RealCommand (R172). -/
theorem encode1_eq (C : Config) (v : Codec) (hc : 1 ≤ ceilOf C v ∧ ceilOf C v ≤ 256) (cmd : Command) (p : Params)
    (d : SeedSource) (h : subs v cmd p ≠ []) :
    encode1 C v cmd p d = some ({ p with tx := txAdvance p.tx (subs v cmd p).length (ceilOf C v) },
      packetsOf C cmd p d v, seedsAfter cmd p d v) := by
  unfold encode1
  split
  · rename_i hl; exact absurd hl h
  · rename_i hl
    rw [encodeEach_eq C v hc _ _ _ h]
    simp only [txAdvance_txMod _ _ hc, encodeEach_tx C v hc, packetsOf, seedsAfter]
    rfl

theorem encode1_none (C : Config) (v : Codec) (cmd : Command) (p : Params) (d : SeedSource) (h : subs v cmd p = []) :
    encode1 C v cmd p d = none := by
  simp [encode1, h]

@[simp] theorem packetsOf_length (C : Config) (cmd : Command) (p : Params) (d : SeedSource) (v : Codec) :
    (packetsOf C cmd p d v).length = (subs v cmd p).length := by simp [packetsOf]

theorem packetsOf_nil (C : Config) (cmd : Command) (p : Params) (d : SeedSource) (v : Codec) (h : subs v cmd p = []) :
    packetsOf C cmd p d v = [] := by simp [packetsOf, h]

theorem seedsAfter_nil (cmd : Command) (p : Params) (d : SeedSource) (v : Codec) (h : subs v cmd p = []) :
    seedsAfter cmd p d v = d := by simp [seedsAfter, h]

/-- What the loop of `AGG_ENCODE` gives (R308). -/
theorem encodeMembers_eq (C : Config) (cmd : Command) (p : Params) (us : List Codec)
    (hc : ∀ u ∈ us, 1 ≤ ceilOf C u ∧ ceilOf C u ≤ 256) : ∀ d : SeedSource,
    encodeMembers C cmd p d us = (longestList cmd p us, memberPackets C cmd p d us, memberSeeds cmd p d us) := by
  induction us with
  | nil => intro d; rfl
  | cons u us ih =>
    intro d
    have ih := ih fun x hx => hc x (by simp [hx])
    by_cases h : subs u cmd p = []
    · simp only [encodeMembers, encode1_none C u cmd p d h, ih d, longestList, List.foldr_cons, h, memberPackets,
        memberSeeds, packetsOf_nil C cmd p d u h, seedsAfter_nil cmd p d u h, List.nil_append, List.length_nil,
        Nat.zero_max]
    · simp only [encodeMembers, encode1_eq C u (hc u (by simp)) cmd p d h, ih, longestList, List.foldr_cons,
        memberPackets, memberSeeds, packetsOf_length]

/-- Some member has a RealCommand exactly when the longest list is not empty. -/
theorem any_subs_iff (cmd : Command) (p : Params) (us : List Codec) :
    (us.any fun u => !(subs u cmd p).isEmpty) = true ↔ longestList cmd p us ≠ 0 := by
  induction us with
  | nil => simp [longestList]
  | cons u us ih =>
    simp only [List.any_cons, Bool.or_eq_true, ih, longestList, List.foldr_cons]
    have : (!(subs u cmd p).isEmpty) = true ↔ (subs u cmd p).length ≠ 0 := by simp
    rw [this]
    omega

/-- What `AGG_ENCODE` gives a Command some member supports (R308). -/
theorem aggEncode_eq (C : Config) (hC : C.Lawful) (v : Codec) (cmd : Command) (p : Params) (d : SeedSource)
    (h : longestList cmd p (members C (codecFam v)) ≠ 0) :
    aggEncode C v cmd p d = some
      ({ p with tx := txAdvance p.tx (longestList cmd p (members C (codecFam v))) (ceilOf C v) },
        memberPackets C cmd p d (members C (codecFam v)), memberSeeds cmd p d (members C (codecFam v))) := by
  unfold aggEncode
  simp only [(any_subs_iff cmd p _).mpr h, if_true, encodeMembers_eq C cmd p _ fun u _ => ceilOf_bounds hC u,
    txAdvance_txMod _ _ (ceilOf_bounds hC v)]

theorem aggEncode_none (C : Config) (v : Codec) (cmd : Command) (p : Params) (d : SeedSource)
    (h : longestList cmd p (members C (codecFam v)) = 0) : aggEncode C v cmd p d = none := by
  unfold aggEncode
  have : ¬ ((members C (codecFam v)).any fun u => !(subs u cmd p).isEmpty) = true := by
    rw [any_subs_iff]; simpa using h
  exact if_neg this

/-- The members' lists are all empty exactly when the longest is. -/
theorem flatMap_subs_nil (cmd : Command) (p : Params) (us : List Codec) :
    (us.flatMap fun u => subs u cmd p) = [] ↔ longestList cmd p us = 0 := by
  induction us with
  | nil => simp [longestList]
  | cons u us ih =>
    simp only [List.flatMap_cons, List.append_eq_nil_iff, ih, longestList, List.foldr_cons]
    rw [← List.length_eq_zero_iff]
    omega

/-- An encode is unsupported exactly when the translation is empty (R164, R167). -/
theorem encodeCmd_none_iff {C : Config} (hC : C.Lawful) (v : Codec) (cmd : Command) (p : Params) (d : SeedSource) :
    encodeCmd C v cmd p d = none ↔ translation C v cmd p = [] := by
  unfold encodeCmd translation concretes
  cases ha : codecAgg v
  · simp only [Bool.false_eq_true, if_false, List.flatMap_cons, List.flatMap_nil, List.append_nil]
    by_cases h : subs v cmd p = []
    · simp [encode1_none C v cmd p d h, h]
    · simp [encode1_eq C v (ceilOf_bounds hC v) cmd p d h, h]
  · simp only [if_true, flatMap_subs_nil]
    by_cases h : longestList cmd p (members C (codecFam v)) = 0
    · simp [aggEncode_none C v cmd p d h, h]
    · simp [aggEncode_eq C hC v cmd p d h, h]

/-- `isSupported` is whether the translation has an element (R164). -/
theorem isSupported_iff (C : Config) (v : Codec) (cmd : Command) (p : Params) :
    isSupported C v cmd p = true ↔ translation C v cmd p ≠ [] := by
  simp [isSupported, translation, List.flatMap_eq_nil_iff]

/-! ## Lengths -/

theorem argBytes_length (a : Args) : (argBytes a).length = 5 := rfl

theorem flv1Fields_length (C : Config) (u : Flv1Variant) (rc : RealCommand) (id : U32) (index tx : Byte) (s : U16) :
    (flv1Fields C u rc id index tx s).length = 12 := by
  simp [flv1Fields, argBytes]

theorem flv1Clear_length (C : Config) (u : Flv1Variant) (rc : RealCommand) (id : U32) (index tx : Byte) (s : U16) :
    (flv1Clear C u rc id index tx s).length = flv1Plen u := by
  simp only [flv1Clear, flv1Crc2, List.length_append, flv1Fields_length, flv1Plen, flv1HeadLen, wire16_length]
  cases u.crc2 <;> simp

@[simp] theorem flv1Reverse_length (C : Config) (b : List Byte) : (flv1Reverse C b).length = b.length := by
  unfold flv1Reverse
  split <;> simp [reverseBytes, reverseBitsAll]

theorem encFlv1_length (C : Config) (u : Flv1Variant) (hu : u.Lawful) (rc : RealCommand) (id : U32) (index tx : Byte)
    (s : U16) : (encFlv1 C u rc id index tx s).length = flv1Plen u := by
  have hl := flv1Clear_length C u rc id index tx s
  have hr := hu.region
  unfold encFlv1
  rw [splice_length _ _ _ _ (by omega) (by omega)]
  · exact hl
  · rw [whitenLfsr_length, flv1Reverse_length, slice_length _ _ _ (by omega)]

theorem flv2Prefix_length {C : Config} (hC : C.Lawful) (signed : Bool) : (flv2Prefix C signed).length = 5 := by
  unfold flv2Prefix
  cases signed
  · rfl
  · exact hC.flv2PrefixS_len

theorem flv2Head_length {C : Config} (hC : C.Lawful) (signed : Bool) (rc : RealCommand) (id : U32) (index tx : Byte) :
    (flv2Head C signed rc id index tx).length = 19 := by
  simp [flv2Head, flv2Prefix_length hC, argBytes]

theorem flv2Whiten_length {C : Config} (hC : C.Lawful) (P : List Byte) (s : U16) (h : P.length = 25) :
    (flv2Whiten C P s).length = 25 := by
  have h1 := hC.wh_order
  have h2 := hC.wh_end
  unfold flv2Whiten
  rw [splice_length _ _ _ _ h1 (by omega), h]
  rw [whitenTable_length, slice_length _ _ _ (by omega)]

theorem encFlv2_length {C : Config} (hC : C.Lawful) (signed : Bool) (rc : RealCommand) (id : U32) (index tx : Byte)
    (s : U16) : (encFlv2 C signed rc id index tx s).length = 25 := by
  unfold encFlv2
  have h := flv2Whiten_length hC (flv2Head C signed rc id index tx ++
    wire16 C .flv2 (flv2Sign C signed (flv2Head C signed rc id index tx) s tx) ++ wire16 C .flv2 s ++
    wire16 C .flv2 0) s
    (by simp [flv2Head_length hC])
  rw [splice_length _ _ _ _ (by omega) (by omega)]
  · exact h
  · simp

theorem zjFields_wf {C : Config} (hC : C.Lawful) (rc : RealCommand) (id : U32) (index tx : Byte) :
    C.ZjWf (zjFields C rc id index tx) := by
  have h1 := hC.zj.args_le
  have h2 := hC.zj.uuid_le
  constructor
  · simp [zjFields, argBytes]; omega
  · simp [zjFields]; omega

theorem zj2Fields_wf {C : Config} (hC : C.Lawful) (rc : RealCommand) (index tx : Byte) :
    C.Zj2Wf (zj2Fields C rc index tx) := by
  have h1 := hC.zj.args_le
  constructor
  · simp [zj2Fields, argBytes]; omega
  · rfl

theorem zj0Addr_length {C : Config} (hC : C.Lawful) : (zj0Addr C).length = 3 := by
  simp [zj0Addr, reverseBitsAll, reverseBytes, hC.zj.mac_len]

theorem encZj0_length {C : Config} (hC : C.Lawful) (rc : RealCommand) (id : U32) (index tx : Byte) :
    (encZj0 C rc id index tx).length = 13 := by
  simp [encZj0, zj0Addr_length hC, hC.zj.mix0_len _ (zjFields_wf hC rc id index tx)]

theorem encZj1_length {C : Config} (hC : C.Lawful) (rc : RealCommand) (id : U32) (index tx : Byte) :
    (encZj1 C rc id index tx).length = 23 := by
  simp [encZj1, hC.zj.addr_len, hC.zj.mix1_len _ (zjFields_wf hC rc id index tx)]

theorem encZj2_length {C : Config} (hC : C.Lawful) (rc : RealCommand) (index tx : Byte) :
    (encZj2 C rc index tx).length = 23 := by
  have h : (C.mix2 (zj2Fields C rc index tx) ++ C.spare2).length = 23 := by
    simp [hC.zj.mix2_len _ (zj2Fields_wf hC rc index tx), hC.zj.spare_len]
  unfold encZj2
  rw [whitenTable_length, splice_length _ _ _ _ (by omega) (by omega)]
  · exact h
  · rw [whitenTable_length, slice_length _ _ _ (by omega)]

/-- A layout's payload has exactly the codec's length (R173). -/
theorem encPayload_length {C : Config} (hC : C.Lawful) {v : Codec} (hv : v ∈ C.registry) (ha : codecAgg v = false)
    (rc : RealCommand) (id : U32) (index tx : Byte) (s : U16) :
    (encPayload C v rc id index tx s).length = codecPlen v := by
  have hl := hC.codec_lawful v hv
  unfold encPayload codecPlen
  split
  · rename_i k u hk
    have hu := List.mem_of_getElem? (hl.flv1_entry k u hk).1
    rw [encFlv1_length C u (hC.flv1_lawful u hu)]
  · rename_i signed hk
    rw [encFlv2_length hC]
  · rw [encZj0_length hC]
  · rw [encZj1_length hC]
  · rw [encZj2_length hC]
  · rename_i f hk
    simp [codecAgg, hk] at ha

/-! ## The advertisement around a payload -/

/-- A wrapped payload that fits is within the bounds of a WireParam (R96, R97). -/
theorem wrap_wireOk (a : AdWrap) (P : List Byte) (h : P.length + 2 + (if a.flagsPresent then 3 else 0) ≤ 31)
    (dur : U16) : WireOk { wrap a P with duration := dur } := by
  unfold wrap
  split
  · rename_i hf
    rw [if_pos hf] at h
    refine ⟨?_, ?_, ?_⟩ <;> simp [indexOk]
    all_goals omega
  · rename_i hf
    rw [if_neg hf] at h
    refine ⟨?_, ?_, ?_⟩ <;> simp [indexOk]
    all_goals omega

/-- The payload of a wrapped packet is the payload that was wrapped (R96, R98). -/
theorem payloadOf_wrap (a : AdWrap) (P : List Byte) (h : P.length ≤ 31) (dur : U16) :
    payloadOf { wrap a P with duration := dur } = some (P, some a.adType) := by
  have hL : (BitVec.ofNat 8 (P.length + 1)).toNat = P.length + 1 := by
    rw [BitVec.toNat_ofNat, Nat.mod_eq_of_lt]; omega
  unfold wrap payloadOf
  split
  · have h1 : byteAt ([0x02, 0x01, a.flagsValue] ++ (BitVec.ofNat 8 (P.length + 1) :: a.adType :: P)) 3 =
        BitVec.ofNat 8 (P.length + 1) := rfl
    have h2 : slice ([0x02, 0x01, a.flagsValue] ++ (BitVec.ofNat 8 (P.length + 1) :: a.adType :: P)) (3 + 2)
        (3 + 1 + (P.length + 1)) = P := by
      rw [show 3 + 1 + (P.length + 1) = 5 + P.length by omega]
      simp [slice]
    have h3 : byteAt ([0x02, 0x01, a.flagsValue] ++ (BitVec.ofNat 8 (P.length + 1) :: a.adType :: P)) (3 + 1) =
        a.adType := rfl
    simp only [show ((3 : Byte) = 0xFF) = False by decide, if_false, show (3 : Byte).toNat = 3 from rfl, h1, hL, h2, h3]
    simp
    omega
  · have h1 : byteAt (BitVec.ofNat 8 (P.length + 1) :: a.adType :: P) 0 = BitVec.ofNat 8 (P.length + 1) := rfl
    have h2 : slice (BitVec.ofNat 8 (P.length + 1) :: a.adType :: P) (0 + 2) (0 + 1 + (P.length + 1)) = P := by
      rw [show 0 + 1 + (P.length + 1) = 2 + P.length by omega]
      simp [slice]
    have h3 : byteAt (BitVec.ofNat 8 (P.length + 1) :: a.adType :: P) (0 + 1) = a.adType := rfl
    simp only [show ((0 : Byte) = 0xFF) = False by decide, if_false, show (0 : Byte).toNat = 0 from rfl, h1, hL, h2, h3]
    simp
    omega

/-! ## The source's pair packet -/

/-- The slice of a prefix of known length. -/
theorem slice_prefix (a b : List Byte) {n : Nat} (h : a.length = n) : slice (a ++ b) 0 n = a := by
  subst h
  simp [slice]

/-- Whitening is byte by byte: of the first bytes it does not depend on the others (R133). -/
theorem whitenTable_append (C : Config) (a b : List Byte) (s : U16) (t : Byte) :
    ∃ b', whitenTable C (a ++ b) s t = whitenTable C a s t ++ b' ∧ b'.length = b.length := by
  have key : ∀ (a b : List Byte) (i : Nat) (ks : Nat → Byte),
      ∃ b', xorStream ks i (a ++ b) = xorStream ks i a ++ b' ∧ b'.length = b.length := by
    intro a
    induction a with
    | nil => exact fun b i ks => ⟨_, rfl, xorStream_length ks b i⟩
    | cons x xs ih =>
      intro b i ks
      obtain ⟨b', h, hl⟩ := ih b (i + 1) ks
      exact ⟨b', congrArg (_ :: ·) h, hl⟩
  exact key a b 0 _

/-- The address check of v0 and of v1 rejects every packet with the first bytes of the source's pair packet (R285). -/
theorem pairAddress_rejects {C : Config} (h : C.PairAddress) {v : Codec} (hv : v ∈ C.registry) (rest : List Byte) :
    (v.kind = .zj0 → slice (zj0Unwhiten C ([0xAA, 0x98, 0x43] ++ rest)) 0 3 ≠ zj0Addr C) ∧
    (v.kind = .zj1 → slice (zj1Unwhiten C ([0xAA, 0x98, 0x43, 0xAF] ++ rest)) 0 4 ≠ C.zj1Addr) := by
  refine ⟨fun hk => ?_, fun hk => ?_⟩
  · obtain ⟨r, hr, _⟩ := whitenTable_append C [0xAA, 0x98, 0x43] rest 0x37 0
    obtain ⟨r', hr', _⟩ := whitenTable_append C (whitenTable C [0xAA, 0x98, 0x43] 0x37 0) r 0x7F 0
    rw [show zj0Unwhiten C ([0xAA, 0x98, 0x43] ++ rest) = zj0Unwhiten C [0xAA, 0x98, 0x43] ++ r' by
      unfold zj0Unwhiten; rw [hr, hr']]
    rw [slice_prefix _ _ (show (zj0Unwhiten C _).length = 3 by simp [zj0Unwhiten])]
    exact (h v hv).1 hk
  · obtain ⟨r, hr, _⟩ := whitenTable_append C [0xAA, 0x98, 0x43, 0xAF] rest 0x37 0
    rw [show zj1Unwhiten C ([0xAA, 0x98, 0x43, 0xAF] ++ rest) = zj1Unwhiten C [0xAA, 0x98, 0x43, 0xAF] ++ r from hr]
    rw [slice_prefix _ _ (show (zj1Unwhiten C _).length = 4 by simp [zj1Unwhiten])]
    exact (h v hv).2 hk

end Sys2Proof.Laws
end

