-- ==== Sys2Proof/Laws/Encoding.lean ====
section
/-! SUPPORT. The request word of R80: its bytes and its fields. -/

namespace Sys2Proof.Laws

open Sys2Proof.Machine

/-- The eight bytes of a request word put together again. -/
theorem extract64 (v : U64) :
    v.extractLsb' 56 8 ++ v.extractLsb' 48 8 ++ v.extractLsb' 40 8 ++ v.extractLsb' 32 8 ++
    v.extractLsb' 24 8 ++ v.extractLsb' 16 8 ++ v.extractLsb' 8 8 ++ v.extractLsb' 0 8 = v := by
  apply BitVec.eq_of_getLsbD_eq
  intro i hi
  simp only [BitVec.getLsbD_append, BitVec.getLsbD_extractLsb']
  split
  · rename_i h; simp [h]
  iterate 6
    split
    · rename_i h
      simp only [h, decide_true, Bool.true_and]
      congr 1; omega
  have h : i - 8 - 8 - 8 - 8 - 8 - 8 - 8 < 8 := by omega
  simp only [h, decide_true, Bool.true_and]
  congr 1; omega

/-- The bytes of a request carry that request (R80). -/
theorem requestOfBytes_requestBytes (q : Request) : requestOfBytes (requestBytes q) = some q := by
  obtain ⟨w, p⟩ := q
  simp only [requestBytes, wordBytes, List.cons_append, List.nil_append, requestOfBytes, extract64]

/-- `OP` is bits 7:0 (R80). -/
theorem wordOf_op (op : Byte) (r : Fields) : (wordOf op r).extractLsb' 0 8 = op := by
  apply BitVec.eq_of_getLsbD_eq
  intro i hi
  unfold wordOf
  simp only [BitVec.getLsbD_append, BitVec.getLsbD_extractLsb', Nat.zero_add, hi, if_true, decide_true, Bool.true_and]

/-- `SEL` is bits 15:8 (R80). -/
theorem wordOf_sel (op : Byte) (r : Fields) : (wordOf op r).extractLsb' 8 8 = r.sel := by
  apply BitVec.eq_of_getLsbD_eq
  intro i hi
  unfold wordOf
  simp only [BitVec.getLsbD_append, BitVec.getLsbD_extractLsb']
  simp [hi]

/-- `LEN` is bits 31:16 (R80). -/
theorem wordOf_len (op : Byte) (r : Fields) : (wordOf op r).extractLsb' 16 16 = r.len := by
  apply BitVec.eq_of_getLsbD_eq
  intro i hi
  unfold wordOf
  simp only [BitVec.getLsbD_append, BitVec.getLsbD_extractLsb']
  rw [if_neg (by omega), if_neg (by omega), if_pos (by omega), show 16 + i - 8 - 8 = i by omega]
  simp [hi]

/-- `IMM` is bits 63:32 (R80). -/
theorem wordOf_imm (op : Byte) (r : Fields) : (wordOf op r).extractLsb' 32 32 = r.imm := by
  apply BitVec.eq_of_getLsbD_eq
  intro i hi
  unfold wordOf
  simp only [BitVec.getLsbD_append, BitVec.getLsbD_extractLsb']
  rw [if_neg (by omega), if_neg (by omega), if_neg (by omega), show 32 + i - 8 - 8 - 16 = i by omega]
  simp [hi]

end Sys2Proof.Laws
end

