-- ==== Sys2Proof/Laws/Records.lean ====
section
/-! SUPPORT. The records of R84 to R89: what was written reads back, and what a well-formed request's payload reads as. -/

namespace Sys2Proof.Laws

open Sys2Proof.Machine

/-- The code of a kind reads back as the kind (R86). -/
@[simp] theorem kindOf_kindCode (k : Kind) : kindOf (kindCode k) = some k := by cases k <;> rfl

/-- A kind code is at most 16 (R86). -/
theorem kindOf_some {b : Byte} {k : Kind} (h : kindOf b = some k) : b.toNat ≤ 16 := by
  unfold kindOf at h
  have := (List.getElem?_eq_some_iff.mp h).1
  have hl : kindTable.length = 17 := rfl
  omega

/-- A CMD record reads back (R84); the `cmd` of a kind other than Custom reads as 0. -/
theorem readCmd_writeCmd (c : Command) (b : List Byte) :
    readCmd (writeCmd c ++ b) 0 = some { c with cmd := if c.kind = .custom then c.cmd else 0 } := by
  have h1 : byteAt (writeCmd c ++ b) 0 = kindCode c.kind := rfl
  have h2 : rd16le (writeCmd c ++ b) 1 = c.cmd := extract16 c.cmd
  have h3 : argsOfBytes (slice (writeCmd c ++ b) 3 8) = c.args := rfl
  simp [readCmd, h1, h2, h3]

/-- A PARAMS record reads back (R85), wherever it stands. -/
theorem readParams_writeParams (p : Params) (a b : List Byte) :
    readParams (a ++ (writeParams p ++ b)) a.length = p := by
  have hid : rd32le (a ++ (writeParams p ++ b)) a.length = p.id := by
    rw [rd32le_append _ _ _ (le_refl _), Nat.sub_self]; exact extract32 p.id
  have hix : byteAt (a ++ (writeParams p ++ b)) (a.length + 4) = p.index := by
    rw [byteAt_append_right _ (by omega), Nat.add_sub_cancel_left]; rfl
  have htx : byteAt (a ++ (writeParams p ++ b)) (a.length + 5) = p.tx := by
    rw [byteAt_append_right _ (by omega), Nat.add_sub_cancel_left]; rfl
  have hsd : rd16le (a ++ (writeParams p ++ b)) (a.length + 6) = p.seed := by
    rw [rd16le_append _ _ _ (by omega), Nat.add_sub_cancel_left]; exact extract16 p.seed
  simp [readParams, hid, hix, htx, hsd]

@[simp] theorem writeCmd_length (c : Command) : (writeCmd c).length = 8 := rfl
@[simp] theorem writeParams_length (p : Params) : (writeParams p).length = 8 := rfl

theorem writeWp_length {w : WireParam} (h : w.data.length ≤ 31) : (writeWp w).length = 36 := by
  simp [writeWp, zeros, le16]; omega

theorem wireOk_len {w : WireParam} (h : WireOk w) : (BitVec.ofNat 8 w.data.length).toNat = w.data.length := by
  rw [BitVec.toNat_ofNat, Nat.mod_eq_of_lt]
  have := h.1
  omega

/-- A WP record reads back (R88). -/
theorem readWp_writeWp {w : WireParam} (h : WireOk w) (b : List Byte) : readWp (writeWp w ++ b) = some w := by
  have hl := wireOk_len h
  have h0 : byteAt (writeWp w ++ b) 0 = BitVec.ofNat 8 w.data.length := rfl
  have h1 : byteAt (writeWp w ++ b) 1 = w.flagsIdx := rfl
  have h2 : byteAt (writeWp w ++ b) 2 = w.dataIdx := rfl
  have h3 : rd16le (writeWp w ++ b) 3 = w.duration := extract16 w.duration
  have h4 : slice (writeWp w ++ b) 5 (5 + w.data.length) = w.data := by
    have : (writeWp w ++ b).drop 5 = w.data ++ (zeros (31 - w.data.length) ++ b) := by simp [writeWp, le16]
    simp [slice, this]
  simp [readWp, h0, h1, h2, h3, h4, hl, h.1, h.2.1, h.2.2]

/-- What reads as a WP record is within the bounds of R61 and R88. -/
theorem readWp_some {b : List Byte} {w : WireParam} (h : readWp b = some w) (hb : 36 ≤ b.length) : WireOk w := by
  unfold readWp at h
  simp only at h
  split at h
  · rename_i hc
    cases h
    have : (slice b 5 (5 + (byteAt b 0).toNat)).length = (byteAt b 0).toNat := by
      rw [slice_length _ _ _ (by omega)]; omega
    refine ⟨?_, ?_, ?_⟩ <;> simp only [this]
    · exact hc.1
    · exact hc.2.1
    · exact hc.2.2
  · cases h

/-- WP records read back one after another (R89). -/
theorem readWps_flatMap {ws : List WireParam} (h : ∀ w ∈ ws, WireOk w) :
    readWps ws.length (ws.flatMap writeWp) = some ws := by
  induction ws with
  | nil => rfl
  | cons w ws ih =>
    have hw := h w (by simp)
    have hlen := writeWp_length hw.1
    have hd : ((w :: ws).flatMap writeWp).drop 36 = ws.flatMap writeWp := by
      rw [List.flatMap_cons, List.drop_append_of_le_length (by omega), List.drop_of_length_le (by omega)]
      rfl
    have hr : readWp ((w :: ws).flatMap writeWp) = some w := by
      rw [List.flatMap_cons]; exact readWp_writeWp hw _
    have hnl : ¬ ((w :: ws).flatMap writeWp).length < 36 := by
      rw [List.flatMap_cons, List.length_append]; omega
    simp only [List.length_cons, readWps, hnl, if_false, hr, hd, ih fun x hx => h x (by simp [hx])]

theorem flatMap_writeWp_length {ws : List WireParam} (h : ∀ w ∈ ws, WireOk w) :
    (ws.flatMap writeWp).length = 36 * ws.length := by
  induction ws with
  | nil => rfl
  | cons w ws ih =>
    rw [List.flatMap_cons, List.length_append, writeWp_length (h w (by simp)).1, ih fun x hx => h x (by simp [hx])]
    simp only [List.length_cons]; omega

/-- A WP list reads back (R89). -/
theorem readWpList_writeWpList {ws : List WireParam} (hn : ws.length ≤ 255) (h : ∀ w ∈ ws, WireOk w) :
    readWpList (writeWpList ws) = some ws := by
  unfold writeWpList readWpList
  have : (BitVec.ofNat 8 ws.length).toNat = ws.length := by
    rw [BitVec.toNat_ofNat, Nat.mod_eq_of_lt]; omega
  simp only [this]
  exact readWps_flatMap h

/-- What reads as WP records are WP records, as many as were asked for. -/
theorem readWps_some {n : Nat} {b : List Byte} {ws : List WireParam} (h : readWps n b = some ws) :
    ws.length = n ∧ ∀ w ∈ ws, WireOk w := by
  induction n generalizing b ws with
  | zero =>
    unfold readWps at h
    split at h
    · cases h; simp
    · cases h
  | succ n ih =>
    unfold readWps at h
    split at h
    · cases h
    · rename_i hl
      split at h
      · rename_i w ws' hw hws
        cases h
        obtain ⟨h1, h2⟩ := ih hws
        refine ⟨by simp [h1], ?_⟩
        intro x hx
        rcases List.mem_cons.mp hx with rfl | hx
        · exact readWp_some hw (by omega)
        · exact h2 x hx
      · cases h

/-- What reads as a WP list has at most 255 records, each within its bounds (R89). -/
theorem readWpList_some {b : List Byte} {ws : List WireParam} (h : readWpList b = some ws) :
    ws.length ≤ 255 ∧ ∀ w ∈ ws, WireOk w := by
  cases b with
  | nil => cases h
  | cons n b =>
    obtain ⟨h1, h2⟩ := readWps_some h
    have := n.isLt
    exact ⟨by omega, h2⟩

/-! ## The payload of a well-formed request -/

/-- A well-formed request passes each part of checks 2 and 3 of R83. -/
theorem wellFormed_iff (i : Instr) : i.WellFormed ↔
    (((shapeOf i).selZero = true → (fieldsOf i).sel = 0) ∧ (fieldsOf i).imm.toNat < 2 ^ (shapeOf i).immBits ∧
      (fieldsOf i).len.toNat = (fieldsOf i).payload.length) ∧
    payloadOk (shapeOf i).payload (fieldsOf i).payload = true := by
  unfold Instr.WellFormed wellFormed fieldsOk
  cases (shapeOf i).selZero <;> simp [and_assoc]

theorem payloadOk_cmd {b : List Byte} (h : payloadOk .cmd b = true) : b.length = 8 ∧ ∃ c, readCmd b 0 = some c := by
  simpa [payloadOk, Option.isSome_iff_exists] using h

theorem payloadOk_cmdParams {b : List Byte} (h : payloadOk .cmdParams b = true) :
    b.length = 16 ∧ ∃ c, readCmd b 0 = some c := by
  simpa [payloadOk, Option.isSome_iff_exists] using h

theorem payloadOk_wp {b : List Byte} (h : payloadOk .wp b = true) : b.length = 36 ∧ ∃ w, readWp b = some w := by
  simpa [payloadOk, Option.isSome_iff_exists] using h

theorem payloadOk_wpList {b : List Byte} (h : payloadOk .wpList b = true) : ∃ ws, readWpList b = some ws := by
  simpa [payloadOk, Option.isSome_iff_exists] using h

theorem payloadOk_bytes {lo hi : Nat} {b : List Byte} (h : payloadOk (.bytes lo hi) b = true) :
    lo ≤ b.length ∧ b.length ≤ hi := by
  simpa [payloadOk] using h

end Sys2Proof.Laws
end

