-- ==== Sys2Proof/Laws/Rules.lean ====
section
/-! SUPPORT. What `exec` and `step` can do, said once. -/

namespace Sys2Proof.Laws

open Sys2Proof.Machine

/-- `exec` performs the rule of the request under the build's configuration. -/
theorem exec_eq_perform (i : Instr) (s : State) : exec i s = perform s (ruleOf Config.build i s) := by
  cases i <;> rfl

/-- `exec` is `execUnder` at the build's configuration. -/
theorem exec_eq_execUnder (i : Instr) (s : State) : exec i s = execUnder Config.build i s := exec_eq_perform i s

/-- What `exec` can do: it always gives the next state, the conclusion of the request's rule (R81, R436). -/
theorem exec_eq_next (i : Instr) (s : State) : exec i s = .next (conclude s (ruleOf Config.build i s)) :=
  exec_eq_perform i s

end Sys2Proof.Laws
end

