-- ==== Sys2Proof/Laws/Inversion.lean ====
section
/-! SUPPORT. What the rule of each request can answer when no check fails it: one inversion lemma per request that
writes state, and one for all the requests that only read. Later proofs take a request apart with these and unfold no
rule. -/

namespace Sys2Proof.Laws

open Sys2Proof.Machine

/-- An identification leaves the state it is given. -/
theorem identifyReply_state (C : Config) (w : WireParam) (s : State) : (identifyReply C w s).state = s := by
  unfold identifyReply
  split <;> rfl

/-- A request that only reads leaves the state as it was (R68, R313). -/
theorem rule_onlyReads {C : Config} {i : Instr} {s : State} {rep : Reply} (hi : onlyReads i = true)
    (h : ruleOf C i s = .ok rep) : rep.state = s := by
  cases i <;> first
    | (cases hi; done)
    | skip
  case gLookupId r =>
    simp only [ruleOf, ruleLookupId, bind_eq_ok] at h
    obtain ⟨_, _, h⟩ := h
    split at h <;> (cases h; rfl)
  case gIdentify r =>
    simp only [ruleOf, ruleIdentify, bind_eq_ok, Except.ok.injEq] at h
    obtain ⟨_, _, _, _, h⟩ := h
    rw [← h]
    exact identifyReply_state _ _ _
  all_goals
    simp only [ruleOf, ruleWhitenLfsr, ruleWhitenTable, ruleRevBits, ruleRevBitsAll, ruleRevBytes, ruleCrcCcitt,
      ruleCrcRefl, ruleAesSign16, rulePivotFix, ruleIdentifier, ruleIsSupported, ruleTranslate, ruleDecode,
      ruleLookupFv, ruleCount, ruleDescribe, ruleGetParams, ruleQueueStatus, ruleSchedStatus, ruleFromRaw,
      ruleInjectHex, bind_eq_ok, Except.ok.injEq] at h
  all_goals first
    | (obtain ⟨_, _, h⟩ := h; rw [← h])
    | (obtain ⟨_, _, _, _, h⟩ := h; rw [← h])
    | (obtain ⟨_, _, _, _, _, _, h⟩ := h; rw [← h])
    | (obtain ⟨_, _, _, _, _, _, _, _, _, _, h⟩ := h; rw [← h])

/-- K.ENCODE writes nothing but the seed source, and not that when it is unsupported (R172, R434). -/
theorem ruleEncode_ok {C : Config} {r : Fields} {s : State} {rep : Reply} (h : ruleEncode C r s = .ok rep) :
    (rep.status = .unsupported ∧ rep.state = s) ∨ (rep.status = .ok ∧ ∃ d, rep.state = { s with seeds := d }) := by
  simp only [ruleEncode, bind_eq_ok] at h
  obtain ⟨_, _, _, _, _, _, h⟩ := h
  split at h
  · cases h; exact .inl ⟨rfl, rfl⟩
  · cases h; exact .inr ⟨rfl, _, rfl⟩

/-- Q.SET_PARAMS (R330). -/
theorem ruleSetParams_ok {C : Config} {r : Fields} {s : State} {rep : Reply} (h : ruleSetParams C r s = .ok rep) :
    ∃ k v, s.ctl[r.sel.toNat]? = some k ∧ C.registry[k.codec.toNat]? = some v ∧
      (readParams r.payload 0).tx.toNat < ceilOf C v ∧
      rep = { state := s.setController r.sel { k with params := readParams r.payload 0 } } := by
  simp only [ruleSetParams, bind_eq_ok] at h
  obtain ⟨_, _, k, hk, v, hv, _, hc, h⟩ := h
  refine ⟨k, v, controllerAt_eq_ok.mp hk, codecAt_eq_ok.mp hv, ?_, ?_⟩
  · by_contra hn
    rw [require_error _ hn] at hc
    cases hc
  · cases h; rfl

/-- Q.SET_CODEC (R339). -/
theorem ruleSetCodec_ok {C : Config} {r : Fields} {s : State} {rep : Reply} (h : ruleSetCodec C r s = .ok rep) :
    ∃ k v, s.ctl[r.sel.toNat]? = some k ∧ C.registry[(immByte r).toNat]? = some v ∧
      rep = { state := s.setController r.sel
                { k with codec := immByte r, params := { k.params with tx := txMod k.params.tx (ceilOf C v) } } } := by
  simp only [ruleSetCodec, bind_eq_ok] at h
  obtain ⟨_, _, k, hk, v, hv, h⟩ := h
  cases h
  exact ⟨k, v, controllerAt_eq_ok.mp hk, codecAt_eq_ok.mp hv, rfl⟩

/-- Q.SET_MINTX (R340). -/
theorem ruleSetMintx_ok {r : Fields} {s : State} {rep : Reply} (h : ruleSetMintx r s = .ok rep) :
    ∃ k, s.ctl[r.sel.toNat]? = some k ∧ 100 ≤ (immHalf r).toNat ∧ (immHalf r).toNat ≤ 500 ∧
      rep = { state := s.setController r.sel { k with mintx := immHalf r } } := by
  simp only [ruleSetMintx, bind_eq_ok] at h
  obtain ⟨_, _, k, hk, _, hc, h⟩ := h
  by_cases hn : 100 ≤ (immHalf r).toNat ∧ (immHalf r).toNat ≤ 500
  · cases h
    exact ⟨k, controllerAt_eq_ok.mp hk, hn.1, hn.2, rfl⟩
  · rw [require_error _ hn] at hc
    cases hc

/-- Q.SET_SEQDUR (R341). -/
theorem ruleSetSeqdur_ok {r : Fields} {s : State} {rep : Reply} (h : ruleSetSeqdur r s = .ok rep) :
    ∃ k, s.ctl[r.sel.toNat]? = some k ∧ rep = { state := s.setController r.sel { k with seqdur := immHalf r } } := by
  simp only [ruleSetSeqdur, bind_eq_ok] at h
  obtain ⟨_, _, k, hk, h⟩ := h
  cases h
  exact ⟨k, controllerAt_eq_ok.mp hk, rfl⟩

/-- Q.ENQUEUE (R332). -/
theorem ruleEnqueue_ok {C : Config} {r : Fields} {s : State} {rep : Reply} (h : ruleEnqueue C r s = .ok rep) :
    ∃ cmd k v p ws d, readCmd r.payload 0 = some cmd ∧ s.ctl[r.sel.toNat]? = some k ∧
      C.registry[k.codec.toNat]? = some v ∧ (evictKind cmd.kind k.queue).length < C.cqCap ∧
      encodeCmd C v cmd k.params s.seeds = some (p, ws, d) ∧
      rep = { state := { s.setController r.sel { k with
                params := p, queue := evictKind cmd.kind k.queue ++ [⟨cmd.kind, timed (onAirDuration k) ws⟩] } with
                seeds := d } } := by
  simp only [ruleEnqueue, bind_eq_ok] at h
  obtain ⟨_, _, cmd, hcmd, k, hk, v, hv, _, _, _, hq, ⟨p, ws, d⟩, he, h⟩ := h
  refine ⟨cmd, k, v, p, ws, d, orRaise_eq_ok.mp hcmd, controllerAt_eq_ok.mp hk, codecAt_eq_ok.mp hv, ?_,
    orRaise_eq_ok.mp he, ?_⟩
  · by_contra hn
    rw [require_error _ hn] at hq
    cases hq
  · cases h; rfl

/-- Q.DEQUEUE_FRONT (R336). -/
theorem ruleDequeueFront_ok {r : Fields} {s : State} {rep : Reply} (h : ruleDequeueFront r s = .ok rep) :
    ∃ k e rest, s.ctl[r.sel.toNat]? = some k ∧ k.queue = e :: rest ∧
      rep = { state := s.setController r.sel { k with queue := rest }, out := kindCode e.kind :: writeWpList e.wps } := by
  simp only [ruleDequeueFront, bind_eq_ok] at h
  obtain ⟨_, _, k, hk, h⟩ := h
  split at h
  · cases h
  · rename_i e rest hq
    cases h
    exact ⟨k, e, rest, controllerAt_eq_ok.mp hk, hq, rfl⟩

/-- Q.PUMP (R337). -/
theorem rulePump_ok {C : Config} {r : Fields} {s : State} {rep : Reply} (h : rulePump C r s = .ok rep) :
    ∃ k e rest, s.ctl[r.sel.toNat]? = some k ∧ k.queue = e :: rest ∧
      s.sched.fifo.length + e.wps.length ≤ C.fifoCap ∧
      rep = { state := { s.setController r.sel
                  { k with queue := rest, activeValid := true, activeToken := s.sched.nextToken } with
                sched := addBatch (supersede k s.sched) e.wps }
              res := s.sched.nextToken } := by
  simp only [rulePump, bind_eq_ok] at h
  obtain ⟨_, _, k, hk, h⟩ := h
  split at h
  · cases h
  · rename_i e rest hq
    simp only [bind_eq_ok] at h
    obtain ⟨_, hc, h⟩ := h
    refine ⟨k, e, rest, controllerAt_eq_ok.mp hk, hq, ?_, ?_⟩
    · by_contra hn
      rw [require_error _ hn] at hc
      cases hc
    · cases h; rfl

/-- S.ADD_BATCH (R371). -/
theorem ruleAddBatch_ok {C : Config} {r : Fields} {s : State} {rep : Reply} (h : ruleAddBatch C r s = .ok rep) :
    ∃ ws, readWpList r.payload = some ws ∧ s.sched.fifo.length + ws.length ≤ C.fifoCap ∧
      rep = { state := { s with sched := addBatch s.sched ws }, res := s.sched.nextToken } := by
  simp only [ruleAddBatch, bind_eq_ok] at h
  obtain ⟨_, _, ws, hw, _, hc, h⟩ := h
  refine ⟨ws, orRaise_eq_ok.mp hw, ?_, ?_⟩
  · by_contra hn
    rw [require_error _ hn] at hc
    cases hc
  · cases h; rfl

/-- S.REMOVE_BATCH (R372). -/
theorem ruleRemoveBatch_ok {r : Fields} {s : State} {rep : Reply} (h : ruleRemoveBatch r s = .ok rep) :
    rep = { state := { s with sched := removeBatch s.sched r.imm } } := by
  simp only [ruleRemoveBatch, bind_eq_ok] at h
  obtain ⟨_, _, h⟩ := h
  cases h; rfl

/-- S.TICK (R375). -/
theorem ruleTick_ok {r : Fields} {s : State} {rep : Reply} (h : ruleTick r s = .ok rep) :
    rep = { state := { s with sched := (tick r.imm s.sched).1, events := s.events ++ (tick r.imm s.sched).2 } } := by
  simp only [ruleTick, bind_eq_ok] at h
  obtain ⟨_, _, h⟩ := h
  cases h; rfl

/-- X.CAPTURE (R405). -/
theorem ruleCapture_ok {C : Config} {r : Fields} {s : State} {rep : Reply} (h : ruleCapture C r s = .ok rep) :
    (Instr.xCapture r).WellFormed ∧
    ((∃ e ∈ liveEntries r.imm s.dedup, e.bytes = r.payload) ∧
      rep = { state := { s with dedup := liveEntries r.imm s.dedup }, status := .duplicate } ∨
     (∀ e ∈ liveEntries r.imm s.dedup, e.bytes ≠ r.payload) ∧
      rep = identifyReply C (fromRaw C r.payload)
        { s with dedup := recordCapture C (liveEntries r.imm s.dedup) ⟨r.payload, r.imm + 1000 * r.sel.setWidth 32⟩ }) := by
  simp only [ruleCapture, bind_eq_ok] at h
  obtain ⟨_, hw, h⟩ := h
  refine ⟨checkRequest_eq_ok.mp hw, ?_⟩
  split at h
  · rename_i hc
    cases h
    refine .inl ⟨?_, rfl⟩
    simpa using hc
  · rename_i hc
    cases h
    refine .inr ⟨?_, rfl⟩
    simpa using hc

/-- Every request that is not read-only is one of these. -/
theorem writing_cases (i : Instr) (h : onlyReads i = false) :
    (∃ r, i = .kEncode r) ∨ (∃ r, i = .qSetParams r) ∨ (∃ r, i = .qSetCodec r) ∨ (∃ r, i = .qSetMintx r) ∨
    (∃ r, i = .qSetSeqdur r) ∨ (∃ r, i = .qEnqueue r) ∨ (∃ r, i = .qDequeueFront r) ∨ (∃ r, i = .qPump r) ∨
    (∃ r, i = .sAddBatch r) ∨ (∃ r, i = .sRemoveBatch r) ∨ (∃ r, i = .sTick r) ∨ (∃ r, i = .xCapture r) := by
  cases i <;> first | (cases h; done) | simp

/-- R281 (d): `UNMIX2` fails on every byte string that differs from one it accepts in derived bytes alone. -/
theorem unmix2_eq_none {C : Config} (hC : C.ZjLawful) {b b' : List Byte} {f : ZjFields} (h : C.unmix2 b = some f)
    (hb : AgreeBut 16 C.derivedPos2 b b') {i : Nat} (hi : i ∈ C.derivedPos2)
    (hne : byteAt b i ≠ byteAt b' i) : C.unmix2 b' = none := by
  cases h' : C.unmix2 b' with
  | none => rfl
  | some f' =>
    have hf := hC.derived2.1 b b' f f' hb h h'
    subst hf
    exact absurd (((hC.unmix2_checks b f h).1 i hi).trans ((hC.unmix2_checks b' f h').1 i hi).symm) hne

end Sys2Proof.Laws
end

