-- ==== Sys2Proof/Laws/PerInstr.lean ====
section
/-! SUPPORT. Families of statements made per instruction. -/

namespace Sys2Proof.Laws

open Sys2Proof.Machine

/-- R80, R82: the encoded word of an instruction holds its operation code and its fields, each in its place, and the
payload follows as the instruction carries it. -/
def EncodeFields.Statement (i : Instr) : Prop :=
  (encode i).word.extractLsb' 0 8 = opcodeOf i ∧ (encode i).word.extractLsb' 8 8 = (fieldsOf i).sel ∧
  (encode i).word.extractLsb' 16 16 = (fieldsOf i).len ∧ (encode i).word.extractLsb' 32 32 = (fieldsOf i).imm ∧
  (encode i).payload = (fieldsOf i).payload

/-- The fields of an encoded word, whatever the instruction. -/
theorem encode_fields (i : Instr) : EncodeFields.Statement i :=
  ⟨wordOf_op _ _, wordOf_sel _ _, wordOf_len _ _, wordOf_imm _ _, rfl⟩

theorem EncodeFields.pWhitenLfsr (r : Fields) : EncodeFields.Statement (.pWhitenLfsr r) := encode_fields _
theorem EncodeFields.pWhitenTable (r : Fields) : EncodeFields.Statement (.pWhitenTable r) := encode_fields _
theorem EncodeFields.pRevBits (r : Fields) : EncodeFields.Statement (.pRevBits r) := encode_fields _
theorem EncodeFields.pRevBitsAll (r : Fields) : EncodeFields.Statement (.pRevBitsAll r) := encode_fields _
theorem EncodeFields.pRevBytes (r : Fields) : EncodeFields.Statement (.pRevBytes r) := encode_fields _
theorem EncodeFields.pCrcCcitt (r : Fields) : EncodeFields.Statement (.pCrcCcitt r) := encode_fields _
theorem EncodeFields.pCrcRefl (r : Fields) : EncodeFields.Statement (.pCrcRefl r) := encode_fields _
theorem EncodeFields.pAesSign16 (r : Fields) : EncodeFields.Statement (.pAesSign16 r) := encode_fields _
theorem EncodeFields.pPivotFix (r : Fields) : EncodeFields.Statement (.pPivotFix r) := encode_fields _
theorem EncodeFields.kIdentifier (r : Fields) : EncodeFields.Statement (.kIdentifier r) := encode_fields _
theorem EncodeFields.kIsSupported (r : Fields) : EncodeFields.Statement (.kIsSupported r) := encode_fields _
theorem EncodeFields.kTranslate (r : Fields) : EncodeFields.Statement (.kTranslate r) := encode_fields _
theorem EncodeFields.kEncode (r : Fields) : EncodeFields.Statement (.kEncode r) := encode_fields _
theorem EncodeFields.kDecode (r : Fields) : EncodeFields.Statement (.kDecode r) := encode_fields _
theorem EncodeFields.gLookupId (r : Fields) : EncodeFields.Statement (.gLookupId r) := encode_fields _
theorem EncodeFields.gLookupFv (r : Fields) : EncodeFields.Statement (.gLookupFv r) := encode_fields _
theorem EncodeFields.gCount (r : Fields) : EncodeFields.Statement (.gCount r) := encode_fields _
theorem EncodeFields.gIdentify (r : Fields) : EncodeFields.Statement (.gIdentify r) := encode_fields _
theorem EncodeFields.gDescribe (r : Fields) : EncodeFields.Statement (.gDescribe r) := encode_fields _
theorem EncodeFields.qSetParams (r : Fields) : EncodeFields.Statement (.qSetParams r) := encode_fields _
theorem EncodeFields.qGetParams (r : Fields) : EncodeFields.Statement (.qGetParams r) := encode_fields _
theorem EncodeFields.qSetCodec (r : Fields) : EncodeFields.Statement (.qSetCodec r) := encode_fields _
theorem EncodeFields.qSetMintx (r : Fields) : EncodeFields.Statement (.qSetMintx r) := encode_fields _
theorem EncodeFields.qSetSeqdur (r : Fields) : EncodeFields.Statement (.qSetSeqdur r) := encode_fields _
theorem EncodeFields.qEnqueue (r : Fields) : EncodeFields.Statement (.qEnqueue r) := encode_fields _
theorem EncodeFields.qDequeueFront (r : Fields) : EncodeFields.Statement (.qDequeueFront r) := encode_fields _
theorem EncodeFields.qPump (r : Fields) : EncodeFields.Statement (.qPump r) := encode_fields _
theorem EncodeFields.qStatus (r : Fields) : EncodeFields.Statement (.qStatus r) := encode_fields _
theorem EncodeFields.sAddBatch (r : Fields) : EncodeFields.Statement (.sAddBatch r) := encode_fields _
theorem EncodeFields.sRemoveBatch (r : Fields) : EncodeFields.Statement (.sRemoveBatch r) := encode_fields _
theorem EncodeFields.sTick (r : Fields) : EncodeFields.Statement (.sTick r) := encode_fields _
theorem EncodeFields.sStatus (r : Fields) : EncodeFields.Statement (.sStatus r) := encode_fields _
theorem EncodeFields.xFromRaw (r : Fields) : EncodeFields.Statement (.xFromRaw r) := encode_fields _
theorem EncodeFields.xInjectHex (r : Fields) : EncodeFields.Statement (.xInjectHex r) := encode_fields _
theorem EncodeFields.xCapture (r : Fields) : EncodeFields.Statement (.xCapture r) := encode_fields _

end Sys2Proof.Laws
end

