-- ==== Sys2Proof/Tests/Slice0.lean ====
section
/-! SUPPORT. Small tests, each one request on a small state, under the test instance TI of 95_test_vectors.md: the words,
payloads and expected responses are the spec's own vectors, written out, unless a comment says how they follow from a
rule. Then the decoding of one word per operation, the ill-formed requests, and a witness for the hypotheses of each
statement. -/

namespace Sys2Proof.Tests

open Sys2Proof.Machine Sys2Proof.Laws

set_option Elab.async false
set_option maxRecDepth 20000

/-! ## Helpers -/

/-- TI right after reset, with one seed given. -/
def ti : State := { resetState TI.config with seeds := ⟨[0x1111], 0⟩ }

/-- The state after one request under TI: its word, then its payload. -/
def run (s : State) (w : U64) (payload : List Byte) : State :=
  match decode ⟨w, payload⟩ with
  | .ok i => conclude s (ruleOf TI.config i s)
  | .error _ => s.raise .illegal

/-- The response to one request under TI. -/
def answerOf (s : State) (w : U64) (payload : List Byte) : Option Response := (run s w payload).responses.getLast?

/-- TI with codec `c`, tx_count 20 and the queue `q` in controller 0. -/
def queueOf (c : Byte) (q : List QueueEntry) : State :=
  { ti with ctl := [⟨⟨0, 0, 20, 0⟩, c, 100, 0, q, false, 0⟩, ⟨⟨0, 0, 0, 0⟩, 2, 100, 0, [], false, 0⟩] }

/-- The queue of 95 V-Q-5. -/
def fullQueue : List QueueEntry := [⟨.lightOn, []⟩, ⟨.lightOff, []⟩, ⟨.lightDim, []⟩, ⟨.fanOn, []⟩]

/-- A packet of one byte and duration 100. -/
def small : WireParam := ⟨[0xAA], 0xFF, 0xFF, 100⟩

/-- A FIFO entry of batch `t`. -/
def entry (t : U32) : Pending := ⟨small, t, false, false⟩

/-- TI with a scheduler in mode `m`. -/
def fifoOf (m : Mode) (l : List Pending) (deadline next : U32) : State := { ti with sched := ⟨m, 1, deadline, l, next⟩ }

/-- TI with one captured packet that expires at `t`. -/
def captured (t : U32) : State := { ti with dedup := [⟨[0xAA], t⟩] }

/-! ## One test per operation -/

/-- 95 V-P-1. -/
theorem test_p_whiten_lfsr :
    answerOf ti 0x0000006F00030001 [0x11, 0x22, 0x33] = some ⟨.ok, 0x0, [0xF2, 0x64, 0xDA]⟩ ∧
    answerOf ti 0x0000016F00030001 [0x11, 0x22, 0x33] = some ⟨.illegal, 0x0, []⟩ := by
  decide +kernel

/-- 95 V-P-2; the salt is taken modulo 4. -/
theorem test_p_whiten_table :
    answerOf ti 0x0000000500040102 [0x00, 0x00, 0x00, 0x00] = some ⟨.ok, 0x0, [0x2B, 0x2A, 0x35, 0x34]⟩ ∧
    answerOf ti 0x0000000500040502 [0x00, 0x00, 0x00, 0x00] = some ⟨.ok, 0x0, [0x2B, 0x2A, 0x35, 0x34]⟩ := by
  decide +kernel

/-- 95 V-P-3. -/
theorem test_p_rev_bits :
    answerOf ti 0x0000001200000003 [] = some ⟨.ok, 0x48, []⟩ ∧
    answerOf ti 0x0000006F00000003 [] = some ⟨.ok, 0xF6, []⟩ := by
  decide +kernel

/-- 95 V-P-4. -/
theorem test_p_rev_bits_all :
    answerOf ti 0x0000000000030004 [0x10, 0x01, 0x19] = some ⟨.ok, 0x0, [0x08, 0x80, 0x98]⟩ := by
  decide +kernel

/-- 95 V-P-5. -/
theorem test_p_rev_bytes :
    answerOf ti 0x0000000000030005 [0x01, 0x12, 0x80] = some ⟨.ok, 0x0, [0x80, 0x12, 0x01]⟩ := by
  decide +kernel

/-- 95 V-P-6. -/
theorem test_p_crc_ccitt :
    answerOf ti 0x0000FFFF00090006 [0x31, 0x32, 0x33, 0x34, 0x35, 0x36, 0x37, 0x38, 0x39] = some ⟨.ok, 0x29B1, []⟩ ∧
    answerOf ti 0x0000123400000006 [] = some ⟨.ok, 0x1234, []⟩ := by
  decide +kernel

/-- 95 V-P-7. -/
theorem test_p_crc_refl :
    answerOf ti 0x0000FFFF00090007 [0x31, 0x32, 0x33, 0x34, 0x35, 0x36, 0x37, 0x38, 0x39] = some ⟨.ok, 0x6F91, []⟩ ∧
    answerOf ti 0x0000000000010007 [0x80] = some ⟨.ok, 0x8408, []⟩ := by
  decide +kernel

/-- 95 V-P-8, all four pairs. -/
theorem test_p_aes_sign16 :
    answerOf ti 0x0000010000200208 [0x00, 0x01, 0x02, 0x03, 0x04, 0x05, 0x06, 0x07, 0x08, 0x09, 0x0A, 0x0B, 0x0C,
      0x0D, 0x0E, 0x0F, 0x00, 0x11, 0x22, 0x33, 0x44, 0x55, 0x66, 0x77, 0x88, 0x99, 0xAA, 0xBB, 0xCC, 0xDD, 0xEE,
      0xFF] = some ⟨.ok, 0xC469, []⟩ ∧
    answerOf ti 0x0000000000200008 [0x00, 0x00, 0x00, 0x00, 0x00, 0x00, 0x00, 0x00, 0x00, 0x00, 0x00, 0x00, 0x00,
      0x00, 0x00, 0x00, 0x00, 0x00, 0x00, 0x00, 0x00, 0x00, 0x00, 0x00, 0x00, 0x00, 0x00, 0x00, 0x00, 0x00, 0x00,
      0x00] = some ⟨.ok, 0xE966, []⟩ ∧
    answerOf ti 0x0000341200200508 [0x00, 0x01, 0x02, 0x03, 0x04, 0x05, 0x06, 0x07, 0x08, 0x09, 0x0A, 0x0B, 0x0C,
      0x0D, 0x0E, 0x0F, 0x00, 0x11, 0x22, 0x33, 0x44, 0x55, 0x66, 0x77, 0x88, 0x99, 0xAA, 0xBB, 0xCC, 0xDD, 0xEE,
      0xFF] = some ⟨.ok, 0x87BE, []⟩ ∧
    answerOf ti 0x0000123400200108 [0x00, 0x01, 0x02, 0x03, 0x04, 0x05, 0x06, 0x07, 0x08, 0x09, 0x0A, 0x0B, 0x0C,
      0x0D, 0x0E, 0x0F, 0x08, 0x10, 0x80, 0x01, 0x01, 0x00, 0x01, 0x34, 0x12, 0x00, 0x00, 0x00, 0x10, 0x00, 0x00,
      0x00] = some ⟨.ok, 0x56BC, []⟩ := by
  decide +kernel

/-- 95 V-P-9. -/
theorem test_p_pivot_fix :
    answerOf ti 0x000000AA00000009 [] = some ⟨.ok, 0x55, []⟩ ∧
    answerOf ti 0x000000FE00000009 [] = some ⟨.ok, 0x1, []⟩ := by
  decide +kernel

/-- 95 V-K-13: `zhijia_v1`; codec 9 is RANGE. -/
theorem test_k_identifier :
    answerOf ti 0x0000000000000610 [] = some ⟨.ok, 0x0, [0x7A, 0x68, 0x69, 0x6A, 0x69, 0x61, 0x5F, 0x76, 0x31]⟩ ∧
    answerOf ti 0x0000000000000910 [] = some ⟨.range, 0x0, []⟩ := by
  decide +kernel

/-- 95 V-K-13: LightOn is supported, FanOscillate is not. -/
theorem test_k_is_supported :
    answerOf ti 0x0000000000080211 [0x04, 0x00, 0x00, 0x00, 0x00, 0x00, 0x00, 0x00] = some ⟨.ok, 0x1, []⟩ ∧
    answerOf ti 0x0000000000080211 [0x10, 0x00, 0x00, 0x00, 0x00, 0x00, 0x00, 0x00] = some ⟨.ok, 0x0, []⟩ := by
  decide +kernel

/-- 95 V-K-13: a Custom Command bypasses the table, and does not fit an FLV1 codec when its opcode is above 255. -/
theorem test_k_translate :
    answerOf ti 0x0000000000100212 [0x03, 0x28, 0x00, 0x01, 0x02, 0x03, 0x04, 0x00, 0x09, 0x00, 0x00, 0x00, 0x09,
      0x09, 0x09, 0x00] = some ⟨.ok, 0x1, [0x01, 0x28, 0x00, 0x01, 0x02, 0x03, 0x04, 0x00]⟩ ∧
    answerOf ti 0x0000000000100012 [0x03, 0x28, 0x01, 0x00, 0x00, 0x00, 0x00, 0x00, 0x09, 0x00, 0x00, 0x00, 0x09,
      0x09, 0x09, 0x00] = some ⟨.ok, 0x0, [0x00]⟩ := by
  decide +kernel

/-- 95 V-K-1 (FLV2) and V-K-8 (Zhijia v0). -/
theorem test_k_encode :
    answerOf ti 0x0000000000100213 [0x04, 0x00, 0x00, 0x00, 0x00, 0x00, 0x00, 0x00, 0x34, 0x12, 0x00, 0x00, 0x00,
      0x00, 0x34, 0x12] = some ⟨.ok, 0x1, [0x34, 0x12, 0x00, 0x00, 0x00, 0x01, 0x34, 0x12, 0x01, 0x1E, 0x00, 0x03,
      0x00, 0x00, 0x02, 0x01, 0x06, 0x1A, 0xFF, 0xF0, 0x08, 0x10, 0x80, 0x00, 0x01, 0x00, 0x01, 0x1D, 0x38, 0x2B,
      0x34, 0x35, 0x26, 0x37, 0x30, 0x31, 0x32, 0x33, 0x00, 0x00, 0x34, 0x12, 0x12, 0xE7, 0x00]⟩ ∧
    answerOf ti 0x0000000000100513 [0x03, 0x0C, 0x00, 0x01, 0x02, 0x03, 0x00, 0x00, 0x34, 0x12, 0x00, 0x00, 0x00,
      0x04, 0x00, 0x00] = some ⟨.ok, 0x1, [0x34, 0x12, 0x00, 0x00, 0x00, 0x05, 0x00, 0x00, 0x01, 0x12, 0x00, 0x03,
      0x00, 0x00, 0x02, 0x01, 0x06, 0x0E, 0xFF, 0x48, 0xC0, 0xD8, 0x4C, 0x4D, 0x4F, 0x4C, 0x78, 0x7A, 0x7F, 0x7F,
      0x74, 0xF5, 0x00, 0x00, 0x00, 0x00, 0x00, 0x00, 0x00, 0x00, 0x00, 0x00, 0x00, 0x00, 0x00]⟩ := by
  decide +kernel

/-- 95 V-K-5 (FLV1), V-K-12 (two packets of one Command, tx_count past the ceiling) and V-G-3 (the FanLamp aggregate:
  four
packets). -/
theorem test_k_encode_aggregate :
    answerOf ti 0x0000000000100013 [0x01, 0x00, 0x00, 0x00, 0x00, 0x00, 0x00, 0x00, 0x34, 0x12, 0x00, 0x00, 0x00,
      0x00, 0x78, 0x56] = some ⟨.ok, 0x1, [0x34, 0x12, 0x00, 0x00, 0x00, 0x01, 0x78, 0x56, 0x01, 0x1D, 0x00, 0x03,
      0x00, 0x00, 0x02, 0x01, 0x06, 0x19, 0xFF, 0xAA, 0x98, 0x43, 0xAF, 0x0B, 0x46, 0x46, 0x46, 0x3B, 0xE9, 0xD1,
      0xCF, 0x86, 0xE6, 0x05, 0x4B, 0xD8, 0xBB, 0x98, 0x08, 0x24, 0xD9, 0x0F, 0xD4, 0x00, 0x00]⟩ ∧
    (answerOf ti 0x0000000000100213 [0x0E, 0x00, 0x00, 0x03, 0x00, 0x00, 0x00, 0x00, 0x34, 0x12, 0x00, 0x00, 0x00,
      0xFE, 0x01, 0x01]).map (fun a => (a.res, a.out.take 9)) =
      some (2, [0x34, 0x12, 0x00, 0x00, 0x00, 0x00, 0x01, 0x01, 0x02]) ∧
    (answerOf ti 0x0000000000100413 [0x04, 0x00, 0x00, 0x00, 0x00, 0x00, 0x00, 0x00, 0x34, 0x12, 0x00, 0x00, 0x00,
      0x00, 0x42, 0x42]).map (fun a => (a.res, a.out.take 9)) =
      some (4, [0x34, 0x12, 0x00, 0x00, 0x00, 0x01, 0x42, 0x42, 0x04]) := by
  decide +kernel

/-- 95 V-K-3, V-K-9 and V-K-10; an aggregate does not decode. -/
theorem test_k_decode :
    answerOf ti 0x0000000000240214 [0x1E, 0x00, 0x03, 0x00, 0x00, 0x02, 0x01, 0x06, 0x1A, 0xFF, 0xF0, 0x08, 0x10,
      0x80, 0x00, 0x01, 0x00, 0x01, 0x1D, 0x38, 0x2B, 0x34, 0x35, 0x26, 0x37, 0x30, 0x31, 0x32, 0x33, 0x00, 0x00,
      0x34, 0x12, 0x12, 0xE7, 0x00] = some ⟨.ok, 0x0, [0x03, 0x10, 0x00, 0x00, 0x00, 0x00, 0x00, 0x00, 0x34, 0x12,
      0x00, 0x00, 0x00, 0x01, 0x34, 0x12]⟩ ∧
    answerOf ti 0x0000000000240614 [0x1C, 0x00, 0x03, 0x00, 0x00, 0x02, 0x01, 0x06, 0x18, 0xFF, 0x26, 0x14, 0x06,
      0x70, 0x1F, 0xC7, 0xC8, 0xC4, 0xC8, 0xC8, 0xFC, 0xDB, 0xC8, 0xCF, 0xC0, 0xCC, 0xD0, 0xD0, 0xE4, 0xC3, 0xD0,
      0xBE, 0x4A, 0x00, 0x00, 0x00] = some ⟨.ok, 0x0, [0x03, 0x0C, 0x00, 0x01, 0x02, 0x03, 0x00, 0x00, 0x34, 0x12,
      0x00, 0x00, 0x00, 0x06, 0x00, 0x00]⟩ ∧
    answerOf ti 0x0000000000240714 [0x1C, 0x00, 0x03, 0x00, 0x00, 0x02, 0x01, 0x06, 0x18, 0xFF, 0xB3, 0xBF, 0xB2,
      0xB1, 0xA8, 0xAC, 0xAB, 0xA7, 0xB2, 0xB1, 0xB0, 0xB4, 0xBB, 0xBB, 0xBB, 0xBB, 0x67, 0x66, 0x65, 0x64, 0x63,
      0x62, 0x61, 0x00, 0x00, 0x00] = some ⟨.ok, 0x0, [0x03, 0x0C, 0x00, 0x01, 0x02, 0x03, 0x00, 0x00, 0x00, 0x00,
      0x00, 0x00, 0x00, 0x07, 0x00, 0x00]⟩ ∧
    answerOf ti 0x0000000000240414 [0x1E, 0x00, 0x03, 0x00, 0x00, 0x02, 0x01, 0x06, 0x1A, 0xFF, 0xF0, 0x08, 0x10,
      0x80, 0x00, 0x01, 0x00, 0x01, 0x1D, 0x38, 0x2B, 0x34, 0x35, 0x26, 0x37, 0x30, 0x31, 0x32, 0x33, 0x00, 0x00,
      0x34, 0x12, 0x12, 0xE7, 0x00] = some ⟨.unsupported, 0x0, []⟩ := by
  decide +kernel

/-- 95 V-K-9: the broken duplicate is DECODE_FAIL; so is a codec of another prefix (V-K-4). -/
theorem test_k_decode_fail :
    answerOf ti 0x0000000000240614 [0x1C, 0x00, 0x03, 0x00, 0x00, 0x02, 0x01, 0x06, 0x18, 0xFF, 0x26, 0x14, 0x06,
      0x70, 0x1F, 0xC7, 0xC8, 0xC4, 0xC8, 0xC8, 0xFC, 0xDB, 0xC8, 0xCF, 0xC0, 0xCC, 0xD0, 0xD0, 0xE4, 0xC3, 0xD1,
      0x37, 0x5B, 0x00, 0x00, 0x00] = some ⟨.decodeFail, 0x0, []⟩ ∧
    answerOf ti 0x0000000000240314 [0x1E, 0x00, 0x03, 0x00, 0x00, 0x02, 0x01, 0x06, 0x1A, 0xFF, 0xF0, 0x08, 0x10,
      0x80, 0x00, 0x01, 0x00, 0x01, 0x1D, 0x38, 0x2B, 0x34, 0x35, 0x26, 0x37, 0x30, 0x31, 0x32, 0x33, 0x00, 0x00,
      0x34, 0x12, 0x12, 0xE7, 0x00] = some ⟨.decodeFail, 0x0, []⟩ := by
  decide +kernel

/-- What codec `n` of TI makes of a payload. -/
def decodedBy (n : Nat) (P : List Byte) : Option Decoded :=
  (TI.config.registry[n]?).bind fun v => decPayload TI.config v P

/-- The checks of each layout: a CRC byte changed (95 V-K-3's corner case; the payloads of V-K-5, V-K-8 and V-K-9);
V-K-3's payload with another type and the CRC that fits it; and V-K-10's with a derived byte changed. -/
theorem test_decode_checks :
    decodedBy 2 [0xF0, 0x08, 0x10, 0x80, 0x00, 0x01, 0x00, 0x01, 0x1D, 0x38, 0x2B, 0x34, 0x35, 0x26, 0x37, 0x30, 0x31,
      0x32, 0x33, 0x00, 0x00, 0x34, 0x12, 0x13, 0xE7] = none ∧
    decodedBy 2 [0xF0, 0x08, 0x10, 0x80, 0x00, 0x01, 0x01, 0x01, 0x1D, 0x38, 0x2B, 0x34, 0x35, 0x26, 0x37, 0x30, 0x31,
      0x32, 0x33, 0x00, 0x00, 0x34, 0x12, 0xF0, 0xF7] = none ∧
    decodedBy 0 [0xAA, 0x98, 0x43, 0xAF, 0x0B, 0x46, 0x46, 0x46, 0x3B, 0xE9, 0xD1, 0xCF, 0x86, 0xE6, 0x05, 0x4B, 0xD8,
      0xBB, 0x98, 0x08, 0x24, 0xD9, 0x0F, 0xD5] = none ∧
    decodedBy 5 [0x48, 0xC0, 0xD8, 0x4C, 0x4D, 0x4F, 0x4C, 0x78, 0x7A, 0x7F, 0x7F, 0x74, 0xF4] = none ∧
    decodedBy 6 [0x26, 0x14, 0x06, 0x70, 0x1F, 0xC7, 0xC8, 0xC4, 0xC8, 0xC8, 0xFC, 0xDB, 0xC8, 0xCF, 0xC0, 0xCC, 0xD0,
      0xD0, 0xE4, 0xC3, 0xD0, 0xBE, 0x4B] = none ∧
    decodedBy 7 [0xB3, 0xBF, 0xB2, 0xB1, 0xA8, 0xAC, 0xAB, 0xA6, 0xB2, 0xB1, 0xB0, 0xB4, 0xBB, 0xBB, 0xBB, 0xBB, 0x67,
      0x66, 0x65, 0x64, 0x63, 0x62, 0x61] = none := by
  decide +kernel

/-- 95 V-G-2. -/
theorem test_g_lookup_id :
    answerOf ti 0x0000000000090020 [0x7A, 0x68, 0x69, 0x6A, 0x69, 0x61, 0x5F, 0x76, 0x31] = some ⟨.ok, 0x6, []⟩ ∧
    answerOf ti 0x0000000000040020 [0x6E, 0x6F, 0x70, 0x65] = some ⟨.fallback, 0x0, []⟩ := by
  decide +kernel

/-- 95 V-G-2. -/
theorem test_g_lookup_fv :
    answerOf ti 0x0000200000000021 [] = some ⟨.ok, 0x2, []⟩ ∧
    answerOf ti 0x0000030100000021 [] = some ⟨.notFound, 0x0, []⟩ := by
  decide +kernel

/-- 95 V-G-1. -/
theorem test_g_count :
    answerOf ti 0x0000000000000022 [] = some ⟨.ok, 0x9, []⟩ := by
  decide +kernel

/-- 95 V-G-1: FLV2 signed, and the FanLamp aggregate. -/
theorem test_g_describe :
    answerOf ti 0x0000000000000324 [] = some ⟨.ok, 0x22100, []⟩ ∧
    answerOf ti 0x0000000000000424 [] = some ⟨.ok, 0x1FF00, []⟩ ∧
    answerOf ti 0x0000000000000924 [] = some ⟨.range, 0x0, []⟩ := by
  decide +kernel

/-- 95 V-G-5, V-K-7: the packet with another outs byte is reported with the mismatch bit; a bare prefix is
  UNIDENTIFIED. -/
theorem test_g_identify :
    answerOf ti 0x0000000000240023 [0x1C, 0x00, 0x03, 0x00, 0x00, 0x02, 0x01, 0x06, 0x18, 0xFF, 0xB3, 0xBF, 0xB2,
      0xB1, 0xA8, 0xAC, 0xAB, 0xA7, 0xB2, 0xB1, 0xB0, 0xB4, 0xBB, 0xBB, 0xBB, 0xBB, 0x67, 0x66, 0x65, 0x64, 0x63,
      0x62, 0x61, 0x00, 0x00, 0x00] = some ⟨.ok, 0x7, [0x03, 0x0C, 0x00, 0x01, 0x02, 0x03, 0x00, 0x00, 0x00, 0x00,
      0x00, 0x00, 0x00, 0x07, 0x00, 0x00]⟩ ∧
    answerOf ti 0x0000000000240023 [0x1D, 0x00, 0x03, 0x00, 0x00, 0x02, 0x01, 0x06, 0x19, 0xFF, 0xAA, 0x98, 0x43,
      0xAF, 0x0B, 0x46, 0x46, 0x46, 0x91, 0xB8, 0x7B, 0x9E, 0x86, 0xE6, 0x05, 0x4B, 0xD9, 0xBB, 0x98, 0x08, 0x24,
      0xD9, 0x0F, 0xD4, 0x00, 0x00] = some ⟨.ok, 0x100, [0x03, 0x28, 0x00, 0x00, 0x00, 0x00, 0x00, 0x00, 0x34, 0x12,
      0x00, 0x00, 0x00, 0x01, 0x78, 0x56]⟩ ∧
    answerOf ti 0x0000000000240023 [0x09, 0xFF, 0xFF, 0x00, 0x00, 0xAA, 0x98, 0x43, 0xAF, 0x0B, 0x46, 0x46, 0x46,
      0x28, 0x00, 0x00, 0x00, 0x00, 0x00, 0x00, 0x00, 0x00, 0x00, 0x00, 0x00, 0x00, 0x00, 0x00, 0x00, 0x00, 0x00,
      0x00, 0x00, 0x00, 0x00, 0x00] = some ⟨.unidentified, 0x0, []⟩ := by
  decide +kernel

/-- 95 V-Q-1, and a tx_count at the ceiling of codec 7. -/
theorem test_q_set_params :
    (run ti 0x0000000000080030 [0x34, 0x12, 0, 0, 0, 0, 0, 0]).ctl[0]?.map (·.params) = some ⟨0x1234, 0, 0, 0⟩ ∧
    answerOf (queueOf 7 []) 0x0000000000080030 [0x34, 0x12, 0x00, 0x00, 0x00, 0x10, 0x00, 0x00] = some ⟨.range, 0x0,
      []⟩ ∧
    answerOf (queueOf 7 []) 0x0000000000080030 [0x34, 0x12, 0x00, 0x00, 0x00, 0x0F, 0x00, 0x00] = some ⟨.ok, 0x0,
      []⟩ := by
  decide +kernel

/-- 95 V-Q-1. -/
theorem test_q_get_params :
    answerOf (queueOf 2 []) 0x0000000000000031 [] = some ⟨.ok, 0x0, [0x00, 0x00, 0x00, 0x00, 0x00, 0x14, 0x00,
      0x00]⟩ := by
  decide +kernel

/-- 95 V-Q-1: tx_count 20 becomes 20 mod 16; there is no codec 9 and no controller 2. -/
theorem test_q_set_codec :
    (run (queueOf 2 []) 0x0000000700000032 []).ctl[0]?.map (fun k => (k.codec, k.params.tx)) = some (7, 4) ∧
    answerOf ti 0x0000000900000032 [] = some ⟨.range, 0x0, []⟩ ∧
    answerOf ti 0x0000000000000232 [] = some ⟨.range, 0x0, []⟩ := by
  decide +kernel

/-- 95 V-Q-3. -/
theorem test_q_set_mintx :
    answerOf ti 0x0000006300000033 [] = some ⟨.range, 0x0, []⟩ ∧
    answerOf ti 0x0000006400000033 [] = some ⟨.ok, 0x0, []⟩ ∧
    answerOf ti 0x000001F400000033 [] = some ⟨.ok, 0x0, []⟩ ∧
    answerOf ti 0x000001F500000033 [] = some ⟨.range, 0x0, []⟩ := by
  decide +kernel

/-- 95 V-Q-3. -/
theorem test_q_set_seqdur :
    (run ti 0x0000FFFF00000034 []).ctl[0]?.map (·.seqdur) = some 0xFFFF := by
  decide +kernel

/-- 95 V-Q-5: four entries fill the queue; FanOff is refused, LightOn first evicts the queued LightOn, Custom evicts
  nothing. -/
theorem test_q_enqueue :
    answerOf (queueOf 2 fullQueue) 0x0000000000080035 [0x0C, 0x00, 0x00, 0x00, 0x00, 0x00, 0x00, 0x00] = some
      ⟨.range, 0x0, []⟩ ∧
    (run (queueOf 2 fullQueue) 0x0000000000080035 [0x04, 0x00, 0x00, 0x00, 0x00, 0x00, 0x00, 0x00]).ctl[0]?.map (fun
      k => (k.queue.map (·.kind), k.params.tx)) =
      some ([.lightOff, .lightDim, .fanOn, .lightOn], 21) ∧
    answerOf (queueOf 2 fullQueue) 0x0000000000080035 [0x03, 0x55, 0x00, 0x00, 0x00, 0x00, 0x00, 0x00] = some
      ⟨.range, 0x0, []⟩ := by
  decide +kernel

/-- 95 V-Q-2: sequenceDuration 150 below minTxDuration 200 is the duration; 300 is not. -/
theorem test_q_enqueue_duration :
    onAirDuration ⟨⟨0, 0, 0, 0⟩, 2, 200, 150, [], false, 0⟩ = 150 ∧
    onAirDuration ⟨⟨0, 0, 0, 0⟩, 2, 200, 200, [], false, 0⟩ = 200 ∧
    onAirDuration ⟨⟨0, 0, 0, 0⟩, 2, 200, 300, [], false, 0⟩ = 200 ∧
    onAirDuration ⟨⟨0, 0, 0, 0⟩, 2, 200, 0, [], false, 0⟩ = 200 := by
  decide +kernel

/-- 95 V-Q-4; the entry's kind code and its empty packet list. -/
theorem test_q_dequeue_front :
    answerOf ti 0x0000000000000036 [] = some ⟨.empty, 0x0, []⟩ ∧
    answerOf (queueOf 2 [⟨.lightOff, []⟩]) 0x0000000000000036 [] = some ⟨.ok, 0x0, [0x05, 0x00]⟩ := by
  decide +kernel

/-- 95 V-Q-4; R337 on a queue of one entry. -/
theorem test_q_pump :
    answerOf ti 0x0000000000000037 [] = some ⟨.empty, 0x0, []⟩ ∧
    answerOf (queueOf 2 [⟨.lightOff, [small]⟩]) 0x0000000000000037 [] = some ⟨.ok, 0x1, []⟩ ∧
    (run (queueOf 2 [⟨.lightOff, [small]⟩]) 0x0000000000000037 []).sched.fifo = [⟨small, 1, false, false⟩] := by
  decide +kernel

/-- 95 V-Q-4. -/
theorem test_q_status :
    answerOf ti 0x0000000000000038 [] = some ⟨.ok, 0x2, [0x64, 0x00, 0x00, 0x00, 0x00, 0x00, 0x00, 0x00]⟩ := by
  decide +kernel

/-- 95 V-S-2 (the token wraps past 0) and V-S-3 (15 of 16 entries: two packets are refused). -/
theorem test_s_add_batch :
    answerOf (fifoOf .idle [] 0 0xFFFFFFFF) 0x0000000000010040 [0x00] = some ⟨.ok, 0xFFFFFFFF, []⟩ ∧
    (run (fifoOf .idle [] 0 0xFFFFFFFF) 0x0000000000010040 [0x00]).sched.nextToken = 1 ∧
    (answerOf (fifoOf .idle (List.replicate 15 (entry 1)) 0 2) 0x0000000000490040 (2 :: writeWp small ++ writeWp
      small)).map
      (·.status) = some .range ∧
    (answerOf (fifoOf .idle (List.replicate 15 (entry 1)) 0 2) 0x0000000000250040 (1 :: writeWp small)).map
      (·.status) = some .ok := by
  decide +kernel

/-- 95 V-S-4; R372 marks in place. -/
theorem test_s_remove_batch :
    (run (fifoOf .idle [entry 1, entry 2] 0 3) 0x0000004D00000041 []).sched.fifo = [entry 1, entry 2] ∧
    (run (fifoOf .idle [entry 1, entry 2] 0 3) 0x0000000200000041 []).sched.fifo = [entry 1, { entry 2 with
      toBeRemoved := true }] := by
  decide +kernel

/-- 95 V-S-5: the tick at 0 starts the entry of duration 100. -/
theorem test_s_tick :
    (run (fifoOf .idle [entry 1] 0 2) 0x0000000000000042 []).sched =
      ⟨.broadcasting, 1, 100, [{ entry 1 with processedOnce := true }], 2⟩ ∧
    (run (fifoOf .idle [entry 1] 0 2) 0x0000000000000042 []).events = [.start [0xAA]] := by
  decide +kernel

/-- 95 V-S-6: at 100 nothing, at 101 the radio stops and the entry goes to the back; V-S-5: alone it stays on air. -/
theorem test_s_tick_deadline :
    (run (fifoOf .broadcasting [entry 1, entry 2] 100 3) 0x0000006400000042 []).events = [] ∧
    (run (fifoOf .broadcasting [entry 1, entry 2] 100 3) 0x0000006500000042 []).sched.fifo = [entry 2, entry 1] ∧
    (run (fifoOf .broadcasting [entry 1] 100 2) 0x000003E800000042 []).sched.mode = .broadcasting := by
  decide +kernel

/-- 95 V-S-1. -/
theorem test_s_status :
    answerOf ti 0x0000000000000043 [] = some ⟨.ok, 0x0, [0x00, 0x00, 0x00, 0x00, 0x00, 0x00, 0x00, 0x00, 0x01, 0x00,
      0x00, 0x00, 0x00, 0x00, 0x00, 0x00, 0x00]⟩ := by
  decide +kernel

/-- 95 V-X-1. -/
theorem test_x_from_raw :
    answerOf ti 0x0000000000070050 [0x02, 0x01, 0x06, 0x03, 0xFF, 0xAA, 0xBB] = some ⟨.ok, 0x0, [0x07, 0x00, 0x03,
      0x00, 0x00, 0x02, 0x01, 0x06, 0x03, 0xFF, 0xAA, 0xBB, 0x00, 0x00, 0x00, 0x00, 0x00, 0x00, 0x00, 0x00, 0x00,
      0x00, 0x00, 0x00, 0x00, 0x00, 0x00, 0x00, 0x00, 0x00, 0x00, 0x00, 0x00, 0x00, 0x00, 0x00]⟩ ∧
    answerOf ti 0x0000000000040050 [0x05, 0xFF, 0x01, 0x02] = some ⟨.ok, 0x0, [0x04, 0xFF, 0xFF, 0x00, 0x00, 0x05,
      0xFF, 0x01, 0x02, 0x00, 0x00, 0x00, 0x00, 0x00, 0x00, 0x00, 0x00, 0x00, 0x00, 0x00, 0x00, 0x00, 0x00, 0x00,
      0x00, 0x00, 0x00, 0x00, 0x00, 0x00, 0x00, 0x00, 0x00, 0x00, 0x00, 0x00]⟩ := by
  decide +kernel

/-- 95 V-X-2. -/
theorem test_x_inject_hex :
    hexParse [0x30, 0x78, 0x31, 0x2E, 0x32, 0x2E, 0x33] = [0x12, 0x30] ∧
    hexParse [0x41, 0x42, 0x43] = [0xAB, 0xC0] ∧
    hexParse [0x7A, 0x7A] = [] ∧
    hexParse [0x30, 0x58, 0x30, 0x31, 0x30, 0x32, 0x20, 0x28, 0x61, 0x29, 0x20, 0x28, 0x62, 0x29] = [0x01, 0x02] ∧
    hexParse [0x31, 0x32, 0x20, 0x33, 0x47, 0x20, 0x34, 0x35] = [0x12, 0x30] ∧
    answerOf ti 0x0000000000090051 [0x32, 0x38, 0x20, 0x28, 0x70, 0x61, 0x69, 0x72, 0x29] = some ⟨.ok, 0x0, [0x01,
      0xFF, 0xFF, 0x00, 0x00, 0x28, 0x00, 0x00, 0x00, 0x00, 0x00, 0x00, 0x00, 0x00, 0x00, 0x00, 0x00, 0x00, 0x00,
      0x00, 0x00, 0x00, 0x00, 0x00, 0x00, 0x00, 0x00, 0x00, 0x00, 0x00, 0x00, 0x00, 0x00, 0x00, 0x00, 0x00]⟩ := by
  decide +kernel

/-- 95 V-X-3: live until 3000; at 3000 the entry has expired. -/
theorem test_x_capture :
    answerOf (captured 3000) 0x00000BB700010252 [0xAA] = some ⟨.duplicate, 0x0, []⟩ ∧
    answerOf (captured 3000) 0x00000BB800010252 [0xAA] = some ⟨.unidentified, 0x0, []⟩ ∧
    (run (captured 3000) 0x00000BB800010252 [0xAA]).dedup = [⟨[0xAA], 5000⟩] := by
  decide +kernel

/-- 95 section 8: an unused operation, a nonzero reserved field, a short payload, a kind code above 16, and the check
  of the
fields before that of the controller index. -/
theorem test_decoding_checks :
    answerOf ti 0x000000000000000A [] = some ⟨.illegal, 0x0, []⟩ ∧
    answerOf ti 0x0000000000000103 [] = some ⟨.illegal, 0x0, []⟩ ∧
    answerOf ti 0x00000000000F0213 [0x00, 0x00, 0x00, 0x00, 0x00, 0x00, 0x00, 0x00, 0x00, 0x00, 0x00, 0x00, 0x00,
      0x00, 0x00] = some ⟨.illegal, 0x0, []⟩ ∧
    answerOf ti 0x0000000000080535 [0x11, 0x00, 0x00, 0x00, 0x00, 0x00, 0x00, 0x00] = some ⟨.illegal, 0x0, []⟩ ∧
    answerOf ti 0x0000000000080535 [0x04, 0x00, 0x00, 0x00, 0x00, 0x00, 0x00, 0x00] = some ⟨.range, 0x0, []⟩ := by
  decide +kernel

/-- R94's examples, 95 V-P-1's `seed=0x16F`, and 95 V-G-2's `imm=0x2000` with the field names of R82. -/
theorem test_assemble :
    assemble ⟨"S.TICK", [("now", 1200)], []⟩ = some ⟨0x000004B000000042, []⟩ ∧
    assemble ⟨"P.CRC_CCITT", [("init", 0xEDCB)], [.bytes [0x31, 0x32, 0x33]]⟩ =
      some ⟨0x0000EDCB00030006, [0x31, 0x32, 0x33]⟩ ∧
    assemble ⟨"Q.ENQUEUE", [("ctl", 0)], [.cmd ⟨.lightOn, 0, ⟨0, 0, 0, 0, 0⟩⟩]⟩ =
      some ⟨0x0000000000080035, [0x04, 0, 0, 0, 0, 0, 0, 0]⟩ ∧
    assemble ⟨"P.WHITEN_LFSR", [("seed", 0x16F)], [.bytes [0x11, 0x22, 0x33]]⟩ =
      some ⟨0x0000016F00030001, [0x11, 0x22, 0x33]⟩ ∧
    assemble ⟨"G.LOOKUP_FV", [("variant", 0x20), ("family", 0)], []⟩ = some ⟨0x0000200000000021, []⟩ := by
  decide +kernel

/-- Texts that R94 gives no request (log 31): a value too wide, a repeated operand, two operands for one field, a name
and a mnemonic that R82 does not list. -/
theorem test_assemble_none :
    assemble ⟨"S.TICK", [("now", 2 ^ 32)], []⟩ = none ∧ assemble ⟨"S.TICK", [("now", 1), ("now", 1)], []⟩ = none ∧
    assemble ⟨"Q.PUMP", [("ctl", 0), ("sel", 0)], []⟩ = none ∧ assemble ⟨"S.TICK", [("seed", 1)], []⟩ = none ∧
    assemble ⟨"S.TOCK", [], []⟩ = none := by
  decide +kernel

/-! ## Decoding: the bytes of one request per operation, from the table of R82 -/

/-- R80, R82: the operations P.*, with SEL 0x5A, LEN 0x0102, IMM 0x8899AABB and one payload byte. -/
theorem test_decode_p :
    decodeBytes [0x01, 0x5A, 0x02, 0x01, 0xBB, 0xAA, 0x99, 0x88, 0x77] = .ok (.pWhitenLfsr ⟨0x5A, 0x0102, 0x8899AABB, [0x77]⟩) ∧
    decodeBytes [0x02, 0x5A, 0x02, 0x01, 0xBB, 0xAA, 0x99, 0x88, 0x77] = .ok (.pWhitenTable ⟨0x5A, 0x0102, 0x8899AABB, [0x77]⟩) ∧
    decodeBytes [0x03, 0x5A, 0x02, 0x01, 0xBB, 0xAA, 0x99, 0x88, 0x77] = .ok (.pRevBits ⟨0x5A, 0x0102, 0x8899AABB, [0x77]⟩) ∧
    decodeBytes [0x04, 0x5A, 0x02, 0x01, 0xBB, 0xAA, 0x99, 0x88, 0x77] = .ok (.pRevBitsAll ⟨0x5A, 0x0102, 0x8899AABB, [0x77]⟩) ∧
    decodeBytes [0x05, 0x5A, 0x02, 0x01, 0xBB, 0xAA, 0x99, 0x88, 0x77] = .ok (.pRevBytes ⟨0x5A, 0x0102, 0x8899AABB, [0x77]⟩) ∧
    decodeBytes [0x06, 0x5A, 0x02, 0x01, 0xBB, 0xAA, 0x99, 0x88, 0x77] = .ok (.pCrcCcitt ⟨0x5A, 0x0102, 0x8899AABB, [0x77]⟩) ∧
    decodeBytes [0x07, 0x5A, 0x02, 0x01, 0xBB, 0xAA, 0x99, 0x88, 0x77] = .ok (.pCrcRefl ⟨0x5A, 0x0102, 0x8899AABB, [0x77]⟩) ∧
    decodeBytes [0x08, 0x5A, 0x02, 0x01, 0xBB, 0xAA, 0x99, 0x88, 0x77] = .ok (.pAesSign16 ⟨0x5A, 0x0102, 0x8899AABB, [0x77]⟩) ∧
    decodeBytes [0x09, 0x5A, 0x02, 0x01, 0xBB, 0xAA, 0x99, 0x88, 0x77] = .ok (.pPivotFix ⟨0x5A, 0x0102, 0x8899AABB, [0x77]⟩) :=
  ⟨rfl, rfl, rfl, rfl, rfl, rfl, rfl, rfl, rfl⟩

/-- R80, R82: the operations K.*, with SEL 0x5A, LEN 0x0102, IMM 0x8899AABB and one payload byte. -/
theorem test_decode_k :
    decodeBytes [0x10, 0x5A, 0x02, 0x01, 0xBB, 0xAA, 0x99, 0x88, 0x77] = .ok (.kIdentifier ⟨0x5A, 0x0102, 0x8899AABB, [0x77]⟩) ∧
    decodeBytes [0x11, 0x5A, 0x02, 0x01, 0xBB, 0xAA, 0x99, 0x88, 0x77] = .ok (.kIsSupported ⟨0x5A, 0x0102, 0x8899AABB, [0x77]⟩) ∧
    decodeBytes [0x12, 0x5A, 0x02, 0x01, 0xBB, 0xAA, 0x99, 0x88, 0x77] = .ok (.kTranslate ⟨0x5A, 0x0102, 0x8899AABB, [0x77]⟩) ∧
    decodeBytes [0x13, 0x5A, 0x02, 0x01, 0xBB, 0xAA, 0x99, 0x88, 0x77] = .ok (.kEncode ⟨0x5A, 0x0102, 0x8899AABB, [0x77]⟩) ∧
    decodeBytes [0x14, 0x5A, 0x02, 0x01, 0xBB, 0xAA, 0x99, 0x88, 0x77] = .ok (.kDecode ⟨0x5A, 0x0102, 0x8899AABB, [0x77]⟩) :=
  ⟨rfl, rfl, rfl, rfl, rfl⟩

/-- R80, R82: the operations G.*, with SEL 0x5A, LEN 0x0102, IMM 0x8899AABB and one payload byte. -/
theorem test_decode_g :
    decodeBytes [0x20, 0x5A, 0x02, 0x01, 0xBB, 0xAA, 0x99, 0x88, 0x77] = .ok (.gLookupId ⟨0x5A, 0x0102, 0x8899AABB, [0x77]⟩) ∧
    decodeBytes [0x21, 0x5A, 0x02, 0x01, 0xBB, 0xAA, 0x99, 0x88, 0x77] = .ok (.gLookupFv ⟨0x5A, 0x0102, 0x8899AABB, [0x77]⟩) ∧
    decodeBytes [0x22, 0x5A, 0x02, 0x01, 0xBB, 0xAA, 0x99, 0x88, 0x77] = .ok (.gCount ⟨0x5A, 0x0102, 0x8899AABB, [0x77]⟩) ∧
    decodeBytes [0x23, 0x5A, 0x02, 0x01, 0xBB, 0xAA, 0x99, 0x88, 0x77] = .ok (.gIdentify ⟨0x5A, 0x0102, 0x8899AABB, [0x77]⟩) ∧
    decodeBytes [0x24, 0x5A, 0x02, 0x01, 0xBB, 0xAA, 0x99, 0x88, 0x77] = .ok (.gDescribe ⟨0x5A, 0x0102, 0x8899AABB, [0x77]⟩) :=
  ⟨rfl, rfl, rfl, rfl, rfl⟩

/-- R80, R82: the operations Q.*, with SEL 0x5A, LEN 0x0102, IMM 0x8899AABB and one payload byte. -/
theorem test_decode_q :
    decodeBytes [0x30, 0x5A, 0x02, 0x01, 0xBB, 0xAA, 0x99, 0x88, 0x77] = .ok (.qSetParams ⟨0x5A, 0x0102, 0x8899AABB, [0x77]⟩) ∧
    decodeBytes [0x31, 0x5A, 0x02, 0x01, 0xBB, 0xAA, 0x99, 0x88, 0x77] = .ok (.qGetParams ⟨0x5A, 0x0102, 0x8899AABB, [0x77]⟩) ∧
    decodeBytes [0x32, 0x5A, 0x02, 0x01, 0xBB, 0xAA, 0x99, 0x88, 0x77] = .ok (.qSetCodec ⟨0x5A, 0x0102, 0x8899AABB, [0x77]⟩) ∧
    decodeBytes [0x33, 0x5A, 0x02, 0x01, 0xBB, 0xAA, 0x99, 0x88, 0x77] = .ok (.qSetMintx ⟨0x5A, 0x0102, 0x8899AABB, [0x77]⟩) ∧
    decodeBytes [0x34, 0x5A, 0x02, 0x01, 0xBB, 0xAA, 0x99, 0x88, 0x77] = .ok (.qSetSeqdur ⟨0x5A, 0x0102, 0x8899AABB, [0x77]⟩) ∧
    decodeBytes [0x35, 0x5A, 0x02, 0x01, 0xBB, 0xAA, 0x99, 0x88, 0x77] = .ok (.qEnqueue ⟨0x5A, 0x0102, 0x8899AABB, [0x77]⟩) ∧
    decodeBytes [0x36, 0x5A, 0x02, 0x01, 0xBB, 0xAA, 0x99, 0x88, 0x77] = .ok (.qDequeueFront ⟨0x5A, 0x0102, 0x8899AABB, [0x77]⟩) ∧
    decodeBytes [0x37, 0x5A, 0x02, 0x01, 0xBB, 0xAA, 0x99, 0x88, 0x77] = .ok (.qPump ⟨0x5A, 0x0102, 0x8899AABB, [0x77]⟩) ∧
    decodeBytes [0x38, 0x5A, 0x02, 0x01, 0xBB, 0xAA, 0x99, 0x88, 0x77] = .ok (.qStatus ⟨0x5A, 0x0102, 0x8899AABB, [0x77]⟩) :=
  ⟨rfl, rfl, rfl, rfl, rfl, rfl, rfl, rfl, rfl⟩

/-- R80, R82: the operations S.*, with SEL 0x5A, LEN 0x0102, IMM 0x8899AABB and one payload byte. -/
theorem test_decode_s :
    decodeBytes [0x40, 0x5A, 0x02, 0x01, 0xBB, 0xAA, 0x99, 0x88, 0x77] = .ok (.sAddBatch ⟨0x5A, 0x0102, 0x8899AABB, [0x77]⟩) ∧
    decodeBytes [0x41, 0x5A, 0x02, 0x01, 0xBB, 0xAA, 0x99, 0x88, 0x77] = .ok (.sRemoveBatch ⟨0x5A, 0x0102, 0x8899AABB, [0x77]⟩) ∧
    decodeBytes [0x42, 0x5A, 0x02, 0x01, 0xBB, 0xAA, 0x99, 0x88, 0x77] = .ok (.sTick ⟨0x5A, 0x0102, 0x8899AABB, [0x77]⟩) ∧
    decodeBytes [0x43, 0x5A, 0x02, 0x01, 0xBB, 0xAA, 0x99, 0x88, 0x77] = .ok (.sStatus ⟨0x5A, 0x0102, 0x8899AABB, [0x77]⟩) :=
  ⟨rfl, rfl, rfl, rfl⟩

/-- R80, R82: the operations X.*, with SEL 0x5A, LEN 0x0102, IMM 0x8899AABB and one payload byte. -/
theorem test_decode_x :
    decodeBytes [0x50, 0x5A, 0x02, 0x01, 0xBB, 0xAA, 0x99, 0x88, 0x77] = .ok (.xFromRaw ⟨0x5A, 0x0102, 0x8899AABB, [0x77]⟩) ∧
    decodeBytes [0x51, 0x5A, 0x02, 0x01, 0xBB, 0xAA, 0x99, 0x88, 0x77] = .ok (.xInjectHex ⟨0x5A, 0x0102, 0x8899AABB, [0x77]⟩) ∧
    decodeBytes [0x52, 0x5A, 0x02, 0x01, 0xBB, 0xAA, 0x99, 0x88, 0x77] = .ok (.xCapture ⟨0x5A, 0x0102, 0x8899AABB, [0x77]⟩) :=
  ⟨rfl, rfl, rfl⟩

/-- R92: an operation outside the map, and a string shorter than a request word. -/
theorem test_decode_refused :
    decodeBytes [0x0A, 0, 0, 0, 0, 0, 0, 0] = .error (.illegalOp 0x0A) ∧
    decodeBytes [0x53, 0, 0, 0, 0, 0, 0, 0] = .error (.illegalOp 0x53) ∧
    decodeBytes [0x22, 0, 0, 0, 0, 0, 0] = .error .truncated := ⟨rfl, rfl, rfl⟩

/-- R80: the bits of a row's word; the payload of LEN bytes follows, and every bit above the row's is 0. -/
theorem test_decode_table_word :
    decodeTableWord 8 0x22 = some (.gCount ⟨0, 0, 0, []⟩) ∧
    decodeTableWord 72 0x1F0000000000010004 = some (.pRevBitsAll ⟨0, 1, 0, [0x1F]⟩) ∧
    decodeTableWord 64 0x0000000000010004 = some (.pRevBitsAll ⟨0, 1, 0, [0x00]⟩) ∧
    decodeTableWord 8 0x53 = none := by
  decide +kernel

/-- The next step performs the request that `withFetchWord` presents. -/
theorem test_fetch_word : step (State.reset.withFetchWord 8 0x22) = exec (.gCount ⟨0, 0, 0, []⟩) State.reset := rfl

/-! ## Ill-formed requests: one for each check of R83 -/

/-- Check 2: a nonzero `SEL` or `IMM` field that must be zero, and a `LEN` that is not the payload's. -/
theorem test_wellFormed_fields :
    ¬ (Instr.gCount ⟨1, 0, 0, []⟩).WellFormed ∧ ¬ (Instr.gCount ⟨0, 0, 1, []⟩).WellFormed ∧
    ¬ (Instr.pRevBits ⟨0, 0, 0x100, []⟩).WellFormed ∧ (Instr.pRevBits ⟨0, 0, 0xFF, []⟩).WellFormed ∧
    ¬ (Instr.qSetMintx ⟨0, 0, 0x10000, []⟩).WellFormed ∧ ¬ (Instr.xCapture ⟨0, 2, 0, [0]⟩).WellFormed := by
  decide

/-- Check 3: the payload lengths. -/
theorem test_wellFormed_length :
    ¬ (Instr.gCount ⟨0, 1, 0, [0]⟩).WellFormed ∧ ¬ (Instr.gLookupId ⟨0, 0, 0, []⟩).WellFormed ∧
    ¬ (Instr.pRevBytes ⟨0, 32, 0, List.replicate 32 0⟩).WellFormed ∧
    (Instr.pRevBytes ⟨0, 31, 0, List.replicate 31 0⟩).WellFormed ∧
    ¬ (Instr.pAesSign16 ⟨0, 31, 0, List.replicate 31 0⟩).WellFormed ∧
    ¬ (Instr.qSetParams ⟨0, 7, 0, List.replicate 7 0⟩).WellFormed ∧
    ¬ (Instr.kEncode ⟨0, 8, 0, List.replicate 8 0⟩).WellFormed := by
  decide

/-- Check 3: a kind code above 16, a WP with `len` above 31 or an index that is not below `len`, a WP list whose count
is not its number of records. -/
theorem test_wellFormed_records :
    ¬ (Instr.qEnqueue ⟨0, 8, 0, 17 :: List.replicate 7 0⟩).WellFormed ∧
    (Instr.qEnqueue ⟨0, 8, 0, 16 :: List.replicate 7 0⟩).WellFormed ∧
    ¬ (Instr.kDecode ⟨0, 36, 0, 32 :: List.replicate 35 0⟩).WellFormed ∧
    ¬ (Instr.kDecode ⟨0, 36, 0, 4 :: 0xFF :: 4 :: List.replicate 33 0⟩).WellFormed ∧
    (Instr.kDecode ⟨0, 36, 0, 4 :: 0xFF :: 3 :: List.replicate 33 0⟩).WellFormed ∧
    ¬ (Instr.sAddBatch ⟨0, 37, 0, 2 :: List.replicate 36 0⟩).WellFormed := by
  decide

/-! ## Witnesses: a state and operands that meet the hypotheses of each statement

A statement about the build's configuration has its witness in a state of that configuration; a statement about every
lawful configuration has it in TI. -/

/-- TI is lawful. -/
theorem witness_lawful : TI.config.Lawful := TI.lawful

/-- The build has an FLV1 codec, at an index that a byte names (R314). -/
theorem build_flv1 : ∃ (n : Byte) (v : Codec) (k : Nat) (u : Flv1Variant),
    Config.build.registry[n.toNat]? = some v ∧ v.kind = .flv1 k u := by
  obtain ⟨P, _, _, _, n, v, k, u, d, hv, hk, _⟩ := Config.build_lawful.pair_packet
  have h1 := (List.getElem?_eq_some_iff.mp hv).1
  have h2 := Config.build_lawful.registry_le
  refine ⟨BitVec.ofNat 8 n, v, k, u, ?_, hk⟩
  rw [BitVec.toNat_ofNat, Nat.mod_eq_of_lt (by omega)]
  exact hv

/-- The first codec of the build. -/
theorem build_first : ∃ v : Codec, Config.build.registry[(0 : Byte).toNat]? = some v :=
  ⟨_, List.getElem?_eq_getElem (show (0 : Byte).toNat < _ from Config.build_lawful.registry_pos)⟩

/-- A Custom Command whose opcode fits eight bits, and the bytes of its record. -/
def custom : Command := ⟨.custom, 0x28, ⟨1, 2, 3, 4, 5⟩⟩
def customBytes : List Byte := [3, 0x28, 0, 1, 2, 3, 4, 5]

/-- The build with one controller, whose codec is `n` and whose queue is `q`. -/
def smallBuild (n : Byte) (q : List QueueEntry) : State :=
  { State.reset with ctl := [⟨⟨0, 0, 0, 0⟩, n, 100, 0, q, false, 0⟩] }

/-- The bytes of a WP record of 31 bytes whose data index is the last one. -/
def widestWp : List Byte := 31 :: 0xFF :: 30 :: List.replicate 33 0

/-! ### The port, the statuses, reset and the invariants -/

theorem witness_DecodedBytesEncodeBack :
    decodeBytes [0x22, 0, 0, 0, 0, 0, 0, 0] = .ok (.gCount ⟨0, 0, 0, []⟩) := rfl

theorem witness_RecordsReadBack :
    (Kind.noOp, 0) ∈ kindCodes ∧ (Kind.fanOscillate, 16) ∈ kindCodes ∧ 16 < (byteAt [17] 0).toNat ∧
    WireOk ⟨List.replicate 31 0, 30, 0xFF, 0xFFFF⟩ ∧ (List.replicate 31 (0 : Byte)).length + ([] : List Byte).length = 31 ∧
    WireOk ⟨[], 0xFF, 0xFF, 0⟩ ∧ ([] : List Byte).length + (List.replicate 31 (0xFF : Byte)).length = 31 ∧
    (List.replicate 255 small).length ≤ 255 ∧ ∀ w ∈ List.replicate 255 small, WireOk w := by
  refine ⟨by decide, by decide, by decide, ⟨by decide, by decide, by decide⟩, by simp,
    ⟨by decide, by decide, by decide⟩, by simp, by simp, fun w hw => ?_⟩
  rw [List.eq_of_mem_replicate hw]
  exact ⟨by decide, by decide, by decide⟩

theorem witness_StepPerformsFirstRequest :
    State.reset.port = [] ∧
    (present State.reset ⟨0x22, []⟩).port = ⟨0x22, []⟩ :: [] ∧
    decodeBytes (requestBytes ⟨0x22, []⟩) = .ok (.gCount ⟨0, 0, 0, []⟩) ∧
    (present State.reset ⟨0x0A, []⟩).port = ⟨0x0A, []⟩ :: [] ∧
    ∀ i, decodeBytes (requestBytes ⟨0x0A, []⟩) ≠ .ok i := by
  refine ⟨rfl, rfl, rfl, rfl, fun i h => ?_⟩
  cases h

/-- Every bound of the ranges of R92; each cause of `BreaksEncoding` at its first value; and requests without a cause at
the last one. -/
theorem witness_MalformedRequestsAnswerIllegal :
    (∀ op ∈ ([0x00, 0x0A, 0x0F, 0x15, 0x1F, 0x25, 0x2F, 0x39, 0x3F, 0x44, 0x4F, 0x53, 0xFF] : List U64),
      (present State.reset ⟨op, []⟩).port = ⟨op, []⟩ :: [] ∧
      (let n := (op.extractLsb' 0 8).toNat
       n = 0x00 ∨ (0x0A ≤ n ∧ n ≤ 0x0F) ∨ (0x15 ≤ n ∧ n ≤ 0x1F) ∨ (0x25 ≤ n ∧ n ≤ 0x2F) ∨
         (0x39 ≤ n ∧ n ≤ 0x3F) ∨ (0x44 ≤ n ∧ n ≤ 0x4F) ∨ 0x53 ≤ n)) ∧
    (∀ i ∈ [Instr.gCount ⟨1, 0, 0, []⟩, .pRevBits ⟨0, 0, 0x100, []⟩, .qStatus ⟨0, 0, 1, []⟩, .gCount ⟨0, 1, 0, []⟩,
        .gCount ⟨0, 1, 0, [0]⟩, .pRevBytes ⟨0, 32, 0, List.replicate 32 0⟩, .gLookupId ⟨0, 0, 0, []⟩,
        .gLookupId ⟨0, 33, 0, List.replicate 33 0⟩, .xCapture ⟨0, 0, 0, []⟩, .qSetParams ⟨0, 7, 0, List.replicate 7 0⟩,
        .kIsSupported ⟨0, 8, 0, 17 :: List.replicate 7 0⟩, .kDecode ⟨0, 36, 0, 32 :: 0xFF :: 0xFF :: List.replicate 33 0⟩,
        .gIdentify ⟨0, 36, 0, 31 :: 0xFF :: 31 :: List.replicate 33 0⟩,
        .sAddBatch ⟨0, 73, 0, 2 :: widestWp ++ 0 :: 0 :: 0xFF :: List.replicate 33 0⟩],
      BreaksEncoding i) ∧
    ∀ i ∈ [Instr.gCount ⟨0, 0, 0, []⟩, .pRevBits ⟨0, 0, 0xFF, []⟩, .pRevBytes ⟨0, 31, 0, List.replicate 31 0⟩,
        .kIsSupported ⟨0, 8, 0, 16 :: List.replicate 7 0⟩, .gIdentify ⟨0, 36, 0, widestWp⟩,
        .sAddBatch ⟨0, 73, 0, 2 :: widestWp ++ widestWp⟩],
      ¬ BreaksEncoding i := by
  unfold BreaksEncoding FieldBroken LengthBroken RecordBroken WpBroken
  refine ⟨fun op h => ⟨rfl, ?_⟩, by decide, by decide⟩
  simp only [List.mem_cons, List.not_mem_nil, or_false] at h
  rcases h with rfl | rfl | rfl | rfl | rfl | rfl | rfl | rfl | rfl | rfl | rfl | rfl | rfl <;> decide

/-- Each clause at the first value that is out of range, in TI: controller 2, codec 9, tx_count 16 of ceiling 16,
minTxDuration 99 and 501, a full queue, a full FIFO. -/
theorem witness_OutOfRangeRequestsAnswerRange :
    ((Instr.qStatus ⟨2, 0, 0, []⟩).WellFormed ∧ controllerOf (.qStatus ⟨2, 0, 0, []⟩) = some 2 ∧
      ti.ctl.length ≤ (2 : Byte).toNat) ∧
    ((Instr.gDescribe ⟨9, 0, 0, []⟩).WellFormed ∧ codecOf (.gDescribe ⟨9, 0, 0, []⟩) = some 9 ∧
      TI.config.registry.length ≤ (9 : Byte).toNat) ∧
    ((Instr.qSetCodec ⟨0, 0, 9, []⟩).WellFormed ∧ TI.config.registry.length ≤ ((9 : U32).extractLsb' 0 8).toNat) ∧
    (let r : Fields := ⟨0, 8, 0, [0, 0, 0, 0, 0, 16, 0, 0]⟩
     (Instr.qSetParams r).WellFormed ∧
     ∃ k v, (queueOf 7 []).ctl[r.sel.toNat]? = some k ∧ TI.config.registry[k.codec.toNat]? = some v ∧
       ceilOf TI.config v ≤ (readParams r.payload 0).tx.toNat) ∧
    ((Instr.qSetMintx ⟨0, 0, 99, []⟩).WellFormed ∧ ((99 : U32).extractLsb' 0 16).toNat < 100 ∧
      (Instr.qSetMintx ⟨0, 0, 501, []⟩).WellFormed ∧ 500 < ((501 : U32).extractLsb' 0 16).toNat) ∧
    (let r : Fields := ⟨0, 8, 0, customBytes⟩
     (Instr.qEnqueue r).WellFormed ∧ readCmd r.payload 0 = some custom ∧
     ∃ k v, (queueOf 2 fullQueue).ctl[r.sel.toNat]? = some k ∧ TI.config.registry[k.codec.toNat]? = some v ∧
       translation TI.config v custom k.params ≠ [] ∧ TI.config.cqCap ≤ (evictKind custom.kind k.queue).length) ∧
    (let s : State := { queueOf 2 [⟨.lightOff, [small]⟩] with sched := ⟨.idle, 1, 0, List.replicate 16 (entry 1), 2⟩ }
     (Instr.qPump ⟨0, 0, 0, []⟩).WellFormed ∧
     ∃ k, s.ctl[(0 : Byte).toNat]? = some k ∧ k.queue = ⟨.lightOff, [small]⟩ :: [] ∧
       TI.config.fifoCap < s.sched.fifo.length + 1) ∧
    (let s := fifoOf .idle (List.replicate 16 (entry 1)) 0 2
     let r : Fields := ⟨0, 37, 0, 1 :: writeWp small⟩
     (Instr.sAddBatch r).WellFormed ∧ readWpList r.payload = some [small] ∧
       TI.config.fifoCap < s.sched.fifo.length + 1) := by
  refine ⟨by decide, by decide, by decide, ⟨by decide, _, _, rfl, rfl, by decide⟩, by decide,
    ⟨by decide, by decide, _, _, rfl, rfl, by decide, by decide⟩, ⟨by decide, _, rfl, rfl, by decide⟩, by decide⟩

theorem witness_FailedRequestsWriteNothing :
    isCapture (.gCount ⟨1, 0, 0, []⟩) = false ∧
    exec (.gCount ⟨1, 0, 0, []⟩) State.reset = .next (State.reset.answer ⟨.illegal, 0, []⟩) ∧
    Status.illegal ≠ .ok ∧ isCapture (.xCapture ⟨0, 1, 0, [0]⟩) = true :=
  ⟨rfl, rfl, by decide, rfl⟩

theorem witness_ReadingRequestsWriteNothing : onlyReads (.gIdentify ⟨0, 36, 0, widestWp⟩) = true := rfl

theorem witness_ResetValues : 0 < Config.build.nCtrl ∧ Config.build.nCtrl - 1 < Config.build.nCtrl := by
  have := Config.build_lawful.nCtrl_pos
  omega

/-- A state with a packet on air, and the tick that stops it presented. -/
def onAir : State :=
  { State.reset with
    sched := ⟨.broadcasting, 1, 100, [⟨small, 1, true, true⟩], 2⟩, events := [.start small.data]
    port := [⟨0x0000006500000042, []⟩] }

theorem witness_StepKeepsStateGood : Good Config.build onAir ∧ ∃ t, step onAir = .next t := by
  have L := Config.build_lawful
  refine ⟨⟨by simp [onAir], fun k hk => ?_, ⟨fun _ => ⟨_, _, rfl, rfl, rfl⟩, L.fifoCap_pos, ?_, by decide⟩,
    ⟨Nat.zero_le _, fun e he => (by cases he)⟩, by decide, by decide⟩, _, rfl⟩
  · simp only [onAir, State.reset, resetState, List.mem_map, List.mem_range] at hk
    obtain ⟨c, hc, rfl⟩ := hk
    have hl := L.codecReset_lt c hc
    exact ⟨⟨_, List.getElem?_eq_getElem hl, (ceilOf_bounds L _).1⟩, L.mintxReset_ge, L.mintxReset_le,
      Nat.zero_le _, fun e he => (by cases he)⟩
  · intro e he
    simp only [onAir, List.mem_singleton] at he
    subst he
    exact ⟨by decide, by decide, by decide⟩

/-! ### Primitives: every request at the longest payload it takes -/

theorem witness_PrimitiveRequestsReturnOk :
    (∀ i ∈ [Instr.pWhitenLfsr ⟨0, 31, 0xFF, List.replicate 31 0⟩, .pWhitenTable ⟨0xFF, 31, 0xFF, List.replicate 31 0⟩,
        .pRevBits ⟨0, 0, 0xFF, []⟩, .pRevBitsAll ⟨0, 31, 0, List.replicate 31 0⟩,
        .pRevBytes ⟨0, 31, 0, List.replicate 31 0⟩, .pCrcCcitt ⟨0, 31, 0xFFFF, List.replicate 31 0⟩,
        .pCrcRefl ⟨0, 31, 0xFFFF, List.replicate 31 0⟩, .pAesSign16 ⟨0xFF, 32, 0xFFFF, List.replicate 32 0⟩,
        .pPivotFix ⟨0, 0, 0xFF, []⟩],
      isPrimitive i = true ∧ i.WellFormed) ∧
    (∀ i ∈ [Instr.pWhitenLfsr ⟨0, 0, 0, []⟩, .pWhitenTable ⟨0, 0, 0, []⟩, .pRevBitsAll ⟨0, 0, 0, []⟩,
        .pRevBytes ⟨0, 0, 0, []⟩, .pCrcCcitt ⟨0, 0, 0, []⟩, .pCrcRefl ⟨0, 0, 0, []⟩],
      isPrimitive i = true ∧ i.WellFormed) := by
  decide

/-- For WhitenResults, WhiteningUndoesItself, ReversalResults: the requests above, a position and a bit in range. -/
theorem witness_WhitenAndReversal :
    (Instr.pWhitenLfsr ⟨0, 31, 0xFF, List.replicate 31 0⟩).WellFormed ∧
    (Instr.pWhitenTable ⟨0xFF, 31, 0xFF, List.replicate 31 0⟩).WellFormed ∧ (Instr.pRevBits ⟨0, 0, 0xFF, []⟩).WellFormed ∧
    (Instr.pRevBitsAll ⟨0, 31, 0, List.replicate 31 0⟩).WellFormed ∧
    (Instr.pRevBytes ⟨0, 31, 0, List.replicate 31 0⟩).WellFormed ∧ 30 < (List.replicate 31 (0 : Byte)).length ∧ 7 < 8 := by
  decide

theorem witness_CrcResults :
    (Instr.pCrcCcitt ⟨0, 31, 0xFFFF, List.replicate 31 0⟩).WellFormed ∧
    (Instr.pCrcRefl ⟨0, 31, 0xFFFF, List.replicate 31 0⟩).WellFormed := by
  decide

/-- Both clauses: a ciphertext that begins with two zero bytes (R139: the result is 0xFFFF), and one that does not. -/
theorem witness_AesSignatureResult :
    (Instr.pAesSign16 ⟨0, 32, 0, List.replicate 16 0 ++ [0xA9, 0x14] ++ List.replicate 14 0⟩).WellFormed ∧
    (aes128Encrypt (List.replicate 16 0) ([0xA9, 0x14] ++ List.replicate 14 0)).take 2 = [0, 0] ∧
    answerOf ti 0x0000000000200008 (List.replicate 16 0 ++ [0xA9, 0x14] ++ List.replicate 14 0) = some ⟨.ok, 0xFFFF, []⟩ ∧
    (aes128Encrypt (List.replicate 16 0) (List.replicate 16 0)).take 2 = [0x66, 0xE9] := by
  decide +kernel

theorem witness_PivotFixResult :
    (Instr.pPivotFix ⟨0, 0, 0x55, []⟩).WellFormed ∧ ((0x55 : U32).extractLsb' 0 8).getLsbD 0 = true ∧
    (Instr.pPivotFix ⟨0, 0, 0xAA, []⟩).WellFormed ∧ ((0xAA : U32).extractLsb' 0 8).getLsbD 0 = false := by
  decide

/-! ### Codecs -/

theorem flv1_concrete {v : Codec} {k : Nat} {u : Flv1Variant} (h : v.kind = .flv1 k u) : codecAgg v = false := by
  simp [codecAgg, h]

theorem subs_custom {v : Codec} {k : Nat} {u : Flv1Variant} (h : v.kind = .flv1 k u) (p : Params) :
    subs v custom p = [⟨0x28, ⟨1, 2, 3, 4, 5⟩⟩] := by
  simp [subs, custom, fits, codecLf, h]

theorem custom_wellFormed (n : Byte) :
    (Instr.kIsSupported ⟨n, 8, 0, customBytes⟩).WellFormed ∧ (Instr.qEnqueue ⟨n, 8, 0, customBytes⟩).WellFormed ∧
    (Instr.kTranslate ⟨n, 16, 0, customBytes ++ List.replicate 8 0⟩).WellFormed ∧
    (Instr.kEncode ⟨n, 16, 0, customBytes ++ List.replicate 8 0⟩).WellFormed := ⟨rfl, rfl, rfl, rfl⟩

/-- Opcodes at the bounds of the command field: 0xFF and 0x100 of an eight-bit field (codec 5), 0xFFFF of FLV2 (codec 2);
and a kind that is not Custom. -/
theorem witness_IdentifierAndTranslateResults :
    ((Instr.kIdentifier ⟨0, 0, 0, []⟩).WellFormed ∧ ∃ v, Config.build.registry[(0 : Byte).toNat]? = some v) ∧
    (∃ (n : Byte) (v : Codec), Config.build.registry[n.toNat]? = some v ∧ codecAgg v = false ∧
      (Instr.kTranslate ⟨n, 16, 0, customBytes ++ List.replicate 8 0⟩).WellFormed ∧
      readCmd (customBytes ++ List.replicate 8 0) 0 = some custom) ∧
    (custom.kind = .custom ∧ Kind.lightOn ≠ .custom ∧
      (∃ v, TI.config.registry[5]? = some v ∧ codecAgg v = false ∧ FitsField v 0xFF ∧ ¬ FitsField v 0x100) ∧
      ∃ v, TI.config.registry[2]? = some v ∧ codecAgg v = false ∧ FitsField v 0xFFFF) ∧
    (∃ v, TI.config.registry[(4 : Byte).toNat]? = some v ∧ codecAgg v = true ∧
      (Instr.kTranslate ⟨4, 16, 0, customBytes ++ List.replicate 8 0⟩).WellFormed ∧
      readCmd (customBytes ++ List.replicate 8 0) 0 = some custom) := by
  obtain ⟨n, v, k, u, hv, hk⟩ := build_flv1
  refine ⟨⟨by decide, build_first⟩, ⟨n, v, hv, flv1_concrete hk, (custom_wellFormed n).2.2.1, rfl⟩,
    ⟨rfl, by decide, ⟨_, rfl, rfl, .inr (by decide), ?_⟩, _, rfl, rfl, .inl ⟨_, rfl⟩⟩,
    _, rfl, rfl, (custom_wellFormed 4).2.2.1, rfl⟩
  rintro (⟨signed, h⟩ | h)
  · cases h
  · exact absurd h (by decide)

theorem witness_SupportMatchesTranslation :
    (Instr.kIsSupported ⟨0, 8, 0, customBytes⟩).WellFormed ∧ (∃ v, Config.build.registry[(0 : Byte).toNat]? = some v) ∧
    readCmd customBytes 0 = some custom := ⟨(custom_wellFormed 0).1, build_first, rfl⟩

theorem witness_EncodeConcreteResult :
    ∃ (n : Byte) (v : Codec), (Instr.kEncode ⟨n, 16, 0, customBytes ++ List.replicate 8 0⟩).WellFormed ∧
      Config.build.registry[n.toNat]? = some v ∧ codecAgg v = false ∧
      readCmd (customBytes ++ List.replicate 8 0) 0 = some custom ∧
      (subs v custom (readParams (customBytes ++ List.replicate 8 0) 8)).length ≠ 0 := by
  obtain ⟨n, v, k, u, hv, hk⟩ := build_flv1
  exact ⟨n, v, (custom_wellFormed n).2.2.2, hv, flv1_concrete hk, rfl, by simp [subs_custom hk]⟩

theorem witness_EncodeAggregateResult :
    ∃ v, (Instr.kEncode ⟨4, 16, 0, customBytes ++ List.replicate 8 0⟩).WellFormed ∧
      TI.config.registry[(4 : Byte).toNat]? = some v ∧ codecAgg v = true ∧
      readCmd (customBytes ++ List.replicate 8 0) 0 = some custom ∧
      longestList custom (readParams (customBytes ++ List.replicate 8 0) 8) (members TI.config (codecFam v)) ≠ 0 :=
  ⟨_, (custom_wellFormed 4).2.2.2, rfl, rfl, rfl, by decide⟩

/-- The packet of 95 V-K-9 with the broken duplicate, as a WireParam. -/
def brokenPacket : WireParam :=
  wrap TI.ad
    ([0x26, 0x14, 0x06, 0x70, 0x1F, 0xC7, 0xC8, 0xC4, 0xC8, 0xC8, 0xFC, 0xDB] ++
     [0xC8, 0xCF, 0xC0, 0xCC, 0xD0, 0xD0, 0xE4, 0xC3, 0xD1, 0x37, 0x5B])

/-- Each refusal: FanOscillate with codec 2; the aggregate 4; no payload, an empty payload, and a payload of the right
length that fails the checks of codec 6. -/
theorem witness_CodecRefusals :
    ((Instr.kEncode ⟨2, 16, 0, 16 :: List.replicate 15 0⟩).WellFormed ∧
     readCmd (16 :: List.replicate 15 0) 0 = some ⟨.fanOscillate, 0, ⟨0, 0, 0, 0, 0⟩⟩ ∧
     ∃ v, TI.config.registry[(2 : Byte).toNat]? = some v ∧
       translation TI.config v ⟨.fanOscillate, 0, ⟨0, 0, 0, 0, 0⟩⟩ (readParams (16 :: List.replicate 15 0) 8) = []) ∧
    ((Instr.kDecode ⟨4, 36, 0, widestWp⟩).WellFormed ∧
     ∃ v, TI.config.registry[(4 : Byte).toNat]? = some v ∧ codecDecodes v = false) ∧
    (∀ w ∈ [⟨[0], 0xFF, 0, 0⟩, ⟨[], 0xFF, 0xFF, 0⟩, brokenPacket],
      (Instr.kDecode ⟨6, 36, 0, writeWp w⟩).WellFormed ∧ readWp (writeWp w) = some w ∧
      ∃ v, TI.config.registry[(6 : Byte).toNat]? = some v ∧ codecDecodes v = true ∧
        ∀ P t, payloadOf w = some (P, t) → P.length ≠ codecPlen v ∨ decPayload TI.config v P = none) := by
  refine ⟨⟨by decide, rfl, _, rfl, by decide⟩, ⟨by decide, _, rfl, rfl⟩, fun w hw => ?_⟩
  simp only [List.mem_cons, List.not_mem_nil, or_false] at hw
  rcases hw with rfl | rfl | rfl
  · refine ⟨by decide, by decide, _, rfl, rfl, fun P t h => ?_⟩
    cases h
  · refine ⟨by decide, by decide, _, rfl, rfl, fun P t h => ?_⟩
    cases h
    exact .inl (by decide)
  · refine ⟨by decide +kernel, by decide +kernel, _, rfl, rfl, fun P t h => .inr ?_⟩
    have : payloadOf brokenPacket = some
      ([0x26, 0x14, 0x06, 0x70, 0x1F, 0xC7, 0xC8, 0xC4, 0xC8, 0xC8, 0xFC, 0xDB] ++
        [0xC8, 0xCF, 0xC0, 0xCC, 0xD0, 0xD0, 0xE4, 0xC3, 0xD1, 0x37, 0x5B], some 0xFF) := by decide +kernel
    rw [this] at h
    cases h
    decide +kernel

/-- The payload and the packet of 95 V-K-1 (codec 2). -/
def flv2Payload : List Byte :=
  [0xF0, 0x08, 0x10, 0x80, 0x00, 0x01, 0x00, 0x01, 0x1D, 0x38, 0x2B, 0x34, 0x35, 0x26, 0x37, 0x30, 0x31, 0x32, 0x33] ++
    [0x00, 0x00, 0x34, 0x12, 0x12, 0xE7]
def flv2Packet : WireParam := ⟨[0x02, 0x01, 0x06, 0x1A, 0xFF] ++ flv2Payload, 0x00, 0x03, 0⟩

/-- Its payload is one that codec 2 accepts; codecs 0 and 5 to 7 accept the payloads of V-K-5, V-K-8, V-K-9 and V-K-10. -/
theorem witness_CodecRefusals_accepts :
    TI.config.Lawful ∧ (Instr.kDecode ⟨2, 36, 0, writeWp flv2Packet⟩).WellFormed ∧
    readWp (writeWp flv2Packet) = some flv2Packet ∧
    (∃ v, TI.config.registry[(2 : Byte).toNat]? = some v ∧ payloadOf flv2Packet = some (flv2Payload, some 0xFF) ∧
      Accepts TI.config v flv2Payload ⟨⟨0x10, ⟨0, 0, 0, 0, 0⟩⟩, 0x1234, 0, 1, 0x1234⟩) ∧
    (decodedBy 0 [0xAA, 0x98, 0x43, 0xAF, 0x0B, 0x46, 0x46, 0x46, 0x3B, 0xE9, 0xD1, 0xCF, 0x86, 0xE6, 0x05, 0x4B, 0xD8,
      0xBB, 0x98, 0x08, 0x24, 0xD9, 0x0F, 0xD4]).isSome = true ∧
    (decodedBy 5 [0x48, 0xC0, 0xD8, 0x4C, 0x4D, 0x4F, 0x4C, 0x78, 0x7A, 0x7F, 0x7F, 0x74, 0xF5]).isSome = true ∧
    (decodedBy 6 [0x26, 0x14, 0x06, 0x70, 0x1F, 0xC7, 0xC8, 0xC4, 0xC8, 0xC8, 0xFC, 0xDB, 0xC8, 0xCF, 0xC0, 0xCC, 0xD0,
      0xD0, 0xE4, 0xC3, 0xD0, 0xBE, 0x4A]).isSome = true ∧
    (decodedBy 7 [0xB3, 0xBF, 0xB2, 0xB1, 0xA8, 0xAC, 0xAB, 0xA7, 0xB2, 0xB1, 0xB0, 0xB4, 0xBB, 0xBB, 0xBB, 0xBB, 0x67,
      0x66, 0x65, 0x64, 0x63, 0x62, 0x61]).isSome = true := by
  refine ⟨TI.lawful, by decide +kernel, by decide +kernel, ⟨_, rfl, by decide +kernel, ?_⟩, by decide +kernel,
    by decide +kernel, by decide +kernel, by decide +kernel⟩
  show Flv2Accepts TI.config false _ _
  refine ⟨rfl, by decide +kernel, by decide +kernel, by decide +kernel,
      [0xF0, 0x08, 0x10, 0x80, 0x00, 0x01, 0x00, 0x01, 0x34, 0x12, 0x00, 0x00, 0x00, 0x10, 0x00] ++
        [0x00, 0x00, 0x00, 0x00, 0x00, 0x00, 0x34, 0x12], rfl, by decide +kernel, by decide +kernel,
      by decide +kernel, by decide +kernel, by decide +kernel, by decide +kernel, by decide +kernel, by decide +kernel⟩

/-- Codec 2 is concrete; codecs 0 to 8 of TI have every kind, and both aggregates have members. -/
theorem witness_EncodeResultBounds :
    TI.config.Lawful ∧
    (∃ v ∈ TI.config.registry, codecAgg v = false ∧
      ∃ p' ws d, encodeCmd TI.config v custom ⟨0, 0, 0xFF, 0x1234⟩ ⟨[], 0⟩ = some (p', ws, d)) ∧
    (TI.config.registry.map fun v => codesOf v.kind) =
      [(0, 0x10), (0, 0x11), (0, 0x20), (0, 0x21), (0, 0xFF), (1, 0), (1, 1), (1, 2), (1, 0xFF)] ∧
    (members TI.config .fanlamp).length = 4 ∧ (members TI.config .zhijia).length = 3 :=
  ⟨TI.lawful, ⟨_, List.mem_of_getElem? (show TI.config.registry[2]? = some _ from rfl), rfl, _, _, _, rfl⟩,
    by decide +kernel, by decide +kernel, by decide +kernel⟩

/-- Its last clause is met by an opcode next to `PAIR_OP`. -/
theorem witness_DecodeInvertsFlv1Encode :
    (∃ (n : Byte) (v : Codec) (k : Nat) (u : Flv1Variant),
      Config.build.registry[n.toNat]? = some v ∧ v.kind = .flv1 k u ∧ (0xFF : U16).toNat < 256) ∧
    ∃ c : U16, c.toNat < 256 ∧ c ≠ Config.build.pairOp.setWidth 16 := by
  obtain ⟨n, v, k, u, hv, hk⟩ := build_flv1
  have : ∀ b : Byte, ∃ c : U16, c.toNat < 256 ∧ c ≠ b.setWidth 16 := fun b =>
    if h : b = 0 then ⟨1, by decide, by subst h; decide⟩
    else ⟨0, by decide, fun e => h (by revert e h; revert b; decide)⟩
  exact ⟨⟨n, v, k, u, hv, hk, by decide⟩, this _⟩

/-- Codecs 2 and 3 are FLV2 unsigned and signed, codecs 5 to 7 Zhijia v0 to v2. -/
theorem witness_DecodeInvertsFlv2AndZhijiaEncode :
    (∃ v, TI.config.registry[(2 : Byte).toNat]? = some v ∧ v.kind = .flv2 false) ∧
    (∃ v, TI.config.registry[(3 : Byte).toNat]? = some v ∧ v.kind = .flv2 true) ∧
    (∃ v, TI.config.registry[(5 : Byte).toNat]? = some v ∧ v.kind = .zj0) ∧
    (∃ v, TI.config.registry[(6 : Byte).toNat]? = some v ∧ v.kind = .zj1) ∧
    (∃ v, TI.config.registry[(7 : Byte).toNat]? = some v ∧ v.kind = .zj2) ∧ (0xFF : U16).toNat < 256 :=
  ⟨⟨_, rfl, rfl⟩, ⟨_, rfl, rfl⟩, ⟨_, rfl, rfl⟩, ⟨_, rfl, rfl⟩, ⟨_, rfl, rfl⟩, by decide⟩

/-- Both FLV1 variants of TI, codecs 0 and 1: a header of 8 bytes, no supplementary byte, a second CRC and 16 whitened
bytes; and one of 7 bytes with a supplementary byte, no second CRC and 15 whitened bytes. The FLV2 codecs 2 and 3 and the
Zhijia codecs 5 to 7 are those of the statement above. -/
theorem witness_PacketFields :
    TI.config.Lawful ∧
    (∃ v ∈ TI.config.registry, v.kind = .flv1 0 TI.flv1a ∧ TI.flv1a.supp = none ∧ TI.flv1a.crc2.isSome = true ∧
      TI.flv1a.wlen = 16) ∧
    ∃ v ∈ TI.config.registry, v.kind = .flv1 1 TI.flv1b ∧ TI.flv1b.supp = some 0x00 ∧ TI.flv1b.crc2 = none ∧
      TI.flv1b.wlen = 15 :=
  ⟨TI.lawful, ⟨_, List.mem_of_getElem? (show TI.config.registry[0]? = some _ from rfl), rfl, rfl, rfl, rfl⟩,
    _, List.mem_of_getElem? (show TI.config.registry[1]? = some _ from rfl), rfl, rfl, rfl, rfl⟩

/-- The payload of 95 V-K-1 decodes as unsigned. -/
theorem witness_SignedAndUnsignedExclude :
    (decFlv2 TI.config false
      ([0xF0, 0x08, 0x10, 0x80, 0x00, 0x01, 0x00, 0x01, 0x1D, 0x38, 0x2B, 0x34, 0x35, 0x26, 0x37, 0x30] ++
       [0x31, 0x32, 0x33, 0x00, 0x00, 0x34, 0x12, 0x12, 0xE7])).isSome = true := by
  decide +kernel

/-! ### Registry -/

theorem witness_CountAndDescribeResults :
    (Instr.gCount ⟨0, 0, 0, []⟩).WellFormed ∧
    (∃ (n : Byte) (v : Codec), (Instr.gDescribe ⟨n, 0, 0, []⟩).WellFormed ∧ Config.build.registry[n.toNat]? = some v ∧
      ∀ f, v.kind ≠ .aggregate f) ∧
    ((Instr.gDescribe ⟨4, 0, 0, []⟩).WellFormed ∧
      ∃ v, TI.config.registry[(4 : Byte).toNat]? = some v ∧ v.kind = .aggregate .fanlamp) ∧
    (Instr.gDescribe ⟨20, 0, 0, []⟩).WellFormed ∧ Config.build.registry.length ≤ (20 : Byte).toNat := by
  obtain ⟨n, v, k, u, hv, hk⟩ := build_flv1
  exact ⟨by decide, ⟨n, v, rfl, hv, by simp [hk]⟩, ⟨by decide, _, rfl, rfl⟩, by decide, Config.build_lawful.registry_le⟩

/-- The identifier of the first codec; and a byte that is no ASCII character, which no identifier holds. -/
theorem witness_LookupByIdentifierResult :
    (∃ v, Config.build.registry[0]? = some v ∧
      (Instr.gLookupId ⟨0, BitVec.ofNat 16 v.ident.length, 0, v.ident⟩).WellFormed) ∧
    (Instr.gLookupId ⟨0, 1, 0, [0xFF]⟩).WellFormed ∧ ∀ v ∈ Config.build.registry, v.ident ≠ [0xFF] := by
  obtain ⟨v, hv⟩ := build_first
  have hl := Config.build_lawful.codec_lawful v (List.mem_of_getElem? hv)
  have h1 := hl.ident_pos
  have h2 := hl.ident_len
  refine ⟨⟨v, hv, ?_⟩, by decide, fun v hv h => ?_⟩
  · rw [wellFormed_iff]
    refine ⟨⟨fun _ => rfl, (show 0 < 2 ^ 0 by decide), ?_⟩, ?_⟩
    · show (BitVec.ofNat 16 v.ident.length).toNat = v.ident.length
      rw [BitVec.toNat_ofNat, Nat.mod_eq_of_lt (by omega)]
    · show payloadOk (.bytes 1 32) v.ident = true
      simp [payloadOk, h1, h2]
  · have := (Config.build_lawful.codec_lawful v hv).ident_ascii 0xFF (by simp [h])
    exact absurd this (by decide)

/-- The codes of an FLV1 codec; and family code 2, which no codec has. -/
theorem witness_LookupByFamilyVariantResult :
    (∃ (n : Nat) (v : Codec) (imm : U32), Config.build.registry[n]? = some v ∧
      (Instr.gLookupFv ⟨0, 0, imm, []⟩).WellFormed ∧
      ((imm.extractLsb' 0 8).toNat, (imm.extractLsb' 8 8).toNat) = codesOf v.kind) ∧
    (Instr.gLookupFv ⟨0, 0, 2, []⟩).WellFormed ∧
    ∀ v ∈ Config.build.registry,
      (((2 : U32).extractLsb' 0 8).toNat, ((2 : U32).extractLsb' 8 8).toNat) ≠ codesOf v.kind := by
  obtain ⟨n, v, k, u, hv, hk⟩ := build_flv1
  have hl := ((Config.build_lawful.codec_lawful v (List.mem_of_getElem? hv)).flv1_entry k u hk).2
  have key : ∀ x : Fin 256, ∃ imm : U32, (Instr.gLookupFv ⟨0, 0, imm, []⟩).WellFormed ∧
      ((imm.extractLsb' 0 8).toNat, (imm.extractLsb' 8 8).toNat) = (0, x.val) := by
    intro x
    refine ⟨(BitVec.ofFin (w := 8) x ++ (0 : Byte)).setWidth 32, ?_⟩
    revert x
    decide
  obtain ⟨imm, h1, h2⟩ := key ⟨0x10 + k, by omega⟩
  refine ⟨⟨n.toNat, v, imm, hv, h1, by rw [h2, hk]; rfl⟩, by decide, fun v _ h => ?_⟩
  have : ∀ f : CodecKind, (codesOf f).1 ≠ 2 := by
    intro f
    cases f with
    | flv2 b => cases b <;> decide
    | aggregate b => cases b <;> decide
    | _ => simp [codesOf]
  exact this v.kind (congrArg Prod.fst h).symm

/-- The least index whose codec is tried on `P` and decodes it, where there is one. -/
theorem least_match (C : Config) (P : List Byte) (t : Option Byte)
    (h : ∃ (n : Nat) (v : Codec) (d : Decoded), C.registry[n]? = some v ∧ identifySkips C v P t = false ∧
      decPayload C v P = some d) :
    ∃ (n : Nat) (v : Codec) (d : Decoded), C.registry[n]? = some v ∧ identifySkips C v P t = false ∧
      decPayload C v P = some d ∧ ∀ (m : Nat) (v' : Codec), m < n → C.registry[m]? = some v' →
        identifySkips C v' P t = true ∨ decPayload C v' P = none := by
  classical
  obtain ⟨v, d, h1, h2, h3⟩ := Nat.find_spec h
  refine ⟨Nat.find h, v, d, h1, h2, h3, fun m v' hm hv' => ?_⟩
  have := Nat.find_min h hm
  by_contra hc
  rw [not_or] at hc
  obtain ⟨d', hd'⟩ := Option.ne_none_iff_exists'.mp hc.2
  exact this ⟨v', d', hv', by simpa using hc.1, hd'⟩

/-- For the first clause, the pair packet of R314; for the second, an empty payload, which no codec is tried on. -/
theorem witness_IdentifyFirstMatch :
    (∃ (P : List Byte) (n : Nat) (v : Codec) (d : Decoded), (Instr.gIdentify ⟨0, 36, 0, writeWp ⟨P, 0xFF, 0xFF, 0⟩⟩).WellFormed ∧
      readWp (writeWp ⟨P, 0xFF, 0xFF, 0⟩) = some ⟨P, 0xFF, 0xFF, 0⟩ ∧
      payloadOf ⟨P, 0xFF, 0xFF, 0⟩ = some (P, none) ∧ Config.build.registry[n]? = some v ∧
      identifySkips Config.build v P none = false ∧ decPayload Config.build v P = some d ∧
      ∀ (m : Nat) (v' : Codec), m < n → Config.build.registry[m]? = some v' →
        identifySkips Config.build v' P none = true ∨ decPayload Config.build v' P = none) ∧
    ((Instr.gIdentify ⟨0, 36, 0, writeWp ⟨[], 0xFF, 0xFF, 0⟩⟩).WellFormed ∧
      readWp (writeWp ⟨[], 0xFF, 0xFF, 0⟩) = some ⟨[], 0xFF, 0xFF, 0⟩ ∧
      ∀ P t, payloadOf ⟨[], 0xFF, 0xFF, 0⟩ = some (P, t) → ∀ v ∈ Config.build.registry,
        identifySkips Config.build v P t = true ∨ decPayload Config.build v P = none) := by
  refine ⟨?_, by decide, by decide, fun P t h v _ => ?_⟩
  · obtain ⟨P, hl, _, _, n, v, k, u, d, hv, hk, _, hd, _⟩ := Config.build_lawful.pair_packet
    have hok : WireOk ⟨P, 0xFF, 0xFF, 0⟩ := ⟨hl, rfl, rfl⟩
    have hr : readWp (writeWp ⟨P, 0xFF, 0xFF, 0⟩) = some ⟨P, 0xFF, 0xFF, 0⟩ := by simpa using readWp_writeWp hok []
    have hlen : P.length = codecPlen v := by
      have h := hd
      simp only [decPayload, hk] at h
      unfold decFlv1 at h
      split at h
      · cases h
      · rename_i h'
        simpa [codecPlen, hk] using h'
    obtain ⟨n, v, d, h1, h2, h3, h4⟩ := least_match Config.build P none
      ⟨n, v, d, hv, by simp [identifySkips, codecDecodes, codecLf, hk, hlen], hd⟩
    refine ⟨P, n, v, d, ?_, hr, rfl, h1, h2, h3, h4⟩
    rw [wellFormed_iff]
    refine ⟨⟨fun _ => rfl, (show 0 < 2 ^ 0 by decide), (writeWp_length hok.1).symm⟩, ?_⟩
    show payloadOk .wp (writeWp ⟨P, 0xFF, 0xFF, 0⟩) = true
    simp only [payloadOk, hr, writeWp_length hok.1]
    rfl
  · cases h
    left
    unfold identifySkips codecDecodes codecLf codecPlen
    cases v.kind <;> simp [flv1Plen]
    exact decide_eq_true (by omega)

theorem witness_PairPacketIdentifiesAsFlv1 : TI.config.PairPacket TI.pairPacket := TI.pairPacket_pairs

/-! ### Command queues -/

/-- The largest tx_count below the ceiling. -/
theorem witness_SetThenGetParams :
    ∃ (n : Byte) (v : Codec), Config.build.registry[n.toNat]? = some v ∧
      (∃ k, (smallBuild n []).ctl[(0 : Byte).toNat]? = some k ∧ k.codec = n) ∧
      (BitVec.ofNat 8 (ceilOf Config.build v - 1)).toNat < ceilOf Config.build v ∧
      (Instr.qGetParams ⟨0, 0, 0, []⟩).WellFormed := by
  obtain ⟨n, v, k, u, hv, hk⟩ := build_flv1
  have := ceilOf_bounds Config.build_lawful v
  refine ⟨n, v, hv, ⟨_, rfl, rfl⟩, ?_, by decide⟩
  rw [BitVec.toNat_ofNat]
  have := Nat.mod_le (ceilOf Config.build v - 1) (2 ^ 8)
  omega

theorem witness_SetRegisterResults :
    (∃ k, (smallBuild 0 []).ctl[(0 : Byte).toNat]? = some k) ∧
    ((Instr.qSetCodec ⟨0, 0, 0, []⟩).WellFormed ∧
      ∃ v, Config.build.registry[((0 : U32).extractLsb' 0 8).toNat]? = some v) ∧
    ((Instr.qSetMintx ⟨0, 0, 100, []⟩).WellFormed ∧ 100 ≤ ((100 : U32).extractLsb' 0 16).toNat ∧
      ((100 : U32).extractLsb' 0 16).toNat ≤ 500) ∧
    ((Instr.qSetMintx ⟨0, 0, 500, []⟩).WellFormed ∧ 100 ≤ ((500 : U32).extractLsb' 0 16).toNat ∧
      ((500 : U32).extractLsb' 0 16).toNat ≤ 500) ∧
    (Instr.qSetSeqdur ⟨0, 0, 0xFFFF, []⟩).WellFormed :=
  ⟨⟨_, rfl⟩, ⟨by decide, build_first⟩, by decide, by decide, by decide⟩

/-- The longest queue and the longest FIFO the fields of `RES` hold, and an empty FIFO. -/
theorem witness_StatusReads :
    ((Instr.qStatus ⟨0, 0, 0, []⟩).WellFormed ∧
      ∃ k, (smallBuild 0 (List.replicate 255 ⟨.custom, []⟩)).ctl[(0 : Byte).toNat]? = some k ∧ k.queue.length < 256) ∧
    (Instr.sStatus ⟨0, 0, 0, []⟩).WellFormed ∧ (fifoOf .idle [] 0 1).sched.fifo = [] ∧
    (fifoOf .idle (entry 1 :: List.replicate 65534 (entry 1)) 0 1).sched.fifo.length < 65536 := by
  refine ⟨⟨by decide, _, rfl, ?_⟩, by decide, rfl, ?_⟩
  · show (List.replicate 255 _).length < 256
    rw [List.length_replicate]
    decide
  · show (entry 1 :: List.replicate 65534 (entry 1)).length < 65536
    rw [List.length_cons, List.length_replicate]
    decide

theorem encode_custom {v : Codec} {k : Nat} {u : Flv1Variant} (h : v.kind = .flv1 k u) (p : Params)
    (d : SeedSource) : ∃ p' ws d', encodeCmd Config.build v custom p d = some (p', ws, d') := by
  unfold encodeCmd
  rw [if_neg (by simp [flv1_concrete h])]
  exact ⟨_, _, _, encode1_eq _ v (ceilOf_bounds Config.build_lawful v) custom p d (by simp [subs_custom h])⟩

/-- In TI: a kind that evicts (LightOn in the full queue of 95 V-Q-5), with one free place left; in the build: a Custom
Command with one free place left, and one whose opcode does not fit. -/
theorem witness_EnqueueResult :
    (∃ k v p ws d, (Instr.qEnqueue ⟨0, 8, 0, 4 :: List.replicate 7 0⟩).WellFormed ∧
      readCmd (4 :: List.replicate 7 0) 0 = some ⟨.lightOn, 0, ⟨0, 0, 0, 0, 0⟩⟩ ∧
      (queueOf 2 fullQueue).ctl[(0 : Byte).toNat]? = some k ∧ TI.config.registry[k.codec.toNat]? = some v ∧
      encodeCmd TI.config v ⟨.lightOn, 0, ⟨0, 0, 0, 0, 0⟩⟩ k.params ti.seeds = some (p, ws, d) ∧
      (k.queue.filter fun e => decide (e.kind ≠ .lightOn)).length < TI.config.cqCap) ∧
    (∃ (n : Byte) (k : Controller) (v : Codec) (p : Params) (ws : List WireParam) (d : SeedSource),
      (Instr.qEnqueue ⟨0, 8, 0, customBytes⟩).WellFormed ∧ readCmd customBytes 0 = some custom ∧
      (smallBuild n (List.replicate (Config.build.cqCap - 1) ⟨.custom, []⟩)).ctl[(0 : Byte).toNat]? = some k ∧
      Config.build.registry[k.codec.toNat]? = some v ∧
      encodeCmd Config.build v custom k.params State.reset.seeds = some (p, ws, d) ∧
      k.queue.length < Config.build.cqCap) ∧
    (∃ (n : Byte) (k : Controller) (v : Codec), (Instr.qEnqueue ⟨0, 8, 0, [3, 0x28, 1, 0, 0, 0, 0, 0]⟩).WellFormed ∧
      readCmd [3, 0x28, 1, 0, 0, 0, 0, 0] 0 = some ⟨.custom, 0x128, ⟨0, 0, 0, 0, 0⟩⟩ ∧
      (smallBuild n []).ctl[(0 : Byte).toNat]? = some k ∧ Config.build.registry[k.codec.toNat]? = some v ∧
      translation Config.build v ⟨.custom, 0x128, ⟨0, 0, 0, 0, 0⟩⟩ k.params = []) := by
  obtain ⟨n, v, k, u, hv, hk⟩ := build_flv1
  obtain ⟨p', ws, d', he⟩ := encode_custom hk ⟨0, 0, 0, 0⟩ State.reset.seeds
  refine ⟨⟨_, _, _, _, _, by decide, rfl, rfl, rfl, rfl, by decide⟩,
    ⟨n, _, v, p', ws, d', (custom_wellFormed 0).2.1, rfl, rfl, hv, he, ?_⟩, n, _, v, by decide, rfl, rfl, hv, ?_⟩
  · show (List.replicate (Config.build.cqCap - 1) _).length < Config.build.cqCap
    rw [List.length_replicate]
    have := Config.build_lawful.cqCap_pos
    omega
  · simp [translation, concretes, flv1_concrete hk, subs, fits, codecLf, hk]

theorem witness_DequeueFrontResult :
    (Instr.qDequeueFront ⟨0, 0, 0, []⟩).WellFormed ∧ (Instr.qPump ⟨0, 0, 0, []⟩).WellFormed ∧
    (∃ k, (smallBuild 0 [⟨.custom, [small]⟩]).ctl[(0 : Byte).toNat]? = some k ∧ k.queue = ⟨.custom, [small]⟩ :: []) ∧
    ∃ k, (smallBuild 0 []).ctl[(0 : Byte).toNat]? = some k ∧ k.queue = [] :=
  ⟨by decide, by decide, ⟨_, rfl, rfl⟩, _, rfl, rfl⟩

/-- A FIFO with one free place. -/
theorem witness_PumpResult :
    (Instr.qPump ⟨0, 0, 0, []⟩).WellFormed ∧
    (∃ k, (smallBuild 0 [⟨.custom, [small]⟩]).ctl[(0 : Byte).toNat]? = some k ∧ k.queue = ⟨.custom, [small]⟩ :: []) ∧
    (List.replicate (Config.build.fifoCap - 1) (entry 1)).length + [small].length ≤ Config.build.fifoCap := by
  have := Config.build_lawful.fifoCap_pos
  refine ⟨by decide, ⟨_, rfl, rfl⟩, ?_⟩
  rw [List.length_replicate]
  show Config.build.fifoCap - 1 + 1 ≤ Config.build.fifoCap
  omega

/-- Two states that differ in controller 1, the dedup list, the events and the port, and a request for controller 0. -/
theorem witness_ControllersAreIndependent :
    controllerOf (.qSetSeqdur ⟨0, 0, 7, []⟩) = some 0 ∧ 1 ≠ (0 : Byte).toNat ∧
    ∃ s s' t t' : State, s'.ctl[(0 : Byte).toNat]? = s.ctl[(0 : Byte).toNat]? ∧ s'.sched = s.sched ∧
      s'.seeds = s.seeds ∧ s'.ctl ≠ s.ctl ∧ s'.dedup ≠ s.dedup ∧ s'.events ≠ s.events ∧ s'.port ≠ s.port ∧
      exec (.qSetSeqdur ⟨0, 0, 7, []⟩) s = .next t ∧ exec (.qSetSeqdur ⟨0, 0, 7, []⟩) s' = .next t' :=
  ⟨rfl, by decide, queueOf 2 [], { queueOf 2 [] with
      ctl := (queueOf 2 []).ctl.take 1, dedup := [⟨[0xAA], 0⟩], events := [.stop], port := [⟨0x22, []⟩] },
    _, _, rfl, rfl, rfl, by decide, by decide, by decide, by decide, rfl, rfl⟩

/-- For the pumps, an empty queue, and a packet with the FIFO full and with one free place; for the sends, an enqueue that
is refused, because there is no controller, and one that is OK: the Custom Command of the build. -/
theorem witness_SystemStepPerformsEveryPart :
    (∃ k, (smallBuild 0 []).ctl[(0 : Byte).toNat]? = some k ∧ k.queue = []) ∧
    (∃ k, (smallBuild 0 [⟨.custom, [small]⟩]).ctl[(0 : Byte).toNat]? = some k ∧ k.queue = ⟨.custom, [small]⟩ :: []) ∧
    Config.build.fifoCap < (List.replicate Config.build.fifoCap (entry 1)).length + [small].length ∧
    (List.replicate (Config.build.fifoCap - 1) (entry 1)).length + [small].length ≤ Config.build.fifoCap ∧
    lastStatus (after (enqueueOf 0 custom) { State.reset with ctl := [] }) = some .range ∧
    ∃ n : Byte, lastStatus (after (enqueueOf 0 custom) (smallBuild n [])) = some .ok := by
  have hp := Config.build_lawful.fifoCap_pos
  refine ⟨⟨_, rfl, rfl⟩, ⟨_, rfl, rfl⟩, ?_, witness_PumpResult.2.2, rfl, ?_⟩
  · rw [List.length_replicate]
    exact Nat.lt_succ_self _
  obtain ⟨n, v, k, u, hv, hk⟩ := build_flv1
  obtain ⟨p', ws, d', he⟩ := encode_custom hk ⟨0, 0, 0, 0⟩ State.reset.seeds
  refine ⟨n, ?_⟩
  have hs : isSupported Config.build v custom ⟨0, 0, 0, 0⟩ = true := by
    rw [isSupported_iff, Ne, ← encodeCmd_none_iff Config.build_lawful v custom ⟨0, 0, 0, 0⟩ State.reset.seeds, he]
    simp
  have hr : ruleOf Config.build (enqueueOf 0 custom) (smallBuild n []) = .ok { state := { (smallBuild n []).setController 0
      ⟨p', n, 100, 0, [⟨.custom, timed 100 ws⟩], false, 0⟩ with seeds := d' } } := by
    have hw : (Instr.qEnqueue ⟨0, 8, 0, writeCmd custom⟩).WellFormed := by decide
    have hc : readCmd (writeCmd custom) 0 = some custom := by decide
    have hq : ([] : List QueueEntry).length < Config.build.cqCap := Config.build_lawful.cqCap_pos
    simp only [enqueueOf, ruleOf, ruleEnqueue, checkRequest_ok hw, hc, orRaise_some, ok_bind,
      controllerAt_some (show (smallBuild n []).ctl[(0 : Byte).toNat]? = some ⟨⟨0, 0, 0, 0⟩, n, 100, 0, [], false, 0⟩ from rfl),
      codecAt_some hv, require_ok .unsupported hs]
    rw [show evictKind custom.kind [] = [] from rfl, require_ok .range hq,
      show (smallBuild n []).seeds = State.reset.seeds from rfl, he]
    rfl
  unfold after
  rw [exec_eq_next, hr]
  rfl

/-! ### Scheduler -/

/-- A batch of one with one free place, and the empty batch. -/
theorem witness_AddBatchResult :
    (Instr.sAddBatch ⟨0, 37, 0, 1 :: writeWp small⟩).WellFormed ∧ readWpList (1 :: writeWp small) = some [small] ∧
    (List.replicate (Config.build.fifoCap - 1) (entry 1)).length + [small].length ≤ Config.build.fifoCap ∧
    (Instr.sAddBatch ⟨0, 1, 0, [0]⟩).WellFormed ∧ readWpList [0] = some [] := by
  have := Config.build_lawful.fifoCap_pos
  refine ⟨by decide, by decide, ?_, by decide, by decide⟩
  rw [List.length_replicate]
  show Config.build.fifoCap - 1 + 1 ≤ Config.build.fifoCap
  omega

theorem witness_RemoveBatchResult :
    (Instr.sRemoveBatch ⟨0, 0, 0xFFFFFFFF, []⟩).WellFormed ∧
    (fifoOf .idle [entry 1, entry 2] 0 3).sched.fifo[1]? = some (entry 2) := ⟨by decide, rfl⟩

/-- Each clause: a finished FIFO, a finished entry before a live one, a deadline one below the time with another entry
waiting, and a deadline equal to the time. -/
theorem witness_TickResult :
    (Instr.sTick ⟨0, 0, 101, []⟩).WellFormed ∧
    (∀ e ∈ [(⟨small, 1, true, true⟩ : Pending)], e.processedOnce = true ∧ e.toBeRemoved = true) ∧
    (fifoOf .idle [⟨small, 1, true, true⟩, entry 2] 0 3).sched.fifo = [⟨small, 1, true, true⟩] ++ entry 2 :: [] ∧
    ((entry 2).processedOnce = false ∨ (entry 2).toBeRemoved = false) ∧
    (let d := (fifoOf .broadcasting [entry 1, entry 2] 100 3).sched
     d.mode = .broadcasting ∧ d.fifo = entry 1 :: [entry 2] ∧
       (d.deadline.toNat < (101 : U32).toNat ∧ ([entry 2] ≠ [] ∨ (entry 1).toBeRemoved = true)) ∧
       ¬ (d.deadline.toNat < (100 : U32).toNat ∧ ([entry 2] ≠ [] ∨ (entry 1).toBeRemoved = true))) := by
  decide

theorem witness_OnlyTickMovesTheRadio :
    (isTick (.sAddBatch ⟨0, 1, 0, [0]⟩) = false ∧
      ∃ t, exec (.sAddBatch ⟨0, 1, 0, [0]⟩) (fifoOf .broadcasting [entry 1] 100 2) = .next t) ∧
    (fifoOf .broadcasting [entry 1] 100 2).sched.fifo = entry 1 :: [] ∧
    (isTick (.sTick ⟨0, 0, 101, []⟩) = true ∧ ∃ t, exec (.sTick ⟨0, 0, 101, []⟩) State.reset = .next t) :=
  ⟨⟨rfl, _, rfl⟩, rfl, rfl, _, rfl⟩

/-- The deadline itself, a sole entry, and the first time past the deadline with another batch waiting. -/
theorem witness_PacketStaysOnAir :
    (let d := (fifoOf .broadcasting [entry 1] 100 2).sched
     d.mode = .broadcasting ∧ d.fifo ≠ [] ∧ (100 : U32).toNat ≤ d.deadline.toNat ∧ d.fifo = [entry 1] ∧
       (entry 1).toBeRemoved = false) ∧
    (let d := (fifoOf .broadcasting [entry 1, entry 2] 100 3).sched
     d.mode = .broadcasting ∧ d.fifo = entry 1 :: [entry 2] ∧ d.deadline.toNat < (101 : U32).toNat ∧
       ∀ f ∈ [entry 2], f.token ≠ (entry 1).token) := by
  decide

theorem witness_ThreePacketsCycle :
    (fifoOf .idle [entry 1, entry 2, entry 3] 0 4).sched.mode = .idle ∧
    (fifoOf .idle [entry 1, entry 2, entry 3] 0 4).sched.fifo = [entry 1, entry 2, entry 3] ∧
    ((0 : U32) + (entry 1).wp.duration.setWidth 32).toNat < (101 : U32).toNat ∧
    ((102 : U32) + (entry 2).wp.duration.setWidth 32).toNat < (203 : U32).toNat ∧
    ((204 : U32) + (entry 3).wp.duration.setWidth 32).toNat < (305 : U32).toNat := by
  decide

/-! ### Capture and inject -/

/-- A flags element met at offset 0; an element of the AD type of a registered codec met after it; and a payload in which
the walk meets none. -/
theorem witness_FromRawResult :
    (Instr.xFromRaw ⟨0, 3, 0, [2, 1, 6]⟩).WellFormed ∧ (Instr.xFromRaw ⟨0, 31, 0, List.replicate 31 0⟩).WellFormed ∧
    Meets [2, 1, 6] (fun t => t = 0x01) 0 ∧
    (∃ t : Byte, Meets [2, 1, 6, 1, t] (fun t => ∃ v ∈ Config.build.registry, v.ad.adType = t) 3) ∧
    ∀ (types : Byte → Prop) (i : Nat), ¬ Meets (List.replicate 31 0) types i := by
  refine ⟨by decide, by decide, ⟨.start, ⟨by decide, by decide, by decide⟩, rfl⟩, ?_, fun types i h => ?_⟩
  · obtain ⟨v, hv⟩ := build_first
    have h : ElementAt [2, 1, 6, 1, v.ad.adType] 0 := ⟨by simp, by simp [byteAt], by simp [byteAt]⟩
    exact ⟨v.ad.adType, Visited.next .start h, ⟨by simp, by simp [byteAt], by simp [byteAt]⟩, v,
      List.mem_of_getElem? hv, rfl⟩
  · have h1 := h.2.1.1
    have h2 := h.2.1.2.1
    rw [byteAt_eq_getElem h1, List.getElem_replicate] at h2
    exact h2 rfl

/-- A payload of 29 bytes; WireParams without a data index, with one at the last byte, at a length of 0, at a length one
too long, and at one that ends with the buffer; and the codecs of TI. -/
theorem witness_CapturedPacketMatchesEncoded :
    (List.replicate 29 (0 : Byte)).length ≤ 29 ∧ TI.ad.flagsPresent = true ∧
    ({ TI.ad with flagsPresent := false } : AdWrap).flagsPresent = false ∧ small.dataIdx = 0xFF ∧
    (∀ w ∈ [(⟨[2, 0xFF], 0xFF, 1, 0⟩ : WireParam), ⟨[0, 0xFF], 0xFF, 0, 0⟩, ⟨[3, 0xFF, 0xAA], 0xFF, 0, 0⟩],
      w.dataIdx ≠ 0xFF ∧
      (w.data.length ≤ w.dataIdx.toNat + 1 ∨ (byteAt w.data w.dataIdx.toNat).toNat = 0 ∨
        w.data.length < w.dataIdx.toNat + 1 + (byteAt w.data w.dataIdx.toNat).toNat)) ∧
    (let w : WireParam := ⟨[2, 0xFF, 0xAA], 0xFF, 0, 0⟩
     w.dataIdx ≠ 0xFF ∧ w.dataIdx.toNat + 1 < w.data.length ∧ (byteAt w.data w.dataIdx.toNat).toNat ≠ 0 ∧
       w.dataIdx.toNat + 1 + (byteAt w.data w.dataIdx.toNat).toNat ≤ w.data.length) ∧
    (∀ v ∈ TI.config.registry, v.ad.adType ≠ 0x01) ∧ ∃ v ∈ TI.config.registry, codecAgg v = false := by
  refine ⟨by decide, rfl, rfl, rfl, by decide, by decide, ?_, _,
    List.mem_of_getElem? (show TI.config.registry[2]? = some _ from rfl), rfl⟩
  simp only [TI.config, TI.registry, List.forall_mem_cons, List.not_mem_nil, false_implies, implies_true, and_true]
  decide

/-- The empty text, the longest one; and 31 bytes with a mark and a comment. -/
theorem witness_InjectHexResult :
    (Instr.xInjectHex ⟨0, 0, 0, []⟩).WellFormed ∧ (Instr.xInjectHex ⟨0, 65535, 0, List.replicate 65535 0⟩).WellFormed ∧
    (List.replicate 31 (0xAB : Byte)).length ≤ 31 ∧
    (∃ c : List Byte, (∀ x ∈ c, x ≠ 0x28) ∧ [0x20, 0x28, 0x61, 0x29] = [0x20, 0x28] ++ c ++ [(0x29 : Byte)]) ∧
    ([0x30, 0x78] ++ hexText (List.replicate 31 0xAB) ++ [0x20, 0x28, 0x61, 0x29]).length < 65536 := by
  refine ⟨by decide, ?_, by decide, ⟨[0x61], by decide, rfl⟩, by decide⟩
  rw [wellFormed_iff]
  refine ⟨⟨fun _ => rfl, (show 0 < 2 ^ 0 by decide), ?_⟩, ?_⟩
  · show (65535 : U16).toNat = (List.replicate 65535 0).length
    rw [List.length_replicate]
    rfl
  · show payloadOk (.bytes 0 65535) (List.replicate 65535 0) = true
    simp only [payloadOk, List.length_replicate]
    rfl

/-- Two texts of the second clause: ` 0x1.2 fF0g(a) `, with a mark, separators, both cases, an odd number of digits, a byte
where they stop and a comment; and ` 0g) `, with no mark and no comment. -/
theorem witness_InjectHexResult_text :
    (let mark : List Byte := [0x30, 0x78]
     let digits : List Byte := [0x31, 0x2E, 0x32, 0x20, 0x66, 0x46, 0x30]
     let rest : List Byte := [0x67]
     let comment : List Byte := [0x28, 0x61, 0x29]
     Spells digits [1, 2, 15, 15, 0] ∧ (∀ c l, rest = c :: l → (∀ x, ¬ HexDigit c x) ∧ c ≠ 0x2E ∧ c ≠ 0x20) ∧
       mark ≠ [] ∧ comment ≠ [] ∧ (∃ c, (∀ x ∈ c, x ≠ 0x28) ∧ comment = [0x28] ++ c ++ [0x29]) ∧
       (List.replicate 1 0x20 ++ mark ++ digits ++ rest ++ comment ++ List.replicate 1 0x20).length < 65536) ∧
    (let digits : List Byte := [0x20, 0x30]
     let rest : List Byte := [0x67, 0x29, 0x20]
     Spells digits [0] ∧ (∀ c l, rest = c :: l → (∀ x, ¬ HexDigit c x) ∧ c ≠ 0x2E ∧ c ≠ 0x20) ∧
       (∀ l, digits.dropWhile (· == 0x20) = [0x30] → rest ≠ 0x78 :: l ∧ rest ≠ 0x58 :: l) ∧
       (∀ l k, rest = l ++ 0x29 :: List.replicate k 0x20 → 0x28 ∉ l) ∧ (digits ++ rest).length < 65536) := by
  have stop : ∀ x, ¬ HexDigit 0x67 x := by unfold HexDigit; decide
  refine ⟨⟨?_, ?_, by decide, by decide, ⟨[0x61], by decide, rfl⟩, by decide⟩, ?_, ?_, ?_, fun l k h hm => ?_, by decide⟩
  · exact .digit (by unfold HexDigit; decide) (.separator (by decide) (.digit (by unfold HexDigit; decide)
      (.separator (by decide) (.digit (by unfold HexDigit; decide) (.digit (by unfold HexDigit; decide)
        (.digit (by unfold HexDigit; decide) .done))))))
  · rintro c l h
    cases h
    exact ⟨stop, by decide, by decide⟩
  · exact .separator (by decide) (.digit (by unfold HexDigit; decide) .done)
  · rintro c l h
    cases h
    exact ⟨stop, by decide, by decide⟩
  · intro l _
    exact ⟨by simp, by simp⟩
  · have : (0x28 : Byte) ∈ [(0x67 : Byte), 0x29, 0x20] := by rw [h]; exact List.mem_append_left _ hm
    exact absurd this (by decide)

/-- A live repeat; an expired one (its expiry is the time); and a list filled with live entries of other bytes. -/
theorem witness_CaptureResult :
    (Instr.xCapture ⟨2, 1, 2999, [0xAA]⟩).WellFormed ∧
    (∃ e ∈ (captured 3000).dedup.filter fun e => decide ((2999 : U32).toNat < e.expiry.toNat), e.bytes = [0xAA]) ∧
    (∀ e ∈ (captured 3000).dedup.filter fun e => decide ((3000 : U32).toNat < e.expiry.toNat), e.bytes ≠ [0xAA]) ∧
    (let full := List.replicate Config.build.dedupCap (⟨[0xBB], 3000⟩ : DedupEntry)
     let live := full.filter fun e => decide ((2999 : U32).toNat < e.expiry.toNat)
     live.length = Config.build.dedupCap ∧ ∀ e ∈ live, e.bytes ≠ [0xAA]) := by
  refine ⟨by decide, ⟨⟨[0xAA], 3000⟩, by decide, rfl⟩, by decide, ?_, fun e he => ?_⟩
  · rw [List.filter_replicate_of_pos (by decide), List.length_replicate]
  · rw [List.eq_of_mem_replicate (List.mem_filter.mp he).1]
    decide

/-- The longest expiry, at the last time it does not wrap, and the last time before it. -/
theorem witness_RepeatedCaptureIsDuplicate :
    (Instr.xCapture ⟨0xFF, 1, 4294712295, [0xAA]⟩).WellFormed ∧ (∀ e ∈ State.reset.dedup, e.bytes ≠ [0xAA]) ∧
    (∃ t, exec (.xCapture ⟨0xFF, 1, 4294712295, [0xAA]⟩) State.reset = .next t) ∧
    (4294712295 : U32).toNat + 1000 * (0xFF : Byte).toNat < 2 ^ 32 ∧
    (4294967294 : U32).toNat < (4294712295 : U32).toNat + 1000 * (0xFF : Byte).toNat := by
  refine ⟨by decide, fun e he => (by cases he), ⟨_, rfl⟩, by decide, by decide⟩

end Sys2Proof.Tests
end

section
/-! The model's scope: the configuration is a parameter (R7), and `exec` is the model at the build's. -/

namespace Sys2Proof.Proofs

open Sys2Proof.Machine Sys2Proof.Laws

/-- Settles O6: the case split over the instructions, which compares each arm of `exec` with the request's rule, is that
of `exec_eq_perform`; the build's laws (R36) come with the choice of its configuration. -/
theorem execIsRuleUnderBuild : Obligations.ExecIsRuleUnderBuild := by
  intro i s
  have performsRule : exec i s = execUnder Config.build i s := exec_eq_execUnder i s
  exact ⟨performsRule, Config.build_lawful⟩

end Sys2Proof.Proofs
end

section
/-! What an encode can answer, for concrete codecs and aggregates alike (R166 to R173, R308), with its bounds; the
ceilings and the members of R300 to R302. -/

namespace Sys2Proof.Proofs

open Sys2Proof.Machine Sys2Proof.Laws

/-! ## Members and ceilings -/

theorem mem_members {C : Config} {f : Family} {u : Codec} :
    u ∈ members C f ↔ u ∈ C.registry ∧ codecAgg u = false ∧ codecFam u = f := by
  simp [members]

/-- A concrete codec has a layout, and that layout's ceiling (R302). -/
theorem ceilOf_of_codecLf (C : Config) {v : Codec} {lf : LayoutFamily} (h : codecLf v = some lf) :
    ceilOf C v = C.ceil lf := by
  simp [ceilOf, h]

/-- A codec is an aggregate exactly when its kind says so (R160). -/
theorem codecAgg_iff (v : Codec) : codecAgg v = true ↔ ∃ f, v.kind = .aggregate f := by
  cases hk : v.kind <;> simp [codecAgg, hk]

/-- A concrete codec has a layout (R160). -/
theorem codecLf_of_concrete {v : Codec} (h : codecAgg v = false) : ∃ lf, codecLf v = some lf := by
  cases hk : v.kind <;> simp_all [codecAgg, codecLf]

/-- The kinds of a family's members (R300 (c), R301). -/
theorem mem_members_iff_kind {C : Config} {v : Codec} (hv : v ∈ C.registry) (f : Family) :
    v ∈ members C f ↔ (f = .fanlamp ∧ ((∃ k u, v.kind = .flv1 k u) ∨ ∃ signed, v.kind = .flv2 signed)) ∨
      (f = .zhijia ∧ (v.kind = .zj0 ∨ v.kind = .zj1 ∨ v.kind = .zj2)) := by
  rw [mem_members]
  cases hk : v.kind <;> simp [hv, codecAgg, codecFam, hk, eq_comm]

/-- The ceiling of a member is the ceiling of its layout, so both lists of ceilings are the same. -/
theorem map_ceilOf_members (C : Config) (f : Family) :
    (members C f).map (ceilOf C) = ((members C f).filterMap codecLf).map C.ceil := by
  rw [List.map_filterMap, ← List.filterMap_eq_map]
  refine List.filterMap_congr fun u hu => ?_
  obtain ⟨_, hconcrete, _⟩ := mem_members.mp hu
  obtain ⟨lf, hlf⟩ := codecLf_of_concrete hconcrete
  simp [hlf, ceilOf_of_codecLf C hlf]

/-- The ceiling of an aggregate with a member is the least of the members' (R302). -/
theorem ceilOf_aggregate {C : Config} {v : Codec} {f : Family} (hk : v.kind = .aggregate f) (hm : members C f ≠ []) :
    ((members C f).map (ceilOf C)).min? = some (ceilOf C v) := by
  have hlf : codecLf v = none := by simp [codecLf, hk]
  have hfam : codecFam v = f := by simp [codecFam, hk]
  have hmap := map_ceilOf_members C f
  cases hl : (members C f).filterMap codecLf with
  | nil => simp [hl, hm] at hmap
  | cons lf rest =>
    rw [hmap, hl, List.map_cons, List.min?_cons', List.foldl_map]
    simp [ceilOf, hlf, hfam, hl]

/-! ## The packets of an encode -/

/-- The codecs that lay out packets are registered and concrete (R300, R307). -/
theorem mem_concretes {C : Config} {v u : Codec} (hv : v ∈ C.registry) (hu : u ∈ concretes C v) :
    u ∈ C.registry ∧ codecAgg u = false := by
  unfold concretes at hu
  split_ifs at hu with ha
  · obtain ⟨hreg, hconcrete, _⟩ := mem_members.mp hu
    exact ⟨hreg, hconcrete⟩
  · obtain rfl := List.mem_singleton.mp hu
    exact ⟨hv, Bool.eq_false_iff.mpr ha⟩

/-- A packet of a registered concrete codec is within the bounds of a WireParam, its duration not yet set (R96, R97). -/
theorem packetAt_wireOk {C : Config} (hC : C.Lawful) {u : Codec} (hu : u ∈ C.registry) (ha : codecAgg u = false)
    (p : Params) (d : SeedSource) (k : Nat) (rc : RealCommand) :
    WireOk (packetAt C u p d k rc) ∧ (packetAt C u p d k rc).duration = 0 := by
  have hfits := (hC.codec_lawful u hu).fits31 ha
  constructor
  · refine wrap_wireOk u.ad _ ?_ (packetAt C u p d k rc).duration
    rwa [encPayload_length hC hu ha]
  · unfold packetAt wrap
    split <;> rfl

theorem mem_packetsOf {C : Config} {cmd : Command} {p : Params} {d : SeedSource} {u : Codec} {w : WireParam}
    (h : w ∈ packetsOf C cmd p d u) : ∃ k rc, w = packetAt C u p d k rc := by
  obtain ⟨k, hk, rfl⟩ := List.mem_mapIdx.mp h
  exact ⟨k, _, rfl⟩

theorem mem_memberPackets {C : Config} {cmd : Command} {p : Params} {us : List Codec} {w : WireParam} :
    ∀ {d : SeedSource}, w ∈ memberPackets C cmd p d us → ∃ u ∈ us, ∃ d' k rc, w = packetAt C u p d' k rc := by
  induction us with
  | nil => intro d h; cases h
  | cons u us ih =>
    intro d h
    rcases List.mem_append.mp h with h | h
    · obtain ⟨k, rc, hw⟩ := mem_packetsOf h
      exact ⟨u, List.mem_cons_self, d, k, rc, hw⟩
    · obtain ⟨x, hx, hw⟩ := ih h
      exact ⟨x, List.mem_cons_of_mem u hx, hw⟩

theorem memberPackets_length (C : Config) (cmd : Command) (p : Params) (us : List Codec) : ∀ d : SeedSource,
    (memberPackets C cmd p d us).length = (us.flatMap fun u => subs u cmd p).length := by
  induction us with
  | nil => intro d; rfl
  | cons u us ih => intro d; simp [memberPackets, ih]

/-- What an encode of any codec answers: a packet for each RealCommand of the translation, each laid out by a codec that
`v` stands for, and the params with tx_count advanced below the ceiling (R166 to R172, R308). -/
theorem encodeCmd_some {C : Config} (hC : C.Lawful) {v : Codec} {cmd : Command} {p p' : Params} {d d' : SeedSource}
    {ws : List WireParam} (h : encodeCmd C v cmd p d = some (p', ws, d')) :
    (∃ n, p' = { p with tx := txAdvance p.tx n (ceilOf C v) }) ∧ ws.length = (translation C v cmd p).length ∧
      ∀ w ∈ ws, ∃ u ∈ concretes C v, ∃ d₀ k rc, w = packetAt C u p d₀ k rc := by
  have hne : translation C v cmd p ≠ [] := by simp [← encodeCmd_none_iff hC v cmd p d, h]
  unfold encodeCmd at h
  unfold translation concretes at hne ⊢
  cases ha : codecAgg v
  case false =>
    simp only [ha, Bool.false_eq_true, if_false, List.flatMap_cons, List.flatMap_nil, List.append_nil] at h hne ⊢
    rw [encode1_eq C v (ceilOf_bounds hC v) cmd p d hne] at h
    cases h
    refine ⟨⟨_, rfl⟩, packetsOf_length C cmd p d v, fun w hw => ?_⟩
    obtain ⟨k, rc, hw⟩ := mem_packetsOf hw
    exact ⟨v, List.mem_singleton_self v, d, k, rc, hw⟩
  case true =>
    simp only [ha, if_true] at h hne ⊢
    rw [aggEncode_eq C hC v cmd p d (mt (flatMap_subs_nil cmd p _).mpr hne)] at h
    cases h
    exact ⟨⟨_, rfl⟩, memberPackets_length C cmd p _ d, fun w hw => mem_memberPackets hw⟩

/-- The bounds of an encode (R22, R61, R97, R162, R171, R334). -/
theorem encodeCmd_bounds {C : Config} (hC : C.Lawful) {v : Codec} (hv : v ∈ C.registry) {cmd : Command}
    {p p' : Params} {d d' : SeedSource} {ws : List WireParam} (h : encodeCmd C v cmd p d = some (p', ws, d')) :
    1 ≤ ws.length ∧ ws.length ≤ C.maxPkts ∧ (∀ w ∈ ws, WireOk w ∧ w.duration = 0) ∧
    p'.tx.toNat < ceilOf C v ∧ p'.id = p.id ∧ p'.index = p.index ∧ p'.seed = p.seed := by
  have hne : translation C v cmd p ≠ [] := by simp [← encodeCmd_none_iff hC v cmd p d, h]
  obtain ⟨⟨n, rfl⟩, hlen, hpackets⟩ := encodeCmd_some hC h
  refine ⟨?_, ?_, fun w hw => ?_, txAdvance_lt p.tx n (ceilOf_bounds hC v), rfl, rfl, rfl⟩
  · rw [hlen]
    exact List.length_pos_iff.mpr hne
  · rw [hlen]
    exact translation_length_le hC hv cmd p
  · obtain ⟨u, hu, d₀, k, rc, rfl⟩ := hpackets w hw
    obtain ⟨hreg, hconcrete⟩ := mem_concretes hv hu
    exact packetAt_wireOk hC hreg hconcrete p d₀ k rc

/-- Settles O29: the bounds are those of the translation and of each member's layout, and the ceiling of an aggregate is
the least element of its members' ceilings. -/
theorem encodeResultBounds : Obligations.EncodeResultBounds := by
  intro C hC v hv
  refine ⟨fun cmd p p' d d' ws h => encodeCmd_bounds hC hv h,
    fun ha rc id index tx x => encPayload_length hC hv ha rc id index tx x,
    fun k u hk => ceilOf_of_codecLf C (by simp [codecLf, hk]),
    fun signed hk => ceilOf_of_codecLf C (by simp [codecLf, hk]),
    fun hk => ceilOf_of_codecLf C (by simp [codecLf, hk]), fun hk => ceilOf_of_codecLf C (by simp [codecLf, hk]),
    fun hk => ceilOf_of_codecLf C (by simp [codecLf, hk]), codecAgg_iff v, fun f hk => ?_,
    fun f => ⟨List.filter_sublist, mem_members_iff_kind hv f⟩⟩
  refine ⟨by simp [codecFam, hk], fun u hu => ?_, fun hm => ?_⟩
  · obtain ⟨_, hleast⟩ := List.min?_eq_some_iff.mp (ceilOf_aggregate hk (List.ne_nil_of_mem hu))
    exact hleast _ (List.mem_map_of_mem hu)
  · obtain ⟨hattained, _⟩ := List.min?_eq_some_iff.mp (ceilOf_aggregate hk hm)
    obtain ⟨u, hu, heq⟩ := List.mem_map.mp hattained
    exact ⟨u, hu, heq.symm⟩

end Sys2Proof.Proofs
end

section
/-! What the operations keep of a good state (R22 to R34): the radio events, the scheduler, a controller, the capture
list, and the state around them. -/

namespace Sys2Proof.Proofs

open Sys2Proof.Machine Sys2Proof.Laws

/-! ## Radio events -/

/-- Read on after the events `l`, the radio is on air as the counts of `l` say (R33 (b)). -/
theorem alternates_append {l : List RadioEvent} : ∀ {b c : Bool} (l' : List RadioEvent), alternates b l = true →
    startCount l + b.toNat = stopCount l + c.toNat → alternates b (l ++ l') = alternates c l' := by
  induction l with
  | nil =>
    intro b c l' _ hcount
    have htoNat : b.toNat = c.toNat := by simpa [startCount, stopCount] using hcount
    have hbc : b = c := by rw [← Bool.ofNat_toNat b, htoNat, Bool.ofNat_toNat]
    rw [hbc, List.nil_append]
  | cons e l ih =>
    intro b c l' halt hcount
    cases e with
    | start bytes =>
      obtain ⟨hb, halt⟩ : b = false ∧ alternates true l = true := by simpa [alternates] using halt
      subst hb
      have hrest : startCount l + true.toNat = stopCount l + c.toNat := by
        simpa [startCount, stopCount] using hcount
      simpa [alternates] using ih l' halt hrest
    | stop =>
      obtain ⟨hb, halt⟩ : b = true ∧ alternates false l = true := by simpa [alternates] using halt
      subst hb
      have hrest : startCount l + false.toNat = stopCount l + c.toNat := by
        simp [startCount, stopCount] at hcount ⊢
        omega
      simpa [alternates] using ih l' halt hrest

/-- In IDLE the next event may be a RADIO_START (R382). -/
theorem singleFlight_start {s : State} (h : SingleFlight s) (hm : s.sched.mode = .idle) (d : Scheduler)
    (hd : d.mode = .broadcasting) (bytes : List Byte) :
    SingleFlight { s with sched := d, events := s.events ++ [.start bytes] } := by
  obtain ⟨halt, hcount⟩ := h
  have hidle : startCount s.events = stopCount s.events := by simpa [hm, onAirCount] using hcount
  constructor
  · rw [alternates_append (c := false) _ halt (by simpa using hidle)]
    rfl
  · simpa [hd, onAirCount, startCount, stopCount] using hidle

/-- In BROADCASTING the next event may be a RADIO_STOP (R382). -/
theorem singleFlight_stop {s : State} (h : SingleFlight s) (hm : s.sched.mode = .broadcasting) (d : Scheduler)
    (hd : d.mode = .idle) : SingleFlight { s with sched := d, events := s.events ++ [.stop] } := by
  obtain ⟨halt, hcount⟩ := h
  have honAir : startCount s.events = stopCount s.events + 1 := by simpa [hm, onAirCount] using hcount
  constructor
  · rw [alternates_append (c := true) _ halt (by simpa using honAir)]
    rfl
  · simpa [hd, onAirCount, startCount, stopCount] using honAir

/-- Without an event, single flight depends on the mode alone. -/
theorem singleFlight_quiet {s : State} (h : SingleFlight s) (d : Scheduler) (hd : d.mode = s.sched.mode) :
    SingleFlight { s with sched := d } := by
  obtain ⟨halt, hcount⟩ := h
  exact ⟨halt, by simpa [hd] using hcount⟩

/-! ## The scheduler -/

/-- Marking a batch for removal touches no packet, token or flag that the invariant speaks of (R372). -/
theorem schedulerOk_removeBatch {C : Config} {d : Scheduler} (h : SchedulerOk C d) (t : U32) :
    SchedulerOk C (removeBatch d t) := by
  refine ⟨fun hm => ?_, by simpa using h.fifo_len, ?_, h.token⟩
  · obtain ⟨e, rest, hfifo, htoken, honce⟩ := h.front hm
    exact ⟨markRemoved t e, rest.map (markRemoved t), by simp [hfifo], by simpa using htoken, by simpa using honce⟩
  · simpa using h.wires

/-- A batch that fits is appended behind the front entry (R370, R371). -/
theorem schedulerOk_addBatch {C : Config} {d : Scheduler} (h : SchedulerOk C d) {ws : List WireParam}
    (hroom : d.fifo.length + ws.length ≤ C.fifoCap) (hws : ∀ w ∈ ws, WireOk w) : SchedulerOk C (addBatch d ws) := by
  refine ⟨fun hm => ?_, by simpa using hroom, fun e he => ?_, tokenAfter_ne_zero _⟩
  · obtain ⟨e, rest, hfifo, honAir⟩ := h.front hm
    exact ⟨e, rest ++ ws.map (pendingOf d.nextToken), by simp [hfifo], honAir⟩
  · rw [addBatch_fifo, List.mem_append, List.mem_map] at he
    rcases he with he | ⟨w, hw, rfl⟩
    · exact h.wires e he
    · exact hws w hw

@[simp] theorem supersede_mode (k : Controller) (d : Scheduler) : (supersede k d).mode = d.mode := by
  rcases supersede_cases k d with ⟨_, h⟩ | ⟨_, h⟩ <;> simp [h]

@[simp] theorem supersede_fifo_length (k : Controller) (d : Scheduler) :
    (supersede k d).fifo.length = d.fifo.length := by
  rcases supersede_cases k d with ⟨_, h⟩ | ⟨_, h⟩ <;> simp [h]

theorem schedulerOk_supersede {C : Config} {d : Scheduler} (h : SchedulerOk C d) (k : Controller) :
    SchedulerOk C (supersede k d) := by
  rcases supersede_cases k d with ⟨_, he⟩ | ⟨_, he⟩ <;> rw [he]
  · exact schedulerOk_removeBatch h _
  · exact h

/-- In IDLE the FIFO may become any that is no longer and holds only entries that were waiting before. -/
theorem schedulerOk_idle {C : Config} {d : Scheduler} (h : SchedulerOk C d) (fifo : List Pending)
    (hlen : fifo.length ≤ d.fifo.length) (hsub : ∀ e ∈ fifo, e ∈ d.fifo) :
    SchedulerOk C { d with mode := .idle, fifo := fifo } :=
  ⟨fun hm => (nomatch hm), hlen.trans h.fifo_len, fun e he => h.wires e (hsub e he), h.token⟩

/-- A tick keeps the scheduler's invariant and single flight (R33, R375, R382). -/
theorem tick_keeps {C : Config} {s : State} (hok : SchedulerOk C s.sched) (hradio : SingleFlight s) (now : U32) :
    SchedulerOk C (tick now s.sched).1 ∧
    SingleFlight { s with sched := (tick now s.sched).1, events := s.events ++ (tick now s.sched).2 } := by
  rcases tick_cases now s.sched with ⟨hm, _, ht⟩ | ⟨done, e, rest, hm, hfifo, _, _, ht⟩ |
    ⟨e, rest, hm, hfifo, _, _, ht⟩ | ⟨_, _, ht⟩ <;> rw [ht]
  case inl =>
    refine ⟨?_, by simpa using singleFlight_quiet hradio { s.sched with fifo := [] } rfl⟩
    simpa only [hm] using schedulerOk_idle hok [] (Nat.zero_le _) (fun e he => nomatch he)
  case inr.inl =>
    refine ⟨⟨fun _ => ⟨_, rest, rfl, rfl, rfl⟩, ?_, fun x hx => ?_, hok.token⟩,
      singleFlight_start hradio hm _ rfl e.wp.data⟩
    · have hlen := hok.fifo_len
      simp only [hfifo, List.length_append, List.length_cons] at hlen ⊢
      omega
    · rcases List.mem_cons.mp hx with rfl | hx
      · exact hok.wires e (by simp [hfifo])
      · exact hok.wires x (by simp [hfifo, hx])
  case inr.inr.inl =>
    refine ⟨schedulerOk_idle hok _ ?_ ?_, singleFlight_stop hradio hm _ rfl⟩
    · split <;> simp [hfifo]
    · split <;> simp +contextual [hfifo, or_comm]
  case inr.inr.inr => exact ⟨hok, by simpa using hradio⟩

/-! ## A controller -/

/-- Taking the front entry off the queue keeps the bounds, whatever batch is then active (R336, R337). -/
theorem controllerOk_pop {C : Config} {k : Controller} (h : ControllerOk C k) {e : QueueEntry}
    {rest : List QueueEntry} (hq : k.queue = e :: rest) (valid : Bool) (token : U32) :
    ControllerOk C { k with queue := rest, activeValid := valid, activeToken := token } := by
  refine ⟨h.codec, h.mintx_ge, h.mintx_le, ?_, fun x hx => h.entries x (by simp [hq, hx])⟩
  have hlen := h.queue_len
  rw [hq, List.length_cons] at hlen
  exact Nat.le_of_succ_le hlen

/-- Eviction leaves a part of the queue (R333). -/
theorem mem_of_mem_evictKind {kind : Kind} {q : List QueueEntry} {e : QueueEntry} (h : e ∈ evictKind kind q) :
    e ∈ q := by
  unfold evictKind at h
  split_ifs at h
  · exact h
  · exact List.mem_of_mem_filter h

/-- An encode makes a good entry, whatever the on-air duration (R26, R332). -/
theorem entryOk_timed {C : Config} (hC : C.Lawful) {v : Codec} (hv : v ∈ C.registry) {cmd : Command} {p p' : Params}
    {d d' : SeedSource} {ws : List WireParam} (h : encodeCmd C v cmd p d = some (p', ws, d')) (dur : U16) :
    EntryOk C ⟨cmd.kind, timed dur ws⟩ := by
  obtain ⟨hpos, hlen, hwires, _⟩ := encodeCmd_bounds hC hv h
  refine ⟨by simpa [timed] using hpos, by simpa [timed] using hlen, fun w hw => ?_⟩
  obtain ⟨x, hx, rfl⟩ := List.mem_map.mp hw
  exact (hwires x hx).1

/-- Pushing an encoded entry where there is room keeps the bounds (R22, R332). -/
theorem controllerOk_enqueue {C : Config} (hC : C.Lawful) {k : Controller} (h : ControllerOk C k) {v : Codec}
    (hv : C.registry[k.codec.toNat]? = some v) {cmd : Command} {p : Params} {d d' : SeedSource} {ws : List WireParam}
    (hroom : (evictKind cmd.kind k.queue).length < C.cqCap)
    (henc : encodeCmd C v cmd k.params d = some (p, ws, d')) :
    ControllerOk C { k with
      params := p, queue := evictKind cmd.kind k.queue ++ [⟨cmd.kind, timed (onAirDuration k) ws⟩] } := by
  have hreg := List.mem_of_getElem? hv
  obtain ⟨_, _, _, htx, _⟩ := encodeCmd_bounds hC hreg henc
  refine ⟨⟨v, hv, htx⟩, h.mintx_ge, h.mintx_le, by simpa using hroom, fun e he => ?_⟩
  rcases List.mem_append.mp he with he | he
  · exact h.entries e (mem_of_mem_evictKind he)
  · rw [List.mem_singleton.mp he]
    exact entryOk_timed hC hreg henc _

/-! ## The capture list -/

theorem captureOk_live {C : Config} {l : List DedupEntry} (h : CaptureOk C l) (now : U32) :
    CaptureOk C (liveEntries now l) :=
  ⟨(List.length_filter_le _ _).trans h.len, fun e he => h.bytes e (List.mem_of_mem_filter he)⟩

/-- A full list loses its oldest entry before the new one enters (R405). -/
theorem captureOk_record {C : Config} (hC : C.Lawful) {l : List DedupEntry} (h : CaptureOk C l) {e : DedupEntry}
    (he : 1 ≤ e.bytes.length ∧ e.bytes.length ≤ 31) : CaptureOk C (recordCapture C l e) := by
  have hcap := hC.dedupCap_pos
  have hlen := h.len
  unfold recordCapture
  refine ⟨?_, fun x hx => ?_⟩
  · split_ifs <;> simp <;> omega
  · rcases List.mem_append.mp hx with hx | hx
    · split_ifs at hx
      · exact h.bytes x (List.mem_of_mem_drop hx)
      · exact h.bytes x hx
    · rw [List.mem_singleton.mp hx]
      exact he

/-! ## The state -/

theorem good_answer {C : Config} {s : State} (h : Good C s) (rsp : Response) : Good C (s.answer rsp) :=
  ⟨h.ctl_len, h.ctl, h.sched, h.dedup, h.radio⟩

theorem good_port {C : Config} {s : State} (h : Good C s) (port : List Request) : Good C { s with port := port } :=
  ⟨h.ctl_len, h.ctl, h.sched, h.dedup, h.radio⟩

theorem good_seeds {C : Config} {s : State} (h : Good C s) (d : SeedSource) : Good C { s with seeds := d } :=
  ⟨h.ctl_len, h.ctl, h.sched, h.dedup, h.radio⟩

theorem good_dedup {C : Config} {s : State} (h : Good C s) {l : List DedupEntry} (hl : CaptureOk C l) :
    Good C { s with dedup := l } :=
  ⟨h.ctl_len, h.ctl, h.sched, hl, h.radio⟩

theorem good_setController {C : Config} {s : State} (h : Good C s) (c : Byte) {k : Controller}
    (hk : ControllerOk C k) : Good C (s.setController c k) := by
  refine ⟨by simpa using h.ctl_len, fun x hx => ?_, h.sched, h.dedup, h.radio⟩
  rcases List.mem_or_eq_of_mem_set hx with hx | rfl
  · exact h.ctl x hx
  · exact hk

/-- A scheduler in the same mode may take the other's place, since no event is emitted. -/
theorem good_sched {C : Config} {s : State} (h : Good C s) {d : Scheduler} (hd : SchedulerOk C d)
    (hm : d.mode = s.sched.mode) : Good C { s with sched := d } :=
  ⟨h.ctl_len, h.ctl, hd, h.dedup, singleFlight_quiet h.radio d hm⟩

theorem good_tick {C : Config} {s : State} (h : Good C s) (now : U32) :
    Good C { s with sched := (tick now s.sched).1, events := s.events ++ (tick now s.sched).2 } := by
  obtain ⟨hsched, hradio⟩ := tick_keeps h.sched h.radio now
  exact ⟨h.ctl_len, h.ctl, hsched, h.dedup, hradio⟩

/-- The controller a request reads in a good state is within its bounds. -/
theorem good_controller {C : Config} {s : State} (h : Good C s) {c : Nat} {k : Controller} (hk : s.ctl[c]? = some k) :
    ControllerOk C k :=
  h.ctl k (List.mem_of_getElem? hk)

end Sys2Proof.Proofs
end

section
/-! Reset (R470), and that every request and every step keeps a state good (R22 to R34). -/

namespace Sys2Proof.Proofs

open Sys2Proof.Machine Sys2Proof.Laws

/-- Settles O12: controller `c` is the `c`-th of the reset controllers, and the rest of the reset state is as written. -/
theorem resetValues : Obligations.ResetValues := by
  refine ⟨reset_ctl_length, fun c hc => ?_, rfl, rfl, rfl, rfl, rfl⟩
  simp [State.reset, resetState, hc, resetController]

/-! ## Requests that write state, one by one -/

theorem setParams_keeps_good {C : Config} {r : Fields} {s : State} {rep : Reply} (hs : Good C s)
    (h : ruleSetParams C r s = .ok rep) : Good C rep.state := by
  obtain ⟨k, v, hk, hv, htx, rfl⟩ := ruleSetParams_ok h
  have hok := good_controller hs hk
  exact good_setController hs _ ⟨⟨v, hv, htx⟩, hok.mintx_ge, hok.mintx_le, hok.queue_len, hok.entries⟩

theorem setCodec_keeps_good {C : Config} (hC : C.Lawful) {r : Fields} {s : State} {rep : Reply} (hs : Good C s)
    (h : ruleSetCodec C r s = .ok rep) : Good C rep.state := by
  obtain ⟨k, v, hk, hv, rfl⟩ := ruleSetCodec_ok h
  have hok := good_controller hs hk
  have hceil := ceilOf_bounds hC v
  have htx : (txMod k.params.tx (ceilOf C v)).toNat < ceilOf C v := by
    rw [txMod_toNat _ hceil]
    exact Nat.mod_lt _ hceil.1
  exact good_setController hs _ ⟨⟨v, hv, htx⟩, hok.mintx_ge, hok.mintx_le, hok.queue_len, hok.entries⟩

theorem setMintx_keeps_good {C : Config} {r : Fields} {s : State} {rep : Reply} (hs : Good C s)
    (h : ruleSetMintx r s = .ok rep) : Good C rep.state := by
  obtain ⟨k, hk, hge, hle, rfl⟩ := ruleSetMintx_ok h
  have hok := good_controller hs hk
  exact good_setController hs _ ⟨hok.codec, hge, hle, hok.queue_len, hok.entries⟩

theorem setSeqdur_keeps_good {C : Config} {r : Fields} {s : State} {rep : Reply} (hs : Good C s)
    (h : ruleSetSeqdur r s = .ok rep) : Good C rep.state := by
  obtain ⟨k, hk, rfl⟩ := ruleSetSeqdur_ok h
  have hok := good_controller hs hk
  exact good_setController hs _ ⟨hok.codec, hok.mintx_ge, hok.mintx_le, hok.queue_len, hok.entries⟩

theorem enqueue_keeps_good {C : Config} (hC : C.Lawful) {r : Fields} {s : State} {rep : Reply} (hs : Good C s)
    (h : ruleEnqueue C r s = .ok rep) : Good C rep.state := by
  obtain ⟨cmd, k, v, p, ws, d, _, hk, hv, hroom, henc, rfl⟩ := ruleEnqueue_ok h
  exact good_seeds (good_setController hs _ (controllerOk_enqueue hC (good_controller hs hk) hv hroom henc)) d

theorem dequeueFront_keeps_good {C : Config} {r : Fields} {s : State} {rep : Reply} (hs : Good C s)
    (h : ruleDequeueFront r s = .ok rep) : Good C rep.state := by
  obtain ⟨k, e, rest, hk, hq, rfl⟩ := ruleDequeueFront_ok h
  exact good_setController hs _ (controllerOk_pop (good_controller hs hk) hq k.activeValid k.activeToken)

theorem pump_keeps_good {C : Config} {r : Fields} {s : State} {rep : Reply} (hs : Good C s)
    (h : rulePump C r s = .ok rep) : Good C rep.state := by
  obtain ⟨k, e, rest, hk, hq, hroom, rfl⟩ := rulePump_ok h
  have hok := good_controller hs hk
  have hentry : EntryOk C e := hok.entries e (by simp [hq])
  have hsched : SchedulerOk C (addBatch (supersede k s.sched) e.wps) :=
    schedulerOk_addBatch (schedulerOk_supersede hs.sched k) (by simpa using hroom) hentry.wires
  exact good_sched (good_setController hs _ (controllerOk_pop hok hq true s.sched.nextToken)) hsched (by simp)

theorem addBatch_keeps_good {C : Config} {r : Fields} {s : State} {rep : Reply} (hs : Good C s)
    (h : ruleAddBatch C r s = .ok rep) : Good C rep.state := by
  obtain ⟨ws, hread, hroom, rfl⟩ := ruleAddBatch_ok h
  obtain ⟨_, hwires⟩ := readWpList_some hread
  exact good_sched hs (schedulerOk_addBatch hs.sched hroom hwires) rfl

theorem removeBatch_keeps_good {C : Config} {r : Fields} {s : State} {rep : Reply} (hs : Good C s)
    (h : ruleRemoveBatch r s = .ok rep) : Good C rep.state := by
  obtain rfl := ruleRemoveBatch_ok h
  exact good_sched hs (schedulerOk_removeBatch hs.sched r.imm) rfl

theorem capture_keeps_good {C : Config} (hC : C.Lawful) {r : Fields} {s : State} {rep : Reply} (hs : Good C s)
    (h : ruleCapture C r s = .ok rep) : Good C rep.state := by
  have hlive := captureOk_live hs.dedup r.imm
  obtain ⟨hwf, ⟨_, rfl⟩ | ⟨_, rfl⟩⟩ := ruleCapture_ok h
  · exact good_dedup hs hlive
  · obtain ⟨_, hpayload⟩ := (wellFormed_iff _).mp hwf
    rw [identifyReply_state]
    exact good_dedup hs (captureOk_record hC hlive (payloadOk_bytes hpayload))

/-! ## Every request, every step -/

/-- A request that replies leaves a good state good, under every lawful configuration. -/
theorem ruleOf_keeps_good {C : Config} (hC : C.Lawful) {i : Instr} {s : State} {rep : Reply} (hs : Good C s)
    (h : ruleOf C i s = .ok rep) : Good C rep.state := by
  cases hreads : onlyReads i
  case true =>
    rw [rule_onlyReads hreads h]
    exact hs
  case false =>
    rcases writing_cases i hreads with ⟨r, rfl⟩ | ⟨r, rfl⟩ | ⟨r, rfl⟩ | ⟨r, rfl⟩ | ⟨r, rfl⟩ | ⟨r, rfl⟩ | ⟨r, rfl⟩ |
      ⟨r, rfl⟩ | ⟨r, rfl⟩ | ⟨r, rfl⟩ | ⟨r, rfl⟩ | ⟨r, rfl⟩
    · rcases ruleEncode_ok h with ⟨_, hstate⟩ | ⟨_, d, hstate⟩ <;> rw [hstate]
      · exact hs
      · exact good_seeds hs d
    · exact setParams_keeps_good hs h
    · exact setCodec_keeps_good hC hs h
    · exact setMintx_keeps_good hs h
    · exact setSeqdur_keeps_good hs h
    · exact enqueue_keeps_good hC hs h
    · exact dequeueFront_keeps_good hs h
    · exact pump_keeps_good hs h
    · exact addBatch_keeps_good hs h
    · exact removeBatch_keeps_good hs h
    · rw [ruleTick_ok h]
      exact good_tick hs r.imm
    · exact capture_keeps_good hC hs h

/-- So does every request, since a raised status writes the response alone (R434). -/
theorem execUnder_keeps_good {C : Config} (hC : C.Lawful) {i : Instr} {s t : State} (hs : Good C s)
    (h : execUnder C i s = .next t) : Good C t := by
  rw [execUnder, perform_eq] at h
  cases h
  cases hrule : ruleOf C i s with
  | error st => exact good_answer hs _
  | ok rep => exact good_answer (ruleOf_keeps_good hC hs hrule) _

/-- Settles O14: with an empty port nothing happens, an unknown operation is answered ILLEGAL, and a request keeps the
state good by `execUnder_keeps_good`. -/
theorem stepKeepsStateGood : Obligations.StepKeepsStateGood := by
  intro s t hs hstep
  unfold step at hstep
  cases hport : s.port with
  | nil =>
    rw [fetch_nil hport] at hstep
    cases hstep
    exact hs
  | cons q rest =>
    rw [fetch_cons hport] at hstep
    have hs' := good_port hs rest
    cases hdecode : decode q with
    | error e =>
      simp only [hdecode] at hstep
      cases hstep
      exact good_answer hs' _
    | ok i =>
      simp only [hdecode, exec_eq_execUnder] at hstep
      exact execUnder_keeps_good Config.build_lawful hs' hstep

end Sys2Proof.Proofs
end

section
/-! What one step does (R70, R92, R449), and the requests that only read (R68, R313). -/

namespace Sys2Proof.Proofs

open Sys2Proof.Machine Sys2Proof.Laws

/-! ## One step -/

/-- The bytes of a request decode as the request does, since they carry it (R80, R93). -/
theorem decodeBytes_requestBytes (q : Request) : decodeBytes (requestBytes q) = decode q := by
  simp [decodeBytes, requestOfBytes_requestBytes]

theorem step_idle {s : State} (h : s.port = []) : step s = .next s := by
  simp [step, fetch_nil h]

theorem step_of_decode_ok {s : State} {q : Request} {rest : List Request} {i : Instr} (h : s.port = q :: rest)
    (hq : decode q = .ok i) : step s = exec i { s with port := rest } := by
  simp [step, fetch_cons h, hq]

theorem step_of_decode_error {s : State} {q : Request} {rest : List Request} {e : DecodeError}
    (h : s.port = q :: rest) (hq : decode q = .error e) :
    step s = .next (State.answer { s with port := rest } ⟨.illegal, 0, []⟩) := by
  simp [step, fetch_cons h, hq, raise_eq]

/-- Settles O5: the three cases of a step, read through the bytes of the first request. -/
theorem stepPerformsFirstRequest : Obligations.StepPerformsFirstRequest := by
  refine ⟨fun s h => step_idle h, fun s q rest i h hq => ?_, fun s q rest h hq => ?_⟩
  · rw [decodeBytes_requestBytes] at hq
    exact step_of_decode_ok h hq
  · rw [decodeBytes_requestBytes] at hq
    cases hdecode : decode q with
    | ok i => exact absurd hdecode (hq i)
    | error e => exact step_of_decode_error h hdecode

/-! ## The requests that only read -/

/-- What a request can do: it raises a status in the state before it, or its rule replies (R81, R434). -/
theorem exec_cases (i : Instr) (s : State) :
    (∃ st, exec i s = .next (s.answer ⟨st, 0, []⟩)) ∨
    ∃ rep, ruleOf Config.build i s = .ok rep ∧ exec i s = .next (rep.state.answer ⟨rep.status, rep.res, rep.out⟩) := by
  rw [exec_eq_next]
  cases ruleOf Config.build i s with
  | error st => exact .inl ⟨st, rfl⟩
  | ok rep => exact .inr ⟨rep, rfl, rfl⟩

/-- Settles O11: by the inversion of the rules, a reading request replies from the state it was given, and K.ENCODE from
one that differs in the seed source alone. -/
theorem readingRequestsWriteNothing : Obligations.ReadingRequestsWriteNothing := by
  constructor
  · intro i s hi
    rcases exec_cases i s with ⟨st, h⟩ | ⟨rep, hrule, h⟩
    · exact ⟨_, h⟩
    · rw [rule_onlyReads hi hrule] at h
      exact ⟨_, h⟩
  · intro r s
    rcases exec_cases (.kEncode r) s with ⟨st, h⟩ | ⟨rep, hrule, h⟩
    · exact ⟨_, s.seeds, h⟩
    · rcases ruleEncode_ok hrule with ⟨_, hstate⟩ | ⟨_, d, hstate⟩ <;> rw [hstate] at h
      · exact ⟨_, s.seeds, h⟩
      · exact ⟨_, d, h⟩

end Sys2Proof.Proofs
end

section
/-! The records of R84 to R89, byte by byte, and that they read back. -/

namespace Sys2Proof.Proofs

open Sys2Proof.Machine Sys2Proof.Laws

/-! ## CMD records -/

/-- The codes of the table of R86 are the model's. -/
theorem kindCode_of_mem_kindCodes {k : Kind} {n : Nat} (h : (k, n) ∈ kindCodes) : kindCode k = BitVec.ofNat 8 n := by
  have table : ∀ q ∈ kindCodes, kindCode q.1 = BitVec.ofNat 8 q.2 := by decide
  exact table (k, n) h

/-- Every kind has a code in the table of R86. -/
theorem mem_kindCodes (k : Kind) : (k, (kindCode k).toNat) ∈ kindCodes := by
  cases k <;> decide

/-- A kind code above 16 is ill-formed (R84). -/
theorem readCmd_eq_none {b : List Byte} {i : Nat} (h : 16 < (byteAt b i).toNat) : readCmd b i = none := by
  have hkind : kindOf (byteAt b i) = none := by
    cases hk : kindOf (byteAt b i) with
    | none => rfl
    | some k => exact absurd (kindOf_some hk) (by omega)
  simp [readCmd, hkind]

/-! ## WP records -/

/-- The five bytes of a WP record before its buffer (R88). -/
def wpHead (w : WireParam) : List Byte :=
  [BitVec.ofNat 8 w.data.length, w.flagsIdx, w.dataIdx, w.duration.extractLsb' 0 8, w.duration.extractLsb' 8 8]

/-- A WP record is its head, the buffer, and zeros past `len` (R88). -/
theorem writeWp_eq (w : WireParam) : writeWp w = wpHead w ++ w.data ++ zeros (31 - w.data.length) := rfl

/-- The bytes past `len` are ignored (R88). -/
theorem readWp_wpHead {w : WireParam} (h : WireOk w) (rest : List Byte) :
    readWp (wpHead w ++ w.data ++ rest) = some w := by
  rw [List.append_assoc]
  have hcount : (byteAt (wpHead w ++ (w.data ++ rest)) 0).toNat = w.data.length := wireOk_len h
  have hflagsIdx : byteAt (wpHead w ++ (w.data ++ rest)) 1 = w.flagsIdx := rfl
  have hdataIdx : byteAt (wpHead w ++ (w.data ++ rest)) 2 = w.dataIdx := rfl
  have hduration : rd16le (wpHead w ++ (w.data ++ rest)) 3 = w.duration := extract16 w.duration
  have hbuffer : slice (wpHead w ++ (w.data ++ rest)) 5 (5 + w.data.length) = w.data :=
    slice_append_mid (wpHead w) w.data rest rfl rfl
  obtain ⟨hlen, hflags, hdata⟩ := h
  simp [readWp, hcount, hflagsIdx, hdataIdx, hduration, hbuffer, hlen, hflags, hdata]

/-- A count byte and 36 bytes for each record (R89). -/
theorem writeWpList_length {ws : List WireParam} (h : ∀ w ∈ ws, WireOk w) :
    (writeWpList ws).length = 1 + 36 * ws.length := by
  rw [writeWpList, List.length_cons, flatMap_writeWp_length h, Nat.add_comm]

/-- Settles O4: record by record, the bytes by the definition of the writer, the reading back by the lemmas on it. -/
theorem recordsReadBack : Obligations.RecordsReadBack := by
  refine ⟨fun c => ?_, fun k n hk x a => ?_, fun k => ⟨_, mem_kindCodes k⟩, fun b h => readCmd_eq_none h,
    fun p => ⟨rfl, fun before after => ?_⟩, fun w hw => ⟨writeWp_length hw.1, ?_, writeWp_eq w,
      fun rest _ => readWp_wpHead hw rest⟩, fun ws => rfl,
    fun ws hn h => ⟨writeWpList_length h, readWpList_writeWpList hn h⟩⟩
  · simpa using readCmd_writeCmd c []
  · have hbytes : writeCmd ⟨k, x, a⟩ = [BitVec.ofNat 8 n, x.extractLsb' 0 8, x.extractLsb' 8 8, a.a0, a.a1, a.a2, a.a3,
        a.a4] := by rw [← kindCode_of_mem_kindCodes hk]; rfl
    refine ⟨hbytes, ?_⟩
    rw [← hbytes]
    simpa using readCmd_writeCmd ⟨k, x, a⟩ []
  · rw [List.append_assoc]
    exact readParams_writeParams p before after
  · simpa using readWp_writeWp hw []

end Sys2Proof.Proofs
end

section
/-! What the payloads of all layouts share: where the parts of a byte string stand, the byte order of the wire fields
(R65), and the whitenings and reversals byte by byte (R130 to R136). -/

namespace Sys2Proof.Proofs

open Sys2Proof.Machine Sys2Proof.Laws

/-! ## Where the parts of a byte string stand -/

/-- The parts stand in `b` one after another, from offset `i` on. -/
def PartsAt (b : List Byte) : Nat → List (List Byte) → Prop
  | _, [] => True
  | i, part :: rest => slice b i (i + part.length) = part ∧ PartsAt b (i + part.length) rest

theorem partsAt_append (before : List Byte) (parts : List (List Byte)) (after : List Byte) :
    PartsAt (before ++ (parts.flatten ++ after)) before.length parts := by
  induction parts generalizing before with
  | nil => trivial
  | cons part rest ih =>
    rw [List.flatten_cons, List.append_assoc]
    refine ⟨slice_append_mid before part _ rfl rfl, ?_⟩
    simpa using ih (before ++ part)

theorem partsAt_flatten (parts : List (List Byte)) : PartsAt parts.flatten 0 parts := by
  simpa using partsAt_append [] parts []

theorem byteAt_of_slice {b : List Byte} {i : Nat} {x : Byte} (h : slice b i (i + 1) = [x]) : byteAt b i = x := by
  have hfirst := slice_byteAt b i (i + 1) 0 (by omega)
  rw [h] at hfirst
  exact hfirst.symm

/-- A slice is determined by its bytes. -/
theorem slice_congr {a b : List Byte} {i j : Nat} (ha : j ≤ a.length) (hb : j ≤ b.length)
    (h : ∀ n, i ≤ n → n < j → byteAt a n = byteAt b n) : slice a i j = slice b i j := by
  have hlen := slice_length a i j ha
  refine ext_byteAt (by rw [hlen, slice_length b i j hb]) fun n hn => ?_
  rw [slice_byteAt a i j n (by omega), slice_byteAt b i j n (by omega)]
  exact h (i + n) (by omega) (by omega)

theorem slice_whole {b : List Byte} {n : Nat} (h : b.length = n) : slice b 0 n = b := by
  simpa using slice_prefix b [] h

/-- A byte inside the spliced range is a byte of what was spliced in. -/
theorem splice_byteAt_inside (b r : List Byte) {i j n : Nat} (hj : j ≤ b.length) (hr : r.length = j - i)
    (hi : i ≤ n) (hn : n < j) : byteAt (splice b i j r) n = byteAt r (n - i) := by
  have hsame := slice_byteAt (splice b i j r) i j (n - i) (by omega)
  rwa [slice_splice b r i j (by omega) hj hr, Nat.add_sub_cancel' hi, eq_comm] at hsame

/-! ## Wire fields -/

/-- Both byte orders of R65, as the model writes its wire fields. -/
theorem fieldOrder (C : Config) (f : LayoutFamily) : FieldOrder C f := by
  intro x y
  constructor <;> intro horder <;> simp [wire16, wire32, horder, le16, le32]

/-- The low byte of an opcode (R203, R263). -/
theorem setWidth_eq_extract (v : U16) : v.setWidth 8 = v.extractLsb' 0 8 := by
  apply BitVec.eq_of_toNat_eq
  simp

/-! ## Whitening and reversal, byte by byte -/

theorem whitenLfsr_byteAt (C : Config) (b : List Byte) (seed : Byte) {i : Nat} (h : i < b.length) :
    byteAt (whitenLfsr C b seed) i = byteAt b i ^^^ C.lfsrKs seed i := by
  simpa [whitenLfsr] using xorStream_byteAt (C.lfsrKs seed) b 0 i h

/-- Of the seed only the low byte counts, as 256 is a multiple of the 32 of R133 (decision D54). -/
theorem tableKs_salt_zero (C : Config) (seed : U16) (i : Nat) :
    tableKs C seed 0 i = tableByte C (seed.extractLsb' 0 8) i := by
  have hindex : (seed.toNat + i + 9) % 32 = ((seed.extractLsb' 0 8).toNat + i + 9) % 32 := by
    simp only [BitVec.extractLsb'_toNat, Nat.shiftRight_zero]
    omega
  simp [tableKs, tableByte, tableIndex, hindex]

theorem whitenTable_byteAt (C : Config) (b : List Byte) (seed : U16) {i : Nat} (h : i < b.length) :
    byteAt (whitenTable C b seed 0) i = byteAt b i ^^^ tableByte C (seed.extractLsb' 0 8) i := by
  rw [whitenTable, xorStream_byteAt _ b 0 i h, Nat.zero_add, tableKs_salt_zero]

theorem reverseBits_eq_reverse (x : Byte) : reverseBits x = x.reverse := by
  apply BitVec.eq_of_getLsbD_eq
  intro i hi
  rw [BitVec.getLsbD_reverse]
  unfold reverseBits
  interval_cases i <;> simp [BitVec.getMsbD]

theorem reverseBytes_byteAt (b : List Byte) {i : Nat} (h : i < b.length) :
    byteAt (reverseBytes b) i = byteAt b (b.length - 1 - i) := by
  rw [byteAt_eq_getElem (by simpa [reverseBytes] using h), byteAt_eq_getElem (by omega)]
  simp [reverseBytes]

theorem reverseBitsAll_byteAt (b : List Byte) {i : Nat} (h : i < b.length) :
    byteAt (reverseBitsAll b) i = (byteAt b i).reverse := by
  rw [byteAt_eq_getElem (by simpa [reverseBitsAll] using h), byteAt_eq_getElem h]
  simp [reverseBitsAll, reverseBits_eq_reverse]

end Sys2Proof.Proofs
end

section
/-! The payload of the FanLamp v2 layout, field by field (R231 to R236). -/

namespace Sys2Proof.Proofs

open Sys2Proof.Machine Sys2Proof.Laws

section

variable (C : Config) (signed : Bool) (rc : RealCommand) (id : U32) (index tx : Byte) (s : U16)

/-- The first 23 bytes of a FanLamp v2 payload before the whitening (R231 to R233). -/
def flv2Clear : List Byte :=
  flv2Head C signed rc id index tx ++ wire16 C .flv2 (flv2Sign C signed (flv2Head C signed rc id index tx) s tx) ++
    wire16 C .flv2 s

/-- The payload after the whitening and before the CRC (R235). -/
def flv2Whitened : List Byte := flv2Whiten C (flv2Clear C signed rc id index tx s ++ wire16 C .flv2 0) s

theorem encFlv2_eq : encFlv2 C signed rc id index tx s = splice (flv2Whitened C signed rc id index tx s) 23 25
    (wire16 C .flv2 (flv2Crc (flv2Whitened C signed rc id index tx s) s)) := rfl

variable {C signed rc id index tx s} (hC : C.Lawful)

include hC

theorem flv2Clear_length : (flv2Clear C signed rc id index tx s).length = 23 := by
  simp [flv2Clear, flv2Head_length hC]

/-- The signature covers bytes that stand before it (R233). -/
theorem flv2Sign_clear : flv2Sign C signed (flv2Clear C signed rc id index tx s) s tx =
    flv2Sign C signed (flv2Head C signed rc id index tx) s tx := by
  have hhead := flv2Head_length hC signed rc id index tx
  have hcovered : slice (flv2Clear C signed rc id index tx s) 1 17 = slice (flv2Head C signed rc id index tx) 1 17 := by
    refine slice_congr (by simp [flv2Clear_length hC]) (by omega) fun n _ hn => ?_
    rw [flv2Clear, List.append_assoc, byteAt_append_left _ (by omega)]
  simp [flv2Sign, hcovered]

/-- The fields in clear, in the order in which they stand (R231, R232). -/
theorem flv2Clear_parts : PartsAt (flv2Clear C signed rc id index tx s) 0
    [flv2Prefix C signed, [tx], wire16 C .flv2 (C.flv2Type signed), wire32 C .flv2 id, [index], wire16 C .flv2 rc.cmd,
     [rc.args.a0, rc.args.a1, rc.args.a2, rc.args.a3],
     wire16 C .flv2 (flv2Sign C signed (flv2Clear C signed rc id index tx s) s tx), wire16 C .flv2 s] := by
  rw [flv2Sign_clear hC]
  convert partsAt_flatten _ using 1
  simp [flv2Clear, flv2Head, argBytes]

/-- Outside its region the whitening leaves a payload as it is (R235). -/
theorem flv2Whiten_byteAt_outside {P : List Byte} (hP : P.length = 25) {i : Nat} (h : i < C.whStart ∨ C.whEnd ≤ i) :
    byteAt (flv2Whiten C P s) i = byteAt P i := by
  have hend := hC.wh_end
  exact splice_byteAt P _ _ _ i hC.wh_order (by omega)
    (by rw [whitenTable_length, slice_length _ _ _ (by omega)]) h

/-- Inside it every byte is XORed with the keystream of the packet's seed (R235). -/
theorem flv2Whiten_byteAt_inside {P : List Byte} (hP : P.length = 25) {i : Nat} (hi : C.whStart ≤ i)
    (h : i < C.whEnd) :
    byteAt (flv2Whiten C P s) i = byteAt P i ^^^ tableByte C (s.extractLsb' 0 8) (i - C.whStart) := by
  have hend := hC.wh_end
  have hlen : (slice P C.whStart C.whEnd).length = C.whEnd - C.whStart := slice_length _ _ _ (by omega)
  rw [flv2Whiten, splice_byteAt_inside P _ (by omega) (by rw [whitenTable_length, hlen]) hi h,
    whitenTable_byteAt C _ s (by omega), slice_byteAt _ _ _ _ (by omega), Nat.add_sub_cancel' hi]

theorem flv2Whitened_length : (flv2Whitened C signed rc id index tx s).length = 25 :=
  flv2Whiten_length hC _ s (by simp [flv2Clear_length hC])

/-- What is sent before the CRC is the whitened payload (R235). -/
theorem encFlv2_byteAt {i : Nat} (h : i < 23) :
    byteAt (encFlv2 C signed rc id index tx s) i = byteAt (flv2Whitened C signed rc id index tx s) i := by
  have hlen : (flv2Whitened C signed rc id index tx s).length = 25 := flv2Whitened_length hC
  rw [encFlv2_eq]
  exact splice_byteAt _ _ _ _ i (by omega) (by omega) (wire16_length _ _ _) (.inl h)

theorem encFlv2_byteAt_outside {i : Nat} (h : i < 23) (hi : i < C.whStart ∨ C.whEnd ≤ i) :
    byteAt (encFlv2 C signed rc id index tx s) i = byteAt (flv2Clear C signed rc id index tx s) i := by
  have hlen : (flv2Clear C signed rc id index tx s).length = 23 := flv2Clear_length hC
  rw [encFlv2_byteAt hC h, flv2Whitened, flv2Whiten_byteAt_outside hC (by simp [hlen]) hi,
    byteAt_append_left _ (by omega)]

theorem encFlv2_byteAt_inside {i : Nat} (hi : C.whStart ≤ i) (h : i < C.whEnd) :
    byteAt (encFlv2 C signed rc id index tx s) i =
      byteAt (flv2Clear C signed rc id index tx s) i ^^^ tableByte C (s.extractLsb' 0 8) (i - C.whStart) := by
  have hend := hC.wh_end
  have hlen : (flv2Clear C signed rc id index tx s).length = 23 := flv2Clear_length hC
  rw [encFlv2_byteAt hC (by omega), flv2Whitened, flv2Whiten_byteAt_inside hC (by simp [hlen]) hi h,
    byteAt_append_left _ (by omega)]

/-- A range that the whitening leaves alone is sent in clear (R235). -/
theorem slice_encFlv2_outside {i j : Nat} (hj : j ≤ 23) (hij : j ≤ C.whStart ∨ C.whEnd ≤ i) :
    slice (encFlv2 C signed rc id index tx s) i j = slice (flv2Clear C signed rc id index tx s) i j := by
  refine slice_congr (by rw [encFlv2_length hC]; omega) (by rw [flv2Clear_length hC]; omega) fun n hi hn => ?_
  exact encFlv2_byteAt_outside hC (by omega) (by omega)

/-- The CRC is over the bytes as they are sent (R234). -/
theorem slice_encFlv2_crc : slice (encFlv2 C signed rc id index tx s) 23 25 =
    wire16 C .flv2 (crc16Ccitt (slice (encFlv2 C signed rc id index tx s) 2 23) (~~~s)) := by
  have hlen : (flv2Whitened C signed rc id index tx s).length = 25 := flv2Whitened_length hC
  have hcovered :
      slice (encFlv2 C signed rc id index tx s) 2 23 = slice (flv2Whitened C signed rc id index tx s) 2 23 :=
    slice_congr (by rw [encFlv2_length hC]; omega) (by omega) fun n _ hn => encFlv2_byteAt hC hn
  rw [hcovered, encFlv2_eq, slice_splice _ _ _ _ (by omega) (by omega) (wire16_length _ _ _)]
  rfl

end

/-- Settles O34: the clear payload is `flv2Clear`, whose parts stand at their offsets; the whitening begins after
tx_count and ends before the seed (R230). -/
theorem flv2PacketFields : Obligations.Flv2PacketFields := by
  refine ⟨Config.build_little .flv2, fun C hC => ⟨fieldOrder C .flv2, fun v signed rc id index tx x hk => ?_⟩⟩
  have hstart := hC.wh_start
  have hend := hC.wh_end
  simp only [encPayload, hk]
  have hparts := flv2Clear_parts (signed := signed) (rc := rc) (id := id) (index := index) (tx := tx) (s := x) hC
  simp only [PartsAt, flv2Prefix_length hC, wire16_length, wire32_length, List.length_cons, List.length_nil, and_true,
    Nat.reduceAdd] at hparts
  obtain ⟨hheader, htx, htype, hid, hindex, hcmd, hargs, hsign, hseed⟩ := hparts
  refine ⟨encFlv2_length hC .., ?_, ?_, ?_, slice_encFlv2_crc hC, flv2Clear C signed rc id index tx x,
    flv2Clear_length hC, hheader, byteAt_of_slice htx, htype, hid, byteAt_of_slice hindex, hcmd, hargs, hsign,
    hseed, fun i hi => ⟨fun h => ?_, fun h => ?_⟩⟩
  · exact (slice_encFlv2_outside hC (by omega) (by omega)).trans hheader
  · exact (encFlv2_byteAt_outside hC (by omega) (by omega)).trans (byteAt_of_slice htx)
  · exact (slice_encFlv2_outside hC (by omega) (by omega)).trans hseed
  · exact encFlv2_byteAt_inside hC h.1 h.2
  · exact encFlv2_byteAt_outside hC hi h

end Sys2Proof.Proofs
end

section
/-! The payload of the FanLamp v1 layout, field by field (R201 to R206). -/

namespace Sys2Proof.Proofs

open Sys2Proof.Machine Sys2Proof.Laws

/-! ## Header and lengths -/

/-- The header is the variant's first bytes and the supplementary byte (R201). -/
theorem flv1HeadLen_eq (u : Flv1Variant) :
    flv1HeadLen u = u.header.length + if u.supp = none then 0 else 1 := by
  cases hsupp : u.supp <;> simp [flv1HeadLen, hsupp]

/-- `PLEN_u` (R201). -/
theorem flv1Plen_eq (u : Flv1Variant) : flv1Plen u = flv1HeadLen u + 14 + if u.crc2 = none then 0 else 2 := by
  cases hcrc : u.crc2 <;> simp [flv1Plen, hcrc]

/-! ## The reversal -/

theorem flv1Reverse_byteAt_byteOrder {C : Config} (hrev : C.flv1Reversal = .byteOrder) (b : List Byte) {i : Nat}
    (h : i < b.length) : byteAt (flv1Reverse C b) i = byteAt b (b.length - 1 - i) := by
  simpa [flv1Reverse, hrev] using reverseBytes_byteAt b h

theorem flv1Reverse_byteAt_bitEach {C : Config} (hrev : C.flv1Reversal = .bitEach) (b : List Byte) {i : Nat}
    (h : i < b.length) : byteAt (flv1Reverse C b) i = (byteAt b i).reverse := by
  simpa [flv1Reverse, hrev] using reverseBitsAll_byteAt b h

section

variable (C : Config) (u : Flv1Variant) (rc : RealCommand) (id : U32) (index tx : Byte) (s : U16)

/-! ## The clear payload -/

/-- Header and fields, the bytes CRC2 covers (R205). -/
def flv1Covered : List Byte := (u.header ++ u.supp.toList) ++ flv1Fields C u rc id index tx s

theorem flv1Covered_length : (flv1Covered C u rc id index tx s).length = flv1HeadLen u + 12 := by
  simp only [flv1Covered, List.length_append, flv1Fields_length, flv1HeadLen]

theorem flv1Clear_eq : flv1Clear C u rc id index tx s = flv1Covered C u rc id index tx s ++
    (wire16 C .flv1 (crc16Ccitt (flv1Fields C u rc id index tx s) (~~~s)) ++
      flv1Crc2 C u (flv1Covered C u rc id index tx s)) := by
  rw [← List.append_assoc]
  rfl

theorem flv1Clear_header : slice (flv1Clear C u rc id index tx s) 0 u.header.length = u.header := by
  rw [flv1Clear_eq, flv1Covered, List.append_assoc, List.append_assoc]
  exact slice_prefix _ _ rfl

theorem flv1Clear_supp {b : Byte} (h : u.supp = some b) :
    byteAt (flv1Clear C u rc id index tx s) u.header.length = b := by
  rw [flv1Clear_eq, flv1Covered, List.append_assoc, List.append_assoc, byteAt_append_right _ le_rfl, Nat.sub_self, h]
  rfl

theorem slice_flv1Clear_covered : slice (flv1Clear C u rc id index tx s) 0 (flv1HeadLen u + 12) =
    flv1Covered C u rc id index tx s := by
  rw [flv1Clear_eq]
  exact slice_prefix _ _ (flv1Covered_length C u rc id index tx s)

/-- The twelve field bytes follow the header (R203). -/
theorem slice_flv1Clear_fields : slice (flv1Clear C u rc id index tx s) (flv1HeadLen u) (flv1HeadLen u + 12) =
    flv1Fields C u rc id index tx s := by
  rw [flv1Clear_eq, flv1Covered, List.append_assoc]
  exact slice_append_mid _ _ _ (by simp [flv1HeadLen]) (by rw [flv1Fields_length])

/-- The fields and CRC1, in the order in which they stand (R203, R205). -/
theorem flv1Clear_parts : PartsAt (flv1Clear C u rc id index tx s) (flv1HeadLen u)
    [[rc.cmd.extractLsb' 0 8], wire16 C .flv1 (C.group id index),
     [(u.fix rc.cmd rc.args).a0, (u.fix rc.cmd rc.args).a1, (u.fix rc.cmd rc.args).a2],
     [tx, u.outs rc, C.src s ^^^ flv1Xor1 u, C.r2 s ^^^ flv1Xor1 u], wire16 C .flv1 s,
     wire16 C .flv1 (crc16Ccitt (flv1Fields C u rc id index tx s) (~~~s))] := by
  have hhead : flv1HeadLen u = (u.header ++ u.supp.toList).length := by simp [flv1HeadLen]
  rw [flv1Clear_eq, hhead]
  generalize flv1Crc2 C u (flv1Covered C u rc id index tx s) = crc2
  rw [flv1Covered, List.append_assoc]
  convert partsAt_append (u.header ++ u.supp.toList) _ crc2 using 2
  simp [flv1Fields, argBytes, setWidth_eq_extract]

/-- CRC2 stands behind CRC1, over header and fields (R205). -/
theorem flv1Clear_crc2 {init : U16} (h : u.crc2 = some init) :
    slice (flv1Clear C u rc id index tx s) (flv1HeadLen u + 14) (flv1HeadLen u + 16) =
      wire16 C .flv1 (crc16Ccitt (slice (flv1Clear C u rc id index tx s) 0 (flv1HeadLen u + 12)) init) := by
  have hcrc2 : flv1Crc2 C u (flv1Covered C u rc id index tx s) =
      wire16 C .flv1 (crc16Ccitt (flv1Covered C u rc id index tx s) init) ++ [] := by simp [flv1Crc2, h]
  rw [slice_flv1Clear_covered, flv1Clear_eq, hcrc2, ← List.append_assoc]
  refine slice_append_mid _ _ _ ?_ (by rw [wire16_length])
  rw [List.length_append, flv1Covered_length, wire16_length]

/-! ## What is sent -/

variable {u} (hu : u.Lawful)

include hu

/-- Outside the region the payload is sent in clear (R202, R205). -/
theorem encFlv1_byteAt_outside {i : Nat} (h : i < u.header.length ∨ u.header.length + u.wlen ≤ i) :
    byteAt (encFlv1 C u rc id index tx s) i = byteAt (flv1Clear C u rc id index tx s) i := by
  have hlen := flv1Clear_length C u rc id index tx s
  have hregion := hu.region
  refine splice_byteAt _ _ _ _ i (by omega) (by omega) ?_ h
  rw [whitenLfsr_length, flv1Reverse_length, slice_length _ _ _ (by omega)]

/-- Inside it the reversed region is sent, whitened by the keystream of seed 0x6F (R205, R206). -/
theorem encFlv1_byteAt_inside {j : Nat} (h : j < u.wlen) :
    byteAt (encFlv1 C u rc id index tx s) (u.header.length + j) =
      byteAt (flv1Reverse C (slice (flv1Clear C u rc id index tx s) u.header.length (u.header.length + u.wlen))) j ^^^
        C.lfsrKs 0x6F j := by
  have hlen := flv1Clear_length C u rc id index tx s
  have hregion := hu.region
  have hslice : (flv1Reverse C (slice (flv1Clear C u rc id index tx s) u.header.length
      (u.header.length + u.wlen))).length = u.wlen := by
    rw [flv1Reverse_length, slice_length _ _ _ (by omega)]
    omega
  rw [encFlv1, splice_byteAt_inside _ _ (by omega) (by rw [whitenLfsr_length, hslice]; omega) (by omega) (by omega),
    Nat.add_sub_cancel_left, whitenLfsr_byteAt _ _ _ (by omega)]

theorem encFlv1_byteAt_byteOrder (hrev : C.flv1Reversal = .byteOrder) {j : Nat} (h : j < u.wlen) :
    byteAt (encFlv1 C u rc id index tx s) (u.header.length + j) =
      C.lfsrKs 0x6F j ^^^ byteAt (flv1Clear C u rc id index tx s) (u.header.length + u.wlen - 1 - j) := by
  have hlen := flv1Clear_length C u rc id index tx s
  have hregion := hu.region
  have hslice := slice_length (flv1Clear C u rc id index tx s) u.header.length (u.header.length + u.wlen) (by omega)
  rw [encFlv1_byteAt_inside C rc id index tx s hu h, flv1Reverse_byteAt_byteOrder hrev _ (by omega), hslice,
    slice_byteAt _ _ _ _ (by omega), BitVec.xor_comm]
  congr 2
  omega

theorem encFlv1_byteAt_bitEach (hrev : C.flv1Reversal = .bitEach) {j : Nat} (h : j < u.wlen) :
    byteAt (encFlv1 C u rc id index tx s) (u.header.length + j) =
      C.lfsrKs 0x6F j ^^^ (byteAt (flv1Clear C u rc id index tx s) (u.header.length + j)).reverse := by
  have hlen := flv1Clear_length C u rc id index tx s
  have hregion := hu.region
  have hslice := slice_length (flv1Clear C u rc id index tx s) u.header.length (u.header.length + u.wlen) (by omega)
  rw [encFlv1_byteAt_inside C rc id index tx s hu h, flv1Reverse_byteAt_bitEach hrev _ (by omega),
    slice_byteAt _ _ _ _ (by omega), BitVec.xor_comm]

end

/-- Settles O59: the clear payload is `flv1Clear`, whose parts stand at their offsets behind the header; what is sent
differs from it in the region alone, by the build's reversal. -/
theorem flv1PacketFields : Obligations.Flv1PacketFields := by
  refine ⟨Config.build_little .flv1, fun C hC =>
    ⟨fieldOrder C .flv1, fun v k u rc id index tx x hv hk => ?_⟩⟩
  obtain ⟨hentry, _⟩ := (hC.codec_lawful v hv).flv1_entry k u hk
  have hu : u.Lawful := hC.flv1_lawful u (List.mem_of_getElem? hentry)
  have hparts := flv1Clear_parts C u rc id index tx x
  rw [← slice_flv1Clear_fields] at hparts
  simp only [PartsAt, wire16_length, List.length_cons, List.length_nil, and_true, Nat.add_assoc,
    Nat.reduceAdd] at hparts
  obtain ⟨hcmd, hgroup, hargs, hmiddle, hseed, hcrc1⟩ := hparts
  simp only [encPayload, hk, ← flv1HeadLen_eq, ← flv1Plen_eq]
  refine ⟨flv1Clear C u rc id index tx x, flv1Clear_length C u rc id index tx x, ?_,
    flv1Clear_header C u rc id index tx x,
    fun b hb => flv1Clear_supp C u rc id index tx x hb, byteAt_of_slice hcmd, hgroup, hargs, hmiddle, hseed, hcrc1,
    fun init hinit => flv1Clear_crc2 C u rc id index tx x hinit,
    fun i hi => encFlv1_byteAt_outside C rc id index tx x hu hi, fun j hj => ?_⟩
  · rw [encFlv1_length C u hu, flv1Clear_length]
  · cases hrev : C.flv1Reversal with
    | byteOrder => exact encFlv1_byteAt_byteOrder C rc id index tx x hu hrev hj
    | bitEach => exact encFlv1_byteAt_bitEach C rc id index tx x hu hrev hj

end Sys2Proof.Proofs
end

section
/-! The payloads of the three Zhijia layouts, field by field (R262 to R265, R270 to R272, R280 to R283). -/

namespace Sys2Proof.Proofs

open Sys2Proof.Machine Sys2Proof.Laws

/-! ## The CRC of v0 and v1 -/

/-- A body with its reflected CRC behind it (R264, R272). -/
def zjWithCrc (C : Config) (f : LayoutFamily) (body : List Byte) : List Byte :=
  body ++ wire16 C f (crc16Refl body C.zjCrcInit)

theorem zjWithCrc_length (C : Config) (f : LayoutFamily) (body : List Byte) :
    (zjWithCrc C f body).length = body.length + 2 := by
  simp [zjWithCrc]

theorem slice_zjWithCrc_body (C : Config) (f : LayoutFamily) {body : List Byte} {n : Nat} (h : body.length = n) :
    slice (zjWithCrc C f body) 0 n = body :=
  slice_prefix _ _ h

theorem slice_zjWithCrc_crc (C : Config) (f : LayoutFamily) {body : List Byte} {n : Nat} (h : body.length = n) :
    slice (zjWithCrc C f body) n (n + 2) = wire16 C f (crc16Refl (slice (zjWithCrc C f body) 0 n) C.zjCrcInit) := by
  rw [slice_zjWithCrc_body C f h]
  simpa [zjWithCrc] using slice_append_mid body (wire16 C f (crc16Refl body C.zjCrcInit)) [] h.symm rfl

/-! ## The address of v0 -/

/-- The vendor MAC with its bytes and the bits of each byte reversed (R262). -/
theorem zj0Addr_byteAt {C : Config} (hC : C.Lawful) {i : Nat} (h : i < 3) :
    byteAt (zj0Addr C) i = (byteAt C.zj0Mac (2 - i)).reverse := by
  have hmac := hC.zj.mac_len
  rw [zj0Addr, reverseBitsAll_byteAt _ (by simpa [reverseBytes, hmac] using h), reverseBytes_byteAt _ (by omega), hmac]

section

variable (C : Config) (rc : RealCommand) (id : U32) (index tx : Byte)

/-! ## The payloads in clear -/

/-- The v0 payload in clear (R262 to R264). -/
def zj0Clear : List Byte := zjWithCrc C .zj0 (zj0Addr C ++ C.mix0 (zjFields C rc id index tx))

/-- The v1 payload in clear (R270 to R272). -/
def zj1Clear : List Byte := zjWithCrc C .zj1 (C.zj1Addr ++ C.mix1 (zjFields C rc id index tx))

/-- The v2 payload in clear (R280 to R282). -/
def zj2Clear : List Byte := C.mix2 (zj2Fields C rc index tx) ++ C.spare2

variable {C} (hC : C.Lawful)

include hC

/-! ## v0 -/

theorem zj0Body_length : (zj0Addr C ++ C.mix0 (zjFields C rc id index tx)).length = 11 := by
  simp [zj0Addr_length hC, hC.zj.mix0_len _ (zjFields_wf hC rc id index tx)]

theorem zj0Clear_length : (zj0Clear C rc id index tx).length = 13 := by
  rw [zj0Clear, zjWithCrc_length, zj0Body_length _ _ _ _ hC]

theorem encZj0_eq : encZj0 C rc id index tx =
    whitenTable C (whitenTable C (zj0Clear C rc id index tx) 0x7F 0) 0x37 0 := by
  rw [encZj0, slice_whole (zj0Body_length rc id index tx hC)]
  rfl

theorem encZj0_byteAt {i : Nat} (h : i < 13) : byteAt (encZj0 C rc id index tx) i =
    byteAt (zj0Clear C rc id index tx) i ^^^ tableByte C 0x7F i ^^^ tableByte C 0x37 i := by
  have hlen := zj0Clear_length rc id index tx hC
  rw [encZj0_eq _ _ _ _ hC, whitenTable_byteAt _ _ _ (by rw [whitenTable_length]; omega),
    whitenTable_byteAt _ _ _ (by omega)]
  rfl

theorem zj0Clear_byteAt_addr {i : Nat} (h : i < 3) :
    byteAt (zj0Clear C rc id index tx) i = (byteAt C.zj0Mac (2 - i)).reverse := by
  rw [zj0Clear, zjWithCrc, List.append_assoc, byteAt_append_left _ (by rw [zj0Addr_length hC]; omega),
    zj0Addr_byteAt hC h]

theorem slice_zj0Clear_mix : slice (zj0Clear C rc id index tx) 3 11 = C.mix0 (zjFields C rc id index tx) := by
  rw [zj0Clear, zjWithCrc, List.append_assoc]
  exact slice_append_mid _ _ _ (zj0Addr_length hC).symm (by rw [hC.zj.mix0_len _ (zjFields_wf hC rc id index tx)])

/-! ## v1 -/

theorem zj1Body_length : (C.zj1Addr ++ C.mix1 (zjFields C rc id index tx)).length = 21 := by
  simp [hC.zj.addr_len, hC.zj.mix1_len _ (zjFields_wf hC rc id index tx)]

theorem zj1Clear_length : (zj1Clear C rc id index tx).length = 23 := by
  rw [zj1Clear, zjWithCrc_length, zj1Body_length _ _ _ _ hC]

theorem encZj1_eq : encZj1 C rc id index tx = whitenTable C (zj1Clear C rc id index tx) 0x37 0 := by
  rw [encZj1, slice_whole (zj1Body_length rc id index tx hC)]
  rfl

theorem encZj1_byteAt {i : Nat} (h : i < 23) :
    byteAt (encZj1 C rc id index tx) i = byteAt (zj1Clear C rc id index tx) i ^^^ tableByte C 0x37 i := by
  have hlen := zj1Clear_length rc id index tx hC
  rw [encZj1_eq _ _ _ _ hC, whitenTable_byteAt _ _ _ (by omega)]
  rfl

theorem slice_zj1Clear_addr : slice (zj1Clear C rc id index tx) 0 4 = C.zj1Addr := by
  rw [zj1Clear, zjWithCrc, List.append_assoc]
  exact slice_prefix _ _ hC.zj.addr_len

theorem slice_zj1Clear_mix : slice (zj1Clear C rc id index tx) 4 21 = C.mix1 (zjFields C rc id index tx) := by
  rw [zj1Clear, zjWithCrc, List.append_assoc]
  exact slice_append_mid _ _ _ hC.zj.addr_len.symm (by rw [hC.zj.mix1_len _ (zjFields_wf hC rc id index tx)])

/-! ## v2 -/

theorem zj2Clear_length : (zj2Clear C rc index tx).length = 23 := by
  simp [zj2Clear, hC.zj.mix2_len _ (zj2Fields_wf hC rc index tx), hC.zj.spare_len]

/-- The first sixteen bytes are whitened twice, the others once (R282, R283). -/
theorem encZj2_byteAt {i : Nat} (h : i < 23) : byteAt (encZj2 C rc index tx) i =
    byteAt (zj2Clear C rc index tx) i ^^^ (if i < 16 then tableByte C 0xD3 i else 0) ^^^ tableByte C 0x6F i := by
  have hlen := zj2Clear_length rc index tx hC
  have hhead : (slice (zj2Clear C rc index tx) 0 16).length = 16 := slice_length _ _ _ (by omega)
  have hspliced : (splice (zj2Clear C rc index tx) 0 16
      (whitenTable C (slice (zj2Clear C rc index tx) 0 16) 0xD3 0)).length = 23 := by
    rw [splice_length _ _ _ _ (by omega) (by omega) (by rw [whitenTable_length, hhead]), hlen]
  have houter : byteAt (encZj2 C rc index tx) i = byteAt (splice (zj2Clear C rc index tx) 0 16
      (whitenTable C (slice (zj2Clear C rc index tx) 0 16) 0xD3 0)) i ^^^ tableByte C 0x6F i :=
    whitenTable_byteAt C _ 0x6F (hspliced ▸ h)
  rw [houter]
  congr 1
  split_ifs with hi
  · rw [splice_byteAt_inside _ _ (by omega) (by rw [whitenTable_length, hhead]) (by omega) hi,
      whitenTable_byteAt _ _ _ (by omega), slice_byteAt _ _ _ _ (by omega), Nat.zero_add, Nat.sub_zero]
    rfl
  · rw [splice_byteAt _ _ _ _ _ (by omega) (by omega) (by rw [whitenTable_length, hhead]) (.inr (by omega))]
    simp

end

/-- Settles O60: the clear payloads are `zj0Clear`, `zj1Clear` and `zj2Clear`, whitened byte by byte. -/
theorem zhijiaPacketFields : Obligations.ZhijiaPacketFields := by
  refine ⟨fun f _ => Config.build_little f, fun C hC => ⟨fieldOrder C .zj0, fieldOrder C .zj1,
    fun v rc id index tx x => ⟨fun hk => ?_, fun hk => ?_, fun hk => ?_⟩⟩⟩ <;>
    simp only [encPayload, hk, ← setWidth_eq_extract]
  · exact ⟨encZj0_length hC rc id index tx, zj0Clear C rc id index tx, zj0Clear_length rc id index tx hC,
      fun i hi => zj0Clear_byteAt_addr rc id index tx hC hi, slice_zj0Clear_mix rc id index tx hC,
      slice_zjWithCrc_crc C .zj0 (zj0Body_length rc id index tx hC), fun i hi => encZj0_byteAt rc id index tx hC hi⟩
  · exact ⟨encZj1_length hC rc id index tx, zj1Clear C rc id index tx, zj1Clear_length rc id index tx hC,
      slice_zj1Clear_addr rc id index tx hC, slice_zj1Clear_mix rc id index tx hC,
      slice_zjWithCrc_crc C .zj1 (zj1Body_length rc id index tx hC), fun i hi => encZj1_byteAt rc id index tx hC hi⟩
  · exact ⟨encZj2_length hC rc index tx, fun i hi => encZj2_byteAt rc index tx hC hi⟩

end Sys2Proof.Proofs
end

section
/-! Encoding and decoding a request are inverse to each other (R80, R82, R93). -/

namespace Sys2Proof.Proofs

open Sys2Proof.Machine Sys2Proof.Laws

/-! ## The request word and its bytes -/

/-- Above its lowest byte, a word has the bytes of the bits above that byte. -/
theorem extractByte_append {n : Nat} (hi : BitVec n) (lo : Byte) (k : Nat) :
    (hi ++ lo).extractLsb' (k + 8) 8 = hi.extractLsb' k 8 := by
  rw [BitVec.extractLsb'_append_eq_of_le (Nat.le_add_left 8 k), Nat.add_sub_cancel]

/-- The bytes of a word put together from eight bytes are those bytes (R80). -/
theorem wordBytes_append (b0 b1 b2 b3 b4 b5 b6 b7 : Byte) :
    wordBytes (b7 ++ b6 ++ b5 ++ b4 ++ b3 ++ b2 ++ b1 ++ b0) = [b0, b1, b2, b3, b4, b5, b6, b7] := by
  simp only [wordBytes, extractByte_append, BitVec.extractLsb'_append_eq_right, BitVec.extractLsb'_eq_self,
    List.cons_append, List.nil_append]

/-- A byte string that carries a request is the bytes of that request (R80). -/
theorem requestBytes_of_requestOfBytes {b : List Byte} {q : Request} (h : requestOfBytes b = some q) :
    requestBytes q = b := by
  unfold requestOfBytes at h
  split at h
  case h_1 b0 b1 b2 b3 b4 b5 b6 b7 payload =>
    cases h
    exact congrArg (· ++ payload) (wordBytes_append b0 b1 b2 b3 b4 b5 b6 b7)
  case h_2 => cases h

/-- A request word is put together from its `OP` and its other fields (R80). -/
theorem wordOf_fieldsOfRequest (q : Request) : wordOf (q.word.extractLsb' 0 8) (fieldsOfRequest q) = q.word := by
  unfold wordOf fieldsOfRequest
  rw [BitVec.extractLsb'_append_extractLsb'_eq_extractLsb' (by decide),
    BitVec.extractLsb'_append_extractLsb'_eq_extractLsb' (by decide),
    BitVec.extractLsb'_append_extractLsb'_eq_extractLsb' (by decide)]
  exact BitVec.extractLsb'_eq_self

/-! ## The operation map -/

/-- The `OP` of an instruction selects its own operation (R82). -/
theorem operationOf_opcodeOf (i : Instr) : ∃ mk, operationOf (opcodeOf i) = some mk ∧ mk (fieldsOf i) = i := by
  cases i <;> exact ⟨_, rfl, rfl⟩

/-- An operation of the map makes instructions with its own `OP` and the fields it is given (R82). -/
theorem opcodeOf_operationOf {op : Byte} {mk : Fields → Instr} (h : operationOf op = some mk) (r : Fields) :
    opcodeOf (mk r) = op ∧ fieldsOf (mk r) = r := by
  unfold operationOf at h
  split at h <;> cases h <;> exact ⟨BitVec.eq_of_toNat_eq (Eq.symm ‹_›), rfl⟩

/-! ## Requests -/

/-- The fields of an instruction's request are the instruction's. -/
theorem fieldsOfRequest_encode (i : Instr) : fieldsOfRequest (encode i) = fieldsOf i := by
  obtain ⟨_, hsel, hlen, himm, hpayload⟩ := encode_fields i
  simp only [fieldsOfRequest, hsel, hlen, himm, hpayload]

theorem decode_encode (i : Instr) : decode (encode i) = .ok i := by
  obtain ⟨hop, _⟩ := encode_fields i
  obtain ⟨mk, hmk, hi⟩ := operationOf_opcodeOf i
  simp only [decode, hop, hmk, fieldsOfRequest_encode, hi]

theorem encode_of_decode {q : Request} {i : Instr} (h : decode q = .ok i) : encode i = q := by
  unfold decode at h
  split at h
  case h_1 mk hmk =>
    cases h
    obtain ⟨hop, hfields⟩ := opcodeOf_operationOf hmk (fieldsOfRequest q)
    simp only [encode, hop, hfields, wordOf_fieldsOfRequest]
    rfl
  case h_2 => cases h

/-! ## Bytes -/

/-- Settles O2: the bytes carry the instruction's request, whose `OP` selects the operation and whose other fields are
those of the instruction. -/
theorem encodedRequestDecodesBack : Obligations.EncodedRequestDecodesBack := by
  intro i
  rw [encodeBytes, decodeBytes_requestBytes]
  exact decode_encode i

/-- Settles O3: the bytes are those of the request they carry, and the word of that request those of its fields. -/
theorem decodedBytesEncodeBack : Obligations.DecodedBytesEncodeBack := by
  intro b i h
  unfold decodeBytes at h
  split at h
  case h_1 q hq => rw [encodeBytes, encode_of_decode h, requestBytes_of_requestOfBytes hq]
  case h_2 => cases h

/-- Settles O1: each sample is the encoding of the table's request, byte by byte, so it decodes back by O2. -/
theorem sampleRequestBytesDecode : Obligations.SampleRequestBytesDecode := by
  have decodesBack := encodedRequestDecodesBack
  exact ⟨decodesBack (.pCrcCcitt ⟨0, 3, 0xEDCB, [0x31, 0x32, 0x33]⟩), decodesBack (.kIdentifier ⟨6, 0, 0, []⟩),
    decodesBack (.gLookupFv ⟨0, 0, 0x2000, []⟩), decodesBack (.qSetMintx ⟨1, 0, 200, []⟩),
    decodesBack (.sTick ⟨0, 0, 1200, []⟩), decodesBack (.xCapture ⟨2, 2, 1000, [0xAA, 0xBB]⟩)⟩

end Sys2Proof.Proofs
end

section
/-! Every request completes with one response (R81, R436), and the sequences of requests of R95: SYS.STEP and Q.SEND. -/

namespace Sys2Proof.Proofs

open Sys2Proof.Machine Sys2Proof.Laws

/-! ## One response to every request -/

/-- What no request's rule touches: the responses given, the request port, and how many controllers there are. -/
structure SameBoundary (s t : State) : Prop where
  responses : t.responses = s.responses
  port : t.port = s.port
  ctl_length : t.ctl.length = s.ctl.length

theorem sameBoundary_refl (s : State) : SameBoundary s s := ⟨rfl, rfl, rfl⟩

theorem sameBoundary_setController (s : State) (c : Byte) (k : Controller) : SameBoundary s (s.setController c k) :=
  ⟨rfl, rfl, by simp⟩

/-- A rule leaves the boundary as it was: the response is given after it (R81). -/
theorem ruleOf_sameBoundary {C : Config} {i : Instr} {s : State} {rep : Reply} (h : ruleOf C i s = .ok rep) :
    SameBoundary s rep.state := by
  cases hreads : onlyReads i
  case true =>
    rw [rule_onlyReads hreads h]
    exact sameBoundary_refl s
  case false =>
    rcases writing_cases i hreads with ⟨r, rfl⟩ | ⟨r, rfl⟩ | ⟨r, rfl⟩ | ⟨r, rfl⟩ | ⟨r, rfl⟩ | ⟨r, rfl⟩ | ⟨r, rfl⟩ |
      ⟨r, rfl⟩ | ⟨r, rfl⟩ | ⟨r, rfl⟩ | ⟨r, rfl⟩ | ⟨r, rfl⟩
    · rcases ruleEncode_ok h with ⟨_, hstate⟩ | ⟨_, d, hstate⟩ <;> rw [hstate]
      · exact sameBoundary_refl s
      · exact ⟨rfl, rfl, rfl⟩
    · obtain ⟨k, v, _, _, _, rfl⟩ := ruleSetParams_ok h
      exact sameBoundary_setController s _ _
    · obtain ⟨k, v, _, _, rfl⟩ := ruleSetCodec_ok h
      exact sameBoundary_setController s _ _
    · obtain ⟨k, _, _, _, rfl⟩ := ruleSetMintx_ok h
      exact sameBoundary_setController s _ _
    · obtain ⟨k, _, rfl⟩ := ruleSetSeqdur_ok h
      exact sameBoundary_setController s _ _
    · obtain ⟨cmd, k, v, p, ws, d, _, _, _, _, _, rfl⟩ := ruleEnqueue_ok h
      exact ⟨rfl, rfl, (sameBoundary_setController s _ _).ctl_length⟩
    · obtain ⟨k, e, rest, _, _, rfl⟩ := ruleDequeueFront_ok h
      exact sameBoundary_setController s _ _
    · obtain ⟨k, e, rest, _, _, _, rfl⟩ := rulePump_ok h
      exact ⟨rfl, rfl, (sameBoundary_setController s _ _).ctl_length⟩
    · obtain ⟨ws, _, _, rfl⟩ := ruleAddBatch_ok h
      exact ⟨rfl, rfl, rfl⟩
    · obtain rfl := ruleRemoveBatch_ok h
      exact ⟨rfl, rfl, rfl⟩
    · obtain rfl := ruleTick_ok h
      exact ⟨rfl, rfl, rfl⟩
    · obtain ⟨_, ⟨_, rfl⟩ | ⟨_, rfl⟩⟩ := ruleCapture_ok h
      · exact ⟨rfl, rfl, rfl⟩
      · rw [identifyReply_state]
        exact ⟨rfl, rfl, rfl⟩

/-- Settles O9: a raised status is the response in the state before the request, and a rule leaves the boundary as it
was for its own response. -/
theorem everyRequestAnswersOnce : Obligations.EveryRequestAnswersOnce := by
  intro i s
  rcases exec_cases i s with ⟨st, h⟩ | ⟨rep, hrule, h⟩
  · exact ⟨_, _, h, rfl, rfl, rfl⟩
  · obtain ⟨hresponses, hport, hctl⟩ := ruleOf_sameBoundary hrule
    exact ⟨_, _, h, by rw [answer_responses, hresponses], hport, hctl⟩

/-! ## Sequences of requests, and the state after a rule -/

/-- A request whose rule replies (R81). -/
theorem execUnder_of_ok {C : Config} {i : Instr} {s : State} {rep : Reply} (h : ruleOf C i s = .ok rep) :
    execUnder C i s = .next (rep.state.answer ⟨rep.status, rep.res, rep.out⟩) := by
  rw [execUnder, perform_eq, h, conclude_ok]

theorem after_of_exec {i : Instr} {s t : State} (h : exec i s = .next t) : after i s = t := by
  simp [after, h]

/-- The state after a request whose rule is known. -/
theorem after_of_rule {i : Instr} {s : State} {x : Except Status Reply} (h : ruleOf Config.build i s = x) :
    after i s = conclude s x :=
  after_of_exec (by rw [exec_eq_next, h])

/-- A request adds one response (R81). -/
theorem after_responses (i : Instr) (s : State) : ∃ rsp, (after i s).responses = s.responses ++ [rsp] := by
  obtain ⟨t, rsp, hexec, hresponses, _, _⟩ := everyRequestAnswersOnce i s
  exact ⟨rsp, by rw [after_of_exec hexec, hresponses]⟩

/-- A sequence of requests adds one response for each (R437). -/
theorem afterAll_responses (l : List Instr) :
    ∀ s : State, ∃ rs, rs.length = l.length ∧ (afterAll l s).responses = s.responses ++ rs := by
  induction l with
  | nil => exact fun s => ⟨[], rfl, by simp [afterAll]⟩
  | cons i l ih =>
    intro s
    obtain ⟨rsp, hfirst⟩ := after_responses i s
    obtain ⟨rs, hlen, hrest⟩ := ih (after i s)
    exact ⟨rsp :: rs, by simp [hlen], by simp [afterAll, hrest, hfirst]⟩

theorem afterAll_append (l l' : List Instr) : ∀ s : State, afterAll (l ++ l') s = afterAll l' (afterAll l s) := by
  induction l with
  | nil => exact fun s => rfl
  | cons i l ih => exact fun s => ih (after i s)

theorem afterAll_map {α : Type} (f : α → Instr) (l : List α) :
    ∀ s : State, afterAll (l.map f) s = l.foldl (fun t a => after (f a) t) s := by
  induction l with
  | nil => exact fun s => rfl
  | cons a l ih => exact fun s => ih (after (f a) s)

/-- The pumps of SYS.STEP, of the controllers 0 to `n` - 1 in order (R338). -/
def pumps (n : Nat) : List Instr := (List.range n).map fun c => pumpOf (BitVec.ofNat 8 c)

/-- SYS.STEP is the pumps and then the tick (R95, R338). -/
theorem sysStep_eq (now : U32) (s : State) :
    sysStep now s = after (tickOf now) (afterAll (pumps s.ctl.length) s) :=
  afterAll_append (pumps s.ctl.length) [tickOf now] s

/-- A tick answers OK (R375). -/
theorem after_tickOf (now : U32) (s : State) :
    after (tickOf now) s = State.answer { s with
      sched := (tick now s.sched).1, events := s.events ++ (tick now s.sched).2 } ⟨.ok, 0, []⟩ := by
  have hwf : (Instr.sTick ⟨0, 0, now, []⟩).WellFormed := by
    simpa [wellFormed_iff, shapeOf, fieldsOf, payloadOk] using now.isLt
  have hrule : ruleOf Config.build (tickOf now) s = .ok { state := { s with
      sched := (tick now s.sched).1, events := s.events ++ (tick now s.sched).2 } } := by
    simp only [tickOf, ruleOf, ruleTick, checkRequest_ok hwf, ok_bind]
  rw [after_of_rule hrule, conclude_ok]

/-- SYS.STEP answers once for each controller and, last, the tick's OK (R338). -/
theorem sysStep_responses (now : U32) (s : State) : ∃ rs, rs.length = s.ctl.length ∧
    (sysStep now s).responses = s.responses ++ rs ++ [⟨.ok, 0, []⟩] := by
  obtain ⟨rs, hlen, hresponses⟩ := afterAll_responses (pumps s.ctl.length) s
  refine ⟨rs, by simpa [pumps] using hlen, ?_⟩
  rw [sysStep_eq, after_tickOf, answer_responses, hresponses]

/-- The last status is that of the response a request adds. -/
theorem lastStatus_of_responses {s t : State} {rsp : Response} (h : t.responses = s.responses ++ [rsp]) :
    lastStatus t = some rsp.status := by
  simp [lastStatus, h]

/-! ## Q.PUMP -/

/-- Superseding marks the entries of the controller's previous batch, where it has one (R337, R372). -/
theorem supersede_eq (k : Controller) (d : Scheduler) :
    supersede k d = { d with fifo := d.fifo.map fun f =>
      if k.activeValid = true ∧ f.token = k.activeToken then { f with toBeRemoved := true } else f } := by
  rcases supersede_cases k d with ⟨hvalid, h⟩ | ⟨hvalid, h⟩ <;> rw [h]
  · simp only [hvalid, true_and]
    rfl
  · simp [hvalid]

section

variable {C : Config} {r : Fields} {s : State} {k : Controller}

/-- A pump where nothing is queued (R337). -/
theorem ruleOf_qPump_empty (hwf : (Instr.qPump r).WellFormed) (hk : s.ctl[r.sel.toNat]? = some k) (hq : k.queue = []) :
    ruleOf C (.qPump r) s = .error .empty := by
  simp only [ruleOf, rulePump, checkRequest_ok hwf, controllerAt_some hk, hq, ok_bind]

variable {e : QueueEntry} {rest : List QueueEntry}

/-- A pump of an entry the FIFO has no room for (R337). -/
theorem ruleOf_qPump_full (hwf : (Instr.qPump r).WellFormed) (hk : s.ctl[r.sel.toNat]? = some k)
    (hq : k.queue = e :: rest) (hfull : C.fifoCap < s.sched.fifo.length + e.wps.length) :
    ruleOf C (.qPump r) s = .error .range := by
  simp only [ruleOf, rulePump, checkRequest_ok hwf, controllerAt_some hk, hq, ok_bind,
    require_error .range (Nat.not_le.mpr hfull), error_bind]

/-- A pump of an entry that fits (R337). -/
theorem ruleOf_qPump_fits (hwf : (Instr.qPump r).WellFormed) (hk : s.ctl[r.sel.toNat]? = some k)
    (hq : k.queue = e :: rest) (hroom : s.sched.fifo.length + e.wps.length ≤ C.fifoCap) :
    ruleOf C (.qPump r) s = .ok
      { state := { s.setController r.sel
            { k with queue := rest, activeValid := true, activeToken := s.sched.nextToken } with
          sched := addBatch (supersede k s.sched) e.wps }
        res := s.sched.nextToken } := by
  simp only [ruleOf, rulePump, checkRequest_ok hwf, controllerAt_some hk, hq, ok_bind, require_ok .range hroom]

end

theorem pumpOf_wellFormed (c : Byte) : (pumpOf c).WellFormed := by
  simp [wellFormed_iff, pumpOf, shapeOf, fieldsOf, payloadOk]

/-! ## SYS.STEP and Q.SEND -/

/-- Settles O47: SYS.STEP is the pumps and the tick by `sysStep_eq`, a pump has the three outcomes of its rule, and
Q.SEND looks at the one status the enqueue adds. -/
theorem systemStepPerformsEveryPart : Obligations.SystemStepPerformsEveryPart := by
  refine ⟨fun s now => ?_, fun s c k hk => ⟨fun hq => ?_, fun e rest hq => ⟨fun hfull => ?_, fun hroom => ?_⟩⟩,
    fun s now => sysStep_responses now s, fun s c cmd => ?_⟩
  · rw [sysStep_eq, pumps, afterAll_map]
    rfl
  · exact after_of_rule (ruleOf_qPump_empty (pumpOf_wellFormed c) hk hq)
  · exact after_of_rule (ruleOf_qPump_full (pumpOf_wellFormed c) hk hq hfull)
  · refine (after_of_rule (ruleOf_qPump_fits (pumpOf_wellFormed c) hk hq hroom)).trans ?_
    rw [conclude_ok, supersede_eq]
    rfl
  · obtain ⟨rsp, hresponses⟩ := after_responses (enqueueOf c cmd) s
    have hlast := lastStatus_of_responses hresponses
    exact ⟨rsp, hresponses, fun hok => by simp [qSend, hlast, hok], fun hnot => by simp [qSend, hlast, hnot]⟩

end Sys2Proof.Proofs
end

section
/-! What K.IDENTIFIER and K.TRANSLATE return (R87, R161, R163, R166, R307). -/

namespace Sys2Proof.Proofs

open Sys2Proof.Machine Sys2Proof.Laws

/-! ## The rules -/

theorem ruleOf_kIdentifier {C : Config} {r : Fields} {v : Codec} (s : State) (hwf : (Instr.kIdentifier r).WellFormed)
    (hv : C.registry[r.sel.toNat]? = some v) :
    ruleOf C (.kIdentifier r) s = .ok { state := s, out := v.ident } := by
  simp only [ruleOf, ruleIdentifier, checkRequest_ok hwf, codecAt_some hv, ok_bind]

theorem ruleOf_kTranslate {C : Config} {r : Fields} {v : Codec} {cmd : Command} (s : State)
    (hwf : (Instr.kTranslate r).WellFormed) (hv : C.registry[r.sel.toNat]? = some v)
    (hcmd : readCmd r.payload 0 = some cmd) :
    let l := translation C v cmd (readParams r.payload 8)
    ruleOf C (.kTranslate r) s = .ok { state := s, res := BitVec.ofNat 32 l.length, out := writeRealCmds l } := by
  simp only [ruleOf, ruleTranslate, checkRequest_ok hwf, codecAt_some hv, hcmd, orRaise_some, ok_bind]

/-! ## The list of RealCommands -/

/-- A list of REALCMD records as written (R87). -/
theorem writeRealCmds_eq (l : List RealCommand) : writeRealCmds l = realCmdBytes l := rfl

theorem translation_concrete (C : Config) {v : Codec} (h : codecAgg v = false) (cmd : Command) (p : Params) :
    translation C v cmd p = subs v cmd p := by
  simp [translation, concretes, h]

theorem translation_aggregate (C : Config) {v : Codec} (h : codecAgg v = true) (cmd : Command) (p : Params) :
    translation C v cmd p = (members C (codecFam v)).flatMap fun u => subs u cmd p := by
  simp [translation, concretes, h]

/-- The command field of FLV2 holds every opcode, that of every other layout those of 8 bits (R163). -/
theorem fits_iff {v : Codec} (h : codecAgg v = false) (c : U16) : fits v c = true ↔ FitsField v c := by
  cases hk : v.kind with
  | aggregate f => simp [codecAgg, hk] at h
  | _ => simp [fits, codecLf, FitsField, hk]

/-- Settles O24: the rules return the identifier and the translation, which is `subs` of the codec or of the members;
`subs` is split on the kind and on whether the opcode fits. -/
theorem identifierAndTranslateResults : Obligations.IdentifierAndTranslateResults := by
  refine ⟨fun r s v hwf hv => ?_, fun r s v cmd hwf hv hconcrete hcmd => ?_,
    fun v cmd p hconcrete => ⟨fun hcustom hfits => ?_, fun hcustom hfits => ?_, fun htable => if_neg htable⟩,
    fun C r s v cmd hwf hv hagg hcmd => ?_⟩
  · rw [exec_eq_execUnder]
    exact execUnder_of_ok (ruleOf_kIdentifier s hwf hv)
  · rw [exec_eq_execUnder, execUnder_of_ok (ruleOf_kTranslate s hwf hv hcmd), translation_concrete _ hconcrete,
      writeRealCmds_eq]
  · simp [subs, hcustom, (fits_iff hconcrete _).mpr hfits]
  · simp [subs, hcustom, mt (fits_iff hconcrete _).mp hfits]
  · rw [execUnder_of_ok (ruleOf_kTranslate s hwf hv hcmd), translation_aggregate _ hagg, writeRealCmds_eq]

end Sys2Proof.Proofs
end

section
/-! The advertisement around a payload (R96, R98), and the walk of R401 over it. -/

namespace Sys2Proof.Proofs

open Sys2Proof.Machine Sys2Proof.Laws

/-! ## Around a payload -/

/-- The two elements of an advertisement that an encode makes: the flags, where the codec has them, and the payload's
(R96). -/
theorem wrap_eq (a : AdWrap) (P : List Byte) :
    (a.flagsPresent = true →
      wrap a P = ⟨[0x02, 0x01, a.flagsValue, BitVec.ofNat 8 (P.length + 1), a.adType] ++ P, 0, 3, 0⟩) ∧
    (a.flagsPresent = false → wrap a P = ⟨[BitVec.ofNat 8 (P.length + 1), a.adType] ++ P, 0xFF, 0, 0⟩) := by
  constructor <;> intro h <;> simp [wrap, h]

theorem lengthByte_toNat {P : List Byte} (h : P.length ≤ 29) : (BitVec.ofNat 8 (P.length + 1)).toNat = P.length + 1 := by
  rw [BitVec.toNat_ofNat, Nat.mod_eq_of_lt]
  omega

/-- Without a data index the whole buffer is the payload, and no type byte is named (R98). -/
theorem payloadOf_absent {w : WireParam} (h : w.dataIdx = 0xFF) : payloadOf w = some (w.data, none) := if_pos h

/-- An element that does not stand whole in the buffer carries no payload (R98). -/
theorem payloadOf_broken {w : WireParam} (h : w.dataIdx ≠ 0xFF)
    (hbroken : w.data.length ≤ w.dataIdx.toNat + 1 ∨ (byteAt w.data w.dataIdx.toNat).toNat = 0 ∨
      w.data.length < w.dataIdx.toNat + 1 + (byteAt w.data w.dataIdx.toNat).toNat) : payloadOf w = none := by
  unfold payloadOf
  rw [if_neg h]
  rcases hbroken with hend | hempty
  · exact if_pos hend
  · simp only [hempty, if_true, ite_self]

/-- The payload of a whole element, and its type byte (R98). -/
theorem payloadOf_whole {w : WireParam} (h : w.dataIdx ≠ 0xFF) (hend : w.dataIdx.toNat + 1 < w.data.length)
    (hempty : (byteAt w.data w.dataIdx.toNat).toNat ≠ 0)
    (hwhole : w.dataIdx.toNat + 1 + (byteAt w.data w.dataIdx.toNat).toNat ≤ w.data.length) :
    payloadOf w = some (slice w.data (w.dataIdx.toNat + 2)
      (w.dataIdx.toNat + 1 + (byteAt w.data w.dataIdx.toNat).toNat), some (byteAt w.data (w.dataIdx.toNat + 1))) := by
  unfold payloadOf
  rw [if_neg h]
  simp only [Nat.not_le.mpr hend, hempty, Nat.not_lt.mpr hwhole, or_self, if_false]

/-! ## The walk over the elements (R401) -/

/-- Past the last byte the walk ends. -/
theorem scanFrom_end (C : Config) {raw : List Byte} {i : Nat} (fuel : Nat) (fi di : Byte) (h : raw.length ≤ i) :
    scanFrom C raw fuel i fi di = (fi, di) := by
  cases fuel with
  | zero => rfl
  | succ fuel => exact if_pos h

/-- At a whole element the walk notes the element, if it is the first of its type, and goes on after it. -/
theorem scanFrom_element (C : Config) {raw : List Byte} {i L : Nat} (fuel : Nat) (fi di : Byte)
    (hL : (byteAt raw i).toNat = L) (hpos : L ≠ 0) (hwhole : i + 1 + L ≤ raw.length) :
    scanFrom C raw (fuel + 1) i fi di = scanFrom C raw fuel (i + 1 + L)
      (if byteAt raw (i + 1) = 0x01 ∧ fi = 0xFF then BitVec.ofNat 8 i else fi)
      (if isDataType C (byteAt raw (i + 1)) = true ∧ di = 0xFF then BitVec.ofNat 8 i else di) := by
  subst hL
  rw [scanFrom, if_neg (by omega)]
  exact if_neg (by omega)

/-- The walk ends with an element that reaches to the last byte. -/
theorem scanFrom_last (C : Config) (before P : List Byte) (t : Byte) (fuel : Nat) (fi di : Byte) (hP : P.length ≤ 29) :
    scanFrom C (before ++ BitVec.ofNat 8 (P.length + 1) :: t :: P) (fuel + 1) before.length fi di =
      (if t = 0x01 ∧ fi = 0xFF then BitVec.ofNat 8 before.length else fi,
       if isDataType C t = true ∧ di = 0xFF then BitVec.ofNat 8 before.length else di) := by
  have hlength : byteAt (before ++ BitVec.ofNat 8 (P.length + 1) :: t :: P) before.length =
      BitVec.ofNat 8 (P.length + 1) := by
    rw [byteAt_append_right _ (Nat.le_refl _), Nat.sub_self, byteAt_cons_zero]
  have htype : byteAt (before ++ BitVec.ofNat 8 (P.length + 1) :: t :: P) (before.length + 1) = t := by
    rw [byteAt_append_right _ (Nat.le_add_right _ 1), Nat.add_sub_cancel_left, byteAt_cons_succ, byteAt_cons_zero]
  have hreach : (before ++ BitVec.ofNat 8 (P.length + 1) :: t :: P).length = before.length + 1 + (P.length + 1) := by
    simp only [List.length_append, List.length_cons]
    omega
  rw [scanFrom_element C fuel fi di (by rw [hlength, lengthByte_toNat hP]) (Nat.succ_ne_zero _) hreach.ge, htype]
  exact scanFrom_end C fuel _ _ hreach.le

theorem isDataType_iff (C : Config) (t : Byte) : isDataType C t = true ↔ ∃ v ∈ C.registry, v.ad.adType = t := by
  simp [isDataType]

/-- In an advertisement that an encode makes, the walk finds the indices the encode sets, where the flags type is no
codec's AD type (R96, R401). -/
theorem scan_wrap {C : Config} (hflags : ∀ v ∈ C.registry, v.ad.adType ≠ 0x01) {v : Codec} (hv : v ∈ C.registry)
    {P : List Byte} (hP : P.length ≤ 29) :
    scan C (wrap v.ad P).data = ((wrap v.ad P).flagsIdx, (wrap v.ad P).dataIdx) := by
  have hdata : isDataType C v.ad.adType = true := (isDataType_iff C _).mpr ⟨v, hv, rfl⟩
  have htype : v.ad.adType ≠ 0x01 := hflags v hv
  obtain ⟨hwith, hwithout⟩ := wrap_eq v.ad P
  cases hf : v.ad.flagsPresent
  case false =>
    rw [hwithout hf]
    refine (scanFrom_last C [] P v.ad.adType (P.length + 1) 0xFF 0xFF hP).trans ?_
    rw [if_neg fun h => htype h.1, if_pos ⟨hdata, rfl⟩]
    rfl
  case true =>
    have hflagsType : ¬ isDataType C 0x01 = true := fun h => by
      obtain ⟨u, hu, heq⟩ := (isDataType_iff C _).mp h
      exact hflags u hu heq
    rw [hwith hf]
    refine (scanFrom_element C (i := 0) (P.length + 4) 0xFF 0xFF (L := 2) rfl (by decide) (by simp)).trans ?_
    rw [if_pos ⟨rfl, rfl⟩, if_neg fun h => hflagsType h.1]
    refine (scanFrom_last C [0x02, 0x01, v.ad.flagsValue] P v.ad.adType (P.length + 3) 0 0xFF hP).trans ?_
    rw [if_neg fun h => htype h.1, if_pos ⟨hdata, rfl⟩]
    rfl

/-! ## X.FROM_RAW -/

/-- A well-formed X.FROM_RAW returns the bytes with the indices of the walk (R402). -/
theorem ruleOf_xFromRaw {C : Config} {r : Fields} (s : State) (hwf : (Instr.xFromRaw r).WellFormed) :
    ruleOf C (.xFromRaw r) s = .ok { state := s, out := writeWp (fromRaw C r.payload) } := by
  simp only [ruleOf, ruleFromRaw, checkRequest_ok hwf, ok_bind]

theorem xFromRaw_wellFormed {b : List Byte} (hpos : 1 ≤ b.length) (hle : b.length ≤ 31) :
    (Instr.xFromRaw ⟨0, BitVec.ofNat 16 b.length, 0, b⟩).WellFormed := by
  have hlen : (BitVec.ofNat 16 b.length).toNat = b.length := by
    rw [BitVec.toNat_ofNat, Nat.mod_eq_of_lt]
    omega
  simp [wellFormed_iff, shapeOf, fieldsOf, payloadOk, hlen, hpos, hle]

theorem wrap_length (a : AdWrap) (P : List Byte) :
    (wrap a P).data.length = P.length + 2 + if a.flagsPresent then 3 else 0 := by
  unfold wrap
  split <;> simp

theorem wrap_duration (a : AdWrap) (P : List Byte) : (wrap a P).duration = 0 := by
  unfold wrap
  split <;> rfl

/-- X.FROM_RAW of the bytes of a wrapped payload that fits gives the WireParam of the wrap (R96, R402). -/
theorem fromRaw_wrap {C : Config} (hflags : ∀ v ∈ C.registry, v.ad.adType ≠ 0x01) {v : Codec} (hv : v ∈ C.registry)
    {P : List Byte} (hP : P.length ≤ 29) : fromRaw C (wrap v.ad P).data = wrap v.ad P := by
  rw [fromRaw, scan_wrap hflags hv hP, ← wrap_duration v.ad P]

/-- Settles O55: the wrap is written out by `wrap_eq` and undone by `payloadOf_wrap`; the extraction has its three cases;
and of a packet that fits the advertisement the walk finds the indices by `scan_wrap`. -/
theorem capturedPacketMatchesEncoded : Obligations.CapturedPacketMatchesEncoded := by
  refine ⟨fun a P hP => ?_, fun w => ⟨payloadOf_absent, fun h => ⟨payloadOf_broken h, payloadOf_whole h⟩⟩,
    fun C hC hflags v hv hconcrete rc id index tx x s => ?_⟩
  · obtain ⟨hwith, hwithout⟩ := wrap_eq a P
    exact ⟨_, lengthByte_toNat hP, hwith, hwithout, payloadOf_wrap a P (by omega) (wrap a P).duration⟩
  · have hfits := (hC.codec_lawful v hv).fits31 hconcrete
    rw [← encPayload_length hC hv hconcrete rc id index tx x] at hfits
    have hlength := wrap_length v.ad (encPayload C v rc id index tx x)
    have hwf := xFromRaw_wellFormed (b := (wrap v.ad (encPayload C v rc id index tx x)).data) (by omega) (by omega)
    intro w
    rw [execUnder_of_ok (ruleOf_xFromRaw s hwf), fromRaw_wrap hflags hv (by omega)]

end Sys2Proof.Proofs
end

section
/-! What the P.* requests return (R130 to R142): one equation for the nine of them, then the whitenings, the reversals
and the pivot. -/

namespace Sys2Proof.Proofs

open Sys2Proof.Machine Sys2Proof.Laws

/-! ## The requests -/

/-- What a primitive computes: `RES` and `OUT` of its response (R130 to R141). -/
def primitiveResult (C : Config) : Instr → U32 × List Byte
  | .pWhitenLfsr r => (0, whitenLfsr C r.payload (immByte r))
  | .pWhitenTable r => (0, whitenTable C r.payload ((immByte r).setWidth 16) r.sel)
  | .pRevBits r => ((reverseBits (immByte r)).setWidth 32, [])
  | .pRevBitsAll r => (0, reverseBitsAll r.payload)
  | .pRevBytes r => (0, reverseBytes r.payload)
  | .pCrcCcitt r => ((crc16Ccitt r.payload (immHalf r)).setWidth 32, [])
  | .pCrcRefl r => ((crc16Refl r.payload (immHalf r)).setWidth 32, [])
  | .pAesSign16 r =>
    ((aesSign16 (slice r.payload 0 16) (slice r.payload 16 32) (immHalf r) r.sel).setWidth 32, [])
  | .pPivotFix r => ((pivotFix (immByte r)).setWidth 32, [])
  | _ => (0, [])

/-- The rule of a primitive is the check of the request and then its result (R142). -/
theorem ruleOf_primitive_eq (C : Config) {i : Instr} (hi : isPrimitive i = true) (s : State) :
    ruleOf C i s = (checkRequest i >>= fun _ =>
      .ok { state := s, res := (primitiveResult C i).1, out := (primitiveResult C i).2 }) := by
  cases i with
  | pWhitenLfsr | pWhitenTable | pRevBits | pRevBitsAll | pRevBytes | pCrcCcitt | pCrcRefl | pAesSign16
  | pPivotFix => rfl
  | _ => cases hi

theorem exec_primitive {i : Instr} (hi : isPrimitive i = true) (hwf : i.WellFormed) (s : State) :
    exec i s = .next (s.answer ⟨.ok, (primitiveResult Config.build i).1, (primitiveResult Config.build i).2⟩) := by
  rw [exec_eq_next, ruleOf_primitive_eq _ hi, checkRequest_ok hwf, ok_bind, conclude_ok]

/-- Settles O16: every primitive answers OK from the state it was given. -/
theorem primitiveRequestsReturnOk : Obligations.PrimitiveRequestsReturnOk :=
  fun _ s hi hwf => ⟨_, _, exec_primitive hi hwf s⟩

/-- Of a payload with no record in it the checks of R83 see the length alone. -/
theorem wellFormed_of_payload_length (mk : Fields → Instr) {r : Fields} {lo hi : Nat} {b : List Byte}
    (hwf : (mk r).WellFormed) (hbytes : (shapeOf (mk r)).payload = .bytes lo hi)
    (hmk : ∀ q, shapeOf (mk q) = shapeOf (mk r) ∧ fieldsOf (mk q) = q) (hlen : b.length = r.payload.length) :
    (mk { r with payload := b }).WellFormed := by
  obtain ⟨hshape, hfields⟩ := hmk { r with payload := b }
  rw [wellFormed_iff, hbytes, (hmk r).2] at hwf
  rw [wellFormed_iff, hshape, hfields, hbytes]
  simpa only [payloadOk, hlen] using hwf

/-! ## Whitening -/

/-- The table whitening byte by byte, from a seed of one byte (R133, decision D54). -/
theorem whitenTable_byteAt_salt (C : Config) (b : List Byte) (seed salt : Byte) {i : Nat} (h : i < b.length) :
    byteAt (whitenTable C b (seed.setWidth 16) salt) i =
      byteAt b i ^^^ C.xbox (tableIndex (seed.setWidth 16) salt i) ^^^ seed := by
  have hseed : (seed.setWidth 16).extractLsb' 0 8 = seed := by
    rw [BitVec.extractLsb'_setWidth_of_le (by omega), BitVec.extractLsb'_eq_self]
  rw [whitenTable, xorStream_byteAt _ b 0 i h, Nat.zero_add, tableKs, hseed, BitVec.xor_assoc]

theorem tableIndex_val (seed salt : Byte) (i : Nat) :
    (tableIndex (seed.setWidth 16) salt i).val = (seed.toNat + i + 9) % 32 + salt.toNat % 4 * 32 := by
  have hseed : (seed.setWidth 16).toNat = seed.toNat := BitVec.toNat_setWidth_of_le (by omega)
  simp only [tableIndex, hseed]

/-- Settles O17: each whitening is the XOR with its keystream, read byte by byte. -/
theorem whitenResults : Obligations.WhitenResults := by
  constructor <;> intro r s hwf
  · exact ⟨_, exec_primitive rfl hwf s, whitenLfsr_length _ _ _, fun i h => whitenLfsr_byteAt _ _ _ h⟩
  · exact ⟨_, exec_primitive rfl hwf s, whitenTable_length _ _ _ _,
      fun i h => ⟨_, tableIndex_val (immByte r) r.sel i, whitenTable_byteAt_salt _ _ _ _ h⟩⟩

/-- Settles O18: the whitened buffer is as long as the buffer, so the second request is well-formed too, and each
whitening is its own inverse. -/
theorem whiteningUndoesItself : Obligations.WhiteningUndoesItself := by
  constructor <;> intro r s s' hwf <;> refine ⟨_, exec_primitive rfl hwf s, ?_⟩
  · have hagain := wellFormed_of_payload_length .pWhitenLfsr hwf rfl (fun _ => ⟨rfl, rfl⟩)
      (whitenLfsr_length Config.build r.payload (immByte r))
    refine (exec_primitive rfl hagain s').trans ?_
    simp only [primitiveResult, immByte, whitenLfsr_whitenLfsr]
  · have hagain := wellFormed_of_payload_length .pWhitenTable hwf rfl (fun _ => ⟨rfl, rfl⟩)
      (whitenTable_length Config.build r.payload ((immByte r).setWidth 16) r.sel)
    refine (exec_primitive rfl hagain s').trans ?_
    simp only [primitiveResult, immByte, whitenTable_whitenTable]

/-! ## Reversal -/

theorem getLsbD_reverse_byte (x : Byte) {k : Nat} (h : k < 8) : x.reverse.getLsbD k = x.getLsbD (7 - k) := by
  rw [BitVec.getLsbD_reverse, BitVec.getMsbD_eq_getLsbD, decide_eq_true h, Bool.true_and]

/-- Settles O19: `reverseBits` reverses the bits of a byte, and both reversals of a buffer are known byte by byte. -/
theorem reversalResults : Obligations.ReversalResults := by
  refine ⟨fun r s hwf => ⟨_, exec_primitive rfl hwf s, fun k hk => ?_⟩,
    fun r s hwf => ⟨_, exec_primitive rfl hwf s, List.length_map _, fun i k hi hk => ?_⟩,
    fun r s hwf => ⟨_, exec_primitive rfl hwf s, List.length_reverse, fun i hi => reverseBytes_byteAt _ hi⟩⟩
  · rw [reverseBits_eq_reverse, getLsbD_reverse_byte _ hk, immByte]
  · exact (congrArg (·.getLsbD k) (reverseBitsAll_byteAt r.payload hi)).trans (getLsbD_reverse_byte _ hk)

/-! ## The pivot -/

/-- The mask of R141 is `1 - 1` for an odd byte and `0 - 1`, all ones, for an even one. -/
theorem pivotFix_eq (x : Byte) : pivotFix x = if x.getLsbD 0 then x else ~~~x := by
  have hbit : x &&& 1 = if x.getLsbD 0 then 1 else 0 := BitVec.and_twoPow x 0
  rw [pivotFix, hbit]
  split
  · exact BitVec.xor_zero
  · exact BitVec.xor_allOnes

/-- Settles O23: an odd operand stays, and the complement of an even one is odd. -/
theorem pivotFixResult : Obligations.PivotFixResult := by
  refine fun r s hwf => ⟨_, exec_primitive rfl hwf s, ?_, fun hodd => ?_, fun heven => ?_⟩
  · rw [pivotFix_eq]
    split
    case isTrue hodd => exact hodd
    case isFalse heven => simpa using heven
  · rw [pivotFix_eq, immByte, if_pos hodd]
  · rw [pivotFix_eq, immByte, heven]
    rfl

end Sys2Proof.Proofs
end

section
/-! The two CRC generators (R137, R138): bit by bit, byte by byte, and as mirror images of each other. -/

namespace Sys2Proof.Proofs

open Sys2Proof.Machine Sys2Proof.Laws

/-! ## One bit and one byte -/

/-- Masking with one bit tells whether it is set. -/
theorem and_twoPow_eq_zero_iff {w : Nat} (x : BitVec w) {i : Nat} (hi : i < w) :
    x &&& BitVec.twoPow w i = 0#w ↔ x.getLsbD i = false := by
  have hne : BitVec.twoPow w i ≠ 0#w := fun h => by simpa [hi] using congrArg (·.getLsbD i) h
  rw [BitVec.and_twoPow]
  cases x.getLsbD i <;> simp [hne]

/-- The bit the CCITT register shifts out is its top one (R137). -/
theorem ccittBit_eq (c : U16) : ccittBit c = if c &&& 0x8000 = 0 then c <<< 1 else (c <<< 1) ^^^ 0x1021 := by
  have htop : c &&& 0x8000 = 0 ↔ c.getLsbD 15 = false := and_twoPow_eq_zero_iff c (i := 15) (by omega)
  rw [ccittBit, BitVec.msb_eq_getLsbD_last, if_congr htop rfl rfl]
  cases c.getLsbD 15 <;> rfl

/-- The bit the reflected register shifts out is its bottom one (R138). -/
theorem reflBit_eq (c : U16) : reflBit c = if c &&& 0x0001 = 0 then c >>> 1 else (c >>> 1) ^^^ 0x8408 := by
  have hbottom : c &&& 0x0001 = 0 ↔ c.getLsbD 0 = false := and_twoPow_eq_zero_iff c (i := 0) (by omega)
  rw [reflBit, if_congr hbottom rfl rfl]
  cases c.getLsbD 0 <;> rfl

/-- The last byte enters the register that the bytes before it leave. -/
theorem crc16_append_singleton (l : List Byte) (b : Byte) (c : U16) :
    crc16Ccitt (l ++ [b]) c = ccittByte (crc16Ccitt l c) b ∧ crc16Refl (l ++ [b]) c = reflByte (crc16Refl l c) b :=
  ⟨List.foldl_concat .., List.foldl_concat ..⟩

/-- Settles O20: the requests return the two folds, and a fold is its start value and its step. -/
theorem crcResults : Obligations.CrcResults :=
  ⟨fun _ s hwf => exec_primitive rfl hwf s, fun _ s hwf => exec_primitive rfl hwf s, fun _ => ⟨rfl, rfl⟩,
    fun l b c => crc16_append_singleton l b c, fun c => ⟨ccittBit_eq c, reflBit_eq c⟩⟩

/-! ## The mirror -/

theorem reverse_xor {w : Nat} (x y : BitVec w) : (x ^^^ y).reverse = x.reverse ^^^ y.reverse :=
  BitVec.eq_of_getLsbD_eq fun i _ => by simp [BitVec.getLsbD_reverse]

theorem reverse_ushiftRight {w : Nat} (x : BitVec w) (n : Nat) : (x >>> n).reverse = x.reverse <<< n := by
  refine BitVec.eq_of_getLsbD_eq fun i hi => ?_
  rw [BitVec.getLsbD_reverse, BitVec.getMsbD_ushiftRight, BitVec.getLsbD_shiftLeft, BitVec.getLsbD_reverse]
  by_cases h : i < n <;> simp [h, hi]

/-- Reversing the bits takes a step of the reflected register to a step of the CCITT register: the bit shifted out at
the bottom is shifted out at the top, and the two polynomials are each other's reversals (R137, R138). -/
theorem reverse_reflBit (c : U16) : (reflBit c).reverse = ccittBit c.reverse := by
  have hpoly : (0x8408 : U16).reverse = 0x1021 := by decide
  rw [reflBit, ccittBit, BitVec.msb_reverse]
  cases c.getLsbD 0
  case false => exact reverse_ushiftRight c 1
  case true => simp only [if_true, reverse_xor, reverse_ushiftRight, hpoly]

/-- A byte at the bottom of a register is the reversed byte at the top of the reversed register. -/
theorem reverse_setWidth_byte (b : Byte) : (b.setWidth 16).reverse = (reverseBits b).setWidth 16 <<< 8 := by
  refine BitVec.eq_of_getLsbD_eq fun i hi => ?_
  rw [reverseBits_eq_reverse, BitVec.getLsbD_reverse, BitVec.getMsbD_setWidth, BitVec.getLsbD_shiftLeft,
    BitVec.getLsbD_setWidth, BitVec.getLsbD_reverse]
  by_cases h : i < 8
  · simp [h, hi]
  · simp [h, hi, Nat.le_of_not_lt h, show i - 8 < 16 by omega]

theorem reverse_reflByte (c : U16) (b : Byte) : (reflByte c b).reverse = ccittByte c.reverse (reverseBits b) := by
  have hsteps : Function.Semiconj BitVec.reverse reflBit^[8] ccittBit^[8] :=
    Function.Semiconj.iterate_right reverse_reflBit 8
  rw [reflByte, hsteps, reverse_xor, reverse_setWidth_byte, ccittByte]

/-- Settles O21: reversal commutes with the step of one byte, so with the fold over all of them. -/
theorem reflectedCrcMirrorsCcitt : Obligations.ReflectedCrcMirrorsCcitt := by
  intro l c
  have hmirror : crc16Ccitt (reverseBitsAll l) c.reverse = (crc16Refl l c).reverse := by
    rw [crc16Ccitt, reverseBitsAll, List.foldl_map]
    exact List.foldl_hom BitVec.reverse fun c b => (reverse_reflByte c b).symm
  rw [hmirror, BitVec.reverse_reverse_eq]

end Sys2Proof.Proofs
end

section
/-! The signature engine (R139). -/

namespace Sys2Proof.Proofs

open Sys2Proof.Machine Sys2Proof.Laws

theorem rd16le_eq_or (b : List Byte) (i : Nat) :
    rd16le b i = (byteAt b i).setWidth 16 ||| ((byteAt b (i + 1)).setWidth 16 <<< 8) := by
  rw [rd16le, ← BitVec.setWidth_eq (byteAt b (i + 1) ++ byteAt b i),
    BitVec.setWidth_append_eq_shiftLeft_setWidth_or, BitVec.or_comm]

/-- The effective key: the seed and tx_count, and then what stands in the key after its first three bytes (R139). -/
theorem signKey_slice (b : List Byte) (r : Fields) :
    signKey (slice b 0 16) (immHalf r) r.sel =
      [r.imm.extractLsb' 0 8, r.imm.extractLsb' 8 8, r.sel] ++ slice b 3 16 := by
  have hlow : (immHalf r).extractLsb' 0 8 = r.imm.extractLsb' 0 8 := by simp [immHalf]
  have hhigh : (immHalf r).extractLsb' 8 8 = r.imm.extractLsb' 8 8 := by simp [immHalf]
  have hkey : (slice b 0 16).drop 3 = slice b 3 16 := List.drop_take
  rw [signKey, le16, hlow, hhigh, hkey]
  rfl

/-- The first ciphertext bits, with 0 remapped: so a signature is never 0 (R139). -/
theorem aesSign16_eq (key plain : List Byte) (seed : U16) (tx : Byte) :
    let v := rd16le (aes128Encrypt (signKey key seed tx) plain) 0
    aesSign16 key plain seed tx ≠ 0 ∧ (v ≠ 0 → aesSign16 key plain seed tx = v) ∧
      (v = 0 → aesSign16 key plain seed tx = 0xFFFF) := by
  intro v
  by_cases h : v = 0
  · have hsign : aesSign16 key plain seed tx = 0xFFFF := if_pos h
    exact ⟨by rw [hsign]; decide, fun hne => absurd h hne, fun _ => hsign⟩
  · have hsign : aesSign16 key plain seed tx = v := if_neg h
    exact ⟨by rwa [hsign], fun _ => hsign, fun hzero => absurd hzero h⟩

/-- A slice does not see the bytes before it. -/
theorem slice_append_drop (a b : List Byte) {i : Nat} (j : Nat) (h : a.length ≤ i) :
    slice (a ++ b.drop a.length) i j = slice b i j := by
  rw [slice, slice, List.drop_append, List.drop_of_length_le h, List.drop_drop, List.nil_append,
    Nat.add_sub_cancel' h]

/-- Settles O22: the ciphertext's first two bytes under the effective key, with 0 remapped; the effective key and the
plaintext are slices past the first three bytes sent. -/
theorem aesSignatureResult : Obligations.AesSignatureResult := by
  constructor
  · intro r s hwf
    refine ⟨_, exec_primitive rfl hwf s, ?_⟩
    simpa only [← signKey_slice, ← rd16le_eq_or] using aesSign16_eq _ _ _ _
  · intro r s x y z hwf
    have hlen : r.payload.length = 32 := by
      obtain ⟨_, hpayload⟩ := (wellFormed_iff _).mp hwf
      obtain ⟨hlo, hhi⟩ := payloadOk_bytes hpayload
      exact Nat.le_antisymm hhi hlo
    have hother := wellFormed_of_payload_length .pAesSign16 (b := x :: y :: z :: r.payload.drop 3) hwf rfl
      (fun _ => ⟨rfl, rfl⟩) (by simp [hlen])
    have hkey : slice (x :: y :: z :: r.payload.drop 3) 3 16 = slice r.payload 3 16 :=
      slice_append_drop [x, y, z] r.payload 16 (Nat.le_refl 3)
    have hplain : slice (x :: y :: z :: r.payload.drop 3) 16 32 = slice r.payload 16 32 :=
      slice_append_drop [x, y, z] r.payload 32 (by simp)
    rw [exec_primitive rfl hother, exec_primitive rfl hwf]
    simp only [primitiveResult, aesSign16, signKey_slice, hkey, hplain]

end Sys2Proof.Proofs
end

section
/-! What K.IS_SUPPORTED, K.ENCODE and K.DECODE answer (R164 to R177), whatever the layout. -/

namespace Sys2Proof.Proofs

open Sys2Proof.Machine Sys2Proof.Laws

/-! ## K.IS_SUPPORTED -/

theorem ruleOf_kIsSupported {C : Config} {r : Fields} {v : Codec} {cmd : Command} (s : State)
    (hwf : (Instr.kIsSupported r).WellFormed) (hv : C.registry[r.sel.toNat]? = some v)
    (hcmd : readCmd r.payload 0 = some cmd) :
    ruleOf C (.kIsSupported r) s = .ok { state := s, res := bit32 (isSupported C v cmd ⟨0, 0, 0, 0⟩) } := by
  simp only [ruleOf, ruleIsSupported, checkRequest_ok hwf, codecAt_some hv, hcmd, orRaise_some, ok_bind]

/-- Whether a concrete codec has a RealCommand for a Command does not depend on the params (R164). -/
theorem subs_eq_nil_iff {C : Config} (hC : C.Lawful) {u : Codec} (hu : u ∈ C.registry) (ha : codecAgg u = false)
    (cmd : Command) (p p' : Params) : subs u cmd p = [] ↔ subs u cmd p' = [] := by
  unfold subs
  split_ifs
  · rfl
  · rfl
  · exact (hC.codec_lawful u hu).translate_empty ha cmd p p'

/-- Nor does it for an aggregate, whose members are concrete (R164, R307). -/
theorem translation_eq_nil_iff {C : Config} (hC : C.Lawful) {v : Codec} (hv : v ∈ C.registry) (cmd : Command)
    (p p' : Params) : translation C v cmd p = [] ↔ translation C v cmd p' = [] := by
  simp only [translation, List.flatMap_eq_nil_iff]
  refine forall₂_congr fun u hu => ?_
  obtain ⟨hreg, hconcrete⟩ := mem_concretes hv hu
  exact subs_eq_nil_iff hC hreg hconcrete cmd p p'

/-- Settles O25: the rule asks for the translation under the params P0, and emptiness is the same under all params. -/
theorem supportMatchesTranslation : Obligations.SupportMatchesTranslation := by
  intro r s v cmd hwf hv hcmd
  refine ⟨isSupported Config.build v cmd ⟨0, 0, 0, 0⟩, ?_, fun p => ?_⟩
  · rw [exec_eq_execUnder]
    exact execUnder_of_ok (ruleOf_kIsSupported s hwf hv hcmd)
  · rw [isSupported_iff]
    exact not_congr (translation_eq_nil_iff Config.build_lawful (List.mem_of_getElem? hv) cmd _ p)

/-! ## K.ENCODE -/

section

variable {C : Config} {r : Fields} {v : Codec} {cmd : Command} (s : State) (hwf : (Instr.kEncode r).WellFormed)
  (hv : C.registry[r.sel.toNat]? = some v) (hcmd : readCmd r.payload 0 = some cmd)

include hwf hv hcmd

/-- An encode that gives packets returns them behind the new params, and writes the seed source alone (R172). -/
theorem ruleOf_kEncode_some {p : Params} {ws : List WireParam} {d : SeedSource}
    (h : encodeCmd C v cmd (readParams r.payload 8) s.seeds = some (p, ws, d)) :
    ruleOf C (.kEncode r) s = .ok
      { state := { s with seeds := d }, res := BitVec.ofNat 32 ws.length, out := writeParams p ++ writeWpList ws } := by
  simp only [ruleOf, ruleEncode, checkRequest_ok hwf, codecAt_some hv, hcmd, orRaise_some, ok_bind, h]

/-- An encode that gives none answers UNSUPPORTED with the params as they were (R167). -/
theorem ruleOf_kEncode_none (h : encodeCmd C v cmd (readParams r.payload 8) s.seeds = none) :
    ruleOf C (.kEncode r) s = .ok
      { state := s, status := .unsupported, out := writeParams (readParams r.payload 8) ++ [0] } := by
  simp only [ruleOf, ruleEncode, checkRequest_ok hwf, codecAt_some hv, hcmd, orRaise_some, ok_bind, h]
  rfl

end

/-- A Command without a RealCommand gives no packet, under any configuration (R167). -/
theorem encodeCmd_of_translation_nil {C : Config} {v : Codec} {cmd : Command} {p : Params} (d : SeedSource)
    (h : translation C v cmd p = []) : encodeCmd C v cmd p d = none := by
  unfold encodeCmd
  split_ifs with ha
  · rw [translation_aggregate C ha] at h
    exact aggEncode_none C v cmd p d ((flatMap_subs_nil cmd p _).mp h)
  · rw [translation_concrete C (Bool.eq_false_iff.mpr ha)] at h
    exact encode1_none C v cmd p d h

/-- Settles O26: the encode of a concrete codec is `ENCODE1`, whose packets, params and seed source `encode1_eq` gives
position by position. -/
theorem encodeConcreteResult : Obligations.EncodeConcreteResult := by
  intro r s v cmd hwf hv hconcrete hcmd p n hn
  have hencode : encodeCmd Config.build v cmd p s.seeds =
      some ({ p with tx := txAdvance p.tx n (ceilOf Config.build v) }, packetsOf Config.build cmd p s.seeds v,
        seedsAfter cmd p s.seeds v) := by
    rw [encodeCmd, hconcrete]
    exact encode1_eq _ v (ceilOf_bounds Config.build_lawful v) cmd p s.seeds (mt List.length_eq_zero_iff.mpr hn)
  rw [exec_eq_execUnder, execUnder_of_ok (ruleOf_kEncode_some s hwf hv hcmd hencode), packetsOf_length]

/-! ## K.DECODE -/

/-- A codec decodes exactly when it is concrete (R160, 90 C4). -/
theorem codecDecodes_iff (v : Codec) : codecDecodes v = true ↔ codecAgg v = false := by
  cases hk : v.kind <;> simp [codecDecodes, codecLf, codecAgg, hk]

/-- A decode succeeds on a payload of the codec's length that its layout decodes, and on no other (R175, R177). -/
theorem decodeWith_eq_some_iff {C : Config} {v : Codec} {w : WireParam} {d : Decoded} :
    decodeWith C v w = some d ↔
      ∃ P t, payloadOf w = some (P, t) ∧ P.length = codecPlen v ∧ decPayload C v P = some d := by
  unfold decodeWith
  cases payloadOf w with
  | none => simp
  | some q => simp [Option.ite_none_right_eq_some, Prod.ext_iff]

section

variable {C : Config} {r : Fields} {v : Codec} (s : State) (hwf : (Instr.kDecode r).WellFormed)
  (hv : C.registry[r.sel.toNat]? = some v)

include hwf hv

/-- A codec that does not decode is refused before the packet is looked at (R175, R435). -/
theorem ruleOf_kDecode_unsupported (h : codecDecodes v = false) :
    ruleOf C (.kDecode r) s = .error .unsupported := by
  obtain ⟨_, hpayload⟩ := (wellFormed_iff _).mp hwf
  obtain ⟨_, w, hw⟩ := payloadOk_wp hpayload
  have hw : readWp r.payload = some w := hw
  simp only [ruleOf, ruleDecode, checkRequest_ok hwf, codecAt_some hv, hw, orRaise_some, ok_bind,
    require_error .unsupported (Bool.eq_false_iff.mp h), error_bind]

variable {w : WireParam} (hdecodes : codecDecodes v = true) (hw : readWp r.payload = some w)

include hdecodes hw

theorem ruleOf_kDecode : ruleOf C (.kDecode r) s =
    (orRaise (decodeWith C v w) .decodeFail >>= fun d => .ok { state := s, out := decodedOut d }) := by
  simp only [ruleOf, ruleDecode, checkRequest_ok hwf, codecAt_some hv, hw, orRaise_some, ok_bind,
    require_ok .unsupported hdecodes]

end

end Sys2Proof.Proofs
end

section
/-! What the decodes of all layouts share: slices of slices, wire fields and whitened bytes read back. -/

namespace Sys2Proof.Proofs

open Sys2Proof.Machine Sys2Proof.Laws

/-! ## Slices -/

theorem slice_slice (b : List Byte) {i j k l : Nat} (h : i + l ≤ j) :
    slice (slice b i j) k l = slice b (i + k) (i + l) := by
  simp only [slice, List.drop_take, List.drop_drop, List.take_take]
  congr 1
  omega

theorem slice_take (b : List Byte) {i j n : Nat} (h : j ≤ n) : slice (b.take n) i j = slice b i j := by
  simp only [slice, List.drop_take, List.take_take]
  congr 1
  omega

theorem byteAt_take (b : List Byte) {i n : Nat} (h : i < n) : byteAt (b.take n) i = byteAt b i := by
  simp [byteAt, h]

theorem slice_empty (b : List Byte) (i : Nat) : slice b i i = [] := by
  simp [slice]

/-- A slice is its first byte and the slice behind it. -/
theorem slice_eq_cons {b : List Byte} {i j : Nat} (hij : i < j) (hj : j ≤ b.length) :
    slice b i j = byteAt b i :: slice b (i + 1) j := by
  have hi : i < b.length := by omega
  rw [slice, slice, byteAt_eq_getElem hi, List.drop_eq_getElem_cons hi, show j - i = j - (i + 1) + 1 by omega,
    List.take_succ_cons]

theorem slice_two_iff {b : List Byte} {i : Nat} (h : i + 2 ≤ b.length) (x y : Byte) :
    slice b i (i + 2) = [x, y] ↔ byteAt b i = x ∧ byteAt b (i + 1) = y := by
  rw [slice_eq_cons (by omega) h, slice_eq_cons (by omega) h, slice_empty]
  simp

/-- A byte inside a slice that is known. -/
theorem byteAt_of_slice_eq {b part : List Byte} {i j : Nat} (h : slice b i j = part) (n : Nat) (hn : n < j - i) :
    byteAt b (i + n) = byteAt part n := by
  rw [← h, slice_byteAt b i j n hn]

/-! ## Wire fields -/

/-- The bytes of a u16 read from two bytes are those bytes. -/
theorem le16_rd16le {b : List Byte} {i : Nat} (h : i + 2 ≤ b.length) : le16 (rd16le b i) = slice b i (i + 2) := by
  rw [slice_eq_cons (by omega) h, slice_eq_cons (by omega) h, slice_empty]
  simp only [le16, rd16le, extractByte_append, BitVec.extractLsb'_append_eq_right, BitVec.extractLsb'_eq_self]

/-- The bytes of a u32 read from four bytes are those bytes. -/
theorem le32_rd32le {b : List Byte} {i : Nat} (h : i + 4 ≤ b.length) : le32 (rd32le b i) = slice b i (i + 4) := by
  rw [slice_eq_cons (by omega) h, slice_eq_cons (by omega) h, slice_eq_cons (by omega) h, slice_eq_cons (by omega) h,
    slice_empty]
  simp only [le32, rd32le, extractByte_append, BitVec.extractLsb'_append_eq_right, BitVec.extractLsb'_eq_self]

/-- What is read from a 16-bit wire field is what stands there, in either byte order (R65). -/
theorem rdWire16_eq_iff (C : Config) (f : LayoutFamily) {b : List Byte} {i : Nat} (h : i + 2 ≤ b.length) (v : U16) :
    rdWire16 C f b i = v ↔ slice b i (i + 2) = wire16 C f v := by
  refine ⟨?_, rdWire16_of_slice C f b i v⟩
  rintro rfl
  have hlen : (slice b i (i + 2)).reverse.length = 2 := by
    rw [List.length_reverse, slice_length _ _ _ h, Nat.add_sub_cancel_left]
  unfold rdWire16 wire16
  cases C.wireOrder f with
  | little => exact (le16_rd16le h).symm
  | big => simp only [le16_rd16le hlen.ge, Nat.zero_add, slice_whole hlen, List.reverse_reverse]

/-- What is read from a 32-bit wire field is what stands there, in either byte order (R65). -/
theorem rdWire32_eq_iff (C : Config) (f : LayoutFamily) {b : List Byte} {i : Nat} (h : i + 4 ≤ b.length) (v : U32) :
    rdWire32 C f b i = v ↔ slice b i (i + 4) = wire32 C f v := by
  refine ⟨?_, rdWire32_of_slice C f b i v⟩
  rintro rfl
  have hlen : (slice b i (i + 4)).reverse.length = 4 := by
    rw [List.length_reverse, slice_length _ _ _ h, Nat.add_sub_cancel_left]
  unfold rdWire32 wire32
  cases C.wireOrder f with
  | little => exact (le32_rd32le h).symm
  | big => simp only [le32_rd32le hlen.ge, Nat.zero_add, slice_whole hlen, List.reverse_reverse]

/-- Reading a field of a slice is reading it where the slice stands. -/
theorem rdWire16_slice (C : Config) (f : LayoutFamily) {b : List Byte} {i j k : Nat} (h : i + k + 2 ≤ j)
    (hj : j ≤ b.length) : rdWire16 C f (slice b i j) k = rdWire16 C f b (i + k) := by
  rw [rdWire16_eq_iff C f (by rw [slice_length b i j hj]; omega), slice_slice b (by omega)]
  exact (rdWire16_eq_iff C f (by omega) _).mp rfl

/-! ## Whitened bytes -/

/-- A byte XORed with a byte of the keystream is XORed back by it. -/
theorem eq_xor_of_eq_xor {x y k : Byte} (h : x = y ^^^ k) : y = x ^^^ k := by
  rw [h, BitVec.xor_assoc, BitVec.xor_self, BitVec.xor_zero]

end Sys2Proof.Proofs
end

section
/-! The decode of the FanLamp v1 layout: what R207 accepts, and that a packet as R205 lays it out is accepted. -/

namespace Sys2Proof.Proofs

open Sys2Proof.Machine Sys2Proof.Laws

/-! ## The whitening and the reversal undone -/

section

variable {C : Config} {u : Flv1Variant} {P : List Byte} (hregion : u.header.length + u.wlen ≤ P.length)

include hregion

theorem flv1Unwhiten_length : (flv1Unwhiten C u P).length = P.length := by
  refine splice_length _ _ _ _ (by omega) hregion ?_
  rw [flv1Reverse_length, whitenLfsr_length, slice_length _ _ _ hregion]

theorem flv1Unwhiten_byteAt_outside {i : Nat} (h : i < u.header.length ∨ u.header.length + u.wlen ≤ i) :
    byteAt (flv1Unwhiten C u P) i = byteAt P i := by
  refine splice_byteAt _ _ _ _ i (by omega) hregion ?_ h
  rw [flv1Reverse_length, whitenLfsr_length, slice_length _ _ _ hregion]

/-- Inside the region stands the reversal of the bytes that the keystream of seed 0x6F gives back (R206, R207). -/
theorem flv1Unwhiten_byteAt_inside {j : Nat} (h : j < u.wlen) :
    byteAt (flv1Unwhiten C u P) (u.header.length + j) =
      byteAt (flv1Reverse C (whitenLfsr C (slice P u.header.length (u.header.length + u.wlen)) 0x6F)) j := by
  rw [flv1Unwhiten, splice_byteAt_inside _ _ hregion ?_ (by omega) (by omega), Nat.add_sub_cancel_left]
  rw [flv1Reverse_length, whitenLfsr_length, slice_length _ _ _ hregion]

/-- A byte of the region before the reversal. -/
theorem whitenLfsr_region_byteAt {j : Nat} (h : j < u.wlen) :
    byteAt (whitenLfsr C (slice P u.header.length (u.header.length + u.wlen)) 0x6F) j =
      byteAt P (u.header.length + j) ^^^ C.lfsrKs 0x6F j := by
  rw [whitenLfsr_byteAt _ _ _ (by rw [slice_length _ _ _ hregion]; omega), slice_byteAt _ _ _ _ (by omega)]

end

/-- `Q` is `P` with the whitening and the reversal of the region undone, byte by byte (R207). -/
def Flv1Opens (C : Config) (u : Flv1Variant) (P Q : List Byte) : Prop :=
  Q.length = P.length ∧
  (∀ i, i < u.header.length ∨ u.header.length + u.wlen ≤ i → byteAt Q i = byteAt P i) ∧
  ∀ j, j < u.wlen → match C.flv1Reversal with
    | .byteOrder => byteAt Q (u.header.length + u.wlen - 1 - j) = byteAt P (u.header.length + j) ^^^ C.lfsrKs 0x6F j
    | .bitEach => byteAt Q (u.header.length + j) = (byteAt P (u.header.length + j) ^^^ C.lfsrKs 0x6F j).reverse

/-- What the decode computes is such a `Q`. -/
theorem flv1Opens_flv1Unwhiten {C : Config} {u : Flv1Variant} {P : List Byte}
    (hregion : u.header.length + u.wlen ≤ P.length) : Flv1Opens C u P (flv1Unwhiten C u P) := by
  have hlen := slice_length P u.header.length (u.header.length + u.wlen) hregion
  refine ⟨flv1Unwhiten_length hregion, fun i hi => flv1Unwhiten_byteAt_outside hregion hi, fun j hj => ?_⟩
  cases hrev : C.flv1Reversal with
  | byteOrder =>
    have hmirror : u.header.length + u.wlen - 1 - j = u.header.length + (u.wlen - 1 - j) := by omega
    simp only
    rw [hmirror, flv1Unwhiten_byteAt_inside hregion (by omega),
      flv1Reverse_byteAt_byteOrder hrev _ (by rw [whitenLfsr_length]; omega), whitenLfsr_length, hlen,
      whitenLfsr_region_byteAt hregion (by omega)]
    rw [Nat.add_sub_cancel_left, show u.wlen - 1 - (u.wlen - 1 - j) = j by omega]
  | bitEach =>
    simp only
    rw [flv1Unwhiten_byteAt_inside hregion hj, flv1Reverse_byteAt_bitEach hrev _ (by rw [whitenLfsr_length]; omega),
      whitenLfsr_region_byteAt hregion hj]

/-- And there is no other: inside the region every byte is one of those the reversal names. -/
theorem flv1Opens_unique {C : Config} {u : Flv1Variant} {P Q Q' : List Byte} (h : Flv1Opens C u P Q)
    (h' : Flv1Opens C u P Q') : Q = Q' := by
  obtain ⟨hlen, houtside, hinside⟩ := h
  obtain ⟨hlen', houtside', hinside'⟩ := h'
  refine ext_byteAt (hlen.trans hlen'.symm) fun i _ => ?_
  by_cases hi : i < u.header.length ∨ u.header.length + u.wlen ≤ i
  · exact (houtside i hi).trans (houtside' i hi).symm
  cases hrev : C.flv1Reversal with
  | byteOrder =>
    obtain ⟨j, hj, rfl⟩ : ∃ j, j < u.wlen ∧ i = u.header.length + u.wlen - 1 - j :=
      ⟨u.header.length + u.wlen - 1 - i, by omega, by omega⟩
    simp only [hrev] at hinside hinside'
    rw [hinside j hj, hinside' j hj]
  | bitEach =>
    obtain ⟨j, hj, rfl⟩ : ∃ j, j < u.wlen ∧ i = u.header.length + j := ⟨i - u.header.length, by omega, by omega⟩
    simp only [hrev] at hinside hinside'
    rw [hinside j hj, hinside' j hj]

/-! ## The checks -/

theorem flv1SuppOk_iff (u : Flv1Variant) (Q : List Byte) :
    flv1SuppOk u Q = true ↔ ∀ b, u.supp = some b → byteAt Q u.header.length = b := by
  unfold flv1SuppOk
  cases u.supp <;> simp

theorem flv1Crc2Ok_iff (C : Config) (u : Flv1Variant) {Q : List Byte} {H : Nat}
    (h : u.crc2 ≠ none → H + 16 ≤ Q.length) :
    flv1Crc2Ok C u Q H = true ↔ ∀ init, u.crc2 = some init →
      slice Q (H + 14) (H + 16) = wire16 C .flv1 (crc16Ccitt (slice Q 0 (H + 12)) init) := by
  unfold flv1Crc2Ok
  cases hcrc : u.crc2 with
  | none => simp
  | some init => simp [rdWire16_eq_iff C .flv1 (b := Q) (i := H + 14) (h (by simp [hcrc]))]

theorem argsOfBytes_slice_three {Q : List Byte} {i : Nat} (h : i + 3 ≤ Q.length) :
    argsOfBytes (slice Q i (i + 3)) = ⟨byteAt Q i, byteAt Q (i + 1), byteAt Q (i + 2), 0, 0⟩ := by
  rw [slice_eq_cons (by omega) h, slice_eq_cons (by omega) h, slice_eq_cons (by omega) h, slice_empty]
  rfl

/-- What the decode reads in an opened payload `Q` with a header of `H` bytes, and what it checks there (R207). -/
theorem decFlv1_eq_some_iff {C : Config} {u : Flv1Variant} {P : List Byte} {d : Decoded} {H : Nat}
    (hH : H = flv1HeadLen u) (hlen : P.length = flv1Plen u) {Q : List Byte} (hQ : Q = flv1Unwhiten C u P)
    (hQlen : Q.length = P.length) :
    decFlv1 C u P = some d ↔ slice P 0 u.header.length = u.header ∧ flv1SuppOk u Q = true ∧
      rdWire16 C .flv1 Q (H + 12) = crc16Ccitt (slice Q H (H + 12)) (~~~d.seed) ∧ flv1Crc2Ok C u Q H = true ∧
      byteAt Q (H + 8) = C.src d.seed ^^^ flv1Xor1 u ∧ byteAt Q (H + 9) = C.r2 d.seed ^^^ flv1Xor1 u ∧
      u.check d.rc.cmd d.rc.args = true ∧ d.rc.cmd = (byteAt Q H).setWidth 16 ∧
      d.rc.args = ⟨byteAt Q (H + 3), byteAt Q (H + 4), byteAt Q (H + 5), 0, 0⟩ ∧ d.tx = byteAt Q (H + 6) ∧
      rdWire16 C .flv1 Q (H + 10) = d.seed ∧ C.groupInv (rdWire16 C .flv1 Q (H + 1)) = some (d.id, d.index) := by
  have hfits : H + 14 ≤ Q.length := by
    rw [hQlen, hlen, flv1Plen, hH]
    omega
  have hseed : rdWire16 C .flv1 (slice Q H (H + 12)) 10 = rdWire16 C .flv1 Q (H + 10) :=
    rdWire16_slice C .flv1 (by omega) (by omega)
  have hgroup : rdWire16 C .flv1 (slice Q H (H + 12)) 1 = rdWire16 C .flv1 Q (H + 1) :=
    rdWire16_slice C .flv1 (by omega) (by omega)
  have hargs : argsOfBytes (slice (slice Q H (H + 12)) 3 6) =
      ⟨byteAt Q (H + 3), byteAt Q (H + 4), byteAt Q (H + 5), 0, 0⟩ := by
    rw [slice_slice Q (by omega)]
    exact argsOfBytes_slice_three (by omega)
  have hbyte : ∀ n, n < 12 → byteAt (slice Q H (H + 12)) n = byteAt Q (H + n) :=
    fun n hn => slice_byteAt Q H (H + 12) n (by omega)
  unfold decFlv1
  simp only [← hQ, ← hH, hseed, hgroup, hargs, hbyte 0 (by omega), hbyte 6 (by omega), hbyte 8 (by omega),
    hbyte 9 (by omega), hlen, Option.ite_none_left_eq_some, Nat.add_zero, ne_eq, not_true_eq_false, not_false_eq_true,
    not_not, not_or, Bool.not_eq_false, true_and, and_assoc]
  obtain ⟨⟨cmd, args⟩, id, index, tx, seed⟩ := d
  cases C.groupInv (rdWire16 C .flv1 Q (H + 1)) with
  | none => simp
  | some q =>
    simp only [Option.some.injEq, Decoded.mk.injEq, RealCommand.mk.injEq]
    constructor
    · rintro ⟨hheader, hsupp, hcrc1, hcrc2, hsrc, hr2, hcheck, ⟨rfl, rfl⟩, rfl, rfl, rfl, rfl⟩
      exact ⟨hheader, hsupp, hcrc1, hcrc2, hsrc, hr2, hcheck, rfl, rfl, rfl, rfl, rfl⟩
    · rintro ⟨hheader, hsupp, hcrc1, hcrc2, hsrc, hr2, hcheck, rfl, rfl, rfl, rfl, rfl⟩
      exact ⟨hheader, hsupp, hcrc1, hcrc2, hsrc, hr2, hcheck, ⟨rfl, rfl⟩, rfl, rfl, rfl, rfl⟩

/-! ## What the decode accepts -/

/-- The decode of the FanLamp v1 layout accepts what R207 says, field by field. -/
theorem decFlv1_iff_accepts {C : Config} {u : Flv1Variant} (hu : u.Lawful) (P : List Byte) (d : Decoded) :
    decFlv1 C u P = some d ↔ Flv1Accepts C u P d := by
  unfold Flv1Accepts
  simp only [← flv1HeadLen_eq, ← flv1Plen_eq]
  by_cases hlen : P.length = flv1Plen u
  case neg => simp [decFlv1, hlen]
  have hregion : u.header.length + u.wlen ≤ P.length := hlen ▸ hu.region
  have hQlen := flv1Unwhiten_length (C := C) hregion
  have hfits : flv1HeadLen u + 14 ≤ (flv1Unwhiten C u P).length := by
    rw [hQlen, hlen, flv1Plen]
    omega
  have hfits2 : u.crc2 ≠ none → flv1HeadLen u + 16 ≤ (flv1Unwhiten C u P).length := fun h => by
    rw [hQlen, hlen, flv1Plen_eq, if_neg h]
  have hcrcAt := rdWire16_eq_iff C .flv1 (b := flv1Unwhiten C u P) (i := flv1HeadLen u + 12) (by omega)
  have hseedAt := rdWire16_eq_iff C .flv1 (b := flv1Unwhiten C u P) (i := flv1HeadLen u + 10) (by omega)
  have hgroupAt := rdWire16_eq_iff C .flv1 (b := flv1Unwhiten C u P) (i := flv1HeadLen u + 1) (by omega)
  have hkeysAt := slice_two_iff (b := flv1Unwhiten C u P) (i := flv1HeadLen u + 8) (by omega)
  rw [decFlv1_eq_some_iff rfl hlen rfl hQlen, flv1SuppOk_iff, flv1Crc2Ok_iff C u hfits2]
  constructor
  · rintro ⟨hheader, hsupp, hcrc1, hcrc2, hsrc, hr2, hcheck, hcmd, hargs, htx, hseed, hgroup⟩
    obtain ⟨_, houtside, hinside⟩ := flv1Opens_flv1Unwhiten (C := C) hregion
    exact ⟨hlen, hheader, _, hQlen, houtside, hinside, hsupp, (hcrcAt _).mp hcrc1, hcrc2,
      (hkeysAt _ _).mpr ⟨hsrc, hr2⟩, hcheck, hcmd, hargs, htx, (hseedAt _).mp hseed, _, (hgroupAt _).mp rfl, hgroup⟩
  · rintro ⟨_, hheader, Q, hQ, houtside, hinside, hsupp, hcrc1, hcrc2, hkeys, hcheck, hcmd, hargs, htx, hseed, g, hg,
      hgroup⟩
    obtain rfl := flv1Opens_unique ⟨hQ, houtside, hinside⟩ (flv1Opens_flv1Unwhiten hregion)
    obtain ⟨hsrc, hr2⟩ := (hkeysAt _ _).mp hkeys
    obtain rfl := (hgroupAt g).mpr hg
    exact ⟨hheader, hsupp, (hcrcAt _).mpr hcrc1, hcrc2, hsrc, hr2, hcheck, hcmd, hargs, htx, (hseedAt _).mpr hseed,
      hgroup⟩

/-! ## A packet as R205 lays it out -/

/-- An opcode below 256 is its low byte (R163). -/
theorem setWidth_extract_byte {c : U16} (h : c.toNat < 256) : (c.extractLsb' 0 8).setWidth 16 = c := by
  apply BitVec.eq_of_toNat_eq
  rw [BitVec.toNat_setWidth_of_le (by omega), BitVec.extractLsb'_toNat, Nat.shiftRight_zero, Nat.mod_eq_of_lt h]

/-- R175, R176: a FanLamp v1 packet is accepted with the command, the arguments as FIX left them, tx_count, the seed and
the carried bits of id and index. -/
theorem flv1Accepts_encode {C : Config} (hC : C.Lawful) {v : Codec} {k : Nat} {u : Flv1Variant} (hv : v ∈ C.registry)
    (hk : v.kind = .flv1 k u) {rc : RealCommand} (hfits : rc.cmd.toNat < 256) (id : U32) (index tx : Byte) (x : U16) :
    Flv1Accepts C u (encPayload C v rc id index tx x)
      ⟨⟨rc.cmd, args3 (u.fix rc.cmd rc.args)⟩, id &&& C.groupId, index &&& C.groupIndex, tx, x⟩ := by
  obtain ⟨hentry, _⟩ := (hC.codec_lawful v hv).flv1_entry k u hk
  have hu : u.Lawful := hC.flv1_lawful u (List.mem_of_getElem? hentry)
  obtain ⟨_, hfields⟩ := flv1PacketFields.2 C hC
  obtain ⟨Q, hQlen, hPlen, hheader, hsupp, hcmd, hgroup, hargs, hmiddle, hseed, hcrc1, hcrc2, houtside, hinside⟩ :=
    hfields v k u rc id index tx x hv hk
  have hcheck : u.check rc.cmd (args3 (u.fix rc.cmd rc.args)) = true := by
    rw [hu.check_carried, hu.check_fix]
  have hbyte := byteAt_of_slice_eq hmiddle
  have hsent : slice (encPayload C v rc id index tx x) 0 u.header.length = slice Q 0 u.header.length :=
    slice_congr (by omega) (by omega) fun n _ hn => houtside n (.inl hn)
  refine ⟨hPlen.trans hQlen, hsent.trans hheader, Q, hPlen.symm, fun i hi => (houtside i hi).symm, fun j hj => ?_,
    hsupp, hcrc1, hcrc2, (slice_two_iff (by omega) _ _).mpr ⟨hbyte 2 (by omega), hbyte 3 (by omega)⟩, hcheck,
    ?_, (congrArg argsOfBytes hargs).symm.trans (argsOfBytes_slice_three (by omega)), (hbyte 0 (by omega)).symm,
    hseed, _, hgroup, hC.group_carried id index⟩
  · have hsame := hinside j hj
    cases hrev : C.flv1Reversal with
    | byteOrder =>
      simp only [hrev] at hsame
      exact eq_xor_of_eq_xor (hsame.trans (BitVec.xor_comm _ _))
    | bitEach =>
      simp only [hrev] at hsame
      simp only
      rw [← eq_xor_of_eq_xor (hsame.trans (BitVec.xor_comm _ _)), BitVec.reverse_reverse_eq]
  · rw [hcmd, setWidth_extract_byte hfits]

end Sys2Proof.Proofs
end

section
/-! The decode of the FanLamp v2 layout: what R237 accepts, and that a packet as R235 lays it out is accepted. -/

namespace Sys2Proof.Proofs

open Sys2Proof.Machine Sys2Proof.Laws

/-- `Q` is the payload `P` up to its CRC with the table whitening of seed `s` undone, byte by byte (R237). -/
def Flv2Opens (C : Config) (s : U16) (P Q : List Byte) : Prop :=
  Q.length = 23 ∧ ∀ i, i < 23 →
    (C.whStart ≤ i ∧ i < C.whEnd → byteAt Q i = byteAt P i ^^^ tableByte C (s.extractLsb' 0 8) (i - C.whStart)) ∧
    (i < C.whStart ∨ C.whEnd ≤ i → byteAt Q i = byteAt P i)

/-- What the decode computes begins with such a `Q`. -/
theorem flv2Opens_flv2Whiten {C : Config} (hC : C.Lawful) {P : List Byte} (hP : P.length = 25) (s : U16) :
    Flv2Opens C s P ((flv2Whiten C P s).take 23) := by
  refine ⟨by simp [flv2Whiten_length hC P s hP], fun i hi => ⟨fun h => ?_, fun h => ?_⟩⟩
  · rw [byteAt_take _ hi, flv2Whiten_byteAt_inside hC hP h.1 h.2]
  · rw [byteAt_take _ hi, flv2Whiten_byteAt_outside hC hP h]

/-- And there is no other. -/
theorem flv2Opens_unique {C : Config} {s : U16} {P Q Q' : List Byte} (h : Flv2Opens C s P Q)
    (h' : Flv2Opens C s P Q') : Q = Q' := by
  obtain ⟨hlen, hbytes⟩ := h
  obtain ⟨hlen', hbytes'⟩ := h'
  refine ext_byteAt (hlen.trans hlen'.symm) fun i hi => ?_
  obtain ⟨hinside, houtside⟩ := hbytes i (by omega)
  obtain ⟨hinside', houtside'⟩ := hbytes' i (by omega)
  by_cases hregion : C.whStart ≤ i ∧ i < C.whEnd
  · rw [hinside hregion, hinside' hregion]
  · rw [houtside (by omega), houtside' (by omega)]

theorem argsOfBytes_slice_four {Q : List Byte} {i : Nat} (h : i + 4 ≤ Q.length) :
    argsOfBytes (slice Q i (i + 4)) = ⟨byteAt Q i, byteAt Q (i + 1), byteAt Q (i + 2), byteAt Q (i + 3), 0⟩ := by
  rw [slice_eq_cons (by omega) h, slice_eq_cons (by omega) h, slice_eq_cons (by omega) h, slice_eq_cons (by omega) h,
    slice_empty]
  rfl

/-- What the decode reads in the payload and in its whitening `W`, and what it checks there (R237). -/
theorem decFlv2_eq_some_iff {C : Config} (hC : C.Lawful) {signed : Bool} {P : List Byte} {d : Decoded}
    (hlen : P.length = 25) {W : List Byte} (hW : W = flv2Whiten C P d.seed) :
    decFlv2 C signed P = some d ↔ slice P 0 5 = flv2Prefix C signed ∧ rdWire16 C .flv2 P 21 = d.seed ∧
      rdWire16 C .flv2 P 23 = flv2Crc P d.seed ∧ rdWire16 C .flv2 W 6 = C.flv2Type signed ∧
      rdWire16 C .flv2 W 19 = flv2Sign C signed W d.seed d.tx ∧ d.tx = byteAt W 5 ∧ rdWire32 C .flv2 W 8 = d.id ∧
      d.index = byteAt W 12 ∧ rdWire16 C .flv2 W 13 = d.rc.cmd ∧
      d.rc.args = ⟨byteAt W 15, byteAt W 16, byteAt W 17, byteAt W 18, 0⟩ := by
  obtain ⟨⟨cmd, args⟩, id, index, tx, seed⟩ := d
  have hargs : ∀ s, argsOfBytes (slice (flv2Whiten C P s) 15 19) = ⟨byteAt (flv2Whiten C P s) 15,
      byteAt (flv2Whiten C P s) 16, byteAt (flv2Whiten C P s) 17, byteAt (flv2Whiten C P s) 18, 0⟩ := fun s =>
    argsOfBytes_slice_four (by rw [flv2Whiten_length hC P s hlen]; omega)
  subst hW
  unfold decFlv2
  simp only [hlen, hargs, Option.ite_none_left_eq_some, ne_eq, not_true_eq_false, not_false_eq_true, not_not, true_and,
    Option.some.injEq, Decoded.mk.injEq, RealCommand.mk.injEq]
  constructor
  · rintro ⟨hheader, hcrc, htype, hsign, ⟨rfl, rfl⟩, rfl, rfl, rfl, rfl⟩
    exact ⟨hheader, rfl, hcrc, htype, hsign, rfl, rfl, rfl, rfl, rfl⟩
  · rintro ⟨hheader, rfl, hcrc, htype, hsign, rfl, rfl, rfl, rfl, rfl⟩
    exact ⟨hheader, hcrc, htype, hsign, ⟨rfl, rfl⟩, rfl, rfl, rfl, rfl⟩

/-- The decode of the FanLamp v2 layout accepts what R237 says, field by field. -/
theorem decFlv2_iff_accepts {C : Config} (hC : C.Lawful) (signed : Bool) (P : List Byte) (d : Decoded) :
    decFlv2 C signed P = some d ↔ Flv2Accepts C signed P d := by
  unfold Flv2Accepts
  by_cases hlen : P.length = 25
  case neg => simp [decFlv2, hlen]
  have hopens := flv2Opens_flv2Whiten hC hlen d.seed
  obtain ⟨W, hW⟩ : ∃ W, W = flv2Whiten C P d.seed := ⟨_, rfl⟩
  have hWlen : W.length = 25 := hW ▸ flv2Whiten_length hC P d.seed hlen
  rw [← hW] at hopens
  rw [decFlv2_eq_some_iff hC hlen hW, rdWire16_eq_iff C .flv2 (by omega), rdWire16_eq_iff C .flv2 (by omega),
    rdWire16_eq_iff C .flv2 (by omega), rdWire16_eq_iff C .flv2 (by omega), rdWire16_eq_iff C .flv2 (by omega),
    rdWire32_eq_iff C .flv2 (by omega), flv2Sign]
  have hbyte : ∀ i, i < 23 → byteAt W i = byteAt (W.take 23) i := fun i hi => (byteAt_take W hi).symm
  have hslice : ∀ i j, j ≤ 23 → slice W i j = slice (W.take 23) i j := fun i j hj => (slice_take W hj).symm
  rw [hbyte 5 (by omega), hbyte 12 (by omega), hbyte 15 (by omega), hbyte 16 (by omega), hbyte 17 (by omega),
    hbyte 18 (by omega), hslice 1 17 (by omega), hslice 6 _ (by omega), hslice 19 _ (by omega), hslice 8 _ (by omega),
    hslice 13 _ (by omega)]
  constructor
  · rintro ⟨hheader, hseed, hcrc, htype, hsign, hrest⟩
    exact ⟨hlen, hheader, hseed, hcrc, W.take 23, hopens.1, hopens.2, htype, hsign, hrest⟩
  · rintro ⟨_, hheader, hseed, hcrc, Q, hQ, hbytes, htype, hsign, hrest⟩
    obtain rfl := flv2Opens_unique ⟨hQ, hbytes⟩ hopens
    exact ⟨hheader, hseed, hcrc, htype, hsign, hrest⟩

/-! ## A packet as R235 lays it out -/

/-- R175, R176: a FanLamp v2 packet is accepted with every field it was laid out from, of the arguments the first
four. -/
theorem flv2Accepts_encode {C : Config} (hC : C.Lawful) {v : Codec} {signed : Bool} (hk : v.kind = .flv2 signed)
    (rc : RealCommand) (id : U32) (index tx : Byte) (x : U16) :
    Flv2Accepts C signed (encPayload C v rc id index tx x)
      ⟨⟨rc.cmd, { rc.args with a4 := 0 }⟩, id, index, tx, x⟩ := by
  obtain ⟨_, hfields⟩ := flv2PacketFields.2 C hC
  obtain ⟨hlen, hheader, _, hseed, hcrc, Q, hQ, _, htx, htype, hid, hindex, hcmd, hargs, hsign, _, hbytes⟩ :=
    hfields v signed rc id index tx x hk
  refine ⟨hlen, hheader, hseed, hcrc, Q, hQ, fun i hi => ⟨fun h => ?_, fun h => ?_⟩, htype, hsign, htx.symm, hid,
    hindex.symm, hcmd, (congrArg argsOfBytes hargs).symm.trans (argsOfBytes_slice_four (by omega))⟩
  · exact eq_xor_of_eq_xor ((hbytes i hi).1 h)
  · exact ((hbytes i hi).2 h).symm

end Sys2Proof.Proofs
end

section
/-! The decodes of the three Zhijia layouts: what R266, R274 and R284 accept, and that packets as R264, R272 and R282
lay them out are accepted. -/

namespace Sys2Proof.Proofs

open Sys2Proof.Machine Sys2Proof.Laws

/-- What the fields of a Zhijia packet decode to, in the model and in the statement (R266). -/
theorem zjDecoded_eq (f : ZjFields) : zjDecoded f = fieldsDecoded f := rfl

/-! ## The whitenings undone -/

/-- A table whitening is known byte by byte (R133). -/
theorem eq_whitenTable_iff {C : Config} {seed : U16} {P Q : List Byte} :
    Q = whitenTable C P seed 0 ↔ Q.length = P.length ∧
      ∀ i, i < P.length → byteAt Q i = byteAt P i ^^^ tableByte C (seed.extractLsb' 0 8) i := by
  constructor
  · rintro rfl
    exact ⟨whitenTable_length .., fun i hi => whitenTable_byteAt C P seed hi⟩
  · rintro ⟨hlen, hbytes⟩
    refine ext_byteAt (by rw [hlen, whitenTable_length]) fun i hi => ?_
    rw [hbytes i (by omega), whitenTable_byteAt C P seed (by omega)]

/-- So are two of them, one on the other (R265). -/
theorem eq_whitenTable_whitenTable_iff {C : Config} {seed seed' : U16} {P Q : List Byte} :
    Q = whitenTable C (whitenTable C P seed 0) seed' 0 ↔ Q.length = P.length ∧
      ∀ i, i < P.length → byteAt Q i =
        byteAt P i ^^^ tableByte C (seed.extractLsb' 0 8) i ^^^ tableByte C (seed'.extractLsb' 0 8) i := by
  rw [eq_whitenTable_iff, whitenTable_length]
  refine and_congr_right fun _ => forall₂_congr fun i hi => ?_
  rw [whitenTable_byteAt C P seed hi]

/-! ## v0 -/

/-- The address of v0, byte by byte (R262). -/
theorem slice_eq_zj0Addr_iff {C : Config} (hC : C.Lawful) {Q : List Byte} (hQ : 3 ≤ Q.length) :
    slice Q 0 3 = zj0Addr C ↔ ∀ i, i < 3 → byteAt Q i = (byteAt C.zj0Mac (2 - i)).reverse := by
  constructor
  · intro h i hi
    rw [← zj0Addr_byteAt hC hi, ← h, slice_byteAt _ _ _ _ hi, Nat.zero_add]
  · intro h
    have hlen := slice_length Q 0 3 hQ
    refine ext_byteAt (by rw [hlen, zj0Addr_length hC]) fun i hi => ?_
    rw [slice_byteAt _ _ _ _ (by omega), Nat.zero_add, h i (by omega), zj0Addr_byteAt hC (by omega)]

/-- The decode of the Zhijia v0 layout accepts what R266 says, field by field. -/
theorem decZj0_iff_accepts {C : Config} (hC : C.Lawful) (P : List Byte) (d : Decoded) :
    decZj0 C P = some d ↔ Zj0Accepts C P d := by
  unfold Zj0Accepts
  by_cases hlen : P.length = 13
  case neg => simp [decZj0, hlen]
  have hopens : ∀ Q, Q = zj0Unwhiten C P ↔ Q.length = 13 ∧
      ∀ i, i < 13 → byteAt Q i = byteAt P i ^^^ tableByte C 0x37 i ^^^ tableByte C 0x7F i := by
    intro Q
    rw [← hlen]
    exact eq_whitenTable_whitenTable_iff
  obtain ⟨hQ, hbytes⟩ := (hopens _).mp rfl
  have haddr := slice_eq_zj0Addr_iff hC (Q := zj0Unwhiten C P) (by omega)
  have hcrc := rdWire16_eq_iff C .zj0 (b := zj0Unwhiten C P) (i := 11) (by omega)
  unfold decZj0
  simp only [hlen, Option.ite_none_left_eq_some, ne_eq, not_true_eq_false, not_false_eq_true, not_not, true_and, haddr,
    hcrc, Option.map_eq_some_iff, zjDecoded_eq]
  constructor
  · rintro ⟨ha, hc, f, hf, rfl⟩
    exact ⟨_, hQ, hbytes, ha, hc, f, hf, rfl⟩
  · rintro ⟨Q, hQ, hbytes, ha, hc, f, hf, rfl⟩
    obtain rfl := (hopens Q).mpr ⟨hQ, hbytes⟩
    exact ⟨ha, hc, f, hf, rfl⟩

/-! ## v1 -/

/-- What `UNMIX1` checks, at the offsets of the payload (R271 (d)). -/
theorem unmix1_checks_at {C : Config} (hC : C.Lawful) {Q : List Byte} {f : ZjFields}
    (hf : C.unmix1 (slice Q 4 21) = some f) :
    (∀ q ∈ C.dupPairs1, byteAt Q (4 + q.1) = byteAt Q (4 + q.2)) ∧
      (byteAt Q (4 + C.pivotPos1)).getLsbD 0 = true ∧ byteAt Q (4 + C.keyPos1) = xorAll (zjBytes f) := by
  obtain ⟨hdup, hkey, hpivot⟩ := hC.zj.unmix1_checks _ f hf
  rw [slice_byteAt _ _ _ _ (by have := hC.zj.key_pos; omega)] at hkey
  rw [slice_byteAt _ _ _ _ (by have := hC.zj.pivot1_pos; omega)] at hpivot
  refine ⟨fun q hq => ?_, hpivot, hkey⟩
  obtain ⟨hfirst, hsecond, _⟩ := hC.zj.dup_pos q hq
  have hsame := hdup q hq
  rwa [slice_byteAt _ _ _ _ (by omega), slice_byteAt _ _ _ _ (by omega)] at hsame

/-- The decode of the Zhijia v1 layout accepts what R274 says, field by field. -/
theorem decZj1_iff_accepts {C : Config} (hC : C.Lawful) (P : List Byte) (d : Decoded) :
    decZj1 C P = some d ↔ Zj1Accepts C P d := by
  unfold Zj1Accepts
  by_cases hlen : P.length = 23
  case neg => simp [decZj1, hlen]
  have hopens : ∀ Q, Q = zj1Unwhiten C P ↔ Q.length = 23 ∧
      ∀ i, i < 23 → byteAt Q i = byteAt P i ^^^ tableByte C 0x37 i := by
    intro Q
    rw [← hlen]
    exact eq_whitenTable_iff
  obtain ⟨hQ, hbytes⟩ := (hopens _).mp rfl
  have hcrc := rdWire16_eq_iff C .zj1 (b := zj1Unwhiten C P) (i := 21) (by omega)
  unfold decZj1
  simp only [hlen, Option.ite_none_left_eq_some, ne_eq, not_true_eq_false, not_false_eq_true, not_not, true_and, hcrc,
    Option.map_eq_some_iff, zjDecoded_eq]
  constructor
  · rintro ⟨ha, hc, f, hf, rfl⟩
    obtain ⟨hdup, hpivot, hkey⟩ := unmix1_checks_at hC hf
    exact ⟨_, hQ, hbytes, ha, hc, hdup, hpivot, f, hf, hkey, rfl⟩
  · rintro ⟨Q, hQ, hbytes, ha, hc, _, _, f, hf, _, rfl⟩
    obtain rfl := (hopens Q).mpr ⟨hQ, hbytes⟩
    exact ⟨ha, hc, f, hf, rfl⟩

/-! ## v2 -/

/-- The decode of the Zhijia v2 layout accepts what R284 says, field by field. -/
theorem decZj2_iff_accepts {C : Config} (hC : C.Lawful) (P : List Byte) (d : Decoded) :
    decZj2 C P = some d ↔ Zj2Accepts C P d := by
  unfold Zj2Accepts
  by_cases hlen : P.length = 23
  case neg => simp [decZj2, hlen]
  have hW : (whitenTable C P 0x6F 0).length = 23 := by rw [whitenTable_length, hlen]
  have hhead : (slice (whitenTable C P 0x6F 0) 0 16).length = 16 := slice_length _ _ _ (by omega)
  have hopens : ∀ Q, Q = whitenTable C (slice (whitenTable C P 0x6F 0) 0 16) 0xD3 0 ↔ Q.length = 16 ∧
      ∀ i, i < 16 → byteAt Q i = byteAt P i ^^^ tableByte C 0x6F i ^^^ tableByte C 0xD3 i := by
    intro Q
    rw [eq_whitenTable_iff, hhead]
    refine and_congr_right fun _ => forall₂_congr fun i hi => ?_
    rw [slice_byteAt _ _ _ _ (by omega), Nat.zero_add, whitenTable_byteAt C P 0x6F (by omega)]
    rfl
  obtain ⟨hQ, hbytes⟩ := (hopens _).mp rfl
  have hopened := slice_splice (whitenTable C P 0x6F 0)
    (whitenTable C (slice (whitenTable C P 0x6F 0) 0 16) 0xD3 0) 0 16 (by omega) (by omega) (by rw [whitenTable_length, hhead])
  unfold decZj2
  simp only [hlen, Option.ite_none_left_eq_some, ne_eq, not_true_eq_false, not_false_eq_true, true_and, hopened,
    Option.map_eq_some_iff, zjDecoded_eq]
  constructor
  · rintro ⟨f, hf, rfl⟩
    obtain ⟨hderived, hpivot⟩ := hC.zj.unmix2_checks _ f hf
    exact ⟨_, hQ, hbytes, hpivot, f, hf, hderived, rfl⟩
  · rintro ⟨Q, hQ, hbytes, _, f, hf, _, rfl⟩
    obtain rfl := (hopens Q).mpr ⟨hQ, hbytes⟩
    exact ⟨f, hf, rfl⟩

/-! ## Packets as they are laid out -/

section

variable {C : Config} (hC : C.Lawful) (rc : RealCommand) (id : U32) (index tx : Byte)

include hC

/-- R175, R176: a Zhijia v0 packet is accepted with the fields it was laid out from. -/
theorem zj0Accepts_encZj0 : Zj0Accepts C (encZj0 C rc id index tx) (fieldsDecoded (zjFields C rc id index tx)) := by
  refine ⟨encZj0_length hC rc id index tx, zj0Clear C rc id index tx, zj0Clear_length rc id index tx hC, fun i hi => ?_,
    fun i hi => zj0Clear_byteAt_addr rc id index tx hC hi,
    slice_zjWithCrc_crc C .zj0 (zj0Body_length rc id index tx hC), _, ?_, rfl⟩
  · rw [← eq_xor_of_eq_xor (encZj0_byteAt rc id index tx hC hi)]
    exact eq_xor_of_eq_xor rfl
  · rw [slice_zj0Clear_mix rc id index tx hC]
    exact hC.zj.unmix0_mix0 _ (zjFields_wf hC rc id index tx)

/-- R175, R176: so is a Zhijia v1 packet. -/
theorem zj1Accepts_encZj1 : Zj1Accepts C (encZj1 C rc id index tx) (fieldsDecoded (zjFields C rc id index tx)) := by
  have hf : C.unmix1 (slice (zj1Clear C rc id index tx) 4 21) = some (zjFields C rc id index tx) := by
    rw [slice_zj1Clear_mix rc id index tx hC]
    exact hC.zj.unmix1_mix1 _ (zjFields_wf hC rc id index tx)
  obtain ⟨hdup, hpivot, hkey⟩ := unmix1_checks_at hC hf
  exact ⟨encZj1_length hC rc id index tx, zj1Clear C rc id index tx, zj1Clear_length rc id index tx hC,
    fun i hi => eq_xor_of_eq_xor (encZj1_byteAt rc id index tx hC hi), slice_zj1Clear_addr rc id index tx hC,
    slice_zjWithCrc_crc C .zj1 (zj1Body_length rc id index tx hC), hdup, hpivot, _, hf, hkey, rfl⟩

/-- R175, R176, R281: so is a Zhijia v2 packet, which carries no id. -/
theorem zj2Accepts_encZj2 :
    Zj2Accepts C (encZj2 C rc index tx) { fieldsDecoded (zj2Fields C rc index tx) with id := 0 } := by
  have hmix := hC.zj.mix2_len _ (zj2Fields_wf hC rc index tx)
  have hf := hC.zj.unmix2_mix2 _ (zj2Fields_wf hC rc index tx)
  obtain ⟨hderived, hpivot⟩ := hC.zj.unmix2_checks _ _ hf
  refine ⟨encZj2_length hC rc index tx, _, hmix, fun i hi => ?_, hpivot, _, hf, hderived, rfl⟩
  have hsent := encZj2_byteAt rc index tx hC (show i < 23 by omega)
  rw [if_pos hi, zj2Clear, byteAt_append_left _ (hmix ▸ hi)] at hsent
  rw [← eq_xor_of_eq_xor hsent]
  exact eq_xor_of_eq_xor rfl

end

end Sys2Proof.Proofs
end

section
/-! K.DECODE: what it accepts and refuses, and that it inverts every layout (R174 to R177). -/

namespace Sys2Proof.Proofs

open Sys2Proof.Machine Sys2Proof.Laws

/-! ## What a decode accepts -/

/-- The decode of a registered codec is `Accepts`, layout by layout (R174). -/
theorem decPayload_iff_accepts {C : Config} (hC : C.Lawful) {v : Codec} (hv : v ∈ C.registry) (P : List Byte)
    (d : Decoded) : decPayload C v P = some d ↔ Accepts C v P d := by
  cases hk : v.kind with
  | flv1 k u =>
    obtain ⟨hentry, _⟩ := (hC.codec_lawful v hv).flv1_entry k u hk
    simpa only [decPayload, Accepts, hk] using
      decFlv1_iff_accepts (hC.flv1_lawful u (List.mem_of_getElem? hentry)) P d
  | flv2 signed => simpa only [decPayload, Accepts, hk] using decFlv2_iff_accepts hC signed P d
  | zj0 => simpa only [decPayload, Accepts, hk] using decZj0_iff_accepts hC P d
  | zj1 => simpa only [decPayload, Accepts, hk] using decZj1_iff_accepts hC P d
  | zj2 => simpa only [decPayload, Accepts, hk] using decZj2_iff_accepts hC P d
  | aggregate f => simp [decPayload, Accepts, hk]

/-- Only a codec that decodes accepts a payload, and only one of its own length (R175). -/
theorem accepts_length {C : Config} {v : Codec} {P : List Byte} {d : Decoded} (h : Accepts C v P d) :
    codecDecodes v = true ∧ P.length = codecPlen v := by
  cases hk : v.kind with
  | aggregate f => simp [Accepts, hk] at h
  | flv1 k u =>
    simp only [Accepts, hk] at h
    refine ⟨by simp [codecDecodes, codecLf, hk], ?_⟩
    simp only [codecPlen, hk, flv1Plen_eq, flv1HeadLen_eq]
    exact h.1
  | _ =>
    simp only [Accepts, hk] at h
    exact ⟨by simp [codecDecodes, codecLf, hk], by simpa only [codecPlen, hk] using h.1⟩

/-- K.DECODE of a packet whose payload is accepted returns what it decodes to (R175). -/
theorem ruleOf_kDecode_accepts {C : Config} (hC : C.Lawful) {r : Fields} (s : State) {v : Codec} {w : WireParam}
    {P : List Byte} {t : Option Byte} {d : Decoded} (hwf : (Instr.kDecode r).WellFormed)
    (hv : C.registry[r.sel.toNat]? = some v) (hw : readWp r.payload = some w) (hP : payloadOf w = some (P, t))
    (h : Accepts C v P d) : ruleOf C (.kDecode r) s = .ok { state := s, out := decodedOut d } := by
  obtain ⟨hdecodes, hlen⟩ := accepts_length h
  have hdecode : decodeWith C v w = some d :=
    decodeWith_eq_some_iff.mpr ⟨P, t, hP, hlen, (decPayload_iff_accepts hC (List.mem_of_getElem? hv) P d).mpr h⟩
  rw [ruleOf_kDecode s hwf hv hdecodes hw, hdecode, orRaise_some, ok_bind]

/-- K.DECODE of a packet that the codec does not decode, whatever the reason (R177). -/
theorem ruleOf_kDecode_fails {C : Config} {r : Fields} (s : State) {v : Codec} {w : WireParam}
    (hwf : (Instr.kDecode r).WellFormed) (hv : C.registry[r.sel.toNat]? = some v) (hdecodes : codecDecodes v = true)
    (hw : readWp r.payload = some w)
    (h : ∀ P t, payloadOf w = some (P, t) → P.length ≠ codecPlen v ∨ decPayload C v P = none) :
    ruleOf C (.kDecode r) s = .error .decodeFail := by
  have hdecode : decodeWith C v w = none := by
    by_contra hsome
    obtain ⟨d, hd⟩ := Option.ne_none_iff_exists'.mp hsome
    obtain ⟨P, t, hP, hlen, hpayload⟩ := decodeWith_eq_some_iff.mp hd
    rcases h P t hP with hwrong | hnone
    · exact hwrong hlen
    · simp [hnone] at hpayload
  rw [ruleOf_kDecode s hwf hv hdecodes hw, hdecode, orRaise_none, error_bind]

/-- Settles O28: the refusals are the rules' early ends, in their order, and what is decoded is `Accepts` by the lemma
of each layout. -/
theorem codecRefusals : Obligations.CodecRefusals := by
  intro C
  refine ⟨fun r s v cmd hwf hv hcmd hnone => ?_, fun r s v hwf hv hdecodes => ?_,
    fun r s v w hwf hv hdecodes hw hfails => ?_, fun hC v hv P d => decPayload_iff_accepts hC hv P d,
    fun hC r s v w P t d hwf hv hw hP haccepts => ?_⟩
  · exact execUnder_of_ok (ruleOf_kEncode_none s hwf hv hcmd (encodeCmd_of_translation_nil s.seeds hnone))
  · rw [execUnder, ruleOf_kDecode_unsupported s hwf hv hdecodes, perform_eq, conclude_error]
  · rw [execUnder, ruleOf_kDecode_fails s hwf hv hdecodes hw hfails, perform_eq, conclude_error]
  · exact execUnder_of_ok (ruleOf_kDecode_accepts hC s hwf hv hw hP haccepts)

/-! ## Packets laid out by the codec itself -/

theorem decodeOf_wellFormed (n : Byte) {w : WireParam} (h : WireOk w) : (decodeOf n w).WellFormed := by
  have hread : readWp (writeWp w) = some w := by simpa using readWp_writeWp h []
  simp [wellFormed_iff, decodeOf, shapeOf, fieldsOf, payloadOk, writeWp_length h.1, hread]

/-- K.DECODE of the advertisement around an accepted payload that a concrete codec laid out returns what it decodes to
(R96, R98, R175). -/
theorem execUnder_decodeOf_encPayload {C : Config} (hC : C.Lawful) {n : Byte} {v : Codec}
    (hv : C.registry[n.toNat]? = some v) {rc : RealCommand} {id : U32} {index tx : Byte} {x : U16} {d : Decoded}
    (h : Accepts C v (encPayload C v rc id index tx x) d) (dur : U16) (s : State) :
    execUnder C (decodeOf n { wrap v.ad (encPayload C v rc id index tx x) with duration := dur }) s =
      .next (s.answer ⟨.ok, 0, decodedOut d⟩) := by
  obtain ⟨hdecodes, hlen⟩ := accepts_length h
  have hfits := (hC.codec_lawful v (List.mem_of_getElem? hv)).fits31 ((codecDecodes_iff v).mp hdecodes)
  rw [← hlen] at hfits
  have hok := wrap_wireOk v.ad _ hfits dur
  exact execUnder_of_ok (ruleOf_kDecode_accepts hC s (decodeOf_wellFormed n hok) hv
    (by simpa using readWp_writeWp hok []) (payloadOf_wrap v.ad _ (by omega) dur) h)

/-- Settles O30: an FLV1 packet is accepted with the carried fields; of the group field GROUP_INV gives the carried
bits, and FIX keeps the arguments by the laws of R176. -/
theorem decodeInvertsFlv1Encode : Obligations.DecodeInvertsFlv1Encode := by
  intro n v k u hv hk rc id index tx x dur s hfits id' index'
  have hC := Config.build_lawful
  have hmem := List.mem_of_getElem? hv
  have hcodec := hC.codec_lawful v hmem
  obtain ⟨hentry, _⟩ := hcodec.flv1_entry k u hk
  refine ⟨hC.group_inv _ _ _ (hC.group_carried id index), ?_, ?_⟩
  · have haccepts := flv1Accepts_encode hC hmem hk hfits id index tx x
    rw [exec_eq_execUnder]
    exact execUnder_decodeOf_encPayload hC hv (by simpa only [Accepts, hk] using haccepts) dur s
  · rintro (⟨cmd, p, hkind, htable⟩ | hother | halone | hcheck)
    · exact hcodec.translate_keeps k u hk cmd p hkind rc htable
    · exact hC.flv1_keeps k u hentry rc.cmd rc.args hfits (.inr (.inl hother))
    · exact hC.flv1_keeps k u hentry rc.cmd rc.args hfits (.inl halone)
    · exact hC.flv1_keeps k u hentry rc.cmd rc.args hfits (.inr (.inr hcheck))

/-- Settles O31: an FLV2 packet is accepted with every field it was laid out from. -/
theorem decodeInvertsFlv2Encode : Obligations.DecodeInvertsFlv2Encode := by
  intro C hC n v signed hv hk rc id index tx x dur s
  have haccepts := flv2Accepts_encode hC hk rc id index tx x
  exact execUnder_decodeOf_encPayload hC hv (by simpa only [Accepts, hk] using haccepts) dur s

/-- What the fields of a Zhijia v0 or v1 packet are returned as: the opcode, which its low byte carries whole, the
carried arguments and the carried bytes of the id (R175, R263). -/
theorem decodedOut_zjFields (C : Config) {rc : RealCommand} (hfits : rc.cmd.toNat < 256) (id : U32) (index tx : Byte) :
    decodedOut (fieldsDecoded (zjFields C rc id index tx)) =
      writeCmd ⟨.custom, rc.cmd, carriedArgs C.zjArgs rc.args⟩ ++
        writeParams ⟨carriedId C.zjUuidBytes id, index, tx, 0⟩ := by
  simp only [decodedOut, customOf, fieldsDecoded, zjFields, setWidth_eq_extract, setWidth_extract_byte hfits]
  rfl

/-- What the fields of a Zhijia v2 packet are returned as: the id is 0 (R284). -/
theorem decodedOut_zj2Fields (C : Config) {rc : RealCommand} (hfits : rc.cmd.toNat < 256) (index tx : Byte) :
    decodedOut { fieldsDecoded (zj2Fields C rc index tx) with id := 0 } =
      writeCmd ⟨.custom, rc.cmd, carriedArgs C.zjArgs rc.args⟩ ++ writeParams ⟨0, index, tx, 0⟩ := by
  simp only [decodedOut, customOf, fieldsDecoded, zj2Fields, setWidth_eq_extract, setWidth_extract_byte hfits]
  rfl

/-- Settles O32: a Zhijia packet is accepted with the fields that were mixed, whose command byte is the opcode. -/
theorem decodeInvertsZhijiaEncode : Obligations.DecodeInvertsZhijiaEncode := by
  intro C hC n v hv hkind rc id index tx x dur s hfits
  rcases hkind with hk | hk | hk
  · have haccepts : Accepts C v (encPayload C v rc id index tx x) (fieldsDecoded (zjFields C rc id index tx)) := by
      simpa only [Accepts, encPayload, hk] using zj0Accepts_encZj0 hC rc id index tx
    rw [execUnder_decodeOf_encPayload hC hv haccepts, decodedOut_zjFields C hfits, if_neg (by simp [codecLf, hk])]
  · have haccepts : Accepts C v (encPayload C v rc id index tx x) (fieldsDecoded (zjFields C rc id index tx)) := by
      simpa only [Accepts, encPayload, hk] using zj1Accepts_encZj1 hC rc id index tx
    rw [execUnder_decodeOf_encPayload hC hv haccepts, decodedOut_zjFields C hfits, if_neg (by simp [codecLf, hk])]
  · have haccepts : Accepts C v (encPayload C v rc id index tx x)
        { fieldsDecoded (zj2Fields C rc index tx) with id := 0 } := by
      simpa only [Accepts, encPayload, hk] using zj2Accepts_encZj2 hC rc index tx
    rw [execUnder_decodeOf_encPayload hC hv haccepts, decodedOut_zj2Fields C hfits, if_pos (by simp [codecLf, hk])]

end Sys2Proof.Proofs
end

section
/-! The lookup of a codec by its identifier (R161, R305). -/

namespace Sys2Proof.Proofs

open Sys2Proof.Machine Sys2Proof.Laws

/-- The linear scan of R305 and R306 is the library's search for the first index. -/
theorem findCodec_eq (f : Codec → Bool) (l : List Codec) :
    ∀ i, findCodec f i l = (l.findIdx? f).map (· + i) := by
  induction l with
  | nil => exact fun i => rfl
  | cons v rest ih =>
    intro i
    rw [findCodec, List.findIdx?_cons, ih]
    cases f v
    case true => simp
    case false => simp [Function.comp_def, Nat.add_comm 1, Nat.add_assoc]

theorem findCodec_zero (f : Codec → Bool) (l : List Codec) : findCodec f 0 l = l.findIdx? f := by
  simp [findCodec_eq]

/-- No two registered codecs have one identifier (R161, R300 (d)). -/
theorem index_eq_of_ident_eq {C : Config} (hC : C.Lawful) {m n : Nat} {u v : Codec} (hu : C.registry[m]? = some u)
    (hv : C.registry[n]? = some v) (h : u.ident = v.ident) : m = n := by
  have hm : (C.registry.map Codec.ident)[m]? = some u.ident := by simp [hu]
  have hn : (C.registry.map Codec.ident)[n]? = some u.ident := by simp [hv, h]
  exact (List.getElem?_inj (List.getElem?_eq_some_iff.mp hm).1 hC.ident_nodup).mp (hm.trans hn.symm)

/-- The scan finds a codec by its identifier (R305). -/
theorem findIdx?_ident {C : Config} (hC : C.Lawful) {n : Nat} {v : Codec} (hv : C.registry[n]? = some v) :
    C.registry.findIdx? (fun u => u.ident == v.ident) = some n := by
  obtain ⟨hn, hget⟩ := List.getElem?_eq_some_iff.mp hv
  refine List.findIdx?_eq_some_iff_getElem.mpr ⟨hn, by simp [hget], fun j hj hsame => ?_⟩
  have hident : C.registry[j].ident = v.ident := by simpa using hsame
  have := index_eq_of_ident_eq hC (List.getElem?_eq_getElem (hj.trans hn)) hv hident
  omega

/-- A lookup whose scan stops at index `n` (R305). -/
theorem ruleOf_gLookupId_found {C : Config} {r : Fields} {n : Nat} (s : State) (hwf : (Instr.gLookupId r).WellFormed)
    (h : C.registry.findIdx? (fun v => v.ident == r.payload) = some n) :
    ruleOf C (.gLookupId r) s = .ok { state := s, res := BitVec.ofNat 32 n } := by
  simp only [ruleOf, ruleLookupId, checkRequest_ok hwf, ok_bind, findCodec_zero, h]

/-- A lookup whose scan runs to the end (R305). -/
theorem ruleOf_gLookupId_fallback {C : Config} {r : Fields} (s : State) (hwf : (Instr.gLookupId r).WellFormed)
    (h : C.registry.findIdx? (fun v => v.ident == r.payload) = none) :
    ruleOf C (.gLookupId r) s = .ok { state := s, status := .fallback } := by
  simp only [ruleOf, ruleLookupId, checkRequest_ok hwf, ok_bind, findCodec_zero, h]

/-- Settles O36: identifiers are unique, so the scan stops at the codec that has this one, and it runs to the end where
none has it. -/
theorem lookupByIdentifierResult : Obligations.LookupByIdentifierResult := by
  refine ⟨fun r s n v hwf hv hident => ?_, fun r s hwf hnone => ?_⟩ <;> rw [exec_eq_execUnder]
  · have hscan := findIdx?_ident Config.build_lawful hv
    rw [← hident] at hscan
    exact execUnder_of_ok (ruleOf_gLookupId_found s hwf hscan)
  · have hscan : Config.build.registry.findIdx? (fun v => v.ident == r.payload) = none :=
      List.findIdx?_eq_none_iff.mpr fun v hv => by simpa using hnone v hv
    exact execUnder_of_ok (ruleOf_gLookupId_fallback s hwf hscan)

end Sys2Proof.Proofs
end

section
/-! What identification finds (R310 to R312), and that it finds the source's pair packet to be FanLamp v1 (R285, R314). -/

namespace Sys2Proof.Proofs

open Sys2Proof.Machine Sys2Proof.Laws

/-! ## The loop of G.IDENTIFY -/

/-- The loop stops at the first codec that is tried and decodes (R310, R311). -/
theorem identifyFrom_first {C : Config} {P : List Byte} {t : Option Byte} {v : Codec} {d : Decoded}
    (htried : identifySkips C v P t = false) (hd : decPayload C v P = some d) (l : List Codec) :
    ∀ i n, l[n]? = some v →
      (∀ (m : Nat) (u : Codec), m < n → l[m]? = some u → identifySkips C u P t = true ∨ decPayload C u P = none) →
      identifyFrom C P t i l = some (i + n, d, reencodeDiffers C v d P) := by
  induction l with
  | nil => exact fun i n hv _ => by simp at hv
  | cons u rest ih =>
    intro i n hv hbefore
    cases n with
    | zero =>
      obtain rfl : u = v := by simpa using hv
      simp [identifyFrom, htried, hd]
    | succ n =>
      have hpassed : identifyFrom C P t i (u :: rest) = identifyFrom C P t (i + 1) rest := by
        rcases hbefore 0 u n.succ_pos rfl with hskip | hnone
        · simp [identifyFrom, hskip]
        · simp [identifyFrom, hnone]
      rw [hpassed, ih (i + 1) n hv fun m u' hm hu' => hbefore (m + 1) u' (by omega) hu', Nat.add_right_comm,
        Nat.add_assoc]

/-- Where no type byte is named, a codec that accepts the payload is tried on it (R311). -/
theorem identifySkips_of_accepts {C : Config} {v : Codec} {P : List Byte} {d : Decoded} (h : Accepts C v P d) :
    identifySkips C v P none = false := by
  obtain ⟨hdecodes, hlen⟩ := accepts_length h
  simp [identifySkips, hdecodes, hlen]

/-! ## The request -/

/-- A whole buffer as the payload, with no flags and no type byte named (R61, R98). -/
theorem wireOk_absent {P : List Byte} (h : P.length ≤ 31) : WireOk ⟨P, 0xFF, 0xFF, 0⟩ := ⟨h, rfl, rfl⟩

theorem gIdentify_wellFormed {w : WireParam} (h : WireOk w) : (Instr.gIdentify ⟨0, 36, 0, writeWp w⟩).WellFormed := by
  have hread : readWp (writeWp w) = some w := by simpa using readWp_writeWp h []
  simp [wellFormed_iff, shapeOf, fieldsOf, payloadOk, writeWp_length h.1, hread]

theorem ruleOf_gIdentify {C : Config} {r : Fields} {w : WireParam} (s : State) (hwf : (Instr.gIdentify r).WellFormed)
    (hw : readWp r.payload = some w) : ruleOf C (.gIdentify r) s = .ok (identifyReply C w s) := by
  simp only [ruleOf, ruleIdentify, checkRequest_ok hwf, hw, orRaise_some, ok_bind]

/-- The result of an identification without a mismatch is the codec's index alone (R312). -/
theorem identifyRes_match (n : Nat) : identifyRes n false = BitVec.ofNat 32 n := by
  simp [identifyRes, bit32]

/-- A packet that identification finds without a mismatch: the answer is the codec's index and the decoded fields, and
no seed is drawn (R310, R312). -/
theorem execUnder_gIdentify_match {C : Config} {w : WireParam} {n : Nat} {d : Decoded} (hok : WireOk w)
    (h : identify C w = some (n, d, false)) (s : State) :
    execUnder C (.gIdentify ⟨0, 36, 0, writeWp w⟩) s = .next (s.answer ⟨.ok, BitVec.ofNat 32 n, decodedOut d⟩) := by
  have hread : readWp (writeWp w) = some w := by simpa using readWp_writeWp hok []
  rw [execUnder_of_ok (ruleOf_gIdentify s (gIdentify_wellFormed hok) hread)]
  simp only [identifyReply, h, identifyRes_match]

/-! ## The source's pair packet -/

/-- No FLV2 codec decodes the pair packet: it begins with neither of that layout's first five bytes (R230, R314). -/
theorem decFlv2_pairPacket {C : Config} (hC : C.Lawful) {P : List Byte} (hP : C.PairPacket P) (signed : Bool) :
    decFlv2 C signed P = none := by
  obtain ⟨_, hbegins, _⟩ := hP
  have hfirst : slice P 0 5 = [0xAA, 0x98, 0x43, 0xAF, 0x0B] := by
    rw [← slice_take P (show 5 ≤ 9 by decide), hbegins]
    rfl
  refine Option.eq_none_iff_forall_ne_some.mpr fun d hd => ?_
  obtain ⟨_, hheader, _⟩ := (decFlv2_iff_accepts hC signed P d).mp hd
  rw [hfirst] at hheader
  cases signed
  case false => simp at hheader
  case true => exact hC.flv2PrefixS_ne hheader.symm

/-- One registered codec decodes the pair packet: an FLV1 codec, whose encode gives the packet back (R285, R314). -/
theorem pairPacket_decodes_once {C : Config} (hC : C.Lawful) {P : List Byte} (hP : C.PairPacket P) :
    ∃ (n : Nat) (v : Codec) (d : Decoded), C.registry[n]? = some v ∧ codecLf v = some .flv1 ∧
      decPayload C v P = some d ∧ reencodeDiffers C v d P = false ∧
      ∀ (m : Nat) (u : Codec), C.registry[m]? = some u → m ≠ n → decPayload C u P = none := by
  have hflv2 := decFlv2_pairPacket hC hP
  obtain ⟨_, _, hzhijia, n, v, k, f, d, hv, hk, _, hd, hencode, hothers⟩ := hP
  refine ⟨n, v, d, hv, by simp [codecLf, hk], hd, by simp [reencodeDiffers, hencode], fun m u hu hmn => ?_⟩
  cases hkind : u.kind with
  | flv1 j g => exact hothers m u hu (by simp [codecLf, hkind]) hmn
  | flv2 signed => simpa only [decPayload, hkind] using hflv2 signed
  | aggregate fam => simp only [decPayload, hkind]
  | zj0 | zj1 | zj2 => exact hzhijia u (List.mem_of_getElem? hu) (by simp [codecFam, hkind])

/-- Settles O39: the one codec that decodes the pair packet is where the loop stops, whatever its place in the registry,
and its encode gives the packet back. -/
theorem pairPacketIdentifiesAsFlv1 : Obligations.PairPacketIdentifiesAsFlv1 := by
  intro C P hC hP s
  obtain ⟨n, v, d, hv, hlf, hd, hsame, hothers⟩ := pairPacket_decodes_once hC hP
  have htried := identifySkips_of_accepts ((decPayload_iff_accepts hC (List.mem_of_getElem? hv) P d).mp hd)
  have hfound : identify C ⟨P, 0xFF, 0xFF, 0⟩ = some (n, d, false) := by
    simp only [identify, payloadOf_absent, identifyFrom_first htried hd C.registry 0 n hv
      fun m u hm hu => .inr (hothers m u hu hm.ne), hsame, Nat.zero_add]
  exact ⟨n, v, d, hv, hlf, hd, execUnder_gIdentify_match (wireOk_absent hP.1) hfound s⟩

end Sys2Proof.Proofs
end

section
/-! R238: the sign field tells an unsigned FanLamp v2 packet from a signed one, under any configuration. -/

namespace Sys2Proof.Proofs

open Sys2Proof.Machine

/-- The signature engine never returns 0, which is reserved for "no signature" (R139). -/
theorem aesSign16_ne_zero (key plain : List Byte) (seed : U16) (tx : Byte) : aesSign16 key plain seed tx ≠ 0 :=
  (aesSign16_eq key plain seed tx).1

/-- So the sign field is 0 exactly in an unsigned packet (R233). -/
theorem flv2Sign_eq_zero_iff (C : Config) (signed : Bool) (Q : List Byte) (s : U16) (tx : Byte) :
    flv2Sign C signed Q s tx = 0 ↔ signed = false := by
  cases signed
  case false => exact iff_of_true rfl rfl
  case true => exact iff_of_false (aesSign16_ne_zero _ _ _ _) Bool.noConfusion

/-- The payload with the whitening of the seed it carries undone (R237): the same for both variants. -/
def flv2Unwhitened (C : Config) (P : List Byte) : List Byte := flv2Whiten C P (rdWire16 C .flv2 P 21)

/-- A payload that decodes carries the signature of its variant (R237). -/
theorem sign_of_decFlv2 {C : Config} {signed : Bool} {P : List Byte} {d : Decoded}
    (h : decFlv2 C signed P = some d) :
    rdWire16 C .flv2 (flv2Unwhitened C P) 19 =
      flv2Sign C signed (flv2Unwhitened C P) (rdWire16 C .flv2 P 21) (byteAt (flv2Unwhitened C P) 5) := by
  simp only [decFlv2, Option.ite_none_left_eq_some, not_not] at h
  obtain ⟨_, _, _, _, hsign, _⟩ := h
  exact hsign

/-- Of a payload that decodes, the sign field is 0 exactly where it decodes as unsigned. -/
theorem sign_eq_zero_iff_of_decFlv2 {C : Config} {signed : Bool} {P : List Byte} {d : Decoded}
    (h : decFlv2 C signed P = some d) : rdWire16 C .flv2 (flv2Unwhitened C P) 19 = 0 ↔ signed = false := by
  rw [sign_of_decFlv2 h, flv2Sign_eq_zero_iff]

/-- Settles O33: both decodes read one sign field, which is 0 where the unsigned one accepts and not 0 where the signed
one does. -/
theorem signedAndUnsignedExclude : Obligations.SignedAndUnsignedExclude := by
  intro C P hunsigned
  obtain ⟨d, hd⟩ := Option.ne_none_iff_exists'.mp hunsigned
  have hzero : rdWire16 C .flv2 (flv2Unwhitened C P) 19 = 0 := (sign_eq_zero_iff_of_decFlv2 hd).mpr rfl
  refine Option.eq_none_iff_forall_ne_some.mpr fun d' hd' => ?_
  exact Bool.noConfusion ((sign_eq_zero_iff_of_decFlv2 hd').mp hzero)

end Sys2Proof.Proofs
end

section
/-! What K.ENCODE with an aggregate returns (R308). -/

namespace Sys2Proof.Proofs

open Sys2Proof.Machine Sys2Proof.Laws

/-- Settles O27: the encode of an aggregate is `AGG_ENCODE`, whose packets, params and seed source `aggEncode_eq` gives
member by member. -/
theorem encodeAggregateResult : Obligations.EncodeAggregateResult := by
  intro C hC r s v cmd hwf hv hagg hcmd p us hsome
  have hencode : encodeCmd C v cmd p s.seeds =
      some ({ p with tx := txAdvance p.tx (longestList cmd p us) (ceilOf C v) }, memberPackets C cmd p s.seeds us,
        memberSeeds cmd p s.seeds us) := by
    rw [encodeCmd, if_pos hagg]
    exact aggEncode_eq C hC v cmd p s.seeds hsome
  exact execUnder_of_ok (ruleOf_kEncode_some s hwf hv hcmd hencode)

end Sys2Proof.Proofs
end

section
/-! The codes of R301 in what G.COUNT and G.DESCRIBE return (R303, R304) and in the lookup by them (R306). -/

namespace Sys2Proof.Proofs

open Sys2Proof.Machine Sys2Proof.Laws

/-- A request whose rule raises a status (R81, R434). -/
theorem execUnder_of_error {C : Config} {i : Instr} {s : State} {st : Status} (h : ruleOf C i s = .error st) :
    execUnder C i s = .next (s.answer ⟨st, 0, []⟩) := by
  rw [execUnder, perform_eq, h, conclude_error]

/-! ## Bit fields of `RES` -/

/-- A bit field above the bits in use adds its value at its place. -/
theorem ofNat_or_shiftLeft {w n x : Nat} (hx : x < 2 ^ n) (y : Nat) :
    BitVec.ofNat w x ||| BitVec.ofNat w y <<< n = BitVec.ofNat w (x + y * 2 ^ n) := by
  have hplace : BitVec.ofNat w y <<< n = BitVec.ofNat w (y * 2 ^ n) :=
    BitVec.eq_of_toNat_eq (by simp [Nat.shiftLeft_eq])
  rw [hplace, ← BitVec.ofNat_or, Nat.or_comm, Nat.mul_comm, ← Nat.two_pow_add_eq_or_of_lt hx, Nat.add_comm]

theorem bit32_eq (b : Bool) : bit32 b = BitVec.ofNat 32 b.toNat := by
  cases b <;> rfl

/-- `RES` of G.DESCRIBE as a number (R304). -/
theorem describeRes_eq (v : Codec) : describeRes v = BitVec.ofNat 32 ((Family.code (codecFam v)).toNat +
    (codecVar v).toNat * 2 ^ 8 + (codecAgg v).toNat * 2 ^ 16 + (codecDecodes v).toNat * 2 ^ 17) := by
  have hfam := (Family.code (codecFam v)).isLt
  have hvar := (codecVar v).isLt
  have hagg := Bool.toNat_le (codecAgg v)
  rw [describeRes, ← BitVec.ofNat_toNat, ← BitVec.ofNat_toNat, bit32_eq, bit32_eq, ofNat_or_shiftLeft hfam,
    ofNat_or_shiftLeft (by omega), ofNat_or_shiftLeft (by omega)]

/-! ## The codes of R301 -/

/-- The descriptor holds the codes of the table in R301, of an FLV1 codec as far as a byte holds its variant code. -/
theorem codesOf_eq {v : Codec} (hbyte : ∀ k u, v.kind = .flv1 k u → 0x10 + k < 256) :
    codesOf v.kind = ((Family.code (codecFam v)).toNat, (codecVar v).toNat) := by
  cases hk : v.kind with
  | flv1 k u => simp [codesOf, codecFam, codecVar, hk, Family.code, Nat.mod_eq_of_lt (hbyte k u hk)]
  | flv2 signed => cases signed <;> simp [codesOf, codecFam, codecVar, hk, Family.code]
  | aggregate f => cases f <;> simp [codesOf, codecFam, codecVar, hk, Family.code]
  | zj0 | zj1 | zj2 => simp [codesOf, codecFam, codecVar, hk, Family.code]

/-- A byte holds the variant code of every registered codec (R301). -/
theorem codesOf_eq_of_lawful {C : Config} (hC : C.Lawful) {v : Codec} (hv : v ∈ C.registry) :
    codesOf v.kind = ((Family.code (codecFam v)).toNat, (codecVar v).toNat) :=
  codesOf_eq fun k u hk => ((hC.codec_lawful v hv).flv1_entry k u hk).2.trans (by decide)

theorem familyCode_inj {f g : Family} : Family.code f = Family.code g ↔ f = g := by
  cases f <;> cases g <;> decide

/-- Codecs with the same codes have the same family and variant. -/
theorem fv_eq_of_codesOf_eq {C : Config} (hC : C.Lawful) {u v : Codec} (hu : u ∈ C.registry) (hv : v ∈ C.registry)
    (h : codesOf u.kind = codesOf v.kind) : (codecFam u, codecVar u) = (codecFam v, codecVar v) := by
  rw [codesOf_eq_of_lawful hC hu, codesOf_eq_of_lawful hC hv, Prod.mk.injEq, BitVec.toNat_inj, BitVec.toNat_inj,
    familyCode_inj] at h
  obtain ⟨hfam, hvar⟩ := h
  rw [hfam, hvar]

/-! ## G.COUNT and G.DESCRIBE -/

theorem ruleOf_gCount {C : Config} {r : Fields} (s : State) (hwf : (Instr.gCount r).WellFormed) :
    ruleOf C (.gCount r) s = .ok { state := s, res := BitVec.ofNat 32 C.registry.length } := by
  simp only [ruleOf, ruleCount, checkRequest_ok hwf, ok_bind]

theorem ruleOf_gDescribe {C : Config} {r : Fields} {v : Codec} (s : State) (hwf : (Instr.gDescribe r).WellFormed)
    (hv : C.registry[r.sel.toNat]? = some v) :
    ruleOf C (.gDescribe r) s = .ok { state := s, res := describeRes v } := by
  simp only [ruleOf, ruleDescribe, checkRequest_ok hwf, codecAt_some hv, ok_bind]

theorem ruleOf_gDescribe_range {C : Config} {r : Fields} (s : State) (hwf : (Instr.gDescribe r).WellFormed)
    (h : C.registry.length ≤ r.sel.toNat) : ruleOf C (.gDescribe r) s = .error .range := by
  simp only [ruleOf, ruleDescribe, checkRequest_ok hwf, codecAt_none h, ok_bind, error_bind]

/-- Of a concrete codec the decodes bit is set and the aggregate bit is not (R304). -/
theorem describeRes_concrete {C : Config} (hC : C.Lawful) {v : Codec} (hv : v ∈ C.registry)
    (hconcrete : codecAgg v = false) :
    describeRes v = BitVec.ofNat 32 ((codesOf v.kind).1 + (codesOf v.kind).2 * 256 + 131072) := by
  simp [describeRes_eq, codesOf_eq_of_lawful hC hv, hconcrete, (codecDecodes_iff v).mpr hconcrete]

/-- Of an aggregate it is the other way round, under any configuration (R304). -/
theorem describeRes_aggregate {v : Codec} {f : Family} (hk : v.kind = .aggregate f) :
    describeRes v = BitVec.ofNat 32 ((codesOf v.kind).1 + (codesOf v.kind).2 * 256 + 65536) := by
  have hagg : codecAgg v = true := (codecAgg_iff v).mpr ⟨f, hk⟩
  have hdecodes : codecDecodes v = false := by simp [Bool.eq_false_iff, codecDecodes_iff, hagg]
  simp [describeRes_eq, codesOf_eq (v := v) (by simp [hk]), hagg, hdecodes]

/-- Settles O35: the rules return the length and the descriptor's bit fields, which hold the codes of R301 and one of
the two bits; an index past the registry reads no codec. -/
theorem countAndDescribeResults : Obligations.CountAndDescribeResults := by
  refine ⟨fun r s hwf => ?_, fun r s v hwf hv hkind => ?_, fun C r s v f hwf hv hk => ?_, fun r s hwf hrange => ?_⟩
  · rw [exec_eq_execUnder]
    exact execUnder_of_ok (ruleOf_gCount s hwf)
  · have hconcrete : codecAgg v = false := by simpa [Bool.eq_false_iff, codecAgg_iff] using hkind
    rw [exec_eq_execUnder, execUnder_of_ok (ruleOf_gDescribe s hwf hv),
      describeRes_concrete Config.build_lawful (List.mem_of_getElem? hv) hconcrete]
  · rw [execUnder_of_ok (ruleOf_gDescribe s hwf hv), describeRes_aggregate hk]
  · rw [exec_eq_execUnder]
    exact execUnder_of_error (ruleOf_gDescribe_range s hwf hrange)

/-! ## The lookup by family and variant -/

/-- The test of the scan of R306. -/
def hasCodes (r : Fields) (v : Codec) : Bool :=
  Family.code (codecFam v) == immByte r && codecVar v == immByte1 r

/-- A registered codec passes it exactly when the request holds the codes of R301 of its kind. -/
theorem hasCodes_iff {C : Config} (hC : C.Lawful) (r : Fields) {v : Codec} (hv : v ∈ C.registry) :
    hasCodes r v = true ↔
      ((r.imm.extractLsb' 0 8).toNat, (r.imm.extractLsb' 8 8).toNat) = codesOf v.kind := by
  rw [codesOf_eq_of_lawful hC hv, Prod.mk.injEq, BitVec.toNat_inj, BitVec.toNat_inj, hasCodes, Bool.and_eq_true,
    beq_iff_eq, beq_iff_eq, eq_comm, eq_comm (a := codecVar v)]
  rfl

theorem ruleOf_gLookupFv {C : Config} {r : Fields} (s : State) (hwf : (Instr.gLookupFv r).WellFormed) :
    ruleOf C (.gLookupFv r) s = (orRaise (C.registry.findIdx? (hasCodes r)) .notFound >>= fun n =>
      .ok { state := s, res := BitVec.ofNat 32 n }) := by
  rw [← findCodec_zero]
  simp only [ruleOf, ruleLookupFv, checkRequest_ok hwf, ok_bind]
  rfl

/-- A search stops at the one element of its key that it accepts, where no two elements have one key. -/
theorem findIdx?_of_nodup_map {α β : Type} {l : List α} {key : α → β} (hnodup : (l.map key).Nodup) {f : α → Bool}
    {n : Nat} {a : α} (ha : l[n]? = some a) (hf : f a = true) (hkey : ∀ b ∈ l, f b = true → key b = key a) :
    l.findIdx? f = some n := by
  obtain ⟨hn, hget⟩ := List.getElem?_eq_some_iff.mp ha
  refine List.findIdx?_eq_some_iff_getElem.mpr ⟨hn, by rwa [hget], fun j hj hfound => ?_⟩
  have hsame : (l.map key)[j]? = (l.map key)[n]? := by
    simp [List.getElem?_eq_getElem (hj.trans hn), ha, hkey _ (List.getElem_mem _) hfound]
  have hjn : j = n := (List.getElem?_inj (by simpa using hj.trans hn) hnodup).mp hsame
  omega

/-- Settles O37: families and variants are unique, so the scan stops at the codec with these codes, and it runs to the
end where none has them. -/
theorem lookupByFamilyVariantResult : Obligations.LookupByFamilyVariantResult := by
  have hC := Config.build_lawful
  refine ⟨fun r s n v hwf hv hcodes => ?_, fun r s hwf hnone => ?_⟩ <;> rw [exec_eq_execUnder]
  · have hmem := List.mem_of_getElem? hv
    have hscan : Config.build.registry.findIdx? (hasCodes r) = some n :=
      findIdx?_of_nodup_map hC.fv_nodup hv ((hasCodes_iff hC r hmem).mpr hcodes) fun u hu hfound =>
        fv_eq_of_codesOf_eq hC hu hmem (((hasCodes_iff hC r hu).mp hfound).symm.trans hcodes)
    exact execUnder_of_ok (by rw [ruleOf_gLookupFv s hwf, hscan, orRaise_some, ok_bind])
  · have hscan : Config.build.registry.findIdx? (hasCodes r) = none :=
      List.findIdx?_eq_none_iff.mpr fun v hv =>
        Bool.eq_false_iff.mpr (mt (hasCodes_iff hC r hv).mp (hnone v hv))
    exact execUnder_of_error (by rw [ruleOf_gLookupFv s hwf, hscan, orRaise_none, error_bind])

end Sys2Proof.Proofs
end

section
/-! What G.IDENTIFY answers for any packet (R310 to R313). -/

namespace Sys2Proof.Proofs

open Sys2Proof.Machine Sys2Proof.Laws

/-- The loop runs to the end where every codec is passed over or does not decode (R310). -/
theorem identifyFrom_eq_none {C : Config} {P : List Byte} {t : Option Byte} {l : List Codec}
    (h : ∀ v ∈ l, identifySkips C v P t = true ∨ decPayload C v P = none) : ∀ i, identifyFrom C P t i l = none := by
  induction l with
  | nil => exact fun i => rfl
  | cons v rest ih =>
    intro i
    have hrest := ih (fun u hu => h u (List.mem_cons_of_mem v hu)) (i + 1)
    rcases h v List.mem_cons_self with hskip | hnone
    · simp [identifyFrom, hskip, hrest]
    · simp [identifyFrom, hnone, hrest]

/-- A packet without a payload, or whose payload no codec decodes, is not identified (R310). -/
theorem identify_eq_none {C : Config} {w : WireParam} (h : ∀ P t, payloadOf w = some (P, t) →
    ∀ v ∈ C.registry, identifySkips C v P t = true ∨ decPayload C v P = none) : identify C w = none := by
  unfold identify
  cases hP : payloadOf w with
  | none => rfl
  | some q => exact identifyFrom_eq_none (h q.1 q.2 hP) 0

/-- `RES` of G.IDENTIFY as a number: the mismatch bit stands above every codec's index (R300, R312). -/
theorem identifyRes_eq {n : Nat} (hn : n < 2 ^ 8) (mismatch : Bool) :
    identifyRes n mismatch = BitVec.ofNat 32 (n + mismatch.toNat * 2 ^ 8) := by
  rw [identifyRes, bit32_eq, ofNat_or_shiftLeft hn]

/-- A codec is tried when it decodes, has the payload's length and passes the pre-filter (R310, R311). -/
theorem identifySkips_eq_false_iff (C : Config) (v : Codec) (P : List Byte) (t : Option Byte) :
    identifySkips C v P t = false ↔ codecDecodes v = true ∧ P.length = codecPlen v ∧
      (C.prefilter = true → t = none ∨ t = some v.ad.adType) := by
  have hfilter : (C.prefilter && t.any fun b => b != v.ad.adType) = false ↔
      (C.prefilter = true → t = none ∨ t = some v.ad.adType) := by
    cases C.prefilter <;> cases t <;> simp
  rw [identifySkips, Bool.or_eq_false_iff, Bool.or_eq_false_iff, Bool.not_eq_false', hfilter, decide_eq_false_iff_not,
    not_not, and_assoc, and_comm (b := P.length = _)]

/-- Settles O38: the loop stops at the first codec that is tried and decodes, with the mismatch bit above its index, and
it runs to the end where there is none. -/
theorem identifyFirstMatch : Obligations.IdentifyFirstMatch := by
  refine ⟨fun r s w P t n v d hwf hw hP hv htried hd hbefore => ?_, fun r s w hwf hw hnone => ?_,
    identifySkips_eq_false_iff Config.build⟩ <;> rw [exec_eq_execUnder, execUnder_of_ok (ruleOf_gIdentify s hwf hw)]
  · have hfound : identify Config.build w = some (n, d, reencodeDiffers Config.build v d P) := by
      simp only [identify, hP, identifyFrom_first htried hd _ 0 n hv hbefore, Nat.zero_add]
    have hn : n < 2 ^ 8 := by
      have hlt := (List.getElem?_eq_some_iff.mp hv).1
      have hle := Config.build_lawful.registry_le
      omega
    have hbit : (reencodeDiffers Config.build v d P).toNat * 2 ^ 8 =
        if encPayload Config.build v d.rc d.id d.index d.tx d.seed = P then 0 else 256 := by
      unfold reencodeDiffers
      split_ifs with hsame <;> simp [hsame]
    simp only [identifyReply, hfound, identifyRes_eq hn, hbit]
  · simp only [identifyReply, identify_eq_none hnone]

end Sys2Proof.Proofs
end

section
/-! What the requests Q.* write and return (R330 to R342), and what S.STATUS returns (R377). -/

namespace Sys2Proof.Proofs

open Sys2Proof.Machine Sys2Proof.Laws

/-! ## The rules of Q.*, where no check fails -/

section

variable {C : Config} {r : Fields} {s : State} {k : Controller} (hk : s.ctl[r.sel.toNat]? = some k)

include hk

/-- Q.SET_PARAMS with a tx_count below the ceiling (R330). -/
theorem ruleOf_qSetParams {v : Codec} (hwf : (Instr.qSetParams r).WellFormed)
    (hv : C.registry[k.codec.toNat]? = some v) (htx : (readParams r.payload 0).tx.toNat < ceilOf C v) :
    ruleOf C (.qSetParams r) s = .ok { state := s.setController r.sel { k with params := readParams r.payload 0 } } := by
  simp only [ruleOf, ruleSetParams, checkRequest_ok hwf, controllerAt_some hk, codecAt_some hv, ok_bind,
    require_ok .range htx]

/-- Q.GET_PARAMS (R331). -/
theorem ruleOf_qGetParams (hwf : (Instr.qGetParams r).WellFormed) :
    ruleOf C (.qGetParams r) s = .ok { state := s, out := writeParams k.params } := by
  simp only [ruleOf, ruleGetParams, checkRequest_ok hwf, controllerAt_some hk, ok_bind]

/-- Q.SET_CODEC of a registered codec (R339). -/
theorem ruleOf_qSetCodec {v : Codec} (hwf : (Instr.qSetCodec r).WellFormed)
    (hv : C.registry[(immByte r).toNat]? = some v) :
    ruleOf C (.qSetCodec r) s = .ok
      { state := s.setController r.sel
          { k with codec := immByte r, params := { k.params with tx := txMod k.params.tx (ceilOf C v) } } } := by
  simp only [ruleOf, ruleSetCodec, checkRequest_ok hwf, controllerAt_some hk, codecAt_some hv, ok_bind]

/-- Q.SET_MINTX of a value it accepts (R340). -/
theorem ruleOf_qSetMintx (hwf : (Instr.qSetMintx r).WellFormed)
    (hms : 100 ≤ (immHalf r).toNat ∧ (immHalf r).toNat ≤ 500) :
    ruleOf C (.qSetMintx r) s = .ok { state := s.setController r.sel { k with mintx := immHalf r } } := by
  simp only [ruleOf, ruleSetMintx, checkRequest_ok hwf, controllerAt_some hk, ok_bind, require_ok .range hms]

/-- Q.SET_SEQDUR (R341). -/
theorem ruleOf_qSetSeqdur (hwf : (Instr.qSetSeqdur r).WellFormed) :
    ruleOf C (.qSetSeqdur r) s = .ok { state := s.setController r.sel { k with seqdur := immHalf r } } := by
  simp only [ruleOf, ruleSetSeqdur, checkRequest_ok hwf, controllerAt_some hk, ok_bind]

/-- Q.DEQUEUE_FRONT with an entry queued (R336). -/
theorem ruleOf_qDequeueFront {e : QueueEntry} {rest : List QueueEntry} (hwf : (Instr.qDequeueFront r).WellFormed)
    (hq : k.queue = e :: rest) :
    ruleOf C (.qDequeueFront r) s = .ok { state := s.setController r.sel { k with queue := rest },
                                          out := kindCode e.kind :: writeWpList e.wps } := by
  simp only [ruleOf, ruleDequeueFront, checkRequest_ok hwf, controllerAt_some hk, hq, ok_bind]

/-- Q.DEQUEUE_FRONT where nothing is queued (R336). -/
theorem ruleOf_qDequeueFront_empty (hwf : (Instr.qDequeueFront r).WellFormed) (hq : k.queue = []) :
    ruleOf C (.qDequeueFront r) s = .error .empty := by
  simp only [ruleOf, ruleDequeueFront, checkRequest_ok hwf, controllerAt_some hk, hq, ok_bind]

/-- Q.STATUS (R342). -/
theorem ruleOf_qStatus (hwf : (Instr.qStatus r).WellFormed) :
    ruleOf C (.qStatus r) s = .ok { state := s, res := queueStatusRes k,
                                    out := le16 k.mintx ++ le16 k.seqdur ++ le32 k.activeToken } := by
  simp only [ruleOf, ruleQueueStatus, checkRequest_ok hwf, controllerAt_some hk, ok_bind]

variable {cmd : Command} {v : Codec} (hwf : (Instr.qEnqueue r).WellFormed) (hcmd : readCmd r.payload 0 = some cmd)
  (hv : C.registry[k.codec.toNat]? = some v)

include hwf hcmd hv

/-- Q.ENQUEUE of a supported Command, with room after the eviction (R332). -/
theorem ruleOf_qEnqueue {p : Params} {ws : List WireParam} {d : SeedSource}
    (hsupported : isSupported C v cmd k.params = true) (hroom : (evictKind cmd.kind k.queue).length < C.cqCap)
    (hencode : encodeCmd C v cmd k.params s.seeds = some (p, ws, d)) :
    ruleOf C (.qEnqueue r) s = .ok { state := { s.setController r.sel { k with
        params := p, queue := evictKind cmd.kind k.queue ++ [⟨cmd.kind, timed (onAirDuration k) ws⟩] } with
      seeds := d } } := by
  simp only [ruleOf, ruleEnqueue, checkRequest_ok hwf, hcmd, controllerAt_some hk, codecAt_some hv, orRaise_some,
    ok_bind, require_ok .unsupported hsupported, require_ok .range hroom, hencode]

/-- Q.ENQUEUE of an unsupported Command (R332). -/
theorem ruleOf_qEnqueue_unsupported (hunsupported : ¬ isSupported C v cmd k.params = true) :
    ruleOf C (.qEnqueue r) s = .error .unsupported := by
  simp only [ruleOf, ruleEnqueue, checkRequest_ok hwf, hcmd, controllerAt_some hk, codecAt_some hv, orRaise_some,
    ok_bind, require_error .unsupported hunsupported, error_bind]

end

/-! ## The registers -/

/-- A written controller reads back. -/
theorem setController_getElem? {s : State} {c : Byte} {k : Controller} (hk : s.ctl[c.toNat]? = some k)
    (k' : Controller) : (s.setController c k').ctl[c.toNat]? = some k' := by
  rw [setController_ctl, List.getElem?_set_self', hk]
  rfl

/-- Settles O40: the record reads as the params that were written into it, and the controller as it was written. -/
theorem setThenGetParams : Obligations.SetThenGetParams := by
  refine ⟨fun c p s k v hk hv htx => ?_, fun r s k hwf hk => ?_⟩
  · intro t
    have hwritten : t.ctl[c.toNat]? = some { k with params := p } := setController_getElem? hk _
    constructor <;> rw [exec_eq_execUnder]
    · have hwf : (Instr.qSetParams ⟨c, 8, 0, writeParams p⟩).WellFormed := by
        simp [wellFormed_iff, shapeOf, fieldsOf, payloadOk]
      have hread : readParams (writeParams p) 0 = p := by simpa using readParams_writeParams p [] []
      have hrule := ruleOf_qSetParams (C := Config.build) (r := ⟨c, 8, 0, writeParams p⟩) hk hwf hv (by rwa [hread])
      rw [hread] at hrule
      exact execUnder_of_ok hrule
    · have hwf : (Instr.qGetParams ⟨c, 0, 0, []⟩).WellFormed := by
        simp [wellFormed_iff, shapeOf, fieldsOf, payloadOk]
      exact execUnder_of_ok (ruleOf_qGetParams (r := ⟨c, 0, 0, []⟩) hwritten hwf)
  · rw [exec_eq_execUnder]
    exact execUnder_of_ok (ruleOf_qGetParams hk hwf)

/-- Settles O41: each rule writes its register of the one controller. -/
theorem setRegisterResults : Obligations.SetRegisterResults := by
  refine ⟨fun r s k v hwf hk hv => ?_, fun r s k hwf hk hge hle => ?_, fun r s k hwf hk => ?_⟩ <;>
    rw [exec_eq_execUnder]
  · exact execUnder_of_ok (ruleOf_qSetCodec hk hwf hv)
  · exact execUnder_of_ok (ruleOf_qSetMintx hk hwf ⟨hge, hle⟩)
  · exact execUnder_of_ok (ruleOf_qSetSeqdur hk hwf)

/-! ## Q.STATUS and S.STATUS -/

/-- `RES` of Q.STATUS as a number, while a byte holds the queue length (R342). -/
theorem queueStatusRes_eq {k : Controller} (hlen : k.queue.length < 256) : queueStatusRes k =
    BitVec.ofNat 32 (k.codec.toNat + k.queue.length * 2 ^ 8 + k.activeValid.toNat * 2 ^ 16) := by
  have hcodec := k.codec.isLt
  rw [queueStatusRes, ← BitVec.ofNat_toNat, bit32_eq, ofNat_or_shiftLeft hcodec, ofNat_or_shiftLeft (by omega)]

/-- `RES` of S.STATUS as a number (R377). -/
theorem schedStatusRes_eq (d : Scheduler) : schedStatusRes d =
    BitVec.ofNat 32 ((decide (d.mode = .broadcasting)).toNat + d.fifo.length * 2 ^ 16) := by
  have hmode := Bool.toNat_le (decide (d.mode = .broadcasting))
  rw [schedStatusRes, bit32_eq, ofNat_or_shiftLeft (by omega)]

/-- The token S.STATUS returns of the front entry; 0 without one (R377). -/
def frontToken : List Pending → U32
  | [] => 0
  | f :: _ => f.token

/-- The flags S.STATUS returns of the front entry, the sum of its bits; 0 without one (R377). -/
def frontFlags : List Pending → Byte
  | [] => 0
  | f :: _ => BitVec.ofNat 8 ((if f.processedOnce then 1 else 0) + if f.toBeRemoved then 2 else 0)

/-- The two flags in bits 0 and 1 are their sum (R377). -/
theorem flags_or_eq (once removed : Bool) :
    ((if once then 1 else 0) ||| (if removed then 2 else 0) : Byte) =
      BitVec.ofNat 8 ((if once then 1 else 0) + if removed then 2 else 0) := by
  cases once <;> cases removed <;> rfl

theorem schedStatusOut_eq (d : Scheduler) : schedStatusOut d = le32 d.curToken ++ le32 d.deadline ++
    le32 d.nextToken ++ le32 (frontToken d.fifo) ++ [frontFlags d.fifo] := by
  cases hf : d.fifo with
  | nil => simp only [schedStatusOut, hf, frontToken, frontFlags, List.append_assoc]
  | cons f rest => simp only [schedStatusOut, hf, frontToken, frontFlags, flags_or_eq, List.append_assoc]

theorem ruleOf_sStatus {C : Config} {r : Fields} (s : State) (hwf : (Instr.sStatus r).WellFormed) :
    ruleOf C (.sStatus r) s =
      .ok { state := s, res := schedStatusRes s.sched, out := schedStatusOut s.sched } := by
  simp only [ruleOf, ruleSchedStatus, checkRequest_ok hwf, ok_bind]

/-- Settles O42: the rules return the bit fields and the records of the registers, and leave the state they are given. -/
theorem statusReads : Obligations.StatusReads := by
  refine ⟨fun r s k hwf hk hlen => ?_, fun r s hwf _ =>
    ⟨frontToken s.sched.fifo, frontFlags s.sched.fifo, ?_, fun hf => ?_, fun f rest hf => ?_⟩⟩
  · have hvalid : k.activeValid.toNat * 2 ^ 16 = if k.activeValid then 65536 else 0 := by cases k.activeValid <;> rfl
    rw [exec_eq_execUnder, execUnder_of_ok (ruleOf_qStatus hk hwf), queueStatusRes_eq hlen, hvalid]
    rfl
  · have hmode : (decide (s.sched.mode = .broadcasting)).toNat = if s.sched.mode = .broadcasting then 1 else 0 := by
      split_ifs with h <;> simp [h]
    rw [exec_eq_execUnder, execUnder_of_ok (ruleOf_sStatus s hwf), schedStatusRes_eq, schedStatusOut_eq, hmode]
    rfl
  · rw [hf]
    exact ⟨rfl, rfl⟩
  · rw [hf]
    exact ⟨rfl, rfl⟩

/-! ## Q.ENQUEUE -/

/-- The kinds of which several entries may be queued (R333). -/
theorem coexists_iff (kind : Kind) : coexists kind = true ↔ kind = .custom ∨ kind = .fanOnOffSpeed := by
  simp [coexists]

/-- Eviction drops the queued entries of the same kind (R333). -/
theorem evictKind_eq (kind : Kind) (q : List QueueEntry) : evictKind kind q =
    if kind = .custom ∨ kind = .fanOnOffSpeed then q else q.filter fun e => decide (e.kind ≠ kind) := by
  simp only [evictKind, coexists_iff, bne, beq_eq_decide, decide_not]

/-- An encode that gives packets is of a supported Command (R164, R332). -/
theorem isSupported_of_encodeCmd {C : Config} (hC : C.Lawful) {v : Codec} {cmd : Command} {p p' : Params}
    {d d' : SeedSource} {ws : List WireParam} (h : encodeCmd C v cmd p d = some (p', ws, d')) :
    isSupported C v cmd p = true := by
  rw [isSupported_iff, Ne, ← encodeCmd_none_iff hC v cmd p d, h]
  exact Option.some_ne_none _

/-- Settles O43: an encode that gives packets is of a supported Command, so that the rule runs to its end; a Custom
Command evicts nothing. -/
theorem enqueueResult : Obligations.EnqueueResult := by
  refine ⟨fun C r s cmd k v p ws d hC hwf hcmd hk hv hencode => ?_,
    fun r s cmd k v p ws d hwf hcmd hkind hk hv hencode hroom => ?_, fun r s cmd k v hwf hcmd hk hv hnil => ?_⟩
  · rw [← evictKind_eq]
    intro kept dur hroom
    exact execUnder_of_ok (ruleOf_qEnqueue hk hwf hcmd hv (isSupported_of_encodeCmd hC hencode) hroom hencode)
  · have hkept : evictKind cmd.kind k.queue = k.queue := by rw [evictKind_eq, if_pos (.inl hkind)]
    have hrule := ruleOf_qEnqueue hk hwf hcmd hv (isSupported_of_encodeCmd Config.build_lawful hencode)
      (by rwa [hkept]) hencode
    rw [hkept, hkind] at hrule
    rw [exec_eq_execUnder]
    exact execUnder_of_ok hrule
  · rw [exec_eq_execUnder]
    exact execUnder_of_error (ruleOf_qEnqueue_unsupported hk hwf hcmd hv
      (mt (isSupported_iff _ v cmd k.params).mp (not_not.mpr hnil)))

/-! ## Q.DEQUEUE_FRONT and Q.PUMP -/

/-- Settles O44: the two outcomes of Q.DEQUEUE_FRONT, and that of Q.PUMP on an empty queue. -/
theorem dequeueFrontResult : Obligations.DequeueFrontResult := by
  refine ⟨fun r s k e rest hwf hk hq => ?_, fun r s k hk hq => ⟨fun hwf => ?_, fun hwf => ?_⟩⟩ <;>
    rw [exec_eq_execUnder]
  · exact execUnder_of_ok (ruleOf_qDequeueFront hk hwf hq)
  · exact execUnder_of_error (ruleOf_qDequeueFront_empty hk hwf hq)
  · exact execUnder_of_error (ruleOf_qPump_empty hwf hk hq)

/-- Settles O45: the pump of an entry that fits, with the marks of `supersede_eq` on the previous batch. -/
theorem pumpResult : Obligations.PumpResult := by
  intro r s k e rest hwf hk hq hroom
  rw [exec_eq_execUnder, execUnder_of_ok (ruleOf_qPump_fits hwf hk hq hroom), supersede_eq]
  rfl

end Sys2Proof.Proofs
end

section
/-! A Q.* request reads and writes its own controller, the scheduler and the seed source alone (R343). -/

namespace Sys2Proof.Proofs

open Sys2Proof.Machine Sys2Proof.Laws

/-- The states agree in what a Q.* request for controller `c` may read: that controller, the scheduler, the seeds. -/
structure SameView (c : Byte) (s s' : State) : Prop where
  ctl : s'.ctl[c.toNat]? = s.ctl[c.toNat]?
  sched : s'.sched = s.sched
  seeds : s'.seeds = s.seeds

/-- Reading the controller gives the same in both. -/
theorem SameView.controllerAt_eq {c : Byte} {s s' : State} (h : SameView c s s') :
    controllerAt s' c = controllerAt s c := by
  rw [controllerAt, controllerAt, h.ctl]

/-- Nothing is written but what a Q.* request for controller `c` may write: that controller, the scheduler, the seeds. -/
structure OwnWrites (c : Byte) (s t : State) : Prop extends SameBoundary s t where
  others : ∀ n, n ≠ c.toNat → t.ctl[n]? = s.ctl[n]?
  dedup : t.dedup = s.dedup
  events : t.events = s.events

theorem ownWrites_refl (c : Byte) (s : State) : OwnWrites c s s := ⟨sameBoundary_refl s, fun _ _ => rfl, rfl, rfl⟩

theorem ownWrites_view (c : Byte) (s : State) (k : Controller) (d : Scheduler) (seeds : SeedSource) :
    OwnWrites c s { s.setController c k with sched := d, seeds := seeds } :=
  ⟨⟨rfl, rfl, by simp⟩, fun n hn => by simp only [setController_ctl, List.getElem?_set_ne hn.symm], rfl, rfl⟩

/-- A rule's outcomes in `s` and in `s'` are alike for controller `c`: the same status raised, or the same reply, with
nothing written but the view, and that alike. -/
inductive Alike (c : Byte) (s s' : State) : Except Status Reply → Except Status Reply → Prop where
  | raised (st : Status) : Alike c s s' (.error st) (.error st)
  | replied {t t' : State} {st : Status} {res : U32} {out : List Byte} (own : OwnWrites c s t)
      (own' : OwnWrites c s' t') (view : SameView c t t') :
      Alike c s s' (.ok ⟨t, st, res, out⟩) (.ok ⟨t', st, res, out⟩)

section

variable {c : Byte} {s s' : State}

/-- A check that does not look at the state keeps what follows it alike. -/
theorem Alike.bind {α : Type} (x : Except Status α) {f f' : α → Except Status Reply}
    (h : ∀ a, Alike c s s' (f a) (f' a)) : Alike c s s' (x >>= f) (x >>= f') := by
  cases x with
  | error st => exact .raised st
  | ok a => exact h a

/-- Replies that write nothing are alike. -/
theorem Alike.unwritten (hview : SameView c s s') {st : Status} {res : U32} {out : List Byte} :
    Alike c s s' (.ok ⟨s, st, res, out⟩) (.ok ⟨s', st, res, out⟩) :=
  .replied (ownWrites_refl c s) (ownWrites_refl c s') hview

/-- Replies that write the same view are alike. -/
theorem Alike.written (hview : SameView c s s') (k : Controller) {d d' : Scheduler} (hd : d' = d)
    {seeds seeds' : SeedSource} (hseeds : seeds' = seeds) {st : Status} {res : U32} {out : List Byte} :
    Alike c s s' (.ok ⟨{ s.setController c k with sched := d, seeds := seeds }, st, res, out⟩)
      (.ok ⟨{ s'.setController c k with sched := d', seeds := seeds' }, st, res, out⟩) := by
  refine .replied (ownWrites_view c s k d seeds) (ownWrites_view c s' k d' seeds') ⟨?_, hd, hseeds⟩
  simp only [setController_ctl, List.getElem?_set_self', hview.ctl]

/-- The rule of a Q.* request does alike in states that agree in the view of its controller (R343): its checks read that
view alone, and it writes the view alone. -/
theorem ruleOf_alike (C : Config) {i : Instr} (hi : controllerOf i = some c) (hview : SameView c s s') :
    Alike c s s' (ruleOf C i s) (ruleOf C i s') := by
  cases i <;> cases hi
  case qSetParams r =>
    simp only [ruleOf, ruleSetParams, hview.controllerAt_eq]
    exact .bind _ fun _ => .bind _ fun _ => .bind _ fun _ => .bind _ fun _ =>
      .written hview _ hview.sched hview.seeds
  case qGetParams r =>
    simp only [ruleOf, ruleGetParams, hview.controllerAt_eq]
    exact .bind _ fun _ => .bind _ fun _ => .unwritten hview
  case qSetCodec r =>
    simp only [ruleOf, ruleSetCodec, hview.controllerAt_eq]
    exact .bind _ fun _ => .bind _ fun _ => .bind _ fun _ => .written hview _ hview.sched hview.seeds
  case qSetMintx r =>
    simp only [ruleOf, ruleSetMintx, hview.controllerAt_eq]
    exact .bind _ fun _ => .bind _ fun _ => .bind _ fun _ => .written hview _ hview.sched hview.seeds
  case qSetSeqdur r =>
    simp only [ruleOf, ruleSetSeqdur, hview.controllerAt_eq]
    exact .bind _ fun _ => .bind _ fun _ => .written hview _ hview.sched hview.seeds
  case qEnqueue r =>
    simp only [ruleOf, ruleEnqueue, hview.controllerAt_eq, hview.seeds]
    exact .bind _ fun _ => .bind _ fun _ => .bind _ fun _ => .bind _ fun _ => .bind _ fun _ => .bind _ fun _ =>
      .bind _ fun _ => .written hview _ hview.sched rfl
  case qDequeueFront r =>
    simp only [ruleOf, ruleDequeueFront, hview.controllerAt_eq]
    refine .bind _ fun _ => .bind _ fun k => ?_
    cases k.queue with
    | nil => exact .raised .empty
    | cons e rest => exact .written hview _ hview.sched hview.seeds
  case qPump r =>
    simp only [ruleOf, rulePump, hview.controllerAt_eq, hview.sched]
    refine .bind _ fun _ => .bind _ fun k => ?_
    cases k.queue with
    | nil => exact .raised .empty
    | cons e rest => exact .bind _ fun _ => .written hview _ rfl hview.seeds
  case qStatus r =>
    simp only [ruleOf, ruleQueueStatus, hview.controllerAt_eq]
    exact .bind _ fun _ => .bind _ fun _ => .unwritten hview

/-- After the response, too, nothing is written but the view. -/
theorem Alike.conclude_frame {x x' : Except Status Reply} (h : Alike c s s' x x') :
    (∀ n, n ≠ c.toNat → (conclude s x).ctl[n]? = s.ctl[n]?) ∧ (conclude s x).ctl.length = s.ctl.length ∧
    (conclude s x).dedup = s.dedup ∧ (conclude s x).events = s.events ∧ (conclude s x).port = s.port := by
  cases h with
  | raised st => exact ⟨fun _ _ => rfl, rfl, rfl, rfl, rfl⟩
  | replied own _ _ => exact ⟨own.others, own.ctl_length, own.dedup, own.events, own.port⟩

/-- After the response, too, the view is alike, and the response is the same. -/
theorem Alike.conclude_view {x x' : Except Status Reply} (h : Alike c s s' x x') (hview : SameView c s s') :
    SameView c (conclude s x) (conclude s' x') ∧
    ∃ rsp, (conclude s x).responses = s.responses ++ [rsp] ∧ (conclude s' x').responses = s'.responses ++ [rsp] := by
  cases h with
  | raised st => exact ⟨⟨hview.ctl, hview.sched, hview.seeds⟩, _, rfl, rfl⟩
  | @replied _ _ st res out own own' view =>
    exact ⟨⟨view.ctl, view.sched, view.seeds⟩, ⟨st, res, out⟩, by simp [own.responses], by simp [own'.responses]⟩

end

/-- Settles O46: a state is alike to itself, which gives what is left unchanged; and two states with one view are alike,
which gives the independence. -/
theorem controllersAreIndependent : Obligations.ControllersAreIndependent := by
  intro i c hi
  refine ⟨fun s t hexec => ?_, fun s s' t t' hctl hsched hseeds hexec hexec' => ?_⟩
  · rw [exec_eq_next] at hexec
    cases hexec
    exact (ruleOf_alike Config.build hi (⟨rfl, rfl, rfl⟩ : SameView c s s)).conclude_frame
  · rw [exec_eq_next] at hexec hexec'
    cases hexec
    cases hexec'
    have hview : SameView c s s' := ⟨hctl, hsched, hseeds⟩
    obtain ⟨hafter, hresponses⟩ := (ruleOf_alike Config.build hi hview).conclude_view hview
    exact ⟨hafter.ctl, hafter.sched, hafter.seeds, hresponses⟩

end Sys2Proof.Proofs
end

section
/-! What S.ADD_BATCH, S.REMOVE_BATCH and S.TICK do to the scheduler (R370 to R378). -/

namespace Sys2Proof.Proofs

open Sys2Proof.Machine Sys2Proof.Laws

/-! ## Batches -/

/-- S.ADD_BATCH of a batch that fits (R371). -/
theorem ruleOf_sAddBatch {C : Config} {r : Fields} {s : State} {ws : List WireParam}
    (hwf : (Instr.sAddBatch r).WellFormed) (hread : readWpList r.payload = some ws)
    (hroom : s.sched.fifo.length + ws.length ≤ C.fifoCap) :
    ruleOf C (.sAddBatch r) s =
      .ok { state := { s with sched := addBatch s.sched ws }, res := s.sched.nextToken } := by
  simp only [ruleOf, ruleAddBatch, checkRequest_ok hwf, hread, orRaise_some, ok_bind, require_ok .range hroom]

/-- Settles O48: with room for the batch the rule runs to its end, and `addBatch` is the append as written. -/
theorem addBatchResult : Obligations.AddBatchResult := by
  intro r s ws hwf hread hroom
  rw [exec_eq_execUnder]
  exact execUnder_of_ok (ruleOf_sAddBatch hwf hread hroom)

/-- S.REMOVE_BATCH (R372). -/
theorem ruleOf_sRemoveBatch {C : Config} {r : Fields} (s : State) (hwf : (Instr.sRemoveBatch r).WellFormed) :
    ruleOf C (.sRemoveBatch r) s = .ok { state := { s with sched := removeBatch s.sched r.imm } } := by
  simp only [ruleOf, ruleRemoveBatch, checkRequest_ok hwf, ok_bind]

/-- Marking an entry touches its removal flag alone (R372). -/
theorem markRemoved_eq (t : U32) (e : Pending) :
    markRemoved t e = { e with toBeRemoved := e.toBeRemoved || decide (e.token = t) } := by
  by_cases h : e.token = t <;> simp [markRemoved, h]

/-- Settles O49: the new FIFO is the old one with each entry marked by its own token, by `markRemoved_eq`. -/
theorem removeBatchResult : Obligations.RemoveBatchResult := by
  intro r s hwf
  refine ⟨s.sched.fifo.map (markRemoved r.imm), ?_, List.length_map _, fun n e he => ?_⟩
  · rw [exec_eq_execUnder]
    exact execUnder_of_ok (ruleOf_sRemoveBatch s hwf)
  · rw [List.getElem?_map, he, Option.map_some, markRemoved_eq]

/-! ## The tick of a scheduler, by what it finds -/

theorem finished_iff (e : Pending) : finished e = true ↔ e.processedOnce = true ∧ e.toBeRemoved = true := by
  simp [finished]

theorem finished_eq_false_iff (e : Pending) : finished e = false ↔ e.processedOnce = false ∨ e.toBeRemoved = false := by
  simp [finished, ← Bool.not_eq_true, imp_iff_not_or]

section

variable {now : U32} {d : Scheduler} {e : Pending} {rest : List Pending}

/-- In IDLE a FIFO of finished entries is emptied, and nothing starts (R375). -/
theorem tick_evicts_all (hm : d.mode = .idle) (hdone : ∀ f ∈ d.fifo, finished f = true) :
    tick now d = ({ d with fifo := [] }, []) := by
  simp only [tick, hm, tickIdle, List.dropWhile_eq_nil_iff.mpr hdone]

/-- In IDLE the first entry that is not finished is started, and those before it are evicted (R375, R376). -/
theorem tick_starts {done : List Pending} (hm : d.mode = .idle) (hf : d.fifo = done ++ e :: rest)
    (hdone : ∀ f ∈ done, finished f = true) (he : finished e = false) :
    tick now d = ({ d with fifo := { e with processedOnce := true } :: rest, mode := .broadcasting,
                           curToken := e.token, deadline := now + e.wp.duration.setWidth 32 }, [.start e.wp.data]) := by
  have hleft : d.fifo.dropWhile finished = e :: rest := by
    rw [hf, List.dropWhile_append_of_pos hdone, List.dropWhile_cons_of_neg (Bool.eq_false_iff.mp he)]
  simp only [tick, hm, tickIdle, hleft]

/-- In BROADCASTING, past the deadline and with traffic or a removal waiting, the front entry is stopped (R375). -/
theorem tick_stops (hm : d.mode = .broadcasting) (hf : d.fifo = e :: rest) (hpast : d.deadline.toNat < now.toNat)
    (hwaiting : rest ≠ [] ∨ e.toBeRemoved = true) :
    tick now d = ({ d with mode := .idle, fifo := if e.toBeRemoved then rest else rest ++ [e] }, [.stop]) := by
  simp only [tick, hm, tickBroadcasting, hf]
  exact if_pos ⟨BitVec.lt_def.mpr hpast, hwaiting⟩

/-- In BROADCASTING it goes on otherwise (R375, R379, R380). -/
theorem tick_waits (hm : d.mode = .broadcasting) (hf : d.fifo = e :: rest)
    (hwait : ¬ (d.deadline.toNat < now.toNat ∧ (rest ≠ [] ∨ e.toBeRemoved = true))) : tick now d = (d, []) := by
  simp only [tick, hm, tickBroadcasting, hf]
  exact if_neg hwait

end

/-! ## The request S.TICK -/

/-- S.TICK, by what the tick of the scheduler does (R375). -/
theorem exec_sTick {r : Fields} {s : State} (hwf : (Instr.sTick r).WellFormed) {d : Scheduler} {ev : List RadioEvent}
    (h : tick r.imm s.sched = (d, ev)) :
    exec (.sTick r) s = .next (State.answer { s with sched := d, events := s.events ++ ev } ⟨.ok, 0, []⟩) := by
  have hrule : ruleOf Config.build (.sTick r) s =
      .ok { state := { s with sched := d, events := s.events ++ ev } } := by
    simp only [ruleOf, ruleTick, checkRequest_ok hwf, ok_bind, h]
  rw [exec_eq_execUnder]
  exact execUnder_of_ok hrule

/-- S.TICK without an event. -/
theorem exec_sTick_quiet {r : Fields} {s : State} (hwf : (Instr.sTick r).WellFormed) {d : Scheduler}
    (h : tick r.imm s.sched = (d, [])) :
    exec (.sTick r) s = .next (State.answer { s with sched := d } ⟨.ok, 0, []⟩) := by
  simpa only [List.append_nil] using exec_sTick hwf h

/-- Settles O50: each branch is the request on one of the four ticks of a scheduler. -/
theorem tickResult : Obligations.TickResult := by
  refine ⟨fun r s done hwf hm hf hdone => ?_, fun r s done e rest hwf hm hf hdone he => ?_,
    fun r s e rest hwf hm hf => ⟨fun ⟨hpast, hwaiting⟩ => ?_, fun hwait => ?_⟩⟩
  · subst hf
    exact exec_sTick_quiet hwf (tick_evicts_all hm fun f hmem => (finished_iff f).mpr (hdone f hmem))
  · exact exec_sTick hwf (tick_starts hm hf (fun f hmem => (finished_iff f).mpr (hdone f hmem))
      ((finished_eq_false_iff e).mpr he))
  · exact exec_sTick hwf (tick_stops hm hf hpast hwaiting)
  · exact exec_sTick_quiet hwf (tick_waits hm hf hwait)

end Sys2Proof.Proofs
end

section
/-! What every request keeps of the radio (R374, R376, R383), and the events of every run from reset (R382). -/

namespace Sys2Proof.Proofs

open Sys2Proof.Machine Sys2Proof.Laws

/-! ## What is on air -/

/-- The same is on air: the mode, the current token and the deadline are kept, and the front of the FIFO with its packet,
its token and its processed_once flag. Its removal flag may be set (R372), and packets may follow it (R370). -/
structure SameOnAir (d d' : Scheduler) : Prop where
  mode : d'.mode = d.mode
  curToken : d'.curToken = d.curToken
  deadline : d'.deadline = d.deadline
  front : ∀ e rest, d.fifo = e :: rest → ∃ e' rest', d'.fifo = e' :: rest' ∧ e'.wp = e.wp ∧ e'.token = e.token ∧
    e'.processedOnce = e.processedOnce

theorem sameOnAir_refl (d : Scheduler) : SameOnAir d d :=
  ⟨rfl, rfl, rfl, fun e rest hf => ⟨e, rest, hf, rfl, rfl, rfl⟩⟩

/-- A batch goes behind what is there. -/
theorem SameOnAir.addBatch {d d' : Scheduler} (h : SameOnAir d d') (ws : List WireParam) :
    SameOnAir d (addBatch d' ws) := by
  refine ⟨h.mode, h.curToken, h.deadline, fun e rest hf => ?_⟩
  obtain ⟨e', rest', hf', hfront⟩ := h.front e rest hf
  exact ⟨e', rest' ++ ws.map (pendingOf d'.nextToken), by simp [hf'], hfront⟩

/-- A removal sets flags, in place. -/
theorem sameOnAir_removeBatch (d : Scheduler) (t : U32) : SameOnAir d (removeBatch d t) := by
  refine ⟨rfl, rfl, rfl, fun e rest hf => ⟨markRemoved t e, rest.map (markRemoved t), by simp [hf], ?_⟩⟩
  simp

theorem sameOnAir_supersede (k : Controller) (d : Scheduler) : SameOnAir d (supersede k d) := by
  rcases supersede_cases k d with ⟨_, h⟩ | ⟨_, h⟩ <;> rw [h]
  · exact sameOnAir_removeBatch d k.activeToken
  · exact sameOnAir_refl d

/-- The rule of a request other than S.TICK emits no event and leaves the same on air. -/
theorem ruleOf_sameOnAir {C : Config} {i : Instr} {s : State} {rep : Reply} (htick : isTick i = false)
    (h : ruleOf C i s = .ok rep) : rep.state.events = s.events ∧ SameOnAir s.sched rep.state.sched := by
  cases hreads : onlyReads i
  case true =>
    rw [rule_onlyReads hreads h]
    exact ⟨rfl, sameOnAir_refl _⟩
  case false =>
    rcases writing_cases i hreads with ⟨r, rfl⟩ | ⟨r, rfl⟩ | ⟨r, rfl⟩ | ⟨r, rfl⟩ | ⟨r, rfl⟩ | ⟨r, rfl⟩ | ⟨r, rfl⟩ |
      ⟨r, rfl⟩ | ⟨r, rfl⟩ | ⟨r, rfl⟩ | ⟨r, rfl⟩ | ⟨r, rfl⟩
    · rcases ruleEncode_ok h with ⟨_, hstate⟩ | ⟨_, d, hstate⟩ <;> rw [hstate] <;> exact ⟨rfl, sameOnAir_refl _⟩
    · obtain ⟨k, v, _, _, _, rfl⟩ := ruleSetParams_ok h
      exact ⟨rfl, sameOnAir_refl _⟩
    · obtain ⟨k, v, _, _, rfl⟩ := ruleSetCodec_ok h
      exact ⟨rfl, sameOnAir_refl _⟩
    · obtain ⟨k, _, _, _, rfl⟩ := ruleSetMintx_ok h
      exact ⟨rfl, sameOnAir_refl _⟩
    · obtain ⟨k, _, rfl⟩ := ruleSetSeqdur_ok h
      exact ⟨rfl, sameOnAir_refl _⟩
    · obtain ⟨cmd, k, v, p, ws, d, _, _, _, _, _, rfl⟩ := ruleEnqueue_ok h
      exact ⟨rfl, sameOnAir_refl _⟩
    · obtain ⟨k, e, rest, _, _, rfl⟩ := ruleDequeueFront_ok h
      exact ⟨rfl, sameOnAir_refl _⟩
    · obtain ⟨k, e, rest, _, _, _, rfl⟩ := rulePump_ok h
      exact ⟨rfl, (sameOnAir_supersede k s.sched).addBatch e.wps⟩
    · obtain ⟨ws, _, _, rfl⟩ := ruleAddBatch_ok h
      exact ⟨rfl, (sameOnAir_refl s.sched).addBatch ws⟩
    · obtain rfl := ruleRemoveBatch_ok h
      exact ⟨rfl, sameOnAir_removeBatch s.sched r.imm⟩
    · cases htick
    · obtain ⟨_, ⟨_, rfl⟩ | ⟨_, rfl⟩⟩ := ruleCapture_ok h
      · exact ⟨rfl, sameOnAir_refl _⟩
      · rw [identifyReply_state]
        exact ⟨rfl, sameOnAir_refl _⟩

/-- A tick emits at most one event (R374, R376). -/
theorem tick_events (now : U32) (d : Scheduler) :
    (tick now d).2 = [] ∨ (∃ b, (tick now d).2 = [.start b]) ∨ (tick now d).2 = [.stop] := by
  rcases tick_cases now d with ⟨_, _, h⟩ | ⟨_, e, _, _, _, _, _, h⟩ | ⟨_, _, _, _, _, _, h⟩ | ⟨_, _, h⟩ <;> rw [h]
  · exact .inl rfl
  · exact .inr (.inl ⟨e.wp.data, rfl⟩)
  · exact .inr (.inr rfl)
  · exact .inl rfl

theorem isTick_iff (i : Instr) : isTick i = true ↔ ∃ r, i = .sTick r := by
  cases i <;> simp [isTick]

/-- Settles O51: a raised status touches neither the scheduler nor the events, a rule other than the tick's leaves the
same on air, and the tick's adds the events of `tick_events`. -/
theorem onlyTickMovesTheRadio : Obligations.OnlyTickMovesTheRadio := by
  constructor
  · intro i s t htick hexec
    have hkept : t.events = s.events ∧ SameOnAir s.sched t.sched := by
      rcases exec_cases i s with ⟨st, h⟩ | ⟨rep, hrule, h⟩ <;> (rw [h] at hexec; cases hexec)
      · exact ⟨rfl, sameOnAir_refl _⟩
      · exact ruleOf_sameOnAir htick hrule
    obtain ⟨hevents, hmode, hcur, hdeadline, hfront⟩ := hkept
    exact ⟨hevents, hmode, hcur, hdeadline, hfront⟩
  · intro i s t htick hexec
    obtain ⟨r, rfl⟩ := (isTick_iff i).mp htick
    rcases exec_cases (.sTick r) s with ⟨st, h⟩ | ⟨rep, hrule, h⟩ <;> (rw [h] at hexec; cases hexec)
    · exact .inl rfl
    · obtain rfl := ruleTick_ok hrule
      rcases tick_events r.imm s.sched with hev | ⟨b, hev⟩ | hev
      · exact .inl (by simp [hev])
      · exact .inr (.inl ⟨b, by simp [hev]⟩)
      · exact .inr (.inr (by simp [hev]))

/-! ## Runs from reset -/

/-- The reset values are within their bounds in every lawful configuration: the controllers' by the laws of the
configuration (R23, R24, R302), the rest empty (R470). -/
theorem resetState_good {C : Config} (hC : C.Lawful) : Good C (resetState C) := by
  refine ⟨by simp [resetState], fun k hk => ?_, ⟨fun hm => (nomatch hm), Nat.zero_le _, fun e he => (nomatch he), ?_⟩,
    ⟨Nat.zero_le _, fun e he => (nomatch he)⟩, rfl, rfl⟩
  · obtain ⟨c, hc, rfl⟩ := List.mem_map.mp hk
    have hcodec := hC.codecReset_lt c (List.mem_range.mp hc)
    have htx := (ceilOf_bounds hC C.registry[(C.codecReset c).toNat]).1
    exact ⟨⟨_, List.getElem?_eq_getElem hcodec, htx⟩, hC.mintxReset_ge, hC.mintxReset_le, Nat.zero_le _,
      fun e he => (nomatch he)⟩
  · exact (by decide : (1 : U32) ≠ 0)

theorem after_keeps_good {s : State} (hs : Good Config.build s) (i : Instr) : Good Config.build (after i s) := by
  obtain ⟨t, _, hexec, _⟩ := everyRequestAnswersOnce i s
  rw [after_of_exec hexec]
  rw [exec_eq_execUnder] at hexec
  exact execUnder_keeps_good Config.build_lawful hs hexec

/-- A sequence of requests keeps a state good, so every state reached from reset is. -/
theorem afterAll_keeps_good (is : List Instr) : ∀ {s : State}, Good Config.build s →
    Good Config.build (afterAll is s) := by
  induction is with
  | nil => exact fun hs => hs
  | cons i is ih => exact fun hs => ih (after_keeps_good hs i)

/-- Settles O15: single flight is a part of the invariant that reset has and every request keeps. -/
theorem radioEventsAlternate : Obligations.RadioEventsAlternate :=
  fun is => (afterAll_keeps_good is (resetState_good Config.build_lawful)).radio

end Sys2Proof.Proofs
end

section
/-! How long a packet stays on air (R379, R380, R383), and the cycle of three packets (R384). -/

namespace Sys2Proof.Proofs

open Sys2Proof.Machine Sys2Proof.Laws

theorem tickOf_wellFormed (now : U32) : (tickOf now).WellFormed := by
  simpa [wellFormed_iff, tickOf, shapeOf, fieldsOf, payloadOk] using now.isLt

theorem removeBatchOf_wellFormed (t : U32) : (Instr.sRemoveBatch ⟨0, 0, t, []⟩).WellFormed := by
  simpa [wellFormed_iff, shapeOf, fieldsOf, payloadOk] using t.isLt

section

variable {s : State} {e : Pending} {rest : List Pending} {now : U32}

/-! ## The packet on air -/

/-- Where the packet on air goes on, the tick changes nothing (R379, R380). -/
theorem exec_tickOf_waits (hm : s.sched.mode = .broadcasting) (hf : s.sched.fifo = e :: rest)
    (hwait : ¬ (s.sched.deadline.toNat < now.toNat ∧ (rest ≠ [] ∨ e.toBeRemoved = true))) :
    exec (tickOf now) s = .next (s.answer ⟨.ok, 0, []⟩) :=
  exec_sTick_quiet (tickOf_wellFormed now) (tick_waits hm hf hwait)

/-- The front entry of an IDLE scheduler is put on air, unless it is to be removed (R375, R376). -/
theorem after_tickOf_starts (hm : s.sched.mode = .idle) (hf : s.sched.fifo = e :: rest) (he : e.toBeRemoved = false) :
    let s' := after (tickOf now) s
    s'.sched.mode = .broadcasting ∧ s'.sched.fifo = { e with processedOnce := true } :: rest ∧
      s'.sched.deadline = now + e.wp.duration.setWidth 32 ∧ s'.events = s.events ++ [.start e.wp.data] := by
  have hunfinished : finished e = false := (finished_eq_false_iff e).mpr (.inr he)
  rw [after_tickOf, tick_starts (done := []) hm hf (List.forall_mem_nil _) hunfinished]
  exact ⟨rfl, rfl, rfl, rfl⟩

/-- Past the deadline, with traffic or a removal waiting, it is taken off air (R375). -/
theorem after_tickOf_stops (hm : s.sched.mode = .broadcasting) (hf : s.sched.fifo = e :: rest)
    (hpast : s.sched.deadline.toNat < now.toNat) (hwaiting : rest ≠ [] ∨ e.toBeRemoved = true) :
    let s' := after (tickOf now) s
    s'.sched.mode = .idle ∧ s'.sched.fifo = (if e.toBeRemoved then rest else rest ++ [e]) ∧
      s'.events = s.events ++ [.stop] := by
  rw [after_tickOf, tick_stops hm hf hpast hwaiting]
  exact ⟨rfl, rfl, rfl⟩

/-- Removing the front's batch, where no other entry holds its token, marks the front and moves nothing (R372, R373). -/
theorem after_removeBatchOf_front (hf : s.sched.fifo = e :: rest) (hothers : ∀ f ∈ rest, f.token ≠ e.token) :
    let s' := after (.sRemoveBatch ⟨0, 0, e.token, []⟩) s
    s'.sched.mode = s.sched.mode ∧ s'.sched.fifo = { e with toBeRemoved := true } :: rest ∧
      s'.sched.deadline = s.sched.deadline ∧ s'.events = s.events := by
  have hrest : rest.map (markRemoved e.token) = rest :=
    (List.map_congr_left fun f hmem => if_neg (hothers f hmem)).trans (List.map_id rest)
  rw [after_of_rule (ruleOf_sRemoveBatch s (removeBatchOf_wellFormed e.token))]
  refine ⟨rfl, ?_, rfl, rfl⟩
  simp [hf, hrest, markRemoved_eq]

end

/-- Settles O52: before the deadline, or alone and not removed, the packet on air goes on; once marked, it is stopped and
evicted at the first tick past the deadline. -/
theorem packetStaysOnAir : Obligations.PacketStaysOnAir := by
  refine ⟨fun s now hm hne hbefore => ?_, fun s e now hm hf he => ?_, fun s e rest now hm hf hpast hothers => ?_⟩
  · obtain ⟨e, rest, hf⟩ := List.exists_cons_of_ne_nil hne
    exact exec_tickOf_waits hm hf fun ⟨hpast, _⟩ => absurd hbefore (Nat.not_le.mpr hpast)
  · exact exec_tickOf_waits hm hf fun ⟨_, hwaiting⟩ => by simp [he] at hwaiting
  · obtain ⟨hmode, hmarked, hdeadline, hquiet⟩ := after_removeBatchOf_front hf hothers
    obtain ⟨hidle, hevicted, hstop⟩ :=
      after_tickOf_stops (now := now) (hmode.trans hm) hmarked (by rwa [hdeadline]) (.inr rfl)
    exact ⟨hidle, hevicted, hstop.trans (by rw [hquiet])⟩

/-! ## The cycle -/

/-- Two ticks, the second past the deadline that the first sets, broadcast the front entry and send it to the back when
others wait (R379, R384). -/
theorem two_ticks_rotate {s : State} {e : Pending} {rest : List Pending} {t u : U32} (hm : s.sched.mode = .idle)
    (hf : s.sched.fifo = e :: rest) (he : e.toBeRemoved = false) (hrest : rest ≠ [])
    (hpast : (t + e.wp.duration.setWidth 32).toNat < u.toNat) :
    let s' := after (tickOf u) (after (tickOf t) s)
    s'.sched.mode = .idle ∧ s'.sched.fifo = rest ++ [{ e with processedOnce := true }] ∧
      s'.events = s.events ++ [.start e.wp.data, .stop] := by
  obtain ⟨honAir, hfront, hdeadline, hstart⟩ := after_tickOf_starts (now := t) hm hf he
  obtain ⟨hidle, hback, hstop⟩ := after_tickOf_stops honAir hfront (by rwa [hdeadline]) (.inl hrest)
  exact ⟨hidle, by rw [hback, if_neg (Bool.eq_false_iff.mp he)], by rw [hstop, hstart, List.append_assoc]; rfl⟩

/-- Settles O53: each pair of ticks broadcasts the front entry and sends it to the back, so that after three pairs the
FIFO is in its order again. -/
theorem threePacketsCycle : Obligations.ThreePacketsCycle := by
  intro s a b c t0 t1 t2 t3 t4 t5 hm hf ha hb hc hpasta hpastb hpastc
  obtain ⟨hma, hfa, heva⟩ := two_ticks_rotate hm hf ha (by simp) hpasta
  obtain ⟨hmb, hfb, hevb⟩ := two_ticks_rotate hma hfa hb (by simp) hpastb
  obtain ⟨hmc, hfc, hevc⟩ := two_ticks_rotate hmb hfb hc (by simp) hpastc
  refine ⟨?_, hmc, hfc⟩
  exact hevc.trans (by simp [hevb, heva])

end Sys2Proof.Proofs
end

section
/-! Which requests are ILLEGAL (R431): the operations outside the map, and the requests that break the encoding. -/

namespace Sys2Proof.Proofs

open Sys2Proof.Machine Sys2Proof.Laws

/-! ## The operation map -/

/-- The gaps of the operation map (R92): none of the codes of R82 lies in them. -/
theorem operationOf_eq_none {op : Byte} (h : op.toNat = 0x00 ∨ (0x0A ≤ op.toNat ∧ op.toNat ≤ 0x0F) ∨
    (0x15 ≤ op.toNat ∧ op.toNat ≤ 0x1F) ∨ (0x25 ≤ op.toNat ∧ op.toNat ≤ 0x2F) ∨
    (0x39 ≤ op.toNat ∧ op.toNat ≤ 0x3F) ∨ (0x44 ≤ op.toNat ∧ op.toNat ≤ 0x4F) ∨ 0x53 ≤ op.toNat) :
    operationOf op = none := by
  unfold operationOf
  split
  case h_36 => rfl
  all_goals omega

theorem decode_unmapped {q : Request} (h : operationOf (q.word.extractLsb' 0 8) = none) :
    decode q = .error (.illegalOp (q.word.extractLsb' 0 8)) := by
  simp only [decode, h]

/-! ## Records -/

theorem indexOk_iff (x : Byte) (n : Nat) : indexOk x n = true ↔ ¬ (x ≠ 0xFF ∧ n ≤ x.toNat) := by
  simp only [indexOk, Bool.or_eq_true, beq_iff_eq, decide_eq_true_eq, not_and, Nat.not_le, Decidable.or_iff_not_imp_left,
    ne_eq]

/-- A WP record reads exactly when it is not broken (R88). -/
theorem readWp_isSome_iff (b : List Byte) : (readWp b).isSome = true ↔ ¬ WpBroken b := by
  unfold readWp WpBroken
  simp only [indexOk_iff, Option.isSome_ite, not_or, Nat.not_lt]

/-- The kind of a CMD record is one of the 17 (R84, R86). -/
theorem readCmd_isSome_iff (b : List Byte) : (readCmd b 0).isSome = true ↔ ¬ 16 < (byteAt b 0).toNat := by
  have hlen : kindTable.length = 17 := rfl
  unfold readCmd
  cases hkind : kindOf (byteAt b 0) with
  | none =>
    have := List.getElem?_eq_none_iff.mp hkind
    simp; omega
  | some k => simpa using kindOf_some hkind

/-- One WP record and those after it (R89). -/
theorem readWps_succ_isSome_iff (n : Nat) (b : List Byte) : (readWps (n + 1) b).isSome = true ↔
    36 ≤ b.length ∧ (readWp b).isSome = true ∧ (readWps n (b.drop 36)).isSome = true := by
  rw [readWps]
  split_ifs with hshort
  · simp [Nat.not_le.mpr hshort]
  · cases readWp b <;> cases readWps n (b.drop 36) <;> simp [Nat.not_lt.mp hshort]

/-- WP records fill a string exactly when it has their length and none of them is broken (R89). -/
theorem readWps_isSome_iff (n : Nat) : ∀ b : List Byte, (readWps n b).isSome = true ↔
    b.length = 36 * n ∧ ∀ k, k < n → ¬ WpBroken (b.drop (36 * k)) := by
  induction n with
  | zero => intro b; simp [readWps]
  | succ n ih =>
    intro b
    have hlen : (36 ≤ b.length ∧ b.length - 36 = 36 * n) ↔ b.length = 36 * (n + 1) := by omega
    have hdrop : ∀ k, 36 + 36 * k = 36 * (k + 1) := fun k => by omega
    rw [readWps_succ_isSome_iff, readWp_isSome_iff, ih, Nat.forall_lt_succ_left, ← hlen]
    simp only [List.length_drop, List.drop_drop, hdrop, Nat.mul_zero, List.drop_zero]
    tauto

/-- A WP list reads exactly when its length is that of the records its first byte counts, and none is broken (R89). -/
theorem readWpList_isSome_iff (b : List Byte) : (readWpList b).isSome = true ↔
    b.length = 1 + 36 * (byteAt b 0).toNat ∧ ∀ k, k < (byteAt b 0).toNat → ¬ WpBroken (b.drop (1 + 36 * k)) := by
  cases b with
  | nil => simp [readWpList, byteAt]
  | cons n b =>
    rw [readWpList, readWps_isSome_iff, byteAt_cons_zero, List.length_cons, Nat.add_comm 1, Nat.add_right_cancel_iff]
    simp only [Nat.add_comm 1, List.drop_succ_cons]

/-! ## Payloads, by their form -/

/-- The lengths that a form of payload refuses. -/
def BadLength : PayloadForm → List Byte → Prop
  | .bytes lo hi, b => b.length < lo ∨ hi < b.length
  | .cmd, b | .params, b => b.length ≠ 8
  | .cmdParams, b => b.length ≠ 16
  | .wp, b => b.length ≠ 36
  | .wpList, b => b.length ≠ 1 + 36 * (byteAt b 0).toNat

/-- The records that a form of payload refuses. -/
def BadRecord : PayloadForm → List Byte → Prop
  | .bytes _ _, _ | .params, _ => False
  | .cmd, b | .cmdParams, b => 16 < (byteAt b 0).toNat
  | .wp, b => WpBroken b
  | .wpList, b => ∃ k, k < (byteAt b 0).toNat ∧ WpBroken (b.drop (1 + 36 * k))

/-- Check 3 of R83 for each form of payload. -/
theorem payloadOk_iff (f : PayloadForm) (b : List Byte) :
    payloadOk f b = true ↔ ¬ (BadLength f b ∨ BadRecord f b) := by
  cases f <;> simp [payloadOk, BadLength, BadRecord, readCmd_isSome_iff, readWp_isSome_iff, readWpList_isSome_iff]

/-! ## The tables of R82 -/

/-- The must-be-zero fields of the table are those of the operation's shape (R82). -/
theorem fieldBroken_iff (i : Instr) (r : Fields) : FieldBroken (opcodeOf i).toNat r ↔
    ¬ (((shapeOf i).selZero = true → r.sel = 0) ∧ r.imm.toNat < 2 ^ (shapeOf i).immBits ∧
      r.len.toNat = r.payload.length) := by
  have hsel : (opcodeOf i).toNat ∈ selZeroOps ↔ (shapeOf i).selZero = true := by
    cases i <;> simp [opcodeOf, shapeOf, selZeroOps]
  have himm : immBitsUsed (opcodeOf i).toNat = (shapeOf i).immBits := by cases i <;> rfl
  rw [FieldBroken, hsel, himm]
  simp only [not_and_or, Classical.not_imp, Nat.not_lt, ne_eq]

/-- The lengths of the table are those of the operation's form of payload (R82). -/
theorem lengthBroken_iff (i : Instr) (b : List Byte) :
    LengthBroken (opcodeOf i).toNat b ↔ BadLength (shapeOf i).payload b := by
  cases i <;> simp [LengthBroken, opcodeOf, shapeOf, BadLength, List.length_pos_iff]

/-- So are the records (R82). -/
theorem recordBroken_iff (i : Instr) (b : List Byte) :
    RecordBroken (opcodeOf i).toNat b ↔ BadRecord (shapeOf i).payload b := by
  cases i <;> simp [RecordBroken, opcodeOf, shapeOf, BadRecord]

/-- The causes of ILLEGAL are what checks 2 and 3 of R83 refuse (R431). -/
theorem breaksEncoding_iff (i : Instr) : BreaksEncoding i ↔ ¬ i.WellFormed := by
  rw [BreaksEncoding, fieldBroken_iff, lengthBroken_iff, recordBroken_iff, wellFormed_iff, payloadOk_iff]
  tauto

/-! ## The answer -/

/-- Checks 2 and 3 come first in every rule (R83). -/
theorem ruleOf_illFormed {C : Config} {i : Instr} (s : State) (h : ¬ i.WellFormed) :
    ruleOf C i s = .error .illegal := by
  have hcheck := checkRequest_error h
  cases i <;> exact congrArg (· >>= _) hcheck

/-- Settles O7: an operation in a gap of the map does not decode, and a request that breaks the encoding fails the check
with which its rule begins. -/
theorem malformedRequestsAnswerIllegal : Obligations.MalformedRequestsAnswerIllegal := by
  refine ⟨fun s q rest hport hop => ?_, fun i s hbroken => ?_, fun i hwhole => ?_⟩
  · exact step_of_decode_error hport (decode_unmapped (operationOf_eq_none hop))
  · rw [exec_eq_execUnder]
    exact execUnder_of_error (ruleOf_illFormed s ((breaksEncoding_iff i).mp hbroken))
  · exact not_not.mp (mt (breaksEncoding_iff i).mpr hwhole)

end Sys2Proof.Proofs
end

section
/-! Requests outside the configured range (R432), and what a failed request leaves (R434). -/

namespace Sys2Proof.Proofs

open Sys2Proof.Machine Sys2Proof.Laws

/-- The payload of a well-formed request passes check 3 of R83. -/
theorem payloadOk_of_wellFormed {i : Instr} (hwf : i.WellFormed) :
    payloadOk (shapeOf i).payload (fieldsOf i).payload = true := ((wellFormed_iff i).mp hwf).2

/-! ## The causes of RANGE -/

/-- Every Q.* request reads its controller before anything can fail but the encoding (R432, R435). -/
theorem ruleOf_no_controller {C : Config} {i : Instr} {s : State} {c : Byte} (hwf : i.WellFormed)
    (hi : controllerOf i = some c) (hc : s.ctl.length ≤ c.toNat) : ruleOf C i s = .error .range := by
  have hnone := controllerAt_none hc
  cases i <;> cases hi
  case qEnqueue r =>
    obtain ⟨_, cmd, hcmd⟩ := payloadOk_cmd (b := r.payload) (payloadOk_of_wellFormed hwf)
    simp only [ruleOf, ruleEnqueue, checkRequest_ok hwf, hcmd, orRaise_some, hnone, ok_bind, error_bind]
  all_goals
    simp only [ruleOf, ruleSetParams, ruleGetParams, ruleSetCodec, ruleSetMintx, ruleSetSeqdur, ruleDequeueFront,
      rulePump, ruleQueueStatus, checkRequest_ok hwf, hnone, ok_bind, error_bind]

/-- Every K.* request and G.DESCRIBE reads its codec before anything can fail but the encoding (R432, R435). -/
theorem ruleOf_no_codec {C : Config} {i : Instr} {v : Byte} (s : State) (hwf : i.WellFormed) (hi : codecOf i = some v)
    (hv : C.registry.length ≤ v.toNat) : ruleOf C i s = .error .range := by
  have hnone := codecAt_none hv
  cases i <;> cases hi
  case kIdentifier r => simp only [ruleOf, ruleIdentifier, checkRequest_ok hwf, hnone, ok_bind, error_bind]
  case gDescribe r => simp only [ruleOf, ruleDescribe, checkRequest_ok hwf, hnone, ok_bind, error_bind]
  case kDecode r =>
    obtain ⟨_, w, hw⟩ := payloadOk_wp (b := r.payload) (payloadOk_of_wellFormed hwf)
    simp only [ruleOf, ruleDecode, checkRequest_ok hwf, hw, orRaise_some, hnone, ok_bind, error_bind]
  case kIsSupported r =>
    obtain ⟨_, cmd, hcmd⟩ := payloadOk_cmd (b := r.payload) (payloadOk_of_wellFormed hwf)
    simp only [ruleOf, ruleIsSupported, checkRequest_ok hwf, hcmd, orRaise_some, hnone, ok_bind, error_bind]
  case kTranslate r =>
    obtain ⟨_, cmd, hcmd⟩ := payloadOk_cmdParams (b := r.payload) (payloadOk_of_wellFormed hwf)
    simp only [ruleOf, ruleTranslate, checkRequest_ok hwf, hcmd, orRaise_some, hnone, ok_bind, error_bind]
  case kEncode r =>
    obtain ⟨_, cmd, hcmd⟩ := payloadOk_cmdParams (b := r.payload) (payloadOk_of_wellFormed hwf)
    simp only [ruleOf, ruleEncode, checkRequest_ok hwf, hcmd, orRaise_some, hnone, ok_bind, error_bind]

/-- Reading a controller raises RANGE or gives one of the state's. -/
theorem controllerAt_cases (s : State) (c : Byte) :
    controllerAt s c = .error .range ∨ ∃ k, controllerAt s c = .ok k := by
  rw [controllerAt]
  cases s.ctl[c.toNat]? <;> simp

/-- Q.SET_CODEC of a codec that is not registered, whether or not the controller exists (R339, R432). -/
theorem ruleOf_qSetCodec_range {C : Config} {r : Fields} (s : State) (hwf : (Instr.qSetCodec r).WellFormed)
    (hv : C.registry.length ≤ (immByte r).toNat) : ruleOf C (.qSetCodec r) s = .error .range := by
  rcases controllerAt_cases s r.sel with hk | ⟨k, hk⟩ <;>
    simp only [ruleOf, ruleSetCodec, checkRequest_ok hwf, hk, codecAt_none hv, ok_bind, error_bind]

/-- Q.SET_MINTX of a value it refuses, whether or not the controller exists (R340, R432). -/
theorem ruleOf_qSetMintx_range {C : Config} {r : Fields} (s : State) (hwf : (Instr.qSetMintx r).WellFormed)
    (hms : (immHalf r).toNat < 100 ∨ 500 < (immHalf r).toNat) : ruleOf C (.qSetMintx r) s = .error .range := by
  have hrefused : ¬ (100 ≤ (immHalf r).toNat ∧ (immHalf r).toNat ≤ 500) := by omega
  rcases controllerAt_cases s r.sel with hk | ⟨k, hk⟩ <;>
    simp only [ruleOf, ruleSetMintx, checkRequest_ok hwf, hk, require_error .range hrefused, ok_bind, error_bind]

section

variable {C : Config} {r : Fields} {s : State} {k : Controller} {v : Codec} (hk : s.ctl[r.sel.toNat]? = some k)
  (hv : C.registry[k.codec.toNat]? = some v)

include hk hv

/-- Q.SET_PARAMS with a tx_count at or above the ceiling (R330, R432). -/
theorem ruleOf_qSetParams_range (hwf : (Instr.qSetParams r).WellFormed)
    (htx : ceilOf C v ≤ (readParams r.payload 0).tx.toNat) : ruleOf C (.qSetParams r) s = .error .range := by
  simp only [ruleOf, ruleSetParams, checkRequest_ok hwf, controllerAt_some hk, codecAt_some hv, ok_bind,
    require_error .range (Nat.not_lt.mpr htx), error_bind]

/-- Q.ENQUEUE of a supported Command into a queue that the eviction leaves full (R332, R432). -/
theorem ruleOf_qEnqueue_full {cmd : Command} (hwf : (Instr.qEnqueue r).WellFormed)
    (hcmd : readCmd r.payload 0 = some cmd) (hsupported : isSupported C v cmd k.params = true)
    (hfull : C.cqCap ≤ (evictKind cmd.kind k.queue).length) : ruleOf C (.qEnqueue r) s = .error .range := by
  simp only [ruleOf, ruleEnqueue, checkRequest_ok hwf, hcmd, controllerAt_some hk, codecAt_some hv, orRaise_some,
    ok_bind, require_ok .unsupported hsupported, require_error .range (Nat.not_lt.mpr hfull), error_bind]

end

/-- S.ADD_BATCH of a batch the FIFO has no room for (R371, R432). -/
theorem ruleOf_sAddBatch_full {C : Config} {r : Fields} {s : State} {ws : List WireParam}
    (hwf : (Instr.sAddBatch r).WellFormed) (hread : readWpList r.payload = some ws)
    (hfull : C.fifoCap < s.sched.fifo.length + ws.length) : ruleOf C (.sAddBatch r) s = .error .range := by
  simp only [ruleOf, ruleAddBatch, checkRequest_ok hwf, hread, orRaise_some, ok_bind,
    require_error .range (Nat.not_le.mpr hfull), error_bind]

/-- Settles O8: each cause ends its rule with RANGE, and an ended rule writes the response alone. -/
theorem outOfRangeRequestsAnswerRange : Obligations.OutOfRangeRequestsAnswerRange := by
  refine fun C => ⟨fun i s c hwf hi hc => ?_, fun i s v hwf hi hv => ?_, fun r s hwf hv => ?_,
    fun r s k v hwf hk hv htx => ?_, fun r s hwf hms => ?_, fun r s k v cmd hwf hcmd hk hv hne hfull => ?_,
    fun r s k e rest hwf hk hq hfull => ?_, fun r s ws hwf hread hfull => ?_⟩ <;> apply execUnder_of_error
  · exact ruleOf_no_controller hwf hi hc
  · exact ruleOf_no_codec s hwf hi hv
  · exact ruleOf_qSetCodec_range s hwf hv
  · exact ruleOf_qSetParams_range hk hv hwf htx
  · exact ruleOf_qSetMintx_range s hwf hms
  · exact ruleOf_qEnqueue_full hk hv hwf hcmd ((isSupported_iff C v cmd k.params).mpr hne) hfull
  · exact ruleOf_qPump_full hwf hk hq hfull
  · exact ruleOf_sAddBatch_full hwf hread hfull

/-! ## What a failed request leaves -/

/-- A reply of a request other than X.CAPTURE whose status is not OK leaves the state as it was (R434): only requests
that read, and an unsupported K.ENCODE, reply such a status. -/
theorem ruleOf_failed {C : Config} {i : Instr} {s : State} {rep : Reply} (hi : isCapture i = false)
    (h : ruleOf C i s = .ok rep) (hfailed : rep.status ≠ .ok) : rep.state = s := by
  cases hreads : onlyReads i
  case true => exact rule_onlyReads hreads h
  case false =>
    rcases writing_cases i hreads with ⟨r, rfl⟩ | ⟨r, rfl⟩ | ⟨r, rfl⟩ | ⟨r, rfl⟩ | ⟨r, rfl⟩ | ⟨r, rfl⟩ | ⟨r, rfl⟩ |
      ⟨r, rfl⟩ | ⟨r, rfl⟩ | ⟨r, rfl⟩ | ⟨r, rfl⟩ | ⟨r, rfl⟩
    · rcases ruleEncode_ok h with ⟨_, hstate⟩ | ⟨hok, _⟩
      · exact hstate
      · exact absurd hok hfailed
    · obtain ⟨_, _, _, _, _, rfl⟩ := ruleSetParams_ok h
      exact absurd rfl hfailed
    · obtain ⟨_, _, _, _, rfl⟩ := ruleSetCodec_ok h
      exact absurd rfl hfailed
    · obtain ⟨_, _, _, _, rfl⟩ := ruleSetMintx_ok h
      exact absurd rfl hfailed
    · obtain ⟨_, _, rfl⟩ := ruleSetSeqdur_ok h
      exact absurd rfl hfailed
    · obtain ⟨_, _, _, _, _, _, _, _, _, _, _, rfl⟩ := ruleEnqueue_ok h
      exact absurd rfl hfailed
    · obtain ⟨_, _, _, _, _, rfl⟩ := ruleDequeueFront_ok h
      exact absurd rfl hfailed
    · obtain ⟨_, _, _, _, _, _, rfl⟩ := rulePump_ok h
      exact absurd rfl hfailed
    · obtain ⟨_, _, _, rfl⟩ := ruleAddBatch_ok h
      exact absurd rfl hfailed
    · obtain rfl := ruleRemoveBatch_ok h
      exact absurd rfl hfailed
    · obtain rfl := ruleTick_ok h
      exact absurd rfl hfailed
    · exact absurd hi (by simp [isCapture])

/-- X.CAPTURE writes the dedup list alone, whatever it answers (R405, R406). -/
theorem ruleCapture_state {C : Config} {r : Fields} {s : State} {rep : Reply} (h : ruleCapture C r s = .ok rep) :
    rep.state = { s with dedup := rep.state.dedup } := by
  obtain ⟨_, ⟨_, rfl⟩ | ⟨_, rfl⟩⟩ := ruleCapture_ok h
  · rfl
  · rw [identifyReply_state]

theorem isCapture_iff (i : Instr) : isCapture i = true ↔ ∃ r, i = .xCapture r := by
  cases i <;> simp [isCapture]

/-- Settles O10: a raised status is answered in the state before the request; a reply with a status other than OK comes
from that state, and one of X.CAPTURE from a state that differs in the dedup list alone. -/
theorem failedRequestsWriteNothing : Obligations.FailedRequestsWriteNothing := by
  intro i s
  rcases exec_cases i s with ⟨st, h⟩ | ⟨rep, hrule, h⟩
  · exact ⟨_, _, h, rfl, fun _ _ => rfl, fun _ => rfl⟩
  · obtain ⟨hresponses, _, _⟩ := ruleOf_sameBoundary hrule
    refine ⟨_, _, h, by rw [answer_responses, hresponses], fun hi hfailed => ?_, fun hi => ?_⟩
    · rw [ruleOf_failed hi hrule hfailed]
    · obtain ⟨r, rfl⟩ := (isCapture_iff i).mp hi
      exact congrArg (State.answer · _) (ruleCapture_state hrule)

end Sys2Proof.Proofs
end

section
/-! Reset leaves a good state (R33, R475). -/

namespace Sys2Proof.Proofs

open Sys2Proof.Machine

/-- Settles O13: the reset state of every lawful configuration is good, and the build's is lawful. -/
theorem resetIsGood : Obligations.ResetIsGood := resetState_good Config.build_lawful

end Sys2Proof.Proofs
end

section
/-! The walk of R401 over any byte string: its offsets stand in order, and it notes the first element of each type. -/

namespace Sys2Proof.Proofs

open Sys2Proof.Machine Sys2Proof.Laws

/-! ## The offsets of the walk -/

/-- Where the walk comes to an offset, a whole element stands at every offset it came to before, and reaches no further:
so no offset of the walk lies within an element. -/
theorem visited_element_before {raw : List Byte} {j : Nat} :
    ∀ {i : Nat}, Visited raw i → Visited raw j → i < j → ElementAt raw i ∧ i + 1 + (byteAt raw i).toNat ≤ j := by
  induction j using Nat.strong_induction_on with
  | _ j ih =>
    intro i hi hj hij
    cases hj with
    | start => omega
    | @next p hp helement =>
      rcases Nat.lt_trichotomy i p with hlt | rfl | hgt
      · obtain ⟨hfirst, hle⟩ := ih p (by omega) hi hp hlt
        exact ⟨hfirst, by omega⟩
      · exact ⟨helement, Nat.le_refl _⟩
      · have hle := (ih i hij hp hi hgt).2
        omega

/-! ## The first element of a type -/

/-- The first element with a type in `types` that the walk meets stands at offset `x`. -/
def FirstAt (raw : List Byte) (types : Byte → Prop) (x : Byte) : Prop :=
  x ≠ 0xFF ∧ Meets raw types x.toNat ∧ ∀ k, k < x.toNat → ¬ Meets raw types k

/-- What the walk holds of a type when it has come to offset `i`: 0xFF where it met none so far. -/
def NotedBefore (raw : List Byte) (types : Byte → Prop) (i : Nat) (x : Byte) : Prop :=
  (x = 0xFF ∧ ∀ k, k < i → ¬ Meets raw types k) ∨ FirstAt raw types x

/-- What the walk holds of a type when it has ended: 0xFF where it met none at all. -/
def Noted (raw : List Byte) (types : Byte → Prop) (x : Byte) : Prop :=
  (x = 0xFF ∧ ∀ k, ¬ Meets raw types k) ∨ FirstAt raw types x

theorem notedBefore_start (raw : List Byte) (types : Byte → Prop) : NotedBefore raw types 0 0xFF :=
  .inl ⟨rfl, fun _ hk => absurd hk (Nat.not_lt_zero _)⟩

/-- The element at the offset the walk has come to is noted exactly when it is the first of its type. -/
theorem notedBefore_next {raw : List Byte} {types : Byte → Prop} {i : Nat} {x : Byte} {c : Prop} [Decidable c]
    (hraw : raw.length ≤ 31) (hi : Visited raw i) (he : ElementAt raw i) (hc : c ↔ types (byteAt raw (i + 1)))
    (h : NotedBefore raw types i x) :
    NotedBefore raw types (i + 1 + (byteAt raw i).toNat) (if c ∧ x = 0xFF then BitVec.ofNat 8 i else x) := by
  have hoffset : (BitVec.ofNat 8 i).toNat = i := by
    have := he.1
    rw [BitVec.toNat_ofNat, Nat.mod_eq_of_lt (by omega)]
  rcases h with ⟨rfl, hnone⟩ | hfound
  · by_cases hmeets : c
    · rw [if_pos ⟨hmeets, rfl⟩]
      refine .inr ⟨fun habsent => ?_, ?_, ?_⟩
      · have := he.1
        rw [habsent] at hoffset
        exact absurd hoffset (by simp; omega)
      · rw [hoffset]
        exact ⟨hi, he, hc.mp hmeets⟩
      · rwa [hoffset]
    · rw [if_neg fun hboth => hmeets hboth.1]
      refine .inl ⟨rfl, fun k hk hmeetsk => ?_⟩
      rcases Nat.lt_trichotomy k i with hlt | rfl | hgt
      · exact hnone k hlt hmeetsk
      · exact hmeets (hc.mpr hmeetsk.2.2)
      · exact absurd (visited_element_before hi hmeetsk.1 hgt).2 (by omega)
  · rw [if_neg fun hboth => hfound.1 hboth.2]
    exact .inr hfound

/-- Where no whole element stands the walk ends, so that what it noted before is all there is to note. -/
theorem noted_of_end {raw : List Byte} {types : Byte → Prop} {i : Nat} {x : Byte} (hi : Visited raw i)
    (hend : ¬ ElementAt raw i) (h : NotedBefore raw types i x) : Noted raw types x := by
  rcases h with ⟨habsent, hnone⟩ | hfound
  · refine .inl ⟨habsent, fun k hmeets => ?_⟩
    rcases Nat.lt_trichotomy k i with hlt | rfl | hgt
    · exact hnone k hlt hmeets
    · exact hend hmeets.2.1
    · exact hend (visited_element_before hi hmeets.1 hgt).1
  · exact .inr hfound

/-- The offset noted is that of the first element met, and 0xFF is noted exactly where none is met (R401). -/
theorem firstMet_of_noted {raw : List Byte} {types : Byte → Prop} {x : Byte} (h : Noted raw types x) :
    FirstMet raw types x ∧ (x = 0xFF → ∀ i, ¬ Meets raw types i) := by
  rcases h with ⟨habsent, hnone⟩ | ⟨hpresent, hfound, hbefore⟩
  · exact ⟨⟨fun i hmeets _ => absurd hmeets (hnone i), fun _ => habsent⟩, fun _ => hnone⟩
  · refine ⟨⟨fun i hmeets hfirst => ?_, fun hnone => absurd hfound (hnone _)⟩, fun habsent => absurd habsent hpresent⟩
    rcases Nat.lt_trichotomy x.toNat i with hlt | heq | hgt
    · exact absurd hfound (hfirst _ hlt)
    · exact heq
    · exact absurd hmeets (hbefore i hgt)

/-- An index that was noted is well-formed (R88). -/
theorem indexOk_of_noted {raw : List Byte} {types : Byte → Prop} {x : Byte} (h : Noted raw types x) :
    indexOk x raw.length = true := by
  rcases h with ⟨rfl, _⟩ | ⟨_, ⟨_, helement, _⟩, _⟩
  · rfl
  · simp [indexOk, helement.1]

/-! ## SCAN -/

/-- The AD types of R400. -/
abbrev IsDataType (C : Config) (t : Byte) : Prop := ∃ v ∈ C.registry, v.ad.adType = t

/-- Where no whole element stands the loop of SCAN ends (R401). -/
theorem scanFrom_stop (C : Config) {raw : List Byte} {i : Nat} (fuel : Nat) (fi di : Byte) (h : ¬ ElementAt raw i) :
    scanFrom C raw fuel i fi di = (fi, di) := by
  by_cases hend : raw.length ≤ i
  · exact scanFrom_end C fuel fi di hend
  · cases fuel with
    | zero => rfl
    | succ fuel =>
      have hbroken : (byteAt raw i).toNat = 0 ∨ raw.length < i + 1 + (byteAt raw i).toNat := by
        by_contra hwhole
        rw [not_or, Nat.not_lt] at hwhole
        exact h ⟨Nat.not_le.mp hend, fun hzero => hwhole.1 (by rw [hzero]; rfl), hwhole.2⟩
      rw [scanFrom, if_neg hend]
      exact if_pos hbroken

/-- The loop of SCAN, from any offset of the walk with the indices of the elements before it, ends with the indices of
all elements: every whole element takes at least one byte, so the fuel lasts to the end of the string (R401). -/
theorem scanFrom_noted (C : Config) {raw : List Byte} (hraw : raw.length ≤ 31) (fuel : Nat) :
    ∀ {i : Nat} {fi di : Byte}, raw.length ≤ i + fuel → Visited raw i → NotedBefore raw (fun t => t = 0x01) i fi →
      NotedBefore raw (IsDataType C) i di →
      Noted raw (fun t => t = 0x01) (scanFrom C raw fuel i fi di).1 ∧
        Noted raw (IsDataType C) (scanFrom C raw fuel i fi di).2 := by
  induction fuel with
  | zero =>
    intro i fi di hfuel hi hflags hdata
    have hend : ¬ ElementAt raw i := fun helement => absurd helement.1 (by omega)
    exact ⟨noted_of_end hi hend hflags, noted_of_end hi hend hdata⟩
  | succ fuel ih =>
    intro i fi di hfuel hi hflags hdata
    by_cases helement : ElementAt raw i
    · have ⟨_, hlength, hwhole⟩ := helement
      have hpos : (byteAt raw i).toNat ≠ 0 := fun hzero => hlength (BitVec.eq_of_toNat_eq hzero)
      rw [scanFrom_element C fuel fi di rfl hpos hwhole]
      exact ih (by omega) (.next hi helement) (notedBefore_next hraw hi helement Iff.rfl hflags)
        (notedBefore_next hraw hi helement (isDataType_iff C _) hdata)
    · rw [scanFrom_stop C (fuel + 1) fi di helement]
      exact ⟨noted_of_end hi helement hflags, noted_of_end hi helement hdata⟩

/-- SCAN notes the first flags element and the first data element (R401). -/
theorem scan_noted (C : Config) {raw : List Byte} (hraw : raw.length ≤ 31) :
    Noted raw (fun t => t = 0x01) (scan C raw).1 ∧ Noted raw (IsDataType C) (scan C raw).2 :=
  scanFrom_noted C hraw raw.length (by omega) .start (notedBefore_start raw _) (notedBefore_start raw _)

/-- The WireParam of a byte string carries the indices of the walk over it (R402). -/
theorem scanned_fromRaw (C : Config) {raw : List Byte} (hraw : raw.length ≤ 31) : Scanned C (fromRaw C raw) := by
  obtain ⟨hflags, hdata⟩ := scan_noted C hraw
  obtain ⟨hfirstFlags, hnoFlags⟩ := firstMet_of_noted hflags
  obtain ⟨hfirstData, hnoData⟩ := firstMet_of_noted hdata
  exact ⟨hfirstFlags, hnoFlags, hfirstData, hnoData⟩

/-- That WireParam is well-formed (R61, R88). -/
theorem wireOk_fromRaw (C : Config) {raw : List Byte} (hraw : raw.length ≤ 31) : WireOk (fromRaw C raw) := by
  obtain ⟨hflags, hdata⟩ := scan_noted C hraw
  exact ⟨hraw, indexOk_of_noted hflags, indexOk_of_noted hdata⟩

/-- Settles O54: the indices X.FROM_RAW returns are those of SCAN, which follows the walk. -/
theorem fromRawResult : Obligations.FromRawResult := by
  intro r s hwf
  obtain ⟨_, hlen⟩ := payloadOk_bytes (b := r.payload) (payloadOk_of_wellFormed hwf)
  refine ⟨(scan Config.build r.payload).1, (scan Config.build r.payload).2, ?_, scanned_fromRaw Config.build hlen⟩
  rw [exec_eq_execUnder, execUnder_of_ok (ruleOf_xFromRaw s hwf)]
  rfl

end Sys2Proof.Proofs
end

section
/-! What X.CAPTURE does (R404, R405): expiry, deduplication, recording and identification. -/

namespace Sys2Proof.Proofs

open Sys2Proof.Machine Sys2Proof.Laws

/-! ## The dedup list -/

/-- An entry lives while the time is below its expiry, both read as numbers (R404). -/
theorem liveEntries_eq (now : U32) (l : List DedupEntry) :
    liveEntries now l = l.filter fun e => decide (now.toNat < e.expiry.toNat) := rfl

/-- An entry just recorded is listed (R405). -/
theorem mem_recordCapture (C : Config) (l : List DedupEntry) (e : DedupEntry) : e ∈ recordCapture C l e :=
  List.mem_append_right _ List.mem_cons_self

/-- A full list loses its oldest entry (R405). -/
theorem recordCapture_eq (C : Config) (l : List DedupEntry) (e : DedupEntry) :
    recordCapture C l e = (if l.length = C.dedupCap then l.tail else l) ++ [e] := by
  rw [recordCapture, List.drop_one]

/-- The expiry an X.CAPTURE records, `SEL` seconds after its time, on 32 bits (R404, R405). -/
theorem expiry_eq (now : U32) (sel : Byte) :
    now + 1000 * sel.setWidth 32 = BitVec.ofNat 32 (now.toNat + 1000 * sel.toNat) := by
  rw [BitVec.ofNat_add, BitVec.ofNat_mul, BitVec.ofNat_toNat, BitVec.ofNat_toNat, BitVec.setWidth_eq]
  rfl

/-! ## The request -/

section

variable {C : Config} {r : Fields} {s : State} (hwf : (Instr.xCapture r).WellFormed)

include hwf

/-- A live repeat is a DUPLICATE, and is not refreshed (R405). -/
theorem ruleOf_xCapture_repeat (h : ∃ e ∈ liveEntries r.imm s.dedup, e.bytes = r.payload) :
    ruleOf C (.xCapture r) s = .ok { state := { s with dedup := liveEntries r.imm s.dedup }, status := .duplicate } := by
  have hlive : ((liveEntries r.imm s.dedup).any fun e => e.bytes == r.payload) = true := by simpa using h
  simp only [ruleOf, ruleCapture, checkRequest_ok hwf, ok_bind, hlive, if_true]

/-- Any other packet is recorded and identified (R405). -/
theorem ruleOf_xCapture_new (h : ∀ e ∈ liveEntries r.imm s.dedup, e.bytes ≠ r.payload) :
    ruleOf C (.xCapture r) s = .ok (identifyReply C (fromRaw C r.payload) { s with
      dedup := recordCapture C (liveEntries r.imm s.dedup) ⟨r.payload, r.imm + 1000 * r.sel.setWidth 32⟩ }) := by
  have hlive : ((liveEntries r.imm s.dedup).any fun e => e.bytes == r.payload) = false := by simpa using h
  simp only [ruleOf, ruleCapture, checkRequest_ok hwf, ok_bind, hlive, Bool.false_eq_true, if_false]

/-- The bytes of an X.CAPTURE are within the bounds of X.FROM_RAW (R82). -/
theorem xCapture_payload_length : 1 ≤ r.payload.length ∧ r.payload.length ≤ 31 :=
  payloadOk_bytes (b := r.payload) (payloadOk_of_wellFormed hwf)

/-- The same request with any other time is well-formed too, since X.CAPTURE uses all bits of `IMM` (R82). -/
theorem xCapture_wellFormed_at (now : U32) : (Instr.xCapture { r with imm := now }).WellFormed := by
  obtain ⟨⟨hsel, _, hlen⟩, hpayload⟩ := (wellFormed_iff _).mp hwf
  exact (wellFormed_iff _).mpr ⟨⟨hsel, now.isLt, hlen⟩, hpayload⟩

/-- X.FROM_RAW takes what X.CAPTURE takes (R82). -/
theorem xFromRaw_wellFormed_of_xCapture : (Instr.xFromRaw ⟨0, r.len, 0, r.payload⟩).WellFormed := by
  obtain ⟨⟨_, _, hlen⟩, hpayload⟩ := (wellFormed_iff _).mp hwf
  exact (wellFormed_iff _).mpr ⟨⟨fun _ => rfl, Nat.two_pow_pos _, hlen⟩, hpayload⟩

end

/-- The response of an identification. -/
def identifyResponse (C : Config) (w : WireParam) : Response :=
  match identify C w with
  | none => ⟨.unidentified, 0, []⟩
  | some (v, d, m) => ⟨.ok, identifyRes v m, decodedOut d⟩

/-- An identification answers from the state it is given, and its response depends on the packet alone (R310, R405). -/
theorem execUnder_of_identifyReply {C : Config} {i : Instr} {w : WireParam} {s t : State}
    (h : ruleOf C i s = .ok (identifyReply C w t)) :
    execUnder C i s = .next (t.answer (identifyResponse C w)) := by
  rw [execUnder_of_ok h]
  unfold identifyReply identifyResponse
  cases identify C w <;> rfl

/-- G.IDENTIFY of a well-formed WireParam (R310). -/
theorem execUnder_gIdentify {C : Config} {w : WireParam} (hok : WireOk w) (s : State) :
    execUnder C (.gIdentify ⟨0, 36, 0, writeWp w⟩) s = .next (s.answer (identifyResponse C w)) :=
  execUnder_of_identifyReply (ruleOf_gIdentify s (gIdentify_wellFormed hok) (by simpa using readWp_writeWp hok []))

/-- Settles O57: the two outcomes of the rule; the packet identified is the WireParam that X.FROM_RAW returns. -/
theorem captureResult : Obligations.CaptureResult := by
  intro r s hwf
  obtain ⟨_, hlen⟩ := xCapture_payload_length hwf
  refine ⟨fun hrepeat => ?_, fun hnew => ⟨identifyResponse Config.build (fromRaw Config.build r.payload),
    (scan Config.build r.payload).1, (scan Config.build r.payload).2, ?_, ?_, ?_⟩⟩ <;> rw [exec_eq_execUnder]
  · exact execUnder_of_ok (ruleOf_xCapture_repeat hwf hrepeat)
  · rw [execUnder_of_identifyReply (ruleOf_xCapture_new hwf hnew), recordCapture_eq, expiry_eq, liveEntries_eq]
  · exact execUnder_of_ok (ruleOf_xFromRaw s (xFromRaw_wellFormed_of_xCapture hwf))
  · exact execUnder_gIdentify (wireOk_fromRaw Config.build hlen) s

/-- Settles O58: the first capture, which no listed entry repeats, records its bytes; before the expiry that entry is
live. -/
theorem repeatedCaptureIsDuplicate : Obligations.RepeatedCaptureIsDuplicate := by
  intro r s t now hwf hunlisted hexec hwrap hbefore
  have hnew : ∀ e ∈ liveEntries r.imm s.dedup, e.bytes ≠ r.payload :=
    fun e he => hunlisted e (List.mem_of_mem_filter he)
  rw [exec_eq_execUnder, execUnder_of_identifyReply (ruleOf_xCapture_new hwf hnew)] at hexec
  cases hexec
  rw [exec_eq_execUnder]
  refine ⟨_, execUnder_of_ok (ruleOf_xCapture_repeat (xCapture_wellFormed_at hwf now)
    ⟨⟨r.payload, r.imm + 1000 * r.sel.setWidth 32⟩, List.mem_filter.mpr ⟨mem_recordCapture _ _ _, ?_⟩, rfl⟩)⟩
  rw [expiry_eq, decide_eq_true_eq, BitVec.lt_def, BitVec.toNat_ofNat, Nat.mod_eq_of_lt hwrap]
  exact hbefore

end Sys2Proof.Proofs
end

section
/-! What X.INJECT_HEX reads from a text (R403): the spaces around it, the comment, the mark, the digits, the bytes. -/

namespace Sys2Proof.Proofs

open Sys2Proof.Machine Sys2Proof.Laws

/-! ## Spaces around a text -/

/-- A text without the spaces around it. -/
def trimSpaces (t : List Byte) : List Byte := dropTrailingSpaces (t.dropWhile (· == 0x20))

/-- Dropping spaces at the front stops where a text that begins with no space follows. -/
theorem dropSpaces_append {b : List Byte} (hb : ∀ c ∈ b.head?, c ≠ 0x20) (a : List Byte) :
    (a ++ b).dropWhile (· == 0x20) = a.dropWhile (· == 0x20) ++ b := by
  induction a with
  | nil =>
    cases b with
    | nil => rfl
    | cons c l => exact List.dropWhile_cons_of_neg (by simpa using hb c rfl)
  | cons x a ih =>
    by_cases hx : x = 0x20
    · simpa [hx] using ih
    · have hkept : ¬ (x == 0x20) = true := by simpa using hx
      rw [List.cons_append, List.dropWhile_cons_of_neg (p := (· == 0x20)) hkept,
        List.dropWhile_cons_of_neg (p := (· == 0x20)) hkept, List.cons_append]

/-- Dropping spaces at the end stops where a text that ends with no space stands before. -/
theorem dropTrailingSpaces_append {a : List Byte} (ha : ∀ c ∈ a.getLast?, c ≠ 0x20) (b : List Byte) :
    dropTrailingSpaces (a ++ b) = a ++ dropTrailingSpaces b := by
  have hreverse : ∀ c ∈ a.reverse.head?, c ≠ 0x20 := by rwa [List.head?_reverse]
  rw [dropTrailingSpaces, List.reverse_append, dropSpaces_append hreverse, List.reverse_append, List.reverse_reverse]
  rfl

theorem dropSpaces_spaces_append (n : Nat) (t : List Byte) :
    (List.replicate n 0x20 ++ t).dropWhile (· == 0x20) = t.dropWhile (· == (0x20 : Byte)) :=
  List.dropWhile_append_of_pos (by simp)

theorem dropTrailingSpaces_append_spaces (t : List Byte) (n : Nat) :
    dropTrailingSpaces (t ++ List.replicate n 0x20) = dropTrailingSpaces t := by
  rw [dropTrailingSpaces, List.reverse_append, List.reverse_replicate, dropSpaces_spaces_append, dropTrailingSpaces]

/-- Spaces around a text do not matter (R403). -/
theorem trimSpaces_spaces (m n : Nat) (t : List Byte) :
    trimSpaces (List.replicate m 0x20 ++ t ++ List.replicate n 0x20) = trimSpaces t := by
  rw [trimSpaces, List.append_assoc, dropSpaces_spaces_append, List.dropWhile_append]
  split
  · rename_i hempty
    rw [trimSpaces, List.isEmpty_iff.mp hempty, List.dropWhile_replicate]
    simp
  · rw [dropTrailingSpaces_append_spaces, trimSpaces]

/-- What was dropped at the end is spaces. -/
theorem dropTrailingSpaces_spec (t : List Byte) : ∃ k, t = dropTrailingSpaces t ++ List.replicate k 0x20 := by
  refine ⟨(t.rtakeWhile (· == 0x20)).length, ?_⟩
  rw [← List.eq_replicate_of_mem fun c hc => by simpa using List.mem_rtakeWhile_imp hc]
  exact List.rdropWhile_append_rtakeWhile.symm

/-! ## The comment -/

/-- A text without `(` has none to cut at. -/
theorem beforeLastParen_none {t : List Byte} (h : 0x28 ∉ t) : beforeLastParen t = none := by
  have hall : t.reverse.dropWhile (· != 0x28) = [] := by
    rw [List.dropWhile_eq_nil_iff]
    intro c hc
    simpa using fun heq : c = 0x28 => h (heq ▸ List.mem_reverse.mp hc)
  rw [beforeLastParen, hall]

/-- The cut is at the last `(`. -/
theorem beforeLastParen_last (t : List Byte) {c : List Byte} (h : ∀ x ∈ c, x ≠ 0x28) :
    beforeLastParen (t ++ 0x28 :: c) = some t := by
  have hcut : (t ++ 0x28 :: c).reverse.dropWhile (· != 0x28) = 0x28 :: t.reverse := by
    rw [List.reverse_append, List.reverse_cons, List.append_assoc,
      List.dropWhile_append_of_pos fun x hx => by simpa using h x (List.mem_reverse.mp hx)]
    rfl
  rw [beforeLastParen, hcut]
  exact congrArg some t.reverse_reverse

/-- A comment that ends the text is cut, with the spaces before it (R403). -/
theorem dropComment_comment (t : List Byte) {c : List Byte} (h : ∀ x ∈ c, x ≠ 0x28) :
    dropComment (t ++ ([0x28] ++ c ++ [0x29])) = dropTrailingSpaces t := by
  have hbefore : beforeLastParen (t ++ ([0x28] ++ c ++ [0x29])) = some t := by
    refine beforeLastParen_last t (c := c ++ [0x29]) fun x hx => ?_
    rcases List.mem_append.mp hx with hx | hx
    · exact h x hx
    · rw [List.mem_singleton.mp hx]
      decide
  rw [dropComment, if_pos (by rw [← List.append_assoc, List.getLast?_concat]), hbefore]

/-- A text that does not end with `)`, or that holds no `(`, has no comment (R403). -/
theorem dropComment_none {t : List Byte} (h : t.getLast? = some 0x29 → 0x28 ∉ t) : dropComment t = t := by
  unfold dropComment
  split_ifs with hlast
  · rw [beforeLastParen_none (h hlast)]
  · rfl

/-! ## The digits -/

/-- A text without its separators (R403). -/
def withoutSeparators (t : List Byte) : List Byte := t.filter fun b => b != 0x2E && b != 0x20

/-- The steps of `HEXPARSE` in order (R403). -/
theorem hexParse_eq (t : List Byte) : hexParse t =
    hexPairs ((hexPrefix (withoutSeparators (dropHexMark (dropComment (trimSpaces t))))).take 62) := rfl

theorem withoutSeparators_append (a b : List Byte) :
    withoutSeparators (a ++ b) = withoutSeparators a ++ withoutSeparators b := List.filter_append a b

theorem withoutSeparators_reverse (t : List Byte) : withoutSeparators t.reverse = (withoutSeparators t).reverse :=
  List.filter_reverse

theorem withoutSeparators_dropSpaces (t : List Byte) :
    withoutSeparators (t.dropWhile (· == 0x20)) = withoutSeparators t := by
  have hspaces : withoutSeparators (t.takeWhile (· == 0x20)) = [] := by
    rw [withoutSeparators, List.filter_eq_nil_iff]
    intro c hc
    simpa using fun _ => by simpa using List.mem_takeWhile_imp hc
  conv_rhs => rw [← List.takeWhile_append_dropWhile (p := (· == 0x20)) (l := t)]
  rw [withoutSeparators_append, hspaces, List.nil_append]

theorem withoutSeparators_dropTrailingSpaces (t : List Byte) :
    withoutSeparators (dropTrailingSpaces t) = withoutSeparators t := by
  rw [dropTrailingSpaces, withoutSeparators_reverse, withoutSeparators_dropSpaces, withoutSeparators_reverse,
    List.reverse_reverse]

/-- The digits are read as R403 says. -/
theorem hexVal_eq_some_iff (c n : Byte) : hexVal c = some n ↔ HexDigit c n := by
  have hsub : ∀ k : Byte, k.toNat ≤ c.toNat → (some (c - k) = some n ↔ c.toNat = k.toNat + n.toNat) := by
    intro k hk
    have := c.isLt
    have := n.isLt
    rw [Option.some_inj, ← BitVec.toNat_inj, BitVec.toNat_sub]
    omega
  unfold hexVal HexDigit
  split_ifs with h1 h2 h3
  · rw [hsub 0x30 h1.1, show (0x30 : Byte).toNat = 0x30 from rfl]
    omega
  · rw [hsub 0x37 (Nat.le_trans (by decide) h2.1), show (0x37 : Byte).toNat = 0x37 from rfl]
    omega
  · rw [hsub 0x57 (Nat.le_trans (by decide) h3.1), show (0x57 : Byte).toNat = 0x57 from rfl]
    omega
  · rw [false_iff]
    omega

theorem hexDigit_not_separator {c n : Byte} (h : HexDigit c n) : c ≠ 0x2E ∧ c ≠ 0x20 := by
  unfold HexDigit at h
  constructor <;> rintro rfl <;> simp at h

/-- A text that spells digit values holds digits and separators alone. -/
theorem not_mem_of_spells {digits ns : List Byte} (h : Spells digits ns) {c : Byte}
    (hc : (∀ n, ¬ HexDigit c n) ∧ c ≠ 0x2E ∧ c ≠ 0x20) : c ∉ digits := by
  obtain ⟨hvalue, hdot, hspace⟩ := hc
  induction h with
  | done => exact List.not_mem_nil
  | separator hsep _ ih =>
    refine fun hmem => (List.mem_cons.mp hmem).elim ?_ ih
    rintro rfl
    exact hsep.elim hdot hspace
  | digit hdigit _ ih =>
    refine fun hmem => (List.mem_cons.mp hmem).elim ?_ ih
    rintro rfl
    exact hvalue _ hdigit

/-- The digits of a text are the values it spells, up to what stops them (R403). -/
theorem hexPrefix_spells {digits ns rest : List Byte} (h : Spells digits ns)
    (hstop : hexPrefix (withoutSeparators rest) = []) : hexPrefix (withoutSeparators (digits ++ rest)) = ns := by
  induction h with
  | done => exact hstop
  | separator hsep _ ih => rcases hsep with rfl | rfl <;> exact ih
  | @digit c n text ns hdigit _ ih =>
    obtain ⟨hdot, hspace⟩ := hexDigit_not_separator hdigit
    have hkept : withoutSeparators (c :: text ++ rest) = c :: withoutSeparators (text ++ rest) :=
      List.filter_cons_of_pos (by simpa using And.intro hdot hspace)
    rw [hkept, hexPrefix, (hexVal_eq_some_iff c n).mpr hdigit]
    exact congrArg (n :: ·) ih

/-! ## The mark -/

/-- A text that begins with no mark (R403). -/
def Unmarked (t : List Byte) : Prop := ∀ x l, x = 0x78 ∨ x = 0x58 → t ≠ 0x30 :: x :: l

theorem dropHexMark_unmarked {t : List Byte} (h : Unmarked t) : dropHexMark t = t := by
  refine if_neg fun hmark => ?_
  match t, hmark with
  | [], hmark => simp at hmark
  | [a], hmark => simp at hmark
  | a :: x :: l, hmark =>
    rcases hmark with heq | heq <;> cases heq
    · exact h 0x78 l (.inl rfl) rfl
    · exact h 0x58 l (.inr rfl) rfl

/-- Dropping spaces at the end makes no mark. -/
theorem unmarked_dropTrailingSpaces {t : List Byte} (h : Unmarked t) : Unmarked (dropTrailingSpaces t) := by
  intro x l hx heq
  obtain ⟨k, hk⟩ := dropTrailingSpaces_spec t
  rw [heq] at hk
  exact h x _ hx hk

/-- A mark is dropped before the digits are read, and nothing else is (R403). -/
theorem withoutSeparators_dropHexMark {mark t : List Byte}
    (hmark : mark = [] ∨ mark = [0x30, 0x78] ∨ mark = [0x30, 0x58])
    (hnone : mark = [] → Unmarked (t.dropWhile (· == 0x20))) :
    withoutSeparators (dropHexMark (trimSpaces (mark ++ t))) = withoutSeparators t := by
  have hmarked : mark ≠ [] → dropHexMark (trimSpaces (mark ++ t)) = dropTrailingSpaces t := by
    intro hne
    rcases hmark with rfl | rfl | rfl
    · exact absurd rfl hne
    all_goals exact congrArg dropHexMark (dropTrailingSpaces_append (a := [_, _]) (by simp) t)
  by_cases hempty : mark = []
  · rw [hempty, List.nil_append, trimSpaces, dropHexMark_unmarked (unmarked_dropTrailingSpaces (hnone hempty)),
      withoutSeparators_dropTrailingSpaces, withoutSeparators_dropSpaces]
  · rw [hmarked hempty, withoutSeparators_dropTrailingSpaces]

/-! ## The parts of a text -/

/-- What stops the digits of a text: it begins with no digit and no separator (R403). -/
abbrev Stops (rest : List Byte) : Prop := ∀ c l, rest = c :: l → (∀ x, ¬ HexDigit c x) ∧ c ≠ 0x2E ∧ c ≠ 0x20

theorem Stops.head_ne_space {rest : List Byte} (h : Stops rest) : ∀ c ∈ rest.head?, c ≠ 0x20 := by
  intro c hc
  obtain ⟨l, hl⟩ := List.head?_eq_some_iff.mp hc
  exact (h c l hl).2.2

theorem Stops.hexPrefix_eq_nil {rest : List Byte} (h : Stops rest) : hexPrefix (withoutSeparators rest) = [] := by
  cases rest with
  | nil => rfl
  | cons c l =>
    obtain ⟨hdigit, hdot, hspace⟩ := h c l rfl
    have hkept : withoutSeparators (c :: l) = c :: withoutSeparators l :=
      List.filter_cons_of_pos (by simpa using And.intro hdot hspace)
    have hvalue : hexVal c = none :=
      Option.eq_none_iff_forall_ne_some.mpr fun n hn => hdigit n ((hexVal_eq_some_iff c n).mp hn)
    rw [hkept, hexPrefix, hvalue]

/-- Digits and separators make no mark, but a `0` alone would make one with an `x` after it. -/
theorem unmarked_digits {digits ns rest : List Byte} (hdigits : Spells digits ns) (hrest : Stops rest)
    (hzero : ∀ l, digits.dropWhile (· == 0x20) = [0x30] → rest ≠ 0x78 :: l ∧ rest ≠ 0x58 :: l) :
    Unmarked ((digits ++ rest).dropWhile (· == 0x20)) := by
  rw [dropSpaces_append hrest.head_ne_space]
  intro x l hx heq
  match hd : digits.dropWhile (· == 0x20) with
  | [] =>
    rw [hd] at heq
    exact (hrest 0x30 _ heq).1 0 (.inl ⟨by decide, by decide, rfl⟩)
  | [a] =>
    rw [hd] at heq
    obtain ⟨rfl, htail⟩ := List.cons.inj heq
    obtain ⟨hlower, hupper⟩ := hzero l hd
    rcases hx with rfl | rfl
    · exact hlower htail
    · exact hupper htail
  | a :: b :: ds =>
    have hmem : b ∈ digits := (List.dropWhile_sublist _).mem (by rw [hd]; simp)
    rw [hd] at heq
    obtain ⟨_, htail⟩ := List.cons.inj heq
    obtain ⟨rfl, _⟩ := List.cons.inj htail
    exact not_mem_of_spells hdigits (by rcases hx with rfl | rfl <;> simp [HexDigit]) hmem

/-- A text whose end holds no `(` before a `)` has no comment (R403). -/
theorem paren_not_mem_trimSpaces {front rest : List Byte} (hfront : 0x28 ∉ front) (hrest : Stops rest)
    (hopen : ∀ l k, rest = l ++ 0x29 :: List.replicate k 0x20 → 0x28 ∉ l)
    (hlast : (trimSpaces (front ++ rest)).getLast? = some 0x29) : 0x28 ∉ trimSpaces (front ++ rest) := by
  obtain ⟨T, hT⟩ := List.getLast?_eq_some_iff.mp hlast
  obtain ⟨k, hk⟩ := dropTrailingSpaces_spec ((front ++ rest).dropWhile (· == 0x20))
  have hparts : front.dropWhile (· == 0x20) ++ rest = T ++ 0x29 :: List.replicate k 0x20 := by
    rw [← dropSpaces_append hrest.head_ne_space, hk, ← trimSpaces, hT, List.append_assoc]
    rfl
  have hdropped : 0x28 ∉ front.dropWhile (· == 0x20) := fun hmem => hfront ((List.dropWhile_sublist _).mem hmem)
  have hbefore : 0x28 ∉ T := by
    rcases List.append_eq_append_iff.mp hparts with ⟨l, rfl, hl⟩ | ⟨l, hl, _⟩
    · exact fun hmem => (List.mem_append.mp hmem).elim hdropped (hopen l k hl)
    · exact fun hmem => hdropped (by rw [hl]; exact List.mem_append_left l hmem)
  rw [hT]
  exact fun hmem => (List.mem_append.mp hmem).elim hbefore (by simp)

/-- The comment and the spaces around the text fall away (R403). -/
theorem dropComment_trimSpaces {front rest comment : List Byte} (hfront : 0x28 ∉ front) (hrest : Stops rest)
    (hcomment : comment = [] ∨ ∃ c, (∀ x ∈ c, x ≠ 0x28) ∧ comment = [0x28] ++ c ++ [0x29])
    (hopen : comment = [] → ∀ l k, rest = l ++ 0x29 :: List.replicate k 0x20 → 0x28 ∉ l) (m n : Nat) :
    dropComment (trimSpaces (List.replicate m 0x20 ++ (front ++ rest ++ comment) ++ List.replicate n 0x20)) =
      trimSpaces (front ++ rest) := by
  rw [trimSpaces_spaces]
  rcases hcomment with rfl | ⟨c, hc, rfl⟩
  · rw [List.append_nil]
    exact dropComment_none (paren_not_mem_trimSpaces hfront hrest (hopen rfl))
  · have hends : trimSpaces (front ++ rest ++ ([0x28] ++ c ++ [0x29])) =
        (front ++ rest).dropWhile (· == 0x20) ++ ([0x28] ++ c ++ [0x29]) := by
      have hlast := dropTrailingSpaces_append
        (a := (front ++ rest).dropWhile (· == 0x20) ++ ([0x28] ++ c ++ [0x29]))
        (by rw [← List.append_assoc, List.getLast?_concat]; simp) []
      rw [List.append_nil] at hlast
      rw [trimSpaces, dropSpaces_append (by simp), hlast]
      exact List.append_nil _
    rw [hends, dropComment_comment _ hc, trimSpaces]

/-- The bytes of a text are those of the first 62 digits it spells (R403). -/
theorem hexParse_text {mark digits ns rest comment : List Byte}
    (hmark : mark = [] ∨ mark = [0x30, 0x78] ∨ mark = [0x30, 0x58]) (hdigits : Spells digits ns) (hrest : Stops rest)
    (hzero : mark = [] → ∀ l, digits.dropWhile (· == 0x20) = [0x30] → rest ≠ 0x78 :: l ∧ rest ≠ 0x58 :: l)
    (hcomment : comment = [] ∨ ∃ c, (∀ x ∈ c, x ≠ 0x28) ∧ comment = [0x28] ++ c ++ [0x29])
    (hopen : comment = [] → ∀ l k, rest = l ++ 0x29 :: List.replicate k 0x20 → 0x28 ∉ l) (m n : Nat) :
    hexParse (List.replicate m 0x20 ++ mark ++ digits ++ rest ++ comment ++ List.replicate n 0x20) =
      hexPairs (ns.take 62) := by
  have hfront : 0x28 ∉ mark ++ digits := by
    refine fun hmem => (List.mem_append.mp hmem).elim ?_ (not_mem_of_spells hdigits (by simp [HexDigit]))
    rcases hmark with rfl | rfl | rfl <;> simp
  have hread : withoutSeparators (dropHexMark (trimSpaces (mark ++ digits ++ rest))) =
      withoutSeparators (digits ++ rest) := by
    rw [List.append_assoc]
    exact withoutSeparators_dropHexMark hmark fun hempty => unmarked_digits hdigits hrest (hzero hempty)
  have htext : List.replicate m 0x20 ++ mark ++ digits ++ rest ++ comment ++ List.replicate n 0x20 =
      List.replicate m 0x20 ++ (mark ++ digits ++ rest ++ comment) ++ List.replicate n 0x20 := by
    simp only [List.append_assoc]
  rw [htext, hexParse_eq, dropComment_trimSpaces hfront hrest hcomment hopen, hread,
    hexPrefix_spells hdigits hrest.hexPrefix_eq_nil]

/-! ## The bytes -/

/-- Two digits make a byte, and an odd last one makes one too (R403). -/
theorem hexPairs_length : ∀ ns : List Byte, (hexPairs ns).length = (ns.length + 1) / 2
  | [] => rfl
  | [_] => by simp [hexPairs]
  | _ :: _ :: ns => by
    have h := hexPairs_length ns
    simp only [hexPairs, List.length_cons]
    omega

/-- Byte `i` is made of digits `2 i` and `2 i + 1`; past the last digit stands 0 (R403). -/
theorem hexPairs_byteAt : ∀ (ns : List Byte) (i : Nat),
    byteAt (hexPairs ns) i = (byteAt ns (2 * i) <<< 4) ||| byteAt ns (2 * i + 1)
  | [], i => by simp [hexPairs, byteAt]
  | [_], 0 => by simp [hexPairs, byteAt]
  | [_], i + 1 => by simp [hexPairs, byteAt, Nat.mul_add]
  | _ :: _ :: _, 0 => rfl
  | _ :: _ :: ns, i + 1 => hexPairs_byteAt ns i

/-- A text has at most 31 bytes (R403). -/
theorem hexParse_length_le (t : List Byte) : (hexParse t).length ≤ 31 := by
  rw [hexParse_eq, hexPairs_length]
  have := List.length_take_le 62 (hexPrefix (withoutSeparators (dropHexMark (dropComment (trimSpaces t)))))
  omega

/-- The digits of a byte string, two a byte. -/
def nibbles (b : List Byte) : List Byte := b.flatMap fun x : Byte => [x >>> 4, x &&& 0x0F]

theorem hexDigit_spec {n : Byte} (h : n.toNat < 16) : HexDigit (hexDigit n) n := by
  have hadd : ∀ k : Byte, k.toNat < 0x80 → (k + n).toNat = k.toNat + n.toNat := fun k hk => by
    rw [BitVec.toNat_add]
    omega
  unfold hexDigit HexDigit
  split_ifs with hten
  · rw [hadd 0x30 (by decide), show (0x30 : Byte).toNat = 0x30 from rfl]
    omega
  · rw [hadd 0x37 (by decide), show (0x37 : Byte).toNat = 0x37 from rfl]
    omega

/-- Hex text spells the digits of its bytes. -/
theorem spells_hexText (b : List Byte) : Spells (hexText b) (nibbles b) := by
  induction b with
  | nil => exact .done
  | cons x b ih =>
    have hhigh : (x >>> 4).toNat < 16 := by
      have := x.isLt
      rw [BitVec.toNat_ushiftRight, Nat.shiftRight_eq_div_pow]
      omega
    have hlow : (x &&& 0x0F).toNat < 16 := by
      rw [BitVec.toNat_and]
      exact Nat.lt_succ_of_le Nat.and_le_right
    exact .digit (hexDigit_spec hhigh) (.digit (hexDigit_spec hlow) ih)

/-- The two digits of a byte make that byte. -/
theorem nibbles_join : ∀ x : Byte, (x >>> 4) <<< 4 ||| (x &&& 0x0F) = x := by decide

theorem hexPairs_nibbles (b : List Byte) : hexPairs (nibbles b) = b := by
  induction b with
  | nil => rfl
  | cons x b ih => exact congrArg₂ List.cons (nibbles_join x) ih

theorem nibbles_length (b : List Byte) : (nibbles b).length = 2 * b.length := by
  simp [nibbles, List.length_flatMap, Nat.mul_comm]

theorem spells_append_separator {digits ns : List Byte} (h : Spells digits ns) : Spells (digits ++ [0x20]) ns := by
  induction h with
  | done => exact .separator (.inr rfl) .done
  | separator hsep _ ih => exact .separator hsep ih
  | digit hdigit _ ih => exact .digit hdigit ih

/-- Hex text reads as the bytes it was written from, with a mark or without, and with a comment or without (R403). -/
theorem hexParse_hexText {b start comment : List Byte} (hb : b.length ≤ 31)
    (hstart : start = [] ∨ start = [0x30, 0x78] ∨ start = [0x30, 0x58])
    (hcomment : comment = [] ∨ ∃ c, (∀ x ∈ c, x ≠ 0x28) ∧ comment = [0x20, 0x28] ++ c ++ [0x29]) :
    hexParse (start ++ hexText b ++ comment) = b := by
  have hbytes : hexPairs ((nibbles b).take 62) = b := by
    rw [List.take_of_length_le (by rw [nibbles_length]; omega), hexPairs_nibbles]
  have hstops : Stops [] := fun _ _ h => nomatch h
  rcases hcomment with rfl | ⟨c, hc, rfl⟩
  · simpa [hbytes] using hexParse_text (comment := []) hstart (spells_hexText b) hstops (fun _ l _ => by simp)
      (.inl rfl) (fun _ l k h => by simp at h) 0 0
  · simpa [hbytes] using hexParse_text hstart (spells_append_separator (spells_hexText b)) hstops (fun _ l _ => by simp)
      (.inr ⟨c, hc, rfl⟩) (fun _ l k h => by simp at h) 0 0

/-! ## The request -/

/-- X.INJECT_HEX (R403). -/
theorem ruleOf_xInjectHex {C : Config} {r : Fields} (s : State) (hwf : (Instr.xInjectHex r).WellFormed) :
    ruleOf C (.xInjectHex r) s = .ok { state := s, out := writeWp (fromRaw C (hexParse r.payload)) } := by
  simp only [ruleOf, ruleInjectHex, checkRequest_ok hwf, ok_bind]

/-- Every text that the request can carry is well-formed (R82, R403). -/
theorem xInjectHex_wellFormed {text : List Byte} (h : text.length < 65536) :
    (Instr.xInjectHex ⟨0, BitVec.ofNat 16 text.length, 0, text⟩).WellFormed := by
  have hlen : (BitVec.ofNat 16 text.length).toNat = text.length := by
    rw [BitVec.toNat_ofNat, Nat.mod_eq_of_lt h]
  simp [wellFormed_iff, shapeOf, fieldsOf, payloadOk, hlen, Nat.le_of_lt_succ h]

/-- Settles O56: the answer is the WireParam of the bytes that `hexParse` reads, which are those of the digits the text
spells. -/
theorem injectHexResult : Obligations.InjectHexResult := by
  refine ⟨fun r s hwf => ?_, fun m n mark digits ns rest comment text s hmark hdigits hrest hzero hcomment hopen htext
    hlen => ?_, fun b start comment text s hb hstart hcomment htext hlen => ?_⟩ <;> simp only [exec_eq_execUnder]
  · have hle := hexParse_length_le r.payload
    exact ⟨_, wireOk_fromRaw _ hle, rfl, scanned_fromRaw _ hle, execUnder_of_ok (ruleOf_xInjectHex s hwf)⟩
  · have hbytes : hexParse text = hexPairs (ns.take 62) := by
      rw [htext]
      exact hexParse_text hmark hdigits hrest hzero hcomment hopen m n
    have hcount : (hexPairs (ns.take 62)).length = (min ns.length 62 + 1) / 2 := by
      rw [hexPairs_length, List.length_take, Nat.min_comm]
    have hle := hexParse_length_le text
    refine ⟨fromRaw Config.build (hexParse text), scanned_fromRaw _ hle, rfl, ?_, fun i hi => ?_,
      execUnder_of_ok (ruleOf_xInjectHex s (xInjectHex_wellFormed hlen))⟩
    · exact (congrArg List.length hbytes).trans hcount
    · have hshort : i < 31 := Nat.lt_of_lt_of_le hi hle
      have hbyte : byteAt (hexParse text) i = (byteAt ns (2 * i) <<< 4) ||| byteAt ns (2 * i + 1) := by
        rw [hbytes, hexPairs_byteAt, byteAt_take _ (by omega), byteAt_take _ (by omega)]
      exact hbyte
  · refine ⟨fromRaw Config.build (hexParse text), ?_,
      execUnder_of_ok (ruleOf_xInjectHex s (xInjectHex_wellFormed hlen))⟩
    rw [htext]
    exact hexParse_hexText hb hstart hcomment

end Sys2Proof.Proofs
end
